-- ==== Sys2Proof/Word.lean ====
section
/-! DEFINITION. Word.lean: the widths of the core (spec/00_scope.md R8, R12): 32-bit words, 16-bit register fields,
bytes, and a polynomial as the list of its integer coefficients (R14). -/

namespace Sys2Proof

/-- A 32-bit word: a bus word, a command word or a coefficient word (W = 32, R8). -/
abbrev Word := BitVec 32

/-- A 16-bit register field (R30, R32 to R37). -/
abbrev Half := BitVec 16

/-- A byte of BBUF (R24). -/
abbrev Byte := BitVec 8

/-- A polynomial as its integer coefficients, index = degree (R14). -/
abbrev Poly := List Int

/-- `val(w)` of R12: the signed value of a coefficient word. -/
abbrev val (w : Word) : Int := w.toInt

/-- `uval(w)` of R12: the unsigned value of a word. -/
abbrev uval (w : Word) : Nat := w.toNat

end Sys2Proof
end

