-- ==== Sys2Proof/Syntax.lean ====
section
/-! DEFINITION. Syntax.lean: the nineteen commands of spec/30_encoding.md R84 (every row of spec/opcode_table.json). -/

namespace Sys2Proof

/-- The number of a polynomial register P0..P7 (R21, R82). -/
abbrev PReg := Fin 8

/-- MSEL of R82: which register gives the modulus or scalar. MSEL = 3 is reserved and has no constructor. -/
inductive ModSel where
  | p   -- MSEL = 0, CFG_P
  | q   -- MSEL = 1, CFG_Q
  | m   -- MSEL = 2, MODARG
deriving DecidableEq, Repr

/-- U of R82, for PRED: the representative. -/
inductive RepSel where
  | centred    -- U = 0, (−m/2, m/2]
  | unsigned   -- U = 1, [0, m)
deriving DecidableEq, Repr

/-- SEL = IMM[1:0] of R82 and R151, for PSMP: the weights. -/
inductive WeightSel where
  | f   -- SEL = 0, (df, df − 1)
  | g   -- SEL = 1, (dg, dg)
  | r   -- SEL = 2, (dr, dr)
  | x   -- SEL = 3, (SAMP_NP, SAMP_NM)
deriving DecidableEq, Repr

/-- The commands. Operands stand in the order of the assembler syntax of R87. A block index is a count, so a Nat; that
it fits the 14-bit IMM is WellFormed's check. -/
inductive Instr where
  | nop
  | cfgchk
  | pclr (rd : PReg)
  | pmov (rd rs1 : PReg)
  | pmul (rd rs1 rs2 : PReg)
  | padd (rd rs1 rs2 : PReg)
  | pscl (rd rs1 : PReg) (sel : ModSel)
  | pred (rd rs1 : PReg) (sel : ModSel) (rep : RepSel)
  | pinv (rd rs1 : PReg) (sel : ModSel)
  | psmp (rd : PReg) (w : WeightSel)
  | pwck (rs1 : PReg)
  | nenc (rd rs1 rs2 : PReg)
  | nencx (rd rs1 rs2 : PReg)
  | ndec (rd rs1 rs2 : PReg)
  | benc (rd : PReg) (k : Nat)
  | bdec (rs1 : PReg) (k : Nat)
  | bfin
  | senc (rs1 : PReg)
  | sdec (rs1 rs2 : PReg)
deriving DecidableEq, Repr

end Sys2Proof
end

