-- ==== Sys2Proof/WellFormed.lean ====
section
/-! DEFINITION. WellFormed.lean: which command terms have an encoding. Register numbers, MSEL, U and SEL are in range by
their types (spec/30_encoding.md R81, R82); a block index must fit the 14-bit IMM (R82, R87: k ∈ [0, 16383]). -/

namespace Sys2Proof

/-- The block indices IMM can hold (R82: "an unsigned integer in [0, 16383]"). -/
abbrev immBound : Nat := 16384

/-- A command term that some command word encodes. -/
def Instr.wellFormed : Instr → Bool
  | .nop => true
  | .cfgchk => true
  | .pclr _ => true
  | .pmov _ _ => true
  | .pmul _ _ _ => true
  | .padd _ _ _ => true
  | .pscl _ _ _ => true
  | .pred _ _ _ _ => true
  | .pinv _ _ _ => true
  | .psmp _ _ => true
  | .pwck _ => true
  | .nenc _ _ _ => true
  | .nencx _ _ _ => true
  | .ndec _ _ _ => true
  | .benc _ k => k < immBound
  | .bdec _ k => k < immBound
  | .bfin => true
  | .senc _ => true
  | .sdec _ _ => true

/-- `WellFormed i`: the term `i` has an encoding. -/
abbrev WellFormed (i : Instr) : Prop := i.wellFormed = true

end Sys2Proof
end

