-- ==== Sys2Proof/Decode.lean ====
section
/-! DEFINITION. Decode.lean: command words (spec/30_encoding.md R80 to R86). `Fields` is the one format CMD32 of R81;
`decode` is total on 32-bit words and names why it rejects a word; `encode` is R86. -/

namespace Sys2Proof

/-- Why a word is illegal (R83, R85): each of them completes with E_ILLEGAL (60_exceptions.md R221). -/
inductive Illegal where
  | reservedOpcode   -- OPC 0x13..0x3F
  | unusedField      -- a field the command does not use is not 0
  | reservedMsel     -- MSEL = 3 in PSCL, PRED or PINV
deriving DecidableEq, Repr

/-- The fields of a command word, R81. -/
structure Fields where
  opc  : BitVec 6
  rd   : BitVec 3
  rs1  : BitVec 3
  rs2  : BitVec 3
  msel : BitVec 2
  u    : BitVec 1
  imm  : BitVec 14
deriving DecidableEq, Repr

/-- The bit places of R81: OPC 31:26, RD 25:23, RS1 22:20, RS2 19:17, MSEL 16:15, U 14, IMM 13:0. -/
def fieldsOf (w : Word) : Fields where
  opc  := w.extractLsb' 26 6
  rd   := w.extractLsb' 23 3
  rs1  := w.extractLsb' 20 3
  rs2  := w.extractLsb' 17 3
  msel := w.extractLsb' 15 2
  u    := w.extractLsb' 14 1
  imm  := w.extractLsb' 0 14

/-- R86: the word with these fields, OPC in the highest bits. -/
def wordOf (f : Fields) : Word :=
  f.opc ++ f.rd ++ f.rs1 ++ f.rs2 ++ f.msel ++ f.u ++ f.imm

/-- MSEL of R82. -/
def mselOf (b : BitVec 2) : Option ModSel :=
  if b = 0 then some .p else if b = 1 then some .q else if b = 2 then some .m else none

/-- U of R82. -/
def repOf (b : BitVec 1) : RepSel :=
  if b = 0 then .centred else .unsigned

/-- SEL = IMM[1:0] of R82 and R151. -/
def weightOf (b : BitVec 2) : WeightSel :=
  if b = 0 then .f else if b = 1 then .g else if b = 2 then .r else .x

/-- A register field names the register of its number (R82). -/
def regOf (b : BitVec 3) : PReg := b.toFin

/-- Accepts an operand choice when every unused field is 0 (R83). -/
def whenUnused (unusedZero : Bool) (r : Except Illegal Instr) : Except Illegal Instr :=
  if unusedZero then r else .error .unusedField

/-- Accepts an operand choice when MSEL is not reserved (R82, R83). -/
def withMsel (b : BitVec 2) (k : ModSel → Instr) : Except Illegal Instr :=
  match mselOf b with
  | some sel => .ok (k sel)
  | none => .error .reservedMsel

/-- The opcode map of R84: the command of each opcode, its operand fields, and the fields that must be 0. -/
def decodeFields (f : Fields) : Except Illegal Instr :=
  let rd := regOf f.rd
  let rs1 := regOf f.rs1
  let rs2 := regOf f.rs2
  let k := f.imm.toNat
  let noRd := f.rd == 0
  let noRs1 := f.rs1 == 0
  let noRs2 := f.rs2 == 0
  let noMsel := f.msel == 0
  let noU := f.u == 0
  let noImm := f.imm == 0
  let rrr := noMsel && noU && noImm
  match f.opc.toNat with
  | 0x00 => whenUnused (noRd && noRs1 && noRs2 && noMsel && noU && noImm) (.ok .nop)
  | 0x01 => whenUnused (noRd && noRs1 && noRs2 && noMsel && noU && noImm) (.ok .cfgchk)
  | 0x02 => whenUnused (noRs1 && noRs2 && noMsel && noU && noImm) (.ok (.pclr rd))
  | 0x03 => whenUnused (noRs2 && noMsel && noU && noImm) (.ok (.pmov rd rs1))
  | 0x04 => whenUnused rrr (.ok (.pmul rd rs1 rs2))
  | 0x05 => whenUnused rrr (.ok (.padd rd rs1 rs2))
  | 0x06 => whenUnused (noRs2 && noU && noImm) (withMsel f.msel (.pscl rd rs1))
  | 0x07 => whenUnused (noRs2 && noImm) (withMsel f.msel (fun sel => .pred rd rs1 sel (repOf f.u)))
  | 0x08 => whenUnused (noRs2 && noU && noImm) (withMsel f.msel (.pinv rd rs1))
  | 0x09 => whenUnused (noRs1 && noRs2 && noMsel && noU && f.imm.extractLsb' 2 12 == 0)
              (.ok (.psmp rd (weightOf (f.imm.extractLsb' 0 2))))
  | 0x0A => whenUnused (noRd && noRs2 && noMsel && noU && noImm) (.ok (.pwck rs1))
  | 0x0B => whenUnused rrr (.ok (.nenc rd rs1 rs2))
  | 0x0C => whenUnused rrr (.ok (.nencx rd rs1 rs2))
  | 0x0D => whenUnused rrr (.ok (.ndec rd rs1 rs2))
  | 0x0E => whenUnused (noRs1 && noRs2 && noMsel && noU) (.ok (.benc rd k))
  | 0x0F => whenUnused (noRd && noRs2 && noMsel && noU) (.ok (.bdec rs1 k))
  | 0x10 => whenUnused (noRd && noRs1 && noRs2 && noMsel && noU && noImm) (.ok .bfin)
  | 0x11 => whenUnused (noRd && noRs2 && noMsel && noU && noImm) (.ok (.senc rs1))
  | 0x12 => whenUnused (noRd && noMsel && noU && noImm) (.ok (.sdec rs1 rs2))
  | _ => .error .reservedOpcode

/-- The decoder of R84: the command a word stands for, or why the word is illegal. -/
def decode (w : Word) : Except Illegal Instr :=
  decodeFields (fieldsOf w)

/-- The decoder on an instruction whose bits are `w`, numbered as spec/opcode_table.json numbers them. Every command is
one 32-bit word (R80), so bits from `nbits` up are 0 and the word is written to CMD as it is. -/
def decodeTableWord (nbits w : Nat) : Option Instr :=
  (decode (BitVec.ofNat 32 (w % 2 ^ nbits))).toOption

/-! ### The encoder -/

/-- MSEL's code (R82). -/
def mselCode : ModSel → BitVec 2
  | .p => 0
  | .q => 1
  | .m => 2

/-- U's code (R82). -/
def repCode : RepSel → BitVec 1
  | .centred => 0
  | .unsigned => 1

/-- SEL's code (R151). -/
def weightCode : WeightSel → BitVec 14
  | .f => 0
  | .g => 1
  | .r => 2
  | .x => 3

/-- A register's field (R82). -/
def regCode (k : PReg) : BitVec 3 := BitVec.ofFin k

/-- A word's fields with only the opcode set: every unused field is 0 (R83). -/
def opcodeOnly (opc : BitVec 6) : Fields :=
  { opc := opc, rd := 0, rs1 := 0, rs2 := 0, msel := 0, u := 0, imm := 0 }

/-- The fields of a command (R84, R86). -/
def encodeFields : Instr → Fields
  | .nop => opcodeOnly 0x00
  | .cfgchk => opcodeOnly 0x01
  | .pclr rd => { opcodeOnly 0x02 with rd := regCode rd }
  | .pmov rd rs1 => { opcodeOnly 0x03 with rd := regCode rd, rs1 := regCode rs1 }
  | .pmul rd rs1 rs2 => { opcodeOnly 0x04 with rd := regCode rd, rs1 := regCode rs1, rs2 := regCode rs2 }
  | .padd rd rs1 rs2 => { opcodeOnly 0x05 with rd := regCode rd, rs1 := regCode rs1, rs2 := regCode rs2 }
  | .pscl rd rs1 sel => { opcodeOnly 0x06 with rd := regCode rd, rs1 := regCode rs1, msel := mselCode sel }
  | .pred rd rs1 sel rep =>
    { opcodeOnly 0x07 with rd := regCode rd, rs1 := regCode rs1, msel := mselCode sel, u := repCode rep }
  | .pinv rd rs1 sel => { opcodeOnly 0x08 with rd := regCode rd, rs1 := regCode rs1, msel := mselCode sel }
  | .psmp rd w => { opcodeOnly 0x09 with rd := regCode rd, imm := weightCode w }
  | .pwck rs1 => { opcodeOnly 0x0A with rs1 := regCode rs1 }
  | .nenc rd rs1 rs2 => { opcodeOnly 0x0B with rd := regCode rd, rs1 := regCode rs1, rs2 := regCode rs2 }
  | .nencx rd rs1 rs2 => { opcodeOnly 0x0C with rd := regCode rd, rs1 := regCode rs1, rs2 := regCode rs2 }
  | .ndec rd rs1 rs2 => { opcodeOnly 0x0D with rd := regCode rd, rs1 := regCode rs1, rs2 := regCode rs2 }
  | .benc rd k => { opcodeOnly 0x0E with rd := regCode rd, imm := BitVec.ofNat 14 k }
  | .bdec rs1 k => { opcodeOnly 0x0F with rs1 := regCode rs1, imm := BitVec.ofNat 14 k }
  | .bfin => opcodeOnly 0x10
  | .senc rs1 => { opcodeOnly 0x11 with rs1 := regCode rs1 }
  | .sdec rs1 rs2 => { opcodeOnly 0x12 with rs1 := regCode rs1, rs2 := regCode rs2 }

/-- R86: the one word of a well-formed command. -/
def encode (i : Instr) : Word := wordOf (encodeFields i)

end Sys2Proof
end

