-- ==== Sys2Proof/Config.lean ====
section
/-! DEFINITION. Config.lean: the implementation parameters of spec/00_scope.md R8 (those a build chooses, as a structure, and
those that are fixed), the identity constants of R3, and the values the spec leaves free (R8 BASE, R46). -/

namespace Sys2Proof.Config

/-- The implementation parameters that a build of the core chooses (R8). -/
structure Build where
  nmax  : Nat   -- NMAX: coefficient slots per polynomial register
  bmax  : Nat   -- BMAX: bytes in BBUF
  cmax  : Nat   -- CMAX: coefficient words in CBUF
  rfifo : Nat   -- RFIFO: depth in words of the host random-word FIFO
deriving DecidableEq, Repr

/-- The constraints of R8. CMAX and RFIFO are also numbers of 32 bits, since the CAP registers give them (R40; DEDUCED, log
entry 12). -/
abbrev Build.Valid (b : Build) : Prop :=
  2 ≤ b.nmax ∧ b.nmax ≤ 1024 ∧ 1 ≤ b.bmax ∧ b.bmax ≤ 4096 ∧ 8 * b.bmax + b.nmax - 1 ≤ b.cmax ∧ b.cmax < 2 ^ 32 ∧
    1 ≤ b.rfifo ∧ b.rfifo < 2 ^ 32

/-- The build of the column "this hardware" (R8). -/
def thisHardware : Build := ⟨1024, 4096, 33792, 64⟩

/-- `NPREG` (R8): polynomial registers, fixed. (`W`, fixed too, is the width of Word.) -/
abbrev NPREG : Nat := 8

/-- The bytes of the bus window (R50, R54). -/
abbrev windowBytes : Nat := 0x40000

/-- The constant of register ID (R3, R26): the ASCII bytes "NTRU". -/
abbrev idWord : Word := 0x4E545255

/-- The constant of register VERSION (R3, R26). -/
abbrev versionWord : Word := 0x00010000

/-- FREE VALUE. The platform places the core: BASE is OPEN (R8), a multiple of 0x40000. This is the multiple (log entry 11). -/
opaque baseIndex : Nat

/-- `BASE` (R8), aligned to 0x40000. -/
def base : Nat := windowBytes * baseIndex

/-- FREE VALUE. The word that draw number `c` gives: the contents of an unspecified P slot or CBUF word (R46), and
what a host read of engine-owned state returns while BUSY = 1 (R60). Draws are numbered by State.draws (log entry 2). -/
opaque freeWord : Nat → Word

/-- FREE VALUE. The byte that draw number `c` gives: the contents of an unspecified BBUF byte (R46; log entry 2). -/
opaque freeByte : Nat → Byte

/-- How many draw numbers one read of a register or buffer sets aside, more than any read looks at, so that no
two reads share a draw (R46: each read of an unspecified slot is a draw of its own). -/
abbrev drawBlock : Nat := 65536

end Sys2Proof.Config
end

