-- ==== Sys2Proof/Machine/State.lean ====
section
/-! DEFINITION. Machine/State.lean: the architectural state of the core (spec/10_state.md R20 to R48), its in-flight state
(R44), and what stands outside it: the host's and the platform's events still to come, the words offered on the entropy
port, and the response of the bus. All plain data. -/

namespace Sys2Proof.Machine

/-- Contents of a register or buffer: the entries that hold a value, by index, indices strictly rising. An index that is
not listed is UNSPECIFIED, a state the spec itself gives a slot (R46: it has no value until the host or a command writes
it, and PMOV copies it as unspecified, R117). For bytes this is a list of Host.Cell. -/
abbrev Buf (α : Type) := List (Nat × α)

/-- CTRL.RSRC (R27): where random words come from. -/
inductive RandSource where
  | port   -- RSRC = 0, the entropy port (R45)
  | fifo   -- RSRC = 1, the host FIFO (R39)
deriving DecidableEq, Repr

/-- CTRL (R27). SRST reads 0 and is not held. -/
structure Ctrl where
  irqen : Bool
  rsrc  : RandSource
deriving DecidableEq, Repr

/-- STATUS.ERR (R28, R221). Codes 6..15 are never written, so they have no constructor. -/
inductive ErrCode where
  | success   -- 0
  | illegal   -- 1, E_ILLEGAL
  | cfg       -- 2, E_CFG
  | len       -- 3, E_LEN
  | fmt       -- 4, E_FMT
  | arg       -- 5, E_ARG
deriving DecidableEq, Repr

/-- STATUS (R28). Its reserved bits read 0 and are not held. -/
structure Status where
  busy    : Bool
  done    : Bool
  cfgok   : Bool
  noinv   : Bool
  tern    : Bool
  ovf     : Bool
  cmdovr  : Bool
  busywr  : Bool
  rngovr  : Bool
  rngwait : Bool
  err     : ErrCode
deriving DecidableEq, Repr

/-- The sampler of a running PSMP, NENC or SENC (R155, R44 (c), (d)): the index permutation of the sample being drawn, how
many of its draws are made, the samples already drawn, and how many are still to draw (the present one included; 0 when all
are drawn and the completion is still to come, R229). -/
structure Sampling where
  n    : Nat
  np   : Nat
  nm   : Nat
  todo : Nat
  t    : Nat
  idx  : List Nat
  done : List Poly
deriving DecidableEq, Repr

/-- The engine (R44). The command word it runs is in CMD, which keeps it (R223). `issued` and `sampling` carry (b), the
RSRC sampled at issue. -/
inductive Engine where
  | idle
  | issued (rsrc : RandSource)
  | sampling (rsrc : RandSource) (job : Sampling)
deriving DecidableEq, Repr

/-- The width of a host access (R51). -/
inductive Width where
  | byte
  | half
  | word
deriving DecidableEq, Repr

/-- What can happen next (R18, R229). Every order of these events is some agenda. The engine's taking of a random word and
its completion of a sampling command are events of their own: a turn's `limit` says how many of them it has at most (none:
as many as can happen), so that any other event may fall before, between or behind them (log entry 5). -/
inductive Event where
  | read (w : Width) (off : Nat)             -- the host reads offset off (R50, R51)
  | write (w : Width) (off : Nat) (v : Word)  -- the host writes v to offset off (R50, R51)
  | offer (w : Word)                          -- the platform puts a word on the entropy port (R45)
  | engine (limit : Option Nat)               -- the engine has a turn, with at most `limit` events of its sampler
  | reset                                     -- the reset input (R260)
deriving DecidableEq, Repr

/-- The port's response to the latest host access (R51): the data of a read (0 for a write), and the bus error. -/
structure BusResponse where
  data  : Word
  error : Bool
deriving DecidableEq, Repr

/-- The state. The fields from `entropy` on are not registers of the core: the first two are what the platform and the
host have yet to give it (R18, R45), the third is what the host sees (R19), the next two are the model's own (DESIGN CHOICE,
log entries 1, 4, 5, 8, 18), the last is the configuration argument of R8, which no step changes (log entry 12). -/
structure State where
  ctrl      : Ctrl                     -- CTRL (R27)
  status    : Status                   -- STATUS (R28)
  cmd       : Word                     -- CMD, the last issued word (R29), and R44 (a)
  errinfo   : Word                     -- ERRINFO (R38)
  errcmd    : Word                     -- ERRCMD (R38)
  fifo      : List Word                -- the host random-word FIFO, oldest first (R39)
  cfgN      : Half                     -- CFG_N (R30)
  cfgP      : Half                     -- CFG_P (R30)
  cfgQ      : Half                     -- CFG_Q (R30)
  cfgDf     : Half                     -- CFG_DF (R30)
  cfgDg     : Half                     -- CFG_DG (R30)
  cfgDr     : Half                     -- CFG_DR (R30)
  modarg    : Word                     -- MODARG (R31)
  sampNp    : Half                     -- SAMP_NP (R32)
  sampNm    : Half                     -- SAMP_NM (R32)
  wplus     : Half                     -- WPLUS (R33)
  wminus    : Half                     -- WMINUS (R33)
  wother    : Half                     -- WOTHER (R33)
  mlen      : Half                     -- MLEN (R34)
  clen      : Half                     -- CLEN (R35)
  nblk      : Half                     -- NBLK (R36)
  plen      : Vector Half 8            -- PLEN0..PLEN7 (R22, R37)
  p         : Vector (Buf Word) 8      -- P0..P7 (R21)
  bbuf      : List Host.Cell           -- BBUF (R24)
  cbuf      : Buf Word                 -- CBUF (R25)
  engine    : Engine                   -- in-flight state (R44)
  entropy   : List Word                -- the words offered on the entropy port, next first (R45)
  agenda    : List Event               -- what happens next, next first (R18, R229)
  bus       : BusResponse              -- the response to the latest host access (R19, R51)
  draws     : Nat                      -- how many draw numbers are used (Config.freeWord, Config.freeByte)
  turnLimit : Option Nat               -- at most how many events of its sampler the present turn of the engine has
  build     : Config.Build             -- NMAX, BMAX, CMAX and RFIFO of this core (R8)
deriving DecidableEq, Repr

/-- STATUS after reset (R47). -/
def resetStatus : Status where
  busy := false
  done := false
  cfgok := false
  noinv := false
  tern := false
  ovf := false
  cmdovr := false
  busywr := false
  rngovr := false
  rngwait := false
  err := .success

/-- The core after reset (R47, R260), nothing offered and nothing to come. P0..P7, BBUF and CBUF list nothing: their
contents are unspecified (R46). The build is this hardware (R8). -/
def State.reset : State where
  ctrl := ⟨false, .port⟩
  status := resetStatus
  cmd := 0
  errinfo := 0
  errcmd := 0
  fifo := []
  cfgN := 0
  cfgP := 0
  cfgQ := 0
  cfgDf := 0
  cfgDg := 0
  cfgDr := 0
  modarg := 0
  sampNp := 0
  sampNm := 0
  wplus := 0
  wminus := 0
  wother := 0
  mlen := 0
  clen := 0
  nblk := 0
  plen := Vector.replicate 8 0
  p := Vector.replicate 8 []
  bbuf := []
  cbuf := []
  engine := .idle
  entropy := []
  agenda := []
  bus := ⟨0, false⟩
  draws := 0
  turnLimit := none
  build := Config.thisHardware

/-- The core of another build after reset (R8, R47). -/
def State.resetOf (b : Config.Build) : State := { State.reset with build := b }

/-- Faults: what stops the model. The core itself has none (R246: "No condition of the core is a hardware fault that
stops it"). -/
inductive Fault where
  /-- Raised by step, for a host access whose offset lies outside the 0x40000-byte window (R50, R54): no such offset
  exists in the core. Safe: the model stops (DESIGN CHOICE, log entry 9). -/
  | outsideWindow (off : Nat)
deriving DecidableEq, Repr

/-- Refusals: instructions the model gives no meaning. -/
inductive Refusal where
  /-- Raised by exec's arm of an instruction that has no meaning yet; no arm raises it. Safe: the model stops. -/
  | notModelled (mnemonic : String)
deriving DecidableEq, Repr

end Sys2Proof.Machine
end

