-- ==== Sys2Proof/Machine/Buffer.lean ====
section
/-! DEFINITION. Machine/Buffer.lean: reading and writing the contents of P0..P7, BBUF and CBUF (spec/10_state.md R21, R24,
R25), and the one canonical form of contents. -/

namespace Sys2Proof.Machine

/-- The canonical form from index `lo` on: indices strictly rising, each below `cap`. An unlisted index has no value, so no
entry can equal what an unlisted index reads as, and equal contents are equal lists. -/
def bufWfFrom {α : Type} (cap : Nat) : Nat → Buf α → Bool
  | _, [] => true
  | lo, (i, _) :: r => decide (lo ≤ i) && decide (i < cap) && bufWfFrom cap (i + 1) r

/-- The canonical form of contents of `cap` entries. -/
def bufWf {α : Type} (cap : Nat) (b : Buf α) : Bool := bufWfFrom cap 0 b

/-- The value at index `i`, or none where the entry is unspecified (R46). -/
def bufGet {α : Type} : Buf α → Nat → Option α
  | [], _ => none
  | (j, v) :: r, i => if j = i then some v else bufGet r i

/-- The contents after writing `v` at index `i`. -/
def bufPut {α : Type} : Buf α → Nat → α → Buf α
  | [], i, v => [(i, v)]
  | (j, w) :: r, i, v =>
    if i < j then (i, v) :: (j, w) :: r
    else if i = j then (i, v) :: r
    else (j, w) :: bufPut r i v

/-- Contents that list exactly the values of `l`, from index `i` on. -/
def bufOfListFrom {α : Type} : Nat → List α → Buf α
  | _, [] => []
  | i, v :: r => (i, v) :: bufOfListFrom (i + 1) r

/-- Contents that list exactly the values of `l`, from index 0 on. -/
def bufOfList {α : Type} (l : List α) : Buf α := bufOfListFrom 0 l

/-- The contents after writing the values of `l` at indices 0, 1, …; entries from `l.length` on keep their values. -/
def bufOverwrite {α : Type} (l : List α) (b : Buf α) : Buf α :=
  bufOfList l ++ b.filter (fun e => decide (l.length ≤ e.1))

/-- `l` cut or filled up with `z` to exactly `n` values. -/
def padTo {α : Type} (n : Nat) (z : α) (l : List α) : List α :=
  l.take n ++ List.replicate (n - l.length) z

/-- The canonical form of all the core's storage: P0..P7, BBUF and CBUF. -/
def Memory.wf (s : State) : Bool :=
  s.p.toList.all (bufWf s.build.nmax) && bufWf s.build.bmax s.bbuf && bufWf s.build.cmax s.cbuf

end Sys2Proof.Machine
end

