-- ==== Sys2Proof/Machine/PolyArith.lean ====
section
/-! DEFINITION. Machine/PolyArith.lean: arithmetic on coefficients and polynomials, on unbounded integers
(spec/00_scope.md R12 to R14). -/

namespace Sys2Proof.Machine

/-- `wrap32` of R12: the word congruent to `x` modulo 2^32. -/
def wrap32 (x : Int) : Word := BitVec.ofInt 32 x

/-- `fits32` of R12. -/
def fits32 (x : Int) : Bool := decide (-2147483648 ≤ x) && decide (x ≤ 2147483647)

/-- `mod(x, m)` of R13, in [0, m) also for negative `x`. -/
def imod (x : Int) (m : Nat) : Int := x % (m : Int)

/-- `center(x, m)` of R13, in (−m/2, m/2]. -/
def center (x : Int) (m : Nat) : Int :=
  let r := imod x m
  if 2 * r > m then r - m else r

/-- The zero polynomial of `n` coefficients. -/
def zeroPoly (n : Nat) : Poly := List.replicate n 0

/-- `identity` of R14: (1, 0, …, 0). -/
def identityPoly (n : Nat) : Poly := (List.range n).map (fun i => if i = 0 then 1 else 0)

/-- Coefficient-wise addition. -/
def addPoly (a b : Poly) : Poly := List.zipWith (· + ·) a b

/-- Every coefficient times `x`. -/
def scalePoly (x : Int) (a : Poly) : Poly := a.map (x * ·)

/-- The product with the polynomial x: every coefficient moves up by one degree, the highest to degree 0 ("exponents wrap
modulo N", R14). -/
def rotatePoly (c : Poly) : Poly :=
  match c.getLast? with
  | none => []
  | some l => l :: c.dropLast

/-- The cyclic convolution `conv(a, b)` of R14, by Horner's rule: a_0·b + x·(a_1·b + x·(…)). Its coefficient k is
Σ_i a_i · b_{mod(k − i, N)} (Laws/PolyArith.lean: conv_coeff). -/
def conv (a b : Poly) : Poly :=
  a.foldr (fun x acc => addPoly (scalePoly x b) (rotatePoly acc)) (zeroPoly b.length)

/-- `cmap(λx. mod(x, m), a)`. -/
def modPoly (m : Nat) (a : Poly) : Poly := a.map (imod · m)

/-- `cmap(λx. center(x, m), a)`. -/
def centerPoly (m : Nat) (a : Poly) : Poly := a.map (center · m)

/-- The product in ℤ_m[x]/(xᴺ − 1), with coefficients in [0, m). -/
def mulMod (m : Nat) (a b : Poly) : Poly := modPoly m (conv a b)

/-! ### Primes (40_control.md R101, 42_modular_inverse.md R140) -/

/-- Trial division by 2 up to `bound`. -/
def noFactorUpTo (bound n : Nat) : Bool :=
  (List.range' 2 (bound - 1)).all (fun d => decide (n ≤ d) || n % d != 0)

/-- `is_prime` of R101, exact for a 16-bit number: a composite below 2^16 has a factor at most 255. -/
def isPrime16 (n : Nat) : Bool := decide (2 ≤ n) && noFactorUpTo 255 n

/-- The least factor at least 2 of `m`, exact for 2 ≤ m ≤ 2^31 − 1: a composite there has a factor at most 46340. -/
def leastFactor (m : Nat) : Nat :=
  ((List.range' 2 46339).find? (fun d => m % d == 0)).getD m

/-- R140: the prime ℓ when `m` is a prime power ℓ^e with 2 ≤ m ≤ 2^31 − 1, else none. -/
def primePowerBase (m : Nat) : Option Nat :=
  if 2 ≤ m ∧ m ≤ 2147483647 then
    let l := leastFactor m
    if (List.range 31).any (fun e => l ^ (e + 1) == m) then some l else none
  else none

/-! ### The inverse (42_modular_inverse.md R141 to R143)

R141 defines the result by its property; any method that finds it conforms (R7, R143). For N and ℓ prime and a unit f of
𝔽_ℓ[x]/(xᴺ − 1), raising to the power ℓ^k replaces x by x^(ℓ^k), and ℓ^N ≡ ℓ (mod N), so f^(ℓ^N − ℓ) = 1. With
S = 1 + ℓ + … + ℓ^(N−2) this gives f⁻¹ = f^(S−1) · (f^S)^(ℓ² − ℓ − 1). Newton's step b ← b·(2 − a·b) then doubles the
precision up to ℓ^e. `invertPoly` accepts the candidate only if it IS an inverse. -/

/-- The bits of `k` below bit `w`, the highest set bit first. -/
def bitsFrom (w k : Nat) : List Bool :=
  ((List.range w).reverse.map (fun i => k.testBit i)).dropWhile (· == false)

/-- `c` with x replaced by x^L, exponents modulo N. -/
def substPow (L : Nat) (c : Poly) : Poly :=
  c.zipIdx.foldl (fun acc e => acc.modify ((e.2 * L) % c.length) (· + e.1)) (zeroPoly c.length)

/-- c^(ℓ^k) modulo ℓ (Frobenius): x is replaced by x^(ℓ^k). -/
def frobenius (l k : Nat) (c : Poly) : Poly := modPoly l (substPow (l ^ k % c.length) c)

/-- One doubling step towards f^(1 + ℓ + … + ℓ^(k−1)): from the pair of that power and k to the pair for 2k, or 2k + 1. -/
def normStep (l : Nat) (f : Poly) (acc : Poly × Nat) (bit : Bool) : Poly × Nat :=
  let t := mulMod l acc.1 (frobenius l acc.2 acc.1)
  if bit then (mulMod l f (frobenius l 1 t), 2 * acc.2 + 1) else (t, 2 * acc.2)

/-- f^(1 + ℓ + … + ℓ^(k−1)) modulo ℓ, for k below 2^16. -/
def normPow (l : Nat) (f : Poly) (k : Nat) : Poly :=
  ((bitsFrom 16 k).foldl (normStep l f) (modPoly l (identityPoly f.length), 0)).1

/-- a^e modulo m, for e below 2^64. -/
def powMod (m : Nat) (a : Poly) (e : Nat) : Poly :=
  (bitsFrom 64 e).foldl
    (fun acc bit => let sq := mulMod m acc acc; if bit then mulMod m sq a else sq) (modPoly m (identityPoly a.length))

/-- The candidate for the inverse modulo the prime ℓ. -/
def inverseModPrime (l : Nat) (a : Poly) : Poly :=
  let g := frobenius l 1 (normPow l a (a.length - 2))
  let t := mulMod l a g
  mulMod l g (powMod l t (l * l - l - 1))

/-- Newton's step b·(2 − a·b) modulo m. -/
def newtonStep (m : Nat) (a b : Poly) : Poly :=
  mulMod m b (addPoly (scalePoly 2 (identityPoly a.length)) (scalePoly (-1) (mulMod m a b)))

/-- The candidate for the inverse modulo m = ℓ^e: five Newton steps reach ℓ^32, beyond any m < 2^31. -/
def inverseCandidate (l m : Nat) (a : Poly) : Poly :=
  (List.range 5).foldl (fun b _ => newtonStep m a b) (modPoly m (inverseModPrime l a))

/-- R141: the inverse of `a` in ℤ_m[x]/(xᴺ − 1), N the length of `a`, with coefficients in [0, m), or none. -/
def invertPoly (l m : Nat) (a : Poly) : Option Poly :=
  let abar := modPoly m a
  let b := inverseCandidate l m abar
  if mulMod m abar b = identityPoly a.length then some b else none

end Sys2Proof.Machine
end

