-- ==== Sys2Proof/Machine/Ops.lean ====
section
/-! DEFINITION. Machine/Ops.lean: the named operations over the core's storage and the engine's life cycle: draws for
unspecified contents (spec/10_state.md R46), reads and writes of P, BBUF and CBUF, issue, completion and the error report
(60_exceptions.md R222 to R226), reset (70_reset_and_hazards.md R260). -/

namespace Sys2Proof.Machine

/-! ### Reset (R260, R261) -/

/-- Every piece of the core's state takes its reset value (R47, R260): a command in flight is abandoned, and P, BBUF and
CBUF become unspecified. Words offered on the entropy port are not taken, so they stay offered (DESIGN CHOICE, log entries 4
and 7). -/
def State.hardReset (s : State) : State :=
  { State.resetOf s.build with
    entropy := s.entropy, agenda := s.agenda, bus := s.bus, draws := s.draws, turnLimit := s.turnLimit }

/-! ### Issue and completion: the core's exception entry (R222, R224, R227) -/

/-- The random-word source that CTRL selects now (R152). -/
def State.source (s : State) : RandSource := s.ctrl.rsrc

/-- Issue of word `w` (R222), in one step: CMD, BUSY, DONE, ERR, and the RSRC the engine records. -/
def State.issue (w : Word) (s : State) : State :=
  { s with
    cmd := w
    status := { s.status with busy := true, done := false, err := .success }
    engine := .issued s.source }

/-- Successful completion (R224): ERR = 0, ERRINFO and ERRCMD unchanged, the engine idle. -/
def State.complete (s : State) : State :=
  { s with
    status := { s.status with busy := false, done := true, rngwait := false, err := .success }
    engine := .idle }

/-- What a failing command reports (R221): the code and the detail word. -/
structure Report where
  code : ErrCode
  info : Word
deriving DecidableEq, Repr

/-- Completion with an error, `raise Error(code, info)` of R15 (R224, R227): the report saves the code in STATUS.ERR, the
command word in ERRCMD and the detail in ERRINFO, and nothing else changes. There is no other state to save and control
goes nowhere: the engine becomes idle. -/
def State.fail (r : Report) (s : State) : State :=
  { s with
    status := { s.status with busy := false, done := true, rngwait := false, err := r.code }
    errcmd := s.cmd
    errinfo := r.info
    engine := .idle }

/-- The acknowledgement of a completion (R228, "the trap-return question"): there is no return instruction, the host writes 1
to STATUS.DONE, which clears it. -/
def State.acknowledge (s : State) : State :=
  { s with status := { s.status with done := false } }

/-- E_ILLEGAL (R85, R221): the report of a word that is no command. -/
def illegalReport : Report := ⟨.illegal, 0⟩

/-- The first check that fails (R225: a command "reports the first that fails"). -/
def firstReport : List (Option Report) → Option Report
  | [] => none
  | some r :: _ => some r
  | none :: rest => firstReport rest

/-- A command with pre-checks (R225): the first failing check is reported with no other effect (R226), else `act`. -/
def guarded (pre : Option Report) (act : State → State) (s : State) : Host.Outcome State Fault Refusal :=
  match pre with
  | some r => .next (s.fail r)
  | none => .next (act s)

/-! ### Draws: reads of unspecified contents (R46) -/

/-- The state after one read of a register or buffer: its draw numbers are used up. -/
def State.drew (s : State) : State := { s with draws := s.draws + Config.drawBlock }

/-- A word of contents `b` at index `i` as one read sees it: its value, or a draw where it is unspecified (R46). -/
def State.wordAt (s : State) (b : Buf Word) (i : Nat) : Word := (bufGet b i).getD (Config.freeWord (s.draws + i))

/-- Byte `i` of BBUF as one read sees it: its value, or a draw where it is unspecified (R46). -/
def State.byteAt (s : State) (i : Nat) : Byte := (bufGet s.bbuf i).getD (Config.freeByte (s.draws + i))

/-! ### Polynomial registers (R15, R21, R22) -/

/-- Slot `i` of P[k], or none where it is unspecified. -/
def State.slot (s : State) (k : PReg) (i : Nat) : Option Word := bufGet s.p[k] i

/-- `N = CFG_N[15:0]`. -/
def State.n (s : State) : Nat := s.cfgN.toNat

/-- The contents of a register of `nmax` slots that holds the polynomial `c`: the coefficients' words, and 0 in the slots
above. -/
def polySlots (nmax : Nat) (c : Poly) : Buf Word := bufOfList (padTo nmax 0 (c.map wrap32))

/-- `write_poly(k, c)` of R15: slots i < N get the coefficients, slots N..NMAX−1 get 0, PLEN[k] gets N. -/
def State.writePoly (k : PReg) (c : Poly) (s : State) : State :=
  { s with p := s.p.set k (polySlots s.build.nmax c), plen := s.plen.set k s.cfgN }

/-- The copy of PMOV (R117): every slot as it is, unspecified ones included, and the tag. -/
def State.movePoly (rd rs1 : PReg) (s : State) : State :=
  { s with p := s.p.set rd s.p[rs1], plen := s.plen.set rd s.plen[rs1] }

/-! ### The byte buffer as a bit stream, most significant bit first (R24, R53, R170) -/

/-- Bit `j mod 8` of a byte, counted from the most significant bit. -/
def msbBit (b : Byte) (j : Nat) : Bool := b.getLsbD (7 - j % 8)

/-- `bit(j)` of R170 as one read sees it. -/
def State.bitAt (s : State) (j : Nat) : Bool := msbBit (s.byteAt (j / 8)) j

/-- The byte with bit `j mod 8`, counted from the most significant bit, set to `v`. -/
def withMsbBit (b : Byte) (j : Nat) (v : Bool) : Byte :=
  let mask : Byte := 1#8 <<< (7 - j % 8)
  if v then b ||| mask else b &&& ~~~mask

/-- `bit(j) <- v` of R173: the other bits of the byte keep their values, drawn if the byte was unspecified (DEDUCED, log entry 3). -/
def State.putBit (s : State) (j : Nat) (v : Bool) : State :=
  { s with bbuf := bufPut s.bbuf (j / 8) (withMsbBit (s.byteAt (j / 8)) j v) }

/-- `bit(j) <- v` for the bits `vs` from `j` on, where j < 8·BMAX (R173). -/
def State.putBits : List Bool → Nat → State → State
  | [], _, s => s
  | v :: vs, j, s => State.putBits vs (j + 1) (if j < 8 * s.build.bmax then s.putBit j v else s)

/-! ### Random words (R152) -/

/-- The words a source has to give now, next first. -/
def State.wordsOf (src : RandSource) (s : State) : List Word :=
  match src with
  | .port => s.entropy
  | .fifo => s.fifo

/-- The state whose source `src` has the words `ws` left. -/
def State.withWords (src : RandSource) (ws : List Word) (s : State) : State :=
  match src with
  | .port => { s with entropy := ws }
  | .fifo => { s with fifo := ws }

/-- The RSRC recorded at issue (R152). An idle engine has recorded none, and CTRL's is meant. -/
def State.recorded (s : State) : RandSource :=
  match s.engine with
  | .idle => s.source
  | .issued src => src
  | .sampling src _ => src

/-- A host write to RNGDATA (R39): appended, or dropped with RNGOVR when the FIFO is full. -/
def State.pushWord (w : Word) (s : State) : State :=
  if s.fifo.length < s.build.rfifo then { s with fifo := s.fifo ++ [w] }
  else { s with status := { s.status with rngovr := true } }

/-! ### The command the engine runs -/

/-- The command in CMD, or why its word is illegal (R80: the whole word at once). -/
def State.command (s : State) : Except Illegal Instr := decode s.cmd

end Sys2Proof.Machine
end

