-- ==== Sys2Proof/Machine/Flags.lean ====
section
/-! DEFINITION. Machine/Flags.lean: STATUS and CTRL as words, and every computation of a flag (spec/10_state.md R27, R28,
R42; 41_ring_arithmetic.md R112, R119; 42_modular_inverse.md R141; 60_exceptions.md R230). -/

namespace Sys2Proof.Machine

/-- The code of STATUS.ERR (R221). -/
def errBits : ErrCode → BitVec 4
  | .success => 0
  | .illegal => 1
  | .cfg => 2
  | .len => 3
  | .fmt => 4
  | .arg => 5

/-- STATUS as the host reads it (R28): reserved bits 15:10 and 31:20 read 0. -/
def statusWord (t : Status) : Word :=
  (0 : BitVec 12) ++ errBits t.err ++ (0 : BitVec 6) ++ BitVec.ofBool t.rngwait ++ BitVec.ofBool t.rngovr
    ++ BitVec.ofBool t.busywr ++ BitVec.ofBool t.cmdovr ++ BitVec.ofBool t.ovf ++ BitVec.ofBool t.tern
    ++ BitVec.ofBool t.noinv ++ BitVec.ofBool t.cfgok ++ BitVec.ofBool t.done ++ BitVec.ofBool t.busy

/-- The sticky bits OVF, CMDOVR, BUSYWR and RNGOVR after a host write of `v` to STATUS (R28): cleared where `v` has a 1. -/
def clearSticky (v : Word) (t : Status) : Status :=
  { t with
    ovf := t.ovf && !v.getLsbD 5
    cmdovr := t.cmdovr && !v.getLsbD 6
    busywr := t.busywr && !v.getLsbD 7
    rngovr := t.rngovr && !v.getLsbD 8 }

/-- A host write of `v` to STATUS (R28): clears the W1C bits written 1, and nothing else. -/
def State.writeStatusReg (v : Word) (s : State) : State :=
  let s' := if v.getLsbD 1 then s.acknowledge else s
  { s' with status := clearSticky v s'.status }

/-- The code of CTRL.RSRC (R27). -/
def rsrcBit : RandSource → Bool
  | .port => false
  | .fifo => true

/-- CTRL as the host reads it (R27): SRST and the reserved bits read 0. -/
def ctrlWord (c : Ctrl) : Word :=
  (0 : BitVec 30) ++ BitVec.ofBool (rsrcBit c.rsrc) ++ BitVec.ofBool c.irqen

/-- CTRL after a host write of `v` without SRST (R27). -/
def writeCtrl (v : Word) : Ctrl := ⟨v.getLsbD 0, if v.getLsbD 1 then .fifo else .port⟩

/-- The interrupt output (R230): irq = CTRL.IRQEN ∧ STATUS.DONE. -/
def State.irq (s : State) : Bool := s.ctrl.irqen && s.status.done

/-- OVF of R112: some raw coefficient does not fit in 32 bits. -/
def overflows (c : Poly) : Bool := c.any (fun x => !fits32 x)

/-- OVF is set, never cleared, by PMUL, PADD and PSCL (R42, R112). -/
def State.raiseOvf (c : Poly) (s : State) : State :=
  { s with status := { s.status with ovf := s.status.ovf || overflows c } }

/-- NOINV, written by PINV only (R42, R141). -/
def State.setNoinv (b : Bool) (s : State) : State := { s with status := { s.status with noinv := b } }

/-- CFGOK, written by CFGCHK (R43, R101) and cleared by a write of a configuration register (R30). -/
def State.setCfgok (b : Bool) (s : State) : State := { s with status := { s.status with cfgok := b } }

/-- The three counts and TERN of PWCK (R33, R119). -/
def State.setWeights (plus minus other : Nat) (s : State) : State :=
  { s with
    wplus := BitVec.ofNat 16 plus
    wminus := BitVec.ofNat 16 minus
    wother := BitVec.ofNat 16 other
    status := { s.status with tern := decide (other = 0) } }

end Sys2Proof.Machine
end

