-- ==== Sys2Proof/Machine/Bus.lean ====
section
/-! DEFINITION. Machine/Bus.lean: the host's bus accesses (spec/20_memory.md R50 to R63, 10_state.md R26 to R41). -/

namespace Sys2Proof.Machine

/-- What an offset of the window reaches (R26, R54). -/
inductive Loc where
  | ident
  | version
  | ctrl
  | status
  | cmd
  | errinfo
  | errcmd
  | rngdata
  | cfgN
  | cfgP
  | cfgQ
  | cfgDf
  | cfgDg
  | cfgDr
  | modarg
  | sampNp
  | sampNm
  | wplus
  | wminus
  | wother
  | mlen
  | clen
  | nblk
  | plen (k : PReg)
  | capNmax
  | capBmax
  | capCmax
  | capRfifo
  | slot (k : PReg) (i : Nat)   -- slot i of Pk (R56)
  | bword (j : Nat)             -- bytes 4j .. 4j+3 of BBUF (R57)
  | cword (i : Nat)             -- word i of CBUF (R58)
  | reserved
deriving DecidableEq, Repr

/-- The offsets of the single registers (R26). -/
def csrTable : List (Nat × Loc) :=
  [(0x000, .ident), (0x004, .version), (0x008, .ctrl), (0x00C, .status), (0x010, .cmd), (0x014, .errinfo),
   (0x018, .errcmd), (0x01C, .rngdata), (0x020, .cfgN), (0x024, .cfgP), (0x028, .cfgQ), (0x02C, .cfgDf),
   (0x030, .cfgDg), (0x034, .cfgDr), (0x038, .modarg), (0x03C, .sampNp), (0x040, .sampNm), (0x044, .wplus),
   (0x048, .wminus), (0x04C, .wother), (0x050, .mlen), (0x054, .clen), (0x058, .nblk)]
  ++
  [(0x060, .plen 0), (0x064, .plen 1), (0x068, .plen 2), (0x06C, .plen 3), (0x070, .plen 4), (0x074, .plen 5),
   (0x078, .plen 6), (0x07C, .plen 7), (0x080, .capNmax), (0x084, .capBmax), (0x088, .capCmax), (0x08C, .capRfifo)]

/-- What an aligned offset of the window reaches in a core of build `b` (R54): with smaller parameters the unused part of a
region is reserved. -/
def locOf (b : Config.Build) (off : Nat) : Loc :=
  if off < 0x1000 then (csrTable.lookup off).getD .reserved
  else if off < 0x9000 then
    let i := off % 0x1000 / 4
    if i < b.nmax then .slot (Fin.ofNat 8 (off / 0x1000 - 1)) i else .reserved
  else if off < 0xA000 then
    let j := (off - 0x9000) / 4
    if 4 * j < b.bmax then .bword j else .reserved
  else if 0x10000 ≤ off ∧ (off - 0x10000) / 4 < b.cmax then .cword ((off - 0x10000) / 4)
  else .reserved

/-- The offset that a platform address reaches (R50): none when it lies outside the core's window. -/
def windowOffset (addr : Nat) : Option Nat :=
  if Config.base ≤ addr ∧ addr < Config.base + Config.windowBytes then some (addr - Config.base) else none

/-- The state the engine owns while a command runs, whose reads are then unspecified (R60). -/
def engineOwned : Loc → Bool
  | .errinfo | .errcmd | .wplus | .wminus | .wother | .mlen | .clen | .nblk => true
  | .plen _ | .slot _ _ | .bword _ | .cword _ => true
  | .ident | .version | .ctrl | .status | .cmd | .rngdata => false
  | .cfgN | .cfgP | .cfgQ | .cfgDf | .cfgDg | .cfgDr | .modarg | .sampNp | .sampNm => false
  | .capNmax | .capBmax | .capCmax | .capRfifo | .reserved => false

/-- The state whose writes are ignored, with BUSYWR, while a command runs (R59). -/
def busyHeld : Loc → Bool
  | .cfgN | .cfgP | .cfgQ | .cfgDf | .cfgDg | .cfgDr | .modarg | .sampNp | .sampNm => true
  | .mlen | .clen | .nblk => true
  | .plen _ | .slot _ _ | .bword _ | .cword _ => true
  | .ident | .version | .ctrl | .status | .cmd | .errinfo | .errcmd | .rngdata => false
  | .wplus | .wminus | .wother | .capNmax | .capBmax | .capCmax | .capRfifo | .reserved => false

/-- Byte `i` of BBUF's window as one read sees it. A last word that BBUF fills only in part reads 0 beyond it (R41, R54;
DEDUCED, log entry 20). -/
def State.windowByte (s : State) (i : Nat) : Byte := if i < s.build.bmax then s.byteAt i else 0

/-- BBUF's word `j` (R52, R57): its four bytes, the lowest index in the lowest bits. -/
def State.bbufWord (s : State) (j : Nat) : Word :=
  s.windowByte (4 * j + 3) ++ s.windowByte (4 * j + 2) ++ s.windowByte (4 * j + 1) ++ s.windowByte (4 * j)

/-- A write of byte `i` of BBUF's window, which is ignored beyond BBUF (R41, R54; DEDUCED, log entry 20). -/
def State.storeByte (i : Nat) (v : Byte) (s : State) : State :=
  if i < s.build.bmax then { s with bbuf := bufPut s.bbuf i v } else s

/-- What a location reads as when it may be read (R26 to R41, R56 to R58). -/
def State.readLoc (s : State) : Loc → Word
  | .ident => Config.idWord
  | .version => Config.versionWord
  | .ctrl => ctrlWord s.ctrl
  | .status => statusWord s.status
  | .cmd => s.cmd
  | .errinfo => s.errinfo
  | .errcmd => s.errcmd
  | .rngdata => BitVec.ofNat 32 s.fifo.length
  | .cfgN => s.cfgN.setWidth 32
  | .cfgP => s.cfgP.setWidth 32
  | .cfgQ => s.cfgQ.setWidth 32
  | .cfgDf => s.cfgDf.setWidth 32
  | .cfgDg => s.cfgDg.setWidth 32
  | .cfgDr => s.cfgDr.setWidth 32
  | .modarg => s.modarg
  | .sampNp => s.sampNp.setWidth 32
  | .sampNm => s.sampNm.setWidth 32
  | .wplus => s.wplus.setWidth 32
  | .wminus => s.wminus.setWidth 32
  | .wother => s.wother.setWidth 32
  | .mlen => s.mlen.setWidth 32
  | .clen => s.clen.setWidth 32
  | .nblk => s.nblk.setWidth 32
  | .plen k => s.plen[k].setWidth 32
  | .capNmax => BitVec.ofNat 32 s.build.nmax
  | .capBmax => BitVec.ofNat 32 s.build.bmax
  | .capCmax => BitVec.ofNat 32 s.build.cmax
  | .capRfifo => BitVec.ofNat 32 s.build.rfifo
  | .slot k i => s.wordAt s.p[k] i
  | .bword j => s.bbufWord j
  | .cword i => s.wordAt s.cbuf i
  | .reserved => 0

/-- A host read of a location (R60, R61): while BUSY = 1 engine-owned state gives a draw. -/
def State.readValue (s : State) (l : Loc) : Word :=
  if s.status.busy && engineOwned l then Config.freeWord s.draws else s.readLoc l

/-- A write to a configuration register also clears CFGOK, even if the value is unchanged (R30). -/
def State.clearCfgok (s : State) : State := s.setCfgok false

/-- The effect of an honoured write of `v` to busy-held state (R30 to R37, R56 to R58); none elsewhere (R41, R55). -/
def State.storeLoc (v : Word) (s : State) : Loc → State
  | .cfgN => { s with cfgN := v.setWidth 16 }.clearCfgok
  | .cfgP => { s with cfgP := v.setWidth 16 }.clearCfgok
  | .cfgQ => { s with cfgQ := v.setWidth 16 }.clearCfgok
  | .cfgDf => { s with cfgDf := v.setWidth 16 }.clearCfgok
  | .cfgDg => { s with cfgDg := v.setWidth 16 }.clearCfgok
  | .cfgDr => { s with cfgDr := v.setWidth 16 }.clearCfgok
  | .modarg => { s with modarg := v }
  | .sampNp => { s with sampNp := v.setWidth 16 }
  | .sampNm => { s with sampNm := v.setWidth 16 }
  | .mlen => { s with mlen := v.setWidth 16 }
  | .clen => { s with clen := v.setWidth 16 }
  | .nblk => { s with nblk := v.setWidth 16 }
  | .plen k => { s with plen := s.plen.set k (v.setWidth 16) }
  | .slot k i => { s with p := s.p.set k (bufPut s.p[k] i v) }
  | .bword j =>
    (((s.storeByte (4 * j) (v.extractLsb' 0 8)).storeByte (4 * j + 1) (v.extractLsb' 8 8)).storeByte (4 * j + 2)
      (v.extractLsb' 16 8)).storeByte (4 * j + 3) (v.extractLsb' 24 8)
  | .cword i => { s with cbuf := bufPut s.cbuf i v }
  | .ident | .version | .ctrl | .status | .cmd | .errinfo | .errcmd | .rngdata => s
  | .wplus | .wminus | .wother | .capNmax | .capBmax | .capCmax | .capRfifo | .reserved => s

/-- A write to CMD (R29, R222, R223): issues the word, or is dropped with CMDOVR while a command runs. -/
def State.writeCmd (v : Word) (s : State) : State :=
  if s.status.busy then { s with status := { s.status with cmdovr := true } } else s.issue v

/-- A write to CTRL (R27, R261): SRST = 1 resets, whatever the other bits. -/
def State.writeCtrlReg (v : Word) (s : State) : State :=
  if v.getLsbD 2 then s.hardReset else { s with ctrl := writeCtrl v }

/-- A host write of `v` to a location (R29, R41, R59, R61). -/
def State.writeValue (v : Word) (s : State) (l : Loc) : State :=
  match l with
  | .ctrl => s.writeCtrlReg v
  | .status => s.writeStatusReg v
  | .cmd => s.writeCmd v
  | .rngdata => s.pushWord v
  | l =>
    if s.status.busy && busyHeld l then { s with status := { s.status with busywr := true } }
    else s.storeLoc v l

/-- An access the port answers with a bus error (R51): another width than 32 bits, or an unaligned offset. -/
def badAccess (w : Width) (off : Nat) : Bool := decide (w ≠ .word) || decide (off % 4 ≠ 0)

/-- The state with the port's response to an access. -/
def State.respond (r : BusResponse) (s : State) : State := { s with bus := r }

/-- The host's `MemRead(off)` (R51). -/
def busRead (w : Width) (off : Nat) (s : State) : Host.Outcome State Fault Refusal :=
  if Config.windowBytes ≤ off then .fault (.outsideWindow off)
  else if badAccess w off then .next (s.respond ⟨0, true⟩)
  else .next (s.drew.respond ⟨s.readValue (locOf s.build off), false⟩)

/-- The host's `MemWrite(off, v)` (R51). The response of a write has data 0 (DESIGN CHOICE, log entry 8). -/
def busWrite (w : Width) (off : Nat) (v : Word) (s : State) : Host.Outcome State Fault Refusal :=
  if Config.windowBytes ≤ off then .fault (.outsideWindow off)
  else if badAccess w off then .next (s.respond ⟨0, true⟩)
  else .next ((s.writeValue v (locOf s.build off)).respond ⟨0, false⟩)

/-- The platform puts `w` on the entropy port (R45). -/
def State.offerWord (w : Word) (s : State) : State := { s with entropy := s.entropy ++ [w] }

/-- The agenda goes on (R229). -/
def State.withAgenda (rest : List Event) (s : State) : State := { s with agenda := rest }

/-- The engine's turn begins, with at most `limit` events of its sampler. -/
def State.beginTurn (limit : Option Nat) (s : State) : State := { s with turnLimit := limit }

end Sys2Proof.Machine
end

