-- ==== Sys2Proof/Machine/Operands.lean ====
section
/-! DEFINITION. Machine/Operands.lean: every operand form (spec/30_encoding.md R82, 43_sampler.md R151, 00_scope.md R15) and
every pre-check of an operand (60_exceptions.md R225). -/

namespace Sys2Proof.Machine

/-! ### Register operands -/

/-- `src(k)` of R15 as one read sees it: the N coefficients of P[k]. -/
def State.src (s : State) (k : PReg) : Poly :=
  (List.range s.n).map (fun i => val (s.wordAt s.p[k] i))

/-- `src_e(k)` of R15 (NDEC): slots from PLEN[k] on read as 0. -/
def State.srcExt (s : State) (k : PReg) : Poly :=
  (List.range s.n).map (fun i => if i < s.plen[k].toNat then val (s.wordAt s.p[k] i) else 0)

/-- Block `k` of CBUF (R25) as one read sees it. -/
def State.cipherBlock (s : State) (k : Nat) : Poly :=
  (List.range s.n).map (fun i => val (s.wordAt s.cbuf (k * s.n + i)))

/-! ### Modulus, scalar and weights -/

/-- The modulus `m` of PRED and PINV (R82). -/
def State.modulus (s : State) : ModSel → Nat
  | .p => s.cfgP.toNat
  | .q => s.cfgQ.toNat
  | .m => uval s.modarg

/-- The scalar `s` of PSCL (R82): CFG_P and CFG_Q zero-extended, MODARG signed. -/
def State.scalar (s : State) : ModSel → Int
  | .p => (s.cfgP.toNat : Int)
  | .q => (s.cfgQ.toNat : Int)
  | .m => val s.modarg

/-- `(np, nm) <- weights(SEL)` of R151. -/
def State.weights (s : State) : WeightSel → Nat × Nat
  | .f => (s.cfgDf.toNat, s.cfgDf.toNat - 1)
  | .g => (s.cfgDg.toNat, s.cfgDg.toNat)
  | .r => (s.cfgDr.toNat, s.cfgDr.toNat)
  | .x => (s.sampNp.toNat, s.sampNm.toNat)

/-- The representative of R82's U. -/
def represent : RepSel → Int → Nat → Int
  | .centred => center
  | .unsigned => imod

/-! ### Pre-checks (R225), in its order -/

/-- 2. The configuration gate (R102). -/
def State.cfgGate (s : State) : Option Report :=
  if s.status.cfgok then none else some ⟨.cfg, 0⟩

/-- 3. PRED's modulus is in [1, 2^31 − 1] (R118). -/
def reduceModulusCheck (m : Nat) : Option Report :=
  if m = 0 ∨ m > 2147483647 then some ⟨.arg, BitVec.ofNat 32 m⟩ else none

/-- 3. PINV's modulus is a prime power in [2, 2^31 − 1] (R140). -/
def primePowerCheck (m : Nat) : Option Report :=
  match primePowerBase m with
  | some _ => none
  | none => some ⟨.arg, BitVec.ofNat 32 m⟩

/-- 3. PSMP's weights fit the ring (R150): ERRINFO = np[15:0] << 16 | nm[15:0]. -/
def State.weightCheck (s : State) (w : WeightSel) : Option Report :=
  let (np, nm) := s.weights w
  if np + nm > s.n then some ⟨.arg, BitVec.ofNat 16 np ++ BitVec.ofNat 16 nm⟩ else none

/-- 3. The message fits BBUF (R172, R200). -/
def State.mlenCheck (s : State) : Option Report :=
  if s.mlen.toNat > s.build.bmax then some ⟨.arg, s.mlen.setWidth 32⟩ else none

/-- 3. The ciphertext fits CBUF (R201). -/
def State.clenCheck (s : State) : Option Report :=
  if s.clen.toNat > s.build.cmax then some ⟨.arg, s.clen.setWidth 32⟩ else none

/-- `NB(L) = ceil(8·L / N)` of R171. -/
def State.blocks (s : State) (l : Nat) : Nat := (8 * l + s.n - 1) / s.n

/-- 3. BENC's block index is below NB(MLEN) (R172). -/
def State.blockCheck (s : State) (k : Nat) : Option Report :=
  if k ≥ s.blocks s.mlen.toNat then some ⟨.arg, BitVec.ofNat 32 k⟩ else none

/-- 4. One source's length tag is N (R110): ERRINFO = PLEN[k] << 16 | k. -/
def State.lenCheck (s : State) (k : PReg) : Option Report :=
  if s.plen[k] = s.cfgN then none else some ⟨.len, s.plen[k] ++ BitVec.ofNat 16 k.val⟩

/-- 5. NDEC's ciphertext is no longer than N (R192). -/
def State.cipherLenCheck (s : State) (k : PReg) : Option Report :=
  if s.plen[k].toNat > s.n then some ⟨.fmt, s.plen[k].setWidth 32⟩ else none

/-- 5. SDEC's ciphertext is a whole number of blocks (R201). -/
def State.clenFormatCheck (s : State) : Option Report :=
  if s.clen.toNat % s.n ≠ 0 then some ⟨.fmt, s.clen.setWidth 32⟩ else none

end Sys2Proof.Machine
end

