-- ==== Sys2Proof/Machine/Codec.lean ====
section
/-! DEFINITION. Machine/Codec.lean: BENC, BDEC, BFIN (spec/44_codec.md R170 to R174). -/

namespace Sys2Proof.Machine

/-- `pb(j)` of R170 for a message of `l` bytes, as one read of BBUF sees it. -/
def State.padBit (s : State) (l j : Nat) : Int := if j < 8 * l ∧ s.bitAt j then 1 else 0

/-- Block `k` of the message of `l` bytes (R171). -/
def State.messageBlock (s : State) (l k : Nat) : Poly :=
  (List.range s.n).map (fun i => s.padBit l (k * s.n + i))

/-- The least index in [lo, hi) at which `bad` holds. -/
def firstIn (lo hi : Nat) (bad : Nat → Bool) : Option Nat :=
  (List.range' lo (hi - lo)).find? bad

/-- The coefficient of a decoded block is a bit (R173). -/
def isBit (x : Int) : Bool := decide (x = 0) || decide (x = 1)

/-- The computed format checks of a decoded block `c` whose bits go to `base`, `base + 1`, … of a BBUF of `bmax` bytes (R173,
R201): the index of the first coefficient that is no bit, else of the first 1 beyond BBUF. -/
def blockFormatCheck (bmax base : Nat) (c : Poly) : Option Report :=
  match firstIn 0 c.length (fun i => !isBit (c.getD i 0)) with
  | some i => some ⟨.fmt, BitVec.ofNat 32 (base + i)⟩
  | none =>
    match firstIn 0 c.length (fun i => decide (8 * bmax ≤ base + i) && decide (c.getD i 0 = 1)) with
    | some i => some ⟨.fmt, BitVec.ofNat 32 (base + i)⟩
    | none => none

/-- The bits of a decoded block. -/
def bitsOf (c : Poly) : List Bool := c.map (fun x => decide (x = 1))

/-- `z` of R174: how many of the `l` bytes BBUF[0 .. l−1] are trailing 0x00 bytes. -/
def State.trailingZeros (s : State) : Nat → Nat
  | 0 => 0
  | l + 1 => if s.byteAt l = 0 then State.trailingZeros s l + 1 else 0

/-- `L0 <- min(floor(T / 8), BMAX)` of R174. -/
def State.wholeBytes (s : State) (t : Nat) : Nat := min (t / 8) s.build.bmax

/-- The pad-bit check of R174: the least 1 among the bits after the last whole byte of `t` decoded bits. -/
def State.padCheck (s : State) (t : Nat) : Option Report :=
  if t < 8 * s.build.bmax then
    match firstIn (8 * s.wholeBytes t) t s.bitAt with
    | some j => some ⟨.fmt, BitVec.ofNat 32 j⟩
    | none => none
  else none

/-- `MLEN <- L0 − z` of R174. -/
def State.trimMessage (t : Nat) (s : State) : State :=
  { s with mlen := BitVec.ofNat 16 (s.wholeBytes t - s.trailingZeros (s.wholeBytes t)) }

/-- `NBLK <- k`. -/
def State.setNblk (k : Nat) (s : State) : State := { s with nblk := BitVec.ofNat 16 k }

/-- BENC (R172). -/
def execBenc (rd : PReg) (k : Nat) (s : State) : Host.Outcome State Fault Refusal :=
  guarded (firstReport [s.cfgGate, s.mlenCheck, s.blockCheck k]) (fun s =>
    let c := s.messageBlock s.mlen.toNat k
    ((s.drew.writePoly rd c).setNblk (s.blocks s.mlen.toNat)).complete) s

/-- BDEC (R173): everything is checked before anything is written. It writes NBLK (DEDUCED, log entry 19). -/
def execBdec (rs1 : PReg) (k : Nat) (s : State) : Host.Outcome State Fault Refusal :=
  guarded (firstReport [s.cfgGate, s.lenCheck rs1]) (fun s =>
    let c := s.src rs1
    match blockFormatCheck s.build.bmax (k * s.n) c with
    | some r => s.drew.fail r
    | none => (((s.drew.putBits (bitsOf c) (k * s.n)).drew).setNblk (k + 1)).complete) s

/-- BFIN (R174). -/
def execBfin (s : State) : Host.Outcome State Fault Refusal :=
  guarded s.cfgGate (fun s =>
    let t := s.nblk.toNat * s.n
    match s.padCheck t with
    | some r => s.drew.fail r
    | none => (s.trimMessage t).drew.complete) s

end Sys2Proof.Machine
end

