-- ==== Sys2Proof/Machine/Sampler.lean ====
section
/-! DEFINITION. Machine/Sampler.lean: the ternary sampler and PSMP (spec/43_sampler.md R150 to R156). The engine takes random
words as they come and waits when there is none (R153), so the procedure of R155 is held as data and fed word by word; the
taking of each word and the completion are events of their own (spec/60_exceptions.md R229). -/

namespace Sys2Proof.Machine

/-- The largest multiple of `n` not above 2^32: `lim` of R154. -/
def acceptLimit (n : Nat) : Nat := 4294967296 - 4294967296 % n

/-- `swap idx[i], idx[j]` of R155. -/
def swapAt (i j : Nat) (idx : List Nat) : List Nat :=
  (idx.set i (idx.getD j 0)).set j (idx.getD i 0)

/-- The coefficients of R155: +1 at the first `np` chosen positions, −1 at the next `nm`, 0 elsewhere. -/
def ternaryAt (n np nm : Nat) (idx : List Nat) : Poly :=
  ((idx.drop np).take nm).foldl (fun s i => s.set i (-1)) ((idx.take np).foldl (fun s i => s.set i 1) (zeroPoly n))

/-- The sampler at the start of `count` samples (R155). Samples without draws are done at once. -/
def startSampling (n np nm count : Nat) : Sampling :=
  if np + nm = 0 then
    { n := n, np := np, nm := nm, todo := 0, t := 0, idx := List.range n, done := List.replicate count (zeroPoly n) }
  else
    { n := n, np := np, nm := nm, todo := count, t := 0, idx := List.range n, done := [] }

/-- One random word given to the sampler that is not done (R154, R155): rejected when it is not below `lim`, else the draw
j = t + mod(w, N − t) is made; after the last draw the sample is complete and the next one starts. -/
def feedWord (job : Sampling) (w : Word) : Sampling :=
  let m := job.n - job.t
  if uval w < acceptLimit m then
    let idx := swapAt job.t (job.t + uval w % m) job.idx
    if job.t + 1 = job.np + job.nm then
      { job with todo := job.todo - 1, t := 0, idx := List.range job.n,
                 done := job.done ++ [ternaryAt job.n job.np job.nm idx] }
    else { job with t := job.t + 1, idx := idx }
  else job

/-- The sampler takes words until it is done or there is none left; the words not taken are given back. -/
def feedWords : Sampling → List Word → Sampling × List Word
  | job, [] => (job, [])
  | job, w :: ws => if job.todo = 0 then (job, w :: ws) else feedWords (feedWord job w) ws

/-- The words of a source that the engine may take in this turn, and the rest: each word taken is one of the turn's events
(R229; DESIGN CHOICE, log entry 5). -/
def State.granted (s : State) (ws : List Word) : List Word × List Word :=
  match s.turnLimit with
  | none => (ws, [])
  | some k => (ws.take k, ws.drop k)

/-- A turn in which the engine took `used` words has an event left (DESIGN CHOICE, log entry 5). -/
def State.eventLeft (s : State) (used : Nat) : Bool :=
  match s.turnLimit with
  | none => true
  | some k => decide (used < k)

/-- The sampler stays in flight, with RNGWAIT as given. -/
def State.keepSampling (src : RandSource) (job : Sampling) (wait : Bool) (s : State) : State :=
  { s with status := { s.status with rngwait := wait }, engine := .sampling src job }

/-- One turn of a sampling command (R153, R229): the engine takes what words it may. With an event left it completes the
command by `finish` when every sample is drawn, and else asks for a word there is not: RNGWAIT = 1. With none left the
sampler is kept, done or not, and host accesses can fall between the last word and the completion; RNGWAIT is 0 when the
turn took a word (R153), and also when it took none but finds one (R28: "the word arrives"; DEDUCED, log entry 6). -/
def sampleTurn (src : RandSource) (job : Sampling) (finish : List Poly → State → State) (s : State) : State :=
  let (may, rest) := s.granted (s.wordsOf src)
  let (job', left) := feedWords job may
  let used := may.length - left.length
  let s' := s.withWords src (left ++ rest)
  if s.eventLeft used then
    if job'.todo = 0 then finish job'.done s' else s'.keepSampling src job' true
  else s'.keepSampling src job' (s.status.rngwait && decide (used = 0) && (left ++ rest).isEmpty)

/-- A sampling command: resumed when it is in flight, else started behind its pre-checks `pre` with the sampler `start`. -/
def sampled (pre : Option Report) (start : Sampling) (finish : List Poly → State → State) (s : State) :
    Host.Outcome State Fault Refusal :=
  match s.engine with
  | .sampling src job => .next (sampleTurn src job finish s)
  | .idle => guarded pre (sampleTurn s.recorded start finish) s
  | .issued _ => guarded pre (sampleTurn s.recorded start finish) s

/-- The end of PSMP: the sample goes to rd (R150). -/
def finishPsmp (rd : PReg) (rs : List Poly) (s : State) : State :=
  (s.writePoly rd (rs.headD (zeroPoly s.n))).complete

/-- PSMP (R150). -/
def execPsmp (rd : PReg) (w : WeightSel) (s : State) : Host.Outcome State Fault Refusal :=
  sampled (firstReport [s.cfgGate, s.weightCheck w])
    (startSampling s.n (s.weights w).1 (s.weights w).2 1) (finishPsmp rd) s

end Sys2Proof.Machine
end

