-- ==== Sys2Proof/Machine/Cryptor.lean ====
section
/-! DEFINITION. Machine/Cryptor.lean: NENC, NENCX, NDEC (spec/45_cryptor.md R190 to R192). Every intermediate is exact. -/

namespace Sys2Proof.Machine

/-- e = center(conv(r, h) + m, q) (R190). -/
def encryptBlock (q : Nat) (r h m : Poly) : Poly := centerPoly q (addPoly (conv r h) m)

/-- c = center(conv(fp, center(center(conv(f, e), q), p)), p) (R192). -/
def decryptBlock (p q : Nat) (f fp e : Poly) : Poly :=
  let a := centerPoly q (conv f e)
  let b := centerPoly p a
  centerPoly p (conv fp b)

/-- The end of NENC: the ciphertext block goes to rd, r nowhere (R190). -/
def finishNenc (rd rs1 rs2 : PReg) (rs : List Poly) (s : State) : State :=
  let h := s.src rs1
  let m := s.drew.src rs2
  (s.drew.drew.writePoly rd (encryptBlock s.cfgQ.toNat (rs.headD (zeroPoly s.n)) h m)).complete

/-- NENC (R190). -/
def execNenc (rd rs1 rs2 : PReg) (s : State) : Host.Outcome State Fault Refusal :=
  sampled (firstReport [s.cfgGate, s.lenCheck rs1, s.lenCheck rs2])
    (startSampling s.n s.cfgDr.toNat s.cfgDr.toNat 1) (finishNenc rd rs1 rs2) s

/-- NENCX (R191): RD holds r on entry and e on exit. -/
def execNencx (rd rs1 rs2 : PReg) (s : State) : Host.Outcome State Fault Refusal :=
  guarded (firstReport [s.cfgGate, s.lenCheck rs1, s.lenCheck rs2, s.lenCheck rd]) (fun s =>
    let r := s.src rd
    let h := s.drew.src rs1
    let m := s.drew.drew.src rs2
    (s.drew.drew.drew.writePoly rd (encryptBlock s.cfgQ.toNat r h m)).complete) s

/-- NDEC (R192): RD holds the ciphertext block on entry and the message block on exit. -/
def execNdec (rd rs1 rs2 : PReg) (s : State) : Host.Outcome State Fault Refusal :=
  guarded (firstReport [s.cfgGate, s.lenCheck rs1, s.lenCheck rs2, s.cipherLenCheck rd]) (fun s =>
    let e := s.srcExt rd
    let f := s.drew.src rs1
    let fp := s.drew.drew.src rs2
    (s.drew.drew.drew.writePoly rd (decryptBlock s.cfgP.toNat s.cfgQ.toNat f fp e)).complete) s

end Sys2Proof.Machine
end

