-- ==== Sys2Proof/Machine/Chain.lean ====
section
/-! DEFINITION. Machine/Chain.lean: SENC and SDEC (spec/46_block_chain.md R200, R201). -/

namespace Sys2Proof.Machine

/-- The ciphertext of the message of `l` bytes with the blinding polynomials `rs`, one block after the other (R200). -/
def State.cipherOf (s : State) (h : Poly) (l : Nat) (rs : List Poly) : Poly :=
  rs.zipIdx.flatMap (fun e => encryptBlock s.cfgQ.toNat e.1 h (s.messageBlock l e.2))

/-- The words `c` go to CBUF from index 0 on; further words keep their values (R200). CBUF has room for the ciphertext of any
message (R25), so nothing is cut. -/
def State.writeCipher (c : List Word) (s : State) : State :=
  { s with cbuf := bufOverwrite (c.take s.build.cmax) s.cbuf }

/-- `CLEN <- c` and `NBLK <- nb` (R200). -/
def State.setCipherLength (c nb : Nat) (s : State) : State :=
  { s with clen := BitVec.ofNat 16 c, nblk := BitVec.ofNat 16 nb }

/-- The end of SENC (R200): the blocks in CBUF, CLEN and NBLK. -/
def finishSenc (rs1 : PReg) (rs : List Poly) (s : State) : State :=
  let h := s.src rs1
  let c := s.drew.cipherOf h s.mlen.toNat rs
  let nb := s.blocks s.mlen.toNat
  ((s.drew.drew.writeCipher (c.map wrap32)).setCipherLength (nb * s.n) nb).complete

/-- SENC (R200): a fresh r for every block, drawn block by block. -/
def execSenc (rs1 : PReg) (s : State) : Host.Outcome State Fault Refusal :=
  sampled (firstReport [s.cfgGate, s.mlenCheck, s.lenCheck rs1])
    (startSampling s.n s.cfgDr.toNat s.cfgDr.toNat (s.blocks s.mlen.toNat)) (finishSenc rs1) s

/-- E_FMT after SDEC's pre-checks (R226): the report, and every byte of BBUF unspecified. -/
def State.failDecoding (r : Report) (s : State) : State := { s.drew.fail r with bbuf := [] }

/-- The end of SDEC after its blocks (R201): the pad bits, the trimmed length, the block count. -/
def State.finishSdec (nb : Nat) (s : State) : State :=
  match s.padCheck s.clen.toNat with
  | some r => s.failDecoding r
  | none => ((s.trimMessage s.clen.toNat).setNblk nb).drew.complete

/-- SDEC's loop (R201) over the decrypted blocks still to come, the next one starting at bit `base`: its format checks, then
its bits. -/
def decodeBlocks (nb : Nat) : List Poly → (base : Nat) → State → State
  | [], _, s => s.finishSdec nb
  | c :: cs, base, s =>
    match blockFormatCheck s.build.bmax base c with
    | some r => s.failDecoding r
    | none => decodeBlocks nb cs (base + c.length) (s.putBits (bitsOf c) base)

/-- The blocks of the ciphertext in CBUF, decrypted in order (R201). -/
def State.decryptedBlocks (s : State) (f fp : Poly) (nb : Nat) : List Poly :=
  (List.range nb).map (fun k => decryptBlock s.cfgP.toNat s.cfgQ.toNat f fp (s.cipherBlock k))

/-- SDEC (R201). -/
def execSdec (rs1 rs2 : PReg) (s : State) : Host.Outcome State Fault Refusal :=
  guarded (firstReport [s.cfgGate, s.clenCheck, s.lenCheck rs1, s.lenCheck rs2, s.clenFormatCheck]) (fun s =>
    let f := s.src rs1
    let fp := s.drew.src rs2
    let nb := s.clen.toNat / s.n
    decodeBlocks nb (s.drew.drew.decryptedBlocks f fp nb) 0 s.drew.drew.drew) s

end Sys2Proof.Machine
end

