-- ==== Sys2Proof/Machine/Control.lean ====
section
/-! DEFINITION. Machine/Control.lean: NOP and CFGCHK (spec/40_control.md R100, R101, R103). -/

namespace Sys2Proof.Machine

/-- Bit `i` of ERRINFO, set when an invariant is false (R103). -/
def failBit (i : Nat) (bad : Bool) : Word := if bad then 1#32 <<< i else 0

/-- `bad` of R101, for a core of `nmax` slots: one bit for every invariant that is false, all nine evaluated. -/
def cfgBad (nmax n p q df dg dr : Nat) : Word :=
  failBit 0 (!isPrime16 n) |||
  failBit 1 (decide (n > nmax)) |||
  failBit 2 (decide (p < 2)) |||
  failBit 3 (decide (Nat.gcd p q ≠ 1)) |||
  failBit 4 (decide (8 * p > q)) |||
  failBit 5 (decide (2 * df > n)) |||
  failBit 6 (decide (2 * dg > n)) |||
  failBit 7 (decide (2 * dr > n)) |||
  failBit 8 (decide (df = 0))

/-- `bad` of R101 for the configuration registers. -/
def State.cfgBad (s : State) : Word :=
  Machine.cfgBad s.build.nmax s.n s.cfgP.toNat s.cfgQ.toNat s.cfgDf.toNat s.cfgDg.toNat s.cfgDr.toNat

/-- NOP (R100). It needs no CFGOK. -/
def execNop (s : State) : Host.Outcome State Fault Refusal := .next s.complete

/-- CFGCHK (R101). It needs no CFGOK. -/
def execCfgchk (s : State) : Host.Outcome State Fault Refusal :=
  if s.cfgBad = 0 then .next (s.setCfgok true).complete
  else .next ((s.setCfgok false).fail ⟨.cfg, s.cfgBad⟩)

end Sys2Proof.Machine
end

