-- ==== Sys2Proof/Machine/Inverse.lean ====
section
/-! DEFINITION. Machine/Inverse.lean: PINV (spec/42_modular_inverse.md R140, R141). -/

namespace Sys2Proof.Machine

/-- The result of PINV modulo `m` on the source `a` (R141). -/
def inverseOf (m : Nat) (a : Poly) : Option Poly :=
  match primePowerBase m with
  | some l => invertPoly l m a
  | none => none

/-- PINV (R141): rd is written only when there is an inverse; "not invertible" is the flag NOINV, not an error. -/
def execPinv (rd rs1 : PReg) (sel : ModSel) (s : State) : Host.Outcome State Fault Refusal :=
  guarded (firstReport [s.cfgGate, primePowerCheck (s.modulus sel), s.lenCheck rs1]) (fun s =>
    match inverseOf (s.modulus sel) (s.src rs1) with
    | some b => ((s.drew.writePoly rd b).setNoinv false).complete
    | none => (s.drew.setNoinv true).complete) s

end Sys2Proof.Machine
end

