-- ==== Sys2Proof/Machine/Ring.lean ====
section
/-! DEFINITION. Machine/Ring.lean: PCLR, PMOV, PMUL, PADD, PSCL, PRED, PWCK (spec/41_ring_arithmetic.md R110 to R119). Every
command reads its sources before it writes (R111). -/

namespace Sys2Proof.Machine

/-- The end of PMUL, PADD and PSCL (R112): the raw result is stored as wrap32 and OVF says whether it fits. -/
def State.rawResult (rd : PReg) (c : Poly) (s : State) : State := ((s.raiseOvf c).writePoly rd c).complete

/-- The pre-checks of a ring command with the sources `ks` (R110). -/
def State.ringChecks (s : State) (ks : List PReg) : Option Report := firstReport (s.cfgGate :: ks.map s.lenCheck)

/-- PCLR (R116). -/
def execPclr (rd : PReg) (s : State) : Host.Outcome State Fault Refusal :=
  guarded s.cfgGate (fun s => (s.writePoly rd (zeroPoly s.n)).complete) s

/-- PMOV (R117). -/
def execPmov (rd rs1 : PReg) (s : State) : Host.Outcome State Fault Refusal :=
  guarded s.cfgGate (fun s => (s.movePoly rd rs1).complete) s

/-- PMUL (R113). -/
def execPmul (rd rs1 rs2 : PReg) (s : State) : Host.Outcome State Fault Refusal :=
  guarded (s.ringChecks [rs1, rs2]) (fun s =>
    let a := s.src rs1
    let b := s.drew.src rs2
    s.drew.drew.rawResult rd (conv a b)) s

/-- PADD (R114). -/
def execPadd (rd rs1 rs2 : PReg) (s : State) : Host.Outcome State Fault Refusal :=
  guarded (s.ringChecks [rs1, rs2]) (fun s =>
    let a := s.src rs1
    let b := s.drew.src rs2
    s.drew.drew.rawResult rd (addPoly a b)) s

/-- PSCL (R115). -/
def execPscl (rd rs1 : PReg) (sel : ModSel) (s : State) : Host.Outcome State Fault Refusal :=
  guarded (s.ringChecks [rs1]) (fun s =>
    let a := s.src rs1
    s.drew.rawResult rd (scalePoly (s.scalar sel) a)) s

/-- PRED (R118). -/
def execPred (rd rs1 : PReg) (sel : ModSel) (rep : RepSel) (s : State) : Host.Outcome State Fault Refusal :=
  guarded (firstReport [s.cfgGate, reduceModulusCheck (s.modulus sel), s.lenCheck rs1]) (fun s =>
    let a := s.src rs1
    (s.drew.writePoly rd (a.map (fun x => represent rep x (s.modulus sel)))).complete) s

/-- PWCK (R119). -/
def execPwck (rs1 : PReg) (s : State) : Host.Outcome State Fault Refusal :=
  guarded (s.ringChecks [rs1]) (fun s =>
    let a := s.src rs1
    let plus := a.countP (fun x => decide (x = 1))
    let minus := a.countP (fun x => decide (x = -1))
    let other := a.countP (fun x => decide (x ≠ -1 ∧ x ≠ 0 ∧ x ≠ 1))
    (s.drew.setWeights plus minus other).complete) s

end Sys2Proof.Machine
end

