-- ==== Sys2Proof/Machine/Dispatch.lean ====
section
/-! DEFINITION. Machine/Dispatch.lean: the meaning of every command of the opcode map (spec/30_encoding.md R84). -/

namespace Sys2Proof.Machine

def exec (i : Instr) (s : State) : Host.Outcome State Fault Refusal :=
  match i with
  | .nop => Sys2Proof.Machine.execNop s
  | .cfgchk => Sys2Proof.Machine.execCfgchk s
  | .pclr rd => Sys2Proof.Machine.execPclr rd s
  | .pmov rd rs1 => Sys2Proof.Machine.execPmov rd rs1 s
  | .pmul rd rs1 rs2 => Sys2Proof.Machine.execPmul rd rs1 rs2 s
  | .padd rd rs1 rs2 => Sys2Proof.Machine.execPadd rd rs1 rs2 s
  | .pscl rd rs1 sel => Sys2Proof.Machine.execPscl rd rs1 sel s
  | .pred rd rs1 sel rep => Sys2Proof.Machine.execPred rd rs1 sel rep s
  | .pinv rd rs1 sel => Sys2Proof.Machine.execPinv rd rs1 sel s
  | .psmp rd w => Sys2Proof.Machine.execPsmp rd w s
  | .pwck rs1 => Sys2Proof.Machine.execPwck rs1 s
  | .nenc rd rs1 rs2 => Sys2Proof.Machine.execNenc rd rs1 rs2 s
  | .nencx rd rs1 rs2 => Sys2Proof.Machine.execNencx rd rs1 rs2 s
  | .ndec rd rs1 rs2 => Sys2Proof.Machine.execNdec rd rs1 rs2 s
  | .benc rd k => Sys2Proof.Machine.execBenc rd k s
  | .bdec rs1 k => Sys2Proof.Machine.execBdec rs1 k s
  | .bfin => Sys2Proof.Machine.execBfin s
  | .senc rs1 => Sys2Proof.Machine.execSenc rs1 s
  | .sdec rs1 rs2 => Sys2Proof.Machine.execSdec rs1 rs2 s

end Sys2Proof.Machine
end

