-- ==== Sys2Proof/Machine/Step.lean ====
section
/-! DEFINITION. Machine/Step.lean: one step of the core and its environment (spec/00_scope.md R18, 60_exceptions.md R222 to
R229): the next event of the agenda, or a turn of the engine when the agenda holds none. -/

namespace Sys2Proof.Machine

/-- A turn of the engine. Idle, it does nothing until the next CMD write (R245). Else it runs the command in CMD, or reports
E_ILLEGAL for a word that is no command (R85). -/
def engineTurn (limit : Option Nat) (s : State) : Host.Outcome State Fault Refusal :=
  if s.status.busy then
    match s.command with
    | .ok i => exec i (s.beginTurn limit)
    | .error _ => .next (s.fail illegalReport)
  else .next s

/-- One step. With nothing on the agenda the engine has a turn without limit (DESIGN CHOICE, log entry 1). -/
def step (s : State) : Host.Outcome State Fault Refusal :=
  match s.agenda with
  | [] => engineTurn none s
  | .engine limit :: rest => engineTurn limit (s.withAgenda rest)
  | .read w off :: rest => busRead w off (s.withAgenda rest)
  | .write w off v :: rest => busWrite w off v (s.withAgenda rest)
  | .offer w :: rest => .next ((s.withAgenda rest).offerWord w)
  | .reset :: rest => .next (s.withAgenda rest).hardReset

/-- The core with the command word `w` issued (R222) and the engine's turn next: the host's CMD write has taken effect, and
the next step runs the command (DESIGN CHOICE, log entry 13). The table's words have 32 bits (R80), bits from `nbits` up being 0. -/
def State.withFetchWord (s : State) (nbits w : Nat) : State :=
  (s.issue (BitVec.ofNat 32 (w % 2 ^ nbits))).withAgenda (.engine none :: s.agenda)

end Sys2Proof.Machine
end

