-- ==== Sys2Proof/Safety.lean ====
section
/-! DEFINITION. Safety.lean: the terms in which claims about the core are stated: the state a run can be in (`Inv`), what a
command may change, and the formulas of the spec's rules in their own words. -/

namespace Sys2Proof.Machine

/-! ### Formulas of the rules -/

/-- conv(a, b)_k of spec/00_scope.md R14: Σ_{i<n} a_i · b_{mod(k − i, n)}. -/
def convCoeff (n : Nat) (a b : Poly) (k : Nat) : Int :=
  (Finset.range n).sum (fun i => a.getD i 0 * b.getD ((k + n - i) % n) 0)

/-- An integer that fits in 32 bits (R12). -/
abbrev Fits32 (x : Int) : Prop := -2147483648 ≤ x ∧ x ≤ 2147483647

/-- A ternary polynomial of `n` coefficients with exactly `np` times +1 and `nm` times −1 (43_sampler.md R156 (a)). -/
structure Ternary (n np nm : Nat) (c : Poly) : Prop where
  length : c.length = n
  plus   : c.count 1 = np
  minus  : c.count (-1) = nm
  zero   : c.count 0 = n - np - nm

/-- `b` is the inverse of `a` in ℤ_m[x]/(xᴺ − 1), with coefficients in [0, m) (42_modular_inverse.md R141). -/
structure IsInverse (n m : Nat) (a b : Poly) : Prop where
  length  : b.length = n
  range   : ∀ x ∈ b, 0 ≤ x ∧ x < m
  product : ∀ k, k < n → convCoeff n a b k % (m : Int) = (if k = 0 then 1 else 0) % (m : Int)

/-- `uniform(n)` of R154 on the words to come: the draw and the words left, or none when they do not suffice. -/
def drawIndex (n : Nat) : List Word → Option (Nat × List Word)
  | [] => none
  | w :: ws => if w.toNat < 2 ^ 32 - 2 ^ 32 % n then some (w.toNat % n, ws) else drawIndex n ws

/-- The loop of R155 from draw `t` on: `todo` draws, each swapping idx[t] with idx[t + uniform(N − t)]. -/
def shuffleFrom (n : Nat) : (todo t : Nat) → List Nat → List Word → Option (List Nat × List Word)
  | 0, _, idx, ws => some (idx, ws)
  | todo + 1, t, idx, ws =>
    match drawIndex (n - t) ws with
    | none => none
    | some (u, ws') => shuffleFrom n todo (t + 1) (swapAt t (t + u) idx) ws'

/-- `sample(N, np, nm)` of R155 on the words to come: the sample and the words left. -/
def sampleFrom (n np nm : Nat) (ws : List Word) : Option (Poly × List Word) :=
  match shuffleFrom n (np + nm) 0 (List.range n) ws with
  | none => none
  | some (idx, ws') => some (ternaryAt n np nm idx, ws')

/-- `count` samples one after the other (46_block_chain.md R200: "block 0's r first, then block 1's, and so on"). -/
def samplesFrom (n np nm : Nat) : (count : Nat) → List Word → Option (List Poly × List Word)
  | 0, ws => some ([], ws)
  | count + 1, ws =>
    match sampleFrom n np nm ws with
    | none => none
    | some (r, ws') =>
      match samplesFrom n np nm count ws' with
      | none => none
      | some (rs, left) => some (r :: rs, left)

/-- e_k of 45_cryptor.md R190: center(conv(r, h)_k + m_k, q). -/
def encryptCoeff (n q : Nat) (r h m : Poly) (k : Nat) : Int := center (convCoeff n r h k + m.getD k 0) q

/-- c_k of R192, by its three lines. -/
def decryptCoeff (n p q : Nat) (f fp e : Poly) (k : Nat) : Int :=
  let a := (List.range n).map (fun i => center (convCoeff n f e i) q)
  let b := a.map (fun x => center x p)
  center (convCoeff n fp b k) p

/-- Bit `j` of the message stream of BBUF (44_codec.md R170), most significant bit of each byte first. -/
def State.streamBit (s : State) (j : Nat) : Bool := (s.byteAt (j / 8)).getMsbD (j % 8)

/-- pb(j) of R170. -/
def State.paddedBit (s : State) (l j : Nat) : Int := if j < 8 * l ∧ s.streamBit j = true then 1 else 0

/-- `mlen` is the length that is left of `l` bytes when their trailing zero bytes are dropped (R174). -/
def TrimmedTo (isZero : Nat → Prop) (l mlen : Nat) : Prop :=
  mlen ≤ l ∧ (∀ i, mlen ≤ i → i < l → isZero i) ∧ (mlen = 0 ∨ ¬ isZero (mlen - 1))

/-! ### What commands read and write -/

/-- The polynomial sources whose length tag a command checks, in the order of R110. -/
def sources : Instr → List PReg
  | .nop | .cfgchk | .pclr _ | .pmov _ _ | .psmp _ _ | .benc _ _ | .bfin => []
  | .pmul _ rs1 rs2 | .padd _ rs1 rs2 | .nenc _ rs1 rs2 | .ndec _ rs1 rs2 | .sdec rs1 rs2 => [rs1, rs2]
  | .pscl _ rs1 _ | .pred _ rs1 _ _ | .pinv _ rs1 _ | .pwck rs1 | .bdec rs1 _ | .senc rs1 => [rs1]
  | .nencx rd rs1 rs2 => [rs1, rs2, rd]

/-- The weights of 43_sampler.md R151: how many coefficients +1 and how many −1. -/
def State.selectedWeights (s : State) : WeightSel → Nat × Nat
  | .f => (s.cfgDf.toNat, s.cfgDf.toNat - 1)
  | .g => (s.cfgDg.toNat, s.cfgDg.toNat)
  | .r => (s.cfgDr.toNat, s.cfgDr.toNat)
  | .x => (s.sampNp.toNat, s.sampNm.toNat)

/-- The argument errors of 60_exceptions.md R221, code 5, (a) to (f), with their ERRINFO. -/
def ArgError (s : State) : Instr → Word → Prop
  | .pred _ _ sel _, info => (s.modulus sel = 0 ∨ 2 ^ 31 - 1 < s.modulus sel) ∧ info = BitVec.ofNat 32 (s.modulus sel)
  | .pinv _ _ sel, info =>
    ¬ (IsPrimePow (s.modulus sel) ∧ s.modulus sel ≤ 2 ^ 31 - 1) ∧ info = BitVec.ofNat 32 (s.modulus sel)
  | .psmp _ w, info =>
    s.n < (s.selectedWeights w).1 + (s.selectedWeights w).2 ∧
      info = BitVec.ofNat 32 ((s.selectedWeights w).1 * 65536 + (s.selectedWeights w).2)
  | .benc _ k, info =>
    (s.build.bmax < s.mlen.toNat ∧ info = BitVec.ofNat 32 s.mlen.toNat) ∨
    (s.mlen.toNat ≤ s.build.bmax ∧ (8 * s.mlen.toNat) ⌈/⌉ s.n ≤ k ∧ info = BitVec.ofNat 32 k)
  | .senc _, info => s.build.bmax < s.mlen.toNat ∧ info = BitVec.ofNat 32 s.mlen.toNat
  | .sdec _ _, info => s.build.cmax < s.clen.toNat ∧ info = BitVec.ofNat 32 s.clen.toNat
  | .nop, _ | .cfgchk, _ | .pclr _, _ | .pmov _ _, _ | .pmul _ _ _, _ | .padd _ _ _, _ | .pscl _ _ _, _ => False
  | .pwck _, _ | .nenc _ _ _, _ | .nencx _ _ _, _ | .ndec _ _ _, _ | .bdec _ _, _ | .bfin, _ => False

/-- The state of a successful completion (60_exceptions.md R224), in full. -/
def State.succeeded (s : State) : State :=
  { s with status := { s.status with busy := false, done := true, rngwait := false, err := .success }, engine := .idle }

/-- The state of a completion with an error (R224, R226, R227), in full: the report and nothing else. -/
def State.reported (s : State) (code : ErrCode) (info : Word) : State :=
  { s with
    status := { s.status with busy := false, done := true, rngwait := false, err := code }
    errcmd := s.cmd
    errinfo := info
    engine := .idle }

/-- `write_poly(rd, c)` of R15, said of the state before and the state after: the slots of rd, its tag, and no other
register. -/
structure WritesPoly (s t : State) (rd : PReg) (c : Nat → Int) : Prop where
  slots  : ∀ i, i < s.build.nmax → t.slot rd i = some (if i < s.n then wrap32 (c i) else 0)
  tag    : t.plen = s.plen.set rd s.cfgN
  others : ∀ k, k ≠ rd → t.p[k] = s.p[k]

/-- The message bits lo, lo + 1, …, hi − 1 that lie in BBUF become `v`; every other bit keeps its value (44_codec.md R173).
`s` is the state as the read that supplies the other bits of a byte sees it. -/
structure WritesBits (s t : State) (lo hi : Nat) (v : Nat → Bool) : Prop where
  touched   : ∀ i, i < s.build.bmax → (∃ j, lo ≤ j ∧ j < hi ∧ j / 8 = i) →
    ∃ b, bufGet t.bbuf i = some b ∧
      ∀ r, r < 8 → b.getMsbD r = if lo ≤ 8 * i + r ∧ 8 * i + r < hi then v (8 * i + r) else s.streamBit (8 * i + r)
  untouched : ∀ i, ¬ (i < s.build.bmax ∧ ∃ j, lo ≤ j ∧ j < hi ∧ j / 8 = i) → bufGet t.bbuf i = bufGet s.bbuf i

/-- Coefficient `j` of a decoded message is a message bit: 0 or 1, and no 1 beyond a BBUF of `bmax` bytes (R173,
46_block_chain.md R201). -/
def MessageBit (bmax : Nat) (c : Nat → Int) (j : Nat) : Prop := (c j = 0 ∨ c j = 1) ∧ (8 * bmax ≤ j → c j = 0)

/-- `j` is what a block at lo … hi − 1 reports (R173, R201): the first coefficient that is no bit, or, when all are bits, the
first 1 beyond a BBUF of `bmax` bytes. -/
def FirstBadBit (bmax : Nat) (c : Nat → Int) (lo hi j : Nat) : Prop :=
  lo ≤ j ∧ j < hi ∧
  ((¬ (c j = 0 ∨ c j = 1) ∧ ∀ i, lo ≤ i → i < j → c i = 0 ∨ c i = 1) ∨
   ((∀ i, lo ≤ i → i < hi → c i = 0 ∨ c i = 1) ∧ 8 * bmax ≤ j ∧ c j = 1 ∧
     ∀ i, 8 * bmax ≤ i → lo ≤ i → i < j → c i = 0))

/-- `j` is the first 1 among the bits after the last whole byte of `t` decoded bits, which do not fill a BBUF of `bmax` bytes
(R174). -/
def FirstPadBit (bmax : Nat) (bit : Nat → Prop) (t j : Nat) : Prop :=
  t < 8 * bmax ∧ 8 * (t / 8) ≤ j ∧ j < t ∧ bit j ∧ ∀ i, 8 * (t / 8) ≤ i → i < j → ¬ bit i

/-- Register k holds the polynomial `c` of N coefficients, and its tag says so. -/
structure State.Holds (s : State) (k : PReg) (c : Poly) : Prop where
  length : c.length = s.n
  tag    : s.plen[k] = s.cfgN
  slots  : ∀ i, i < s.n → ∃ w, s.slot k i = some w ∧ val w = c.getD i 0

/-- No command of the engine is in the middle of its sampling: the next turn starts the command. -/
def State.NotSampling (s : State) : Prop := ∀ src job, s.engine ≠ .sampling src job

/-- What a command samples: the weights, and how many samples in all (R150, R151, 45_cryptor.md R190, R200). -/
def State.samplePlan (s : State) : Instr → Option (Nat × Nat × Nat)
  | .psmp _ w => some ((s.selectedWeights w).1, (s.selectedWeights w).2, 1)
  | .nenc _ _ _ => some (s.cfgDr.toNat, s.cfgDr.toNat, 1)
  | .senc _ => some (s.cfgDr.toNat, s.cfgDr.toNat, (8 * s.mlen.toNat) ⌈/⌉ s.n)
  | .nop | .cfgchk | .pclr _ | .pmov _ _ | .pmul _ _ _ | .padd _ _ _ | .pscl _ _ _ | .pred _ _ _ _ => none
  | .pinv _ _ _ | .pwck _ | .nencx _ _ _ | .ndec _ _ _ | .benc _ _ | .bdec _ _ | .bfin | .sdec _ _ => none

/-- A sampler in flight fits the command `i`, whose arguments passed its checks: the present sample's index list is a
permutation of 0..N−1, a sample that is not drawn has a draw still to make, and the samples drawn have the exact weights
(R155, R156 (a)). -/
structure JobFits (s : State) (i : Instr) (job : Sampling) : Prop where
  checked : ∀ info, ¬ ArgError s i info
  order   : s.samplePlan i = some (job.np, job.nm, job.todo + job.done.length)
  size    : job.n = s.n
  room    : job.np + job.nm ≤ job.n
  draws   : 0 < job.todo → job.t < job.np + job.nm
  perm    : job.idx.Perm (List.range job.n)
  samples : ∀ c ∈ job.done, Ternary job.n job.np job.nm c

/-- The samples that a sampler in flight ends with when the words `ws` are given to it, and the words left: the present
sample goes on at its draw `t`, and the others follow (R155). None when the words do not suffice. -/
def Sampling.drawsFrom (job : Sampling) (ws : List Word) : Option (List Poly × List Word) :=
  if job.todo = 0 then some (job.done, ws)
  else
    match shuffleFrom job.n (job.np + job.nm - job.t) job.t job.idx ws with
    | none => none
    | some (idx, ws') =>
      match samplesFrom job.n job.np job.nm (job.todo - 1) ws' with
      | none => none
      | some (rs, left) => some (job.done ++ ternaryAt job.n job.np job.nm idx :: rs, left)

/-- The engine's turn is one of the sampling command `i`, which takes its words from `src`: `draw` gives the samples the
command ends with, and the words left, when these words are given to it. The command starts, its checks passing, and draws
by R155 (and 46_block_chain.md R200: "block 0's r first, then block 1's, and so on"); or it is in flight and goes on. -/
inductive State.Samples (s : State) (i : Instr) (src : RandSource) : (List Word → Option (List Poly × List Word)) → Prop
  | starts {np nm count : Nat} (issued : s.engine = .issued src) (cfgok : s.status.cfgok = true)
      (arguments : ∀ info, ¬ ArgError s i info) (tags : ∀ k ∈ sources i, s.plen[k] = s.cfgN)
      (plan : s.samplePlan i = some (np, nm, count)) : s.Samples i src (samplesFrom s.n np nm count)
  | resumes {job : Sampling} (flight : s.engine = .sampling src job) (fits : JobFits s i job) :
      s.Samples i src job.drawsFrom

/-- The words the turn may take suffice for the samples `rs`, `left` being left of them, and the turn then has an event left
for the completion (60_exceptions.md R229; log entry 5). -/
def State.Completes (s : State) (src : RandSource) (draw : List Word → Option (List Poly × List Word)) (rs : List Poly)
    (left : List Word) : Prop :=
  draw (s.granted (s.wordsOf src)).1 = some (rs, left) ∧
    ∀ k, s.turnLimit = some k → (s.granted (s.wordsOf src)).1.length - left.length < k

/-- How many draws a sampler in flight has still to make (R155). -/
def Sampling.drawsToMake (job : Sampling) : Nat := job.todo * (job.np + job.nm) - job.t

/-- How many draws the engine has still to make for the command in flight; none when no sampler is. -/
def State.drawsToMake (s : State) : Nat :=
  match s.engine with
  | .sampling _ job => job.drawsToMake
  | .idle => 0
  | .issued _ => 0

/-- SENC's result (46_block_chain.md R200) with the blinding polynomials `rs`: block k in CBUF is the encryption of the
message's block k with the k-th of them, further words keep their values, and CLEN and NBLK say how many. -/
structure WritesCipher (s t : State) (rs1 : PReg) (rs : List Poly) : Prop where
  blocks : ∀ k i, k < rs.length → i < s.n → bufGet t.cbuf (k * s.n + i) =
    some (wrap32 (encryptCoeff s.n s.cfgQ.toNat (rs.getD k []) (s.src rs1)
      ((List.range s.n).map (fun l => s.drew.paddedBit s.mlen.toNat (k * s.n + l))) i))
  others : ∀ j, rs.length * s.n ≤ j → bufGet t.cbuf j = bufGet s.cbuf j
  clen   : t.clen.toNat = rs.length * s.n
  nblk   : t.nblk.toNat = rs.length

/-- What a sampling command writes with the samples `rs` (R150, R190, R200); other commands sample nothing. -/
def WritesSampled (s t : State) (rs : List Poly) : Instr → Prop
  | .psmp rd _ => WritesPoly s t rd (fun k => (rs.getD 0 []).getD k 0)
  | .nenc rd rs1 rs2 => WritesPoly s t rd (encryptCoeff s.n s.cfgQ.toNat (rs.getD 0 []) (s.src rs1) (s.drew.src rs2))
  | .senc rs1 => WritesCipher s t rs1 rs
  | .nop | .cfgchk | .pclr _ | .pmov _ _ | .pmul _ _ _ | .padd _ _ _ | .pscl _ _ _ | .pred _ _ _ _ => True
  | .pinv _ _ _ | .pwck _ | .nencx _ _ _ | .ndec _ _ _ | .benc _ _ | .bdec _ _ | .bfin | .sdec _ _ => True

/-- The register a command writes as a ring result or copy (20_memory.md R67). -/
def destination : Instr → Option PReg
  | .pclr rd | .pmov rd _ | .pmul rd _ _ | .padd rd _ _ | .pscl rd _ _ | .pred rd _ _ _ | .pinv rd _ _ => some rd
  | .psmp rd _ | .nenc rd _ _ | .nencx rd _ _ | .ndec rd _ _ | .benc rd _ => some rd
  | .nop | .cfgchk | .pwck _ | .bdec _ _ | .bfin | .senc _ | .sdec _ _ => none

/-! ### The registers on the bus -/

/-- The value of one bit at its place. -/
def bitValue (i : Nat) (b : Bool) : Nat := if b then 2 ^ i else 0

/-- The code of STATUS.ERR (60_exceptions.md R221). -/
def errNumber : ErrCode → Nat
  | .success => 0
  | .illegal => 1
  | .cfg => 2
  | .len => 3
  | .fmt => 4
  | .arg => 5

/-- STATUS as a number, by the bit places of 10_state.md R28. -/
def statusNumber (t : Status) : Nat :=
  bitValue 0 t.busy + bitValue 1 t.done + bitValue 2 t.cfgok + bitValue 3 t.noinv + bitValue 4 t.tern + bitValue 5 t.ovf
    + bitValue 6 t.cmdovr + bitValue 7 t.busywr + bitValue 8 t.rngovr + bitValue 9 t.rngwait + errNumber t.err * 65536

/-- What the registers read as at any time (10_state.md R26, 20_memory.md R60): offset and value. -/
def State.alwaysReadable (s : State) : List (Nat × Word) :=
  [(0x000, 0x4E545255), (0x004, 0x00010000),
   (0x008, BitVec.ofNat 32 (bitValue 0 s.ctrl.irqen + bitValue 1 (decide (s.ctrl.rsrc = .fifo)))),
   (0x00C, BitVec.ofNat 32 (statusNumber s.status)), (0x010, s.cmd), (0x01C, BitVec.ofNat 32 s.fifo.length)]
  ++
  [(0x020, BitVec.ofNat 32 s.cfgN.toNat), (0x024, BitVec.ofNat 32 s.cfgP.toNat), (0x028, BitVec.ofNat 32 s.cfgQ.toNat),
   (0x02C, BitVec.ofNat 32 s.cfgDf.toNat), (0x030, BitVec.ofNat 32 s.cfgDg.toNat), (0x034, BitVec.ofNat 32 s.cfgDr.toNat),
   (0x038, s.modarg), (0x03C, BitVec.ofNat 32 s.sampNp.toNat), (0x040, BitVec.ofNat 32 s.sampNm.toNat)]
  ++
  [(0x080, BitVec.ofNat 32 s.build.nmax), (0x084, BitVec.ofNat 32 s.build.bmax), (0x088, BitVec.ofNat 32 s.build.cmax),
   (0x08C, BitVec.ofNat 32 s.build.rfifo)]

/-- What the engine's registers read as while BUSY = 0 (R26, R60): offset and value. -/
def State.idleReadable (s : State) : List (Nat × Word) :=
  [(0x014, s.errinfo), (0x018, s.errcmd), (0x044, BitVec.ofNat 32 s.wplus.toNat), (0x048, BitVec.ofNat 32 s.wminus.toNat),
   (0x04C, BitVec.ofNat 32 s.wother.toNat), (0x050, BitVec.ofNat 32 s.mlen.toNat), (0x054, BitVec.ofNat 32 s.clen.toNat),
   (0x058, BitVec.ofNat 32 s.nblk.toNat)]
  ++ (List.finRange 8).map (fun k => (0x060 + 4 * k.val, BitVec.ofNat 32 s.plen[k].toNat))

/-- What a write of `v` to a register does while BUSY = 0 (R26, R30 to R37, R41): offset and state after. A configuration
register also clears CFGOK; a read-only register ignores the write. -/
def State.registerWrites (s : State) (v : Word) : List (Nat × State) :=
  let unchecked := { s.status with cfgok := false }
  [(0x020, { s with cfgN := v.extractLsb' 0 16, status := unchecked }),
   (0x024, { s with cfgP := v.extractLsb' 0 16, status := unchecked }),
   (0x028, { s with cfgQ := v.extractLsb' 0 16, status := unchecked }),
   (0x02C, { s with cfgDf := v.extractLsb' 0 16, status := unchecked }),
   (0x030, { s with cfgDg := v.extractLsb' 0 16, status := unchecked }),
   (0x034, { s with cfgDr := v.extractLsb' 0 16, status := unchecked })]
  ++
  [(0x038, { s with modarg := v }), (0x03C, { s with sampNp := v.extractLsb' 0 16 }),
   (0x040, { s with sampNm := v.extractLsb' 0 16 }), (0x050, { s with mlen := v.extractLsb' 0 16 }),
   (0x054, { s with clen := v.extractLsb' 0 16 }), (0x058, { s with nblk := v.extractLsb' 0 16 })]
  ++ (List.finRange 8).map (fun k => (0x060 + 4 * k.val, { s with plen := s.plen.set k (v.extractLsb' 0 16) }))

/-- The offsets of the read-only registers (R26). -/
def readOnlyOffsets : List Nat :=
  [0x000, 0x004, 0x014, 0x018, 0x044, 0x048, 0x04C, 0x080, 0x084, 0x088, 0x08C]

/-- The reserved offsets among the multiples of 4 (R26, 20_memory.md R54), the unused part of every region included: slots
from NMAX on, BBUF words from BMAX on, CBUF words from CMAX on. -/
def ReservedOffset (b : Config.Build) (off : Nat) : Prop :=
  off = 0x05C ∨ (0x00090 ≤ off ∧ off < 0x01000) ∨ (0x01000 ≤ off ∧ off < 0x09000 ∧ 4 * b.nmax ≤ off % 0x1000) ∨
  (0x09000 + b.bmax ≤ off ∧ off < 0x10000) ∨ (0x10000 + 4 * b.cmax ≤ off ∧ off < 0x40000)

/-- The offsets whose writes are held while a command runs (R26, R54, R59). -/
def BusyHeldOffset (b : Config.Build) (off : Nat) : Prop :=
  (0x020 ≤ off ∧ off < 0x044) ∨ (0x050 ≤ off ∧ off < 0x05C) ∨ (0x060 ≤ off ∧ off < 0x080) ∨
  (0x01000 ≤ off ∧ off < 0x09000 ∧ off % 0x1000 < 4 * b.nmax) ∨ (0x09000 ≤ off ∧ off < 0x09000 + b.bmax ∧ off < 0x0A000) ∨
  (0x10000 ≤ off ∧ off < 0x10000 + 4 * b.cmax ∧ off < 0x40000)

/-- The next event is the reset input, or a host write that resets the core (R260, R261). -/
def State.ResetNext (s : State) : Prop :=
  (∃ rest, s.agenda = .reset :: rest) ∨ (∃ v rest, s.agenda = .write .word 0x008 v :: rest ∧ v.getLsbD 2 = true)

/-- The next event is a host write of 1 to bit `i` of STATUS (R28). -/
def State.ClearNext (s : State) (i : Nat) : Prop :=
  ∃ v rest, s.agenda = .write .word 0x00C v :: rest ∧ v.getLsbD i = true

/-- The parameter check that gives bit `i` of CFGCHK's ERRINFO fails (40_control.md R101, R103). -/
def BadParam (nmax n p q df dg dr : Nat) : Nat → Prop
  | 0 => ¬ n.Prime
  | 1 => nmax < n
  | 2 => p < 2
  | 3 => Nat.gcd p q ≠ 1
  | 4 => q < 8 * p
  | 5 => n < 2 * df
  | 6 => n < 2 * dg
  | 7 => n < 2 * dr
  | 8 => df = 0
  | _ => False

/-! ### The opcode map of R84 -/

/-- The mnemonic column of R84. -/
def mnemonic : Instr → String
  | .nop => "NOP"
  | .cfgchk => "CFGCHK"
  | .pclr _ => "PCLR"
  | .pmov _ _ => "PMOV"
  | .pmul _ _ _ => "PMUL"
  | .padd _ _ _ => "PADD"
  | .pscl _ _ _ => "PSCL"
  | .pred _ _ _ _ => "PRED"
  | .pinv _ _ _ => "PINV"
  | .psmp _ _ => "PSMP"
  | .pwck _ => "PWCK"
  | .nenc _ _ _ => "NENC"
  | .nencx _ _ _ => "NENCX"
  | .ndec _ _ _ => "NDEC"
  | .benc _ _ => "BENC"
  | .bdec _ _ => "BDEC"
  | .bfin => "BFIN"
  | .senc _ => "SENC"
  | .sdec _ _ => "SDEC"

/-- A row of R84: a word w is the command when (w & mask) = pattern, and MSEL ≠ 3 where MSEL is used. -/
structure OpcodeRow where
  name    : String
  pattern : Word
  mask    : Word
  msel    : Bool
deriving DecidableEq, Repr

/-- The rows of R84. -/
def opcodeMap : List OpcodeRow :=
  [⟨"NOP", 0x00000000, 0xFFFFFFFF, false⟩, ⟨"CFGCHK", 0x04000000, 0xFFFFFFFF, false⟩,
   ⟨"PCLR", 0x08000000, 0xFC7FFFFF, false⟩, ⟨"PMOV", 0x0C000000, 0xFC0FFFFF, false⟩,
   ⟨"PMUL", 0x10000000, 0xFC01FFFF, false⟩, ⟨"PADD", 0x14000000, 0xFC01FFFF, false⟩,
   ⟨"PSCL", 0x18000000, 0xFC0E7FFF, true⟩, ⟨"PRED", 0x1C000000, 0xFC0E3FFF, true⟩,
   ⟨"PINV", 0x20000000, 0xFC0E7FFF, true⟩, ⟨"PSMP", 0x24000000, 0xFC7FFFFC, false⟩]
  ++
  [⟨"PWCK", 0x28000000, 0xFF8FFFFF, false⟩, ⟨"NENC", 0x2C000000, 0xFC01FFFF, false⟩,
   ⟨"NENCX", 0x30000000, 0xFC01FFFF, false⟩, ⟨"NDEC", 0x34000000, 0xFC01FFFF, false⟩,
   ⟨"BENC", 0x38000000, 0xFC7FC000, false⟩, ⟨"BDEC", 0x3C000000, 0xFF8FC000, false⟩,
   ⟨"BFIN", 0x40000000, 0xFFFFFFFF, false⟩, ⟨"SENC", 0x44000000, 0xFF8FFFFF, false⟩,
   ⟨"SDEC", 0x48000000, 0xFF81FFFF, false⟩]

/-- The word `w` is a command of the row (R84). -/
def OpcodeRow.matches (row : OpcodeRow) (w : Word) : Prop :=
  w &&& row.mask = row.pattern ∧ (row.msel = true → w.extractLsb' 15 2 ≠ 3)

/-! ### The states a run can be in -/

/-- The parameters CFGCHK accepts (40_control.md R101). -/
structure ValidParams (nmax n p q df dg dr : Nat) : Prop where
  prime    : n.Prime
  capacity : n ≤ nmax
  modulus  : 2 ≤ p
  coprime  : Nat.gcd p q = 1
  ratio    : 8 * p ≤ q
  weightF  : 2 * df ≤ n
  weightG  : 2 * dg ≤ n
  weightR  : 2 * dr ≤ n
  someF    : 1 ≤ df

/-- The configuration registers hold parameters CFGCHK accepts. -/
def State.ConfigValid (s : State) : Prop :=
  ValidParams s.build.nmax s.n s.cfgP.toNat s.cfgQ.toNat s.cfgDf.toNat s.cfgDg.toNat s.cfgDr.toNat

/-- The invariant of every run. -/
structure Inv (s : State) : Prop where
  /-- The core is one that R8 admits. -/
  build   : s.build.Valid
  /-- P, BBUF and CBUF are in canonical form. -/
  memory  : Memory.wf s = true
  /-- The FIFO holds at most RFIFO words (R39). -/
  fifo    : s.fifo.length ≤ s.build.rfifo
  /-- BUSY = 1 exactly while a command is in flight (R44). -/
  busy    : s.status.busy = true ↔ s.engine ≠ .idle
  /-- While BUSY = 1, DONE = 0 and ERR = 0 (R222, R224). -/
  running : s.status.busy = true → s.status.done = false ∧ s.status.err = .success
  /-- RNGWAIT = 1 only while a sampling command waits (R153). -/
  waiting : s.status.rngwait = true → ∃ src job, s.engine = .sampling src job
  /-- CFGOK = 1 only when the present parameters pass CFGCHK (R43). -/
  config  : s.status.cfgok = true → s.ConfigValid
  /-- A sampler in flight is that of the validated command in CMD. -/
  sampler : ∀ src job, s.engine = .sampling src job → s.status.cfgok = true ∧ ∃ i, s.command = .ok i ∧ JobFits s i job

/-- Commands run one after the other, each to its end; none when one does not complete with ERR = 0. -/
def runCommands : List Instr → State → Option State
  | [], s => some s
  | i :: is, s =>
    match exec i s with
    | .next t => if t.status.busy = false ∧ t.status.err = .success then runCommands is t else none
    | .fault _ => none
    | .refused _ => none

end Sys2Proof.Machine
end

