-- ==== Sys2Proof/Certificates/Slice0/Obligations.lean ====
section
/-! DEFINITION. Certificates/Slice0/Obligations.lean: the statements about the core, from the numbered rules of spec/.

A statement on a command that reads unspecified contents holds whatever the draws are (Config.freeWord, Config.freeByte are
opaque). `s.src k` is the source register as the first read of the command sees it, `s.drew.src k` as the second one does,
and so on: they differ in unspecified slots only (OperandsReadStoredValues). -/

section Statements

open Sys2Proof Sys2Proof.Machine

/-! ### Encoding (30_encoding.md) -/

/-- R83, R86: every well-formed command has an encoding that decodes to it, every operand included, and "Each command therefore
has exactly one encoding per operand choice": a word that decodes is the encoding of a well-formed command. -/
def Obligations.DecodeEncodeAgree : Prop :=
  (∀ i : Instr, WellFormed i → decode (encode i) = .ok i) ∧
  (∀ (w : Word) (i : Instr), decode w = .ok i → WellFormed i ∧ encode i = w)

/-- R84: a word is the command of exactly the row of the opcode map that it matches. -/
def Obligations.DecodeFollowsOpcodeMap : Prop :=
  (∀ (w : Word) (i : Instr), decode w = .ok i → ∃ row ∈ opcodeMap, row.name = mnemonic i ∧ row.matches w) ∧
  (∀ (w : Word) (row : OpcodeRow), row ∈ opcodeMap → row.matches w → ∃ i, decode w = .ok i ∧ mnemonic i = row.name)

/-- The encodings of 30_encoding.md R86 and of the encoding check of 95_test_vectors.md, a few of each shape. -/
def Obligations.DecodesSpecWords : Prop :=
  decode 0x00000000 = .ok .nop ∧ decode 0x0B000000 = .ok (.pclr 6) ∧ decode 0x11940000 = .ok (.pmul 3 1 2) ∧
  decode 0x1DB08000 = .ok (.pred 3 3 .q .centred) ∧ decode 0x1F604000 = .ok (.pred 6 6 .p .unsigned) ∧
  decode 0x21008000 = .ok (.pinv 2 0 .q) ∧ decode 0x25800001 = .ok (.psmp 3 .g) ∧ decode 0x28100000 = .ok (.pwck 1) ∧
  decode 0x374A0000 = .ok (.ndec 6 4 5) ∧ decode 0x3C200BA3 = .ok (.bdec 2 2979) ∧ decode 0x48020000 = .ok (.sdec 0 1)

/-- R85: the words that are no command, and what running one does; no word but 0 runs as a no-op. That the engine has a turn
when the agenda is empty, so that the last clause's step is the report, is the model's choice (log entry 1). -/
def Obligations.IllegalWordsReportIllegal : Prop :=
  (∀ w : Word, (∃ e, decode w = .error e) ↔ ∀ row ∈ opcodeMap, ¬ row.matches w) ∧
  (∀ w : Word, 0x13 ≤ w.toNat / 2 ^ 26 → ∃ e, decode w = .error e) ∧
  (∀ w : Word, decode w = .ok .nop ↔ w = 0) ∧
  (∀ (s : State) (e : Illegal), s.status.busy = true → decode s.cmd = .error e →
    (∀ limit rest, s.agenda = .engine limit :: rest → step s = .next ({ s with agenda := rest }.reported .illegal 0)) ∧
    (s.agenda = [] → step s = .next (s.reported .illegal 0)))

/-! ### Steps -/

/-- A turn of the running engine is exec of the command in CMD; `withFetchWord` is the issue of a word with that turn next
(the model's own way to place a command: log entry 13); and an idle engine does nothing (R245). That the engine has a turn
when the agenda is empty, and that this turn has no limit, is the model's choice (log entry 1). -/
def Obligations.StepRunsDecodedCommand : Prop :=
  (∀ (s : State) (i : Instr), s.status.busy = true → decode s.cmd = .ok i →
    (∀ limit rest, s.agenda = .engine limit :: rest → step s = exec i { s with agenda := rest, turnLimit := limit }) ∧
    (s.agenda = [] → step s = exec i { s with turnLimit := none })) ∧
  (∀ (s : State) (nbits w : Nat) (i : Instr), decode (BitVec.ofNat 32 (w % 2 ^ nbits)) = .ok i →
    step (s.withFetchWord nbits w) =
      exec i { s with
        cmd := BitVec.ofNat 32 (w % 2 ^ nbits)
        status := { s.status with busy := true, done := false, err := .success }
        engine := .issued s.ctrl.rsrc
        turnLimit := none }) ∧
  (∀ s : State, s.status.busy = false →
    (∀ limit rest, s.agenda = .engine limit :: rest → step s = .next { s with agenda := rest }) ∧
    (s.agenda = [] → step s = .next s))

/-- R246: no condition of the core stops it. A step stops on a host access outside the window only (log entry 9), and no
instruction is refused. -/
def Obligations.StepStopsOnlyOutsideWindow : Prop :=
  ∀ s : State,
    (∀ r, step s ≠ .refused r) ∧
    (∀ f, step s = .fault f ↔
      ∃ off, f = .outsideWindow off ∧ 0x40000 ≤ off ∧
        ((∃ w rest, s.agenda = .read w off :: rest) ∨ (∃ w v rest, s.agenda = .write w off v :: rest)))

/-- R222: the issue of a word. -/
def Obligations.CmdWriteIssues : Prop :=
  ∀ (s : State) (w : Word) (rest : List Event),
    s.agenda = .write .word 0x010 w :: rest → s.status.busy = false →
    ∃ t, step s = .next t ∧ t.bus.error = false ∧ t.irq = false ∧
      t = { s with
        agenda := rest
        bus := t.bus
        cmd := w
        status := { s.status with busy := true, done := false, err := .success }
        engine := .issued s.ctrl.rsrc } ∧
      (∀ i limit, decode w = .ok i → engineTurn limit t = exec i { t with turnLimit := limit })

/-- R223: a CMD write while a command runs. -/
def Obligations.CmdWriteWhileBusyIsDropped : Prop :=
  ∀ (s : State) (w : Word) (rest : List Event),
    s.agenda = .write .word 0x010 w :: rest → s.status.busy = true →
    ∃ t, step s = .next t ∧ t.bus.error = false ∧
      t = { s with agenda := rest, bus := t.bus, status := { s.status with cmdovr := true } }

/-! ### Reset and the invariant -/

/-- R47: the reset values of all state, on this hardware, and the constants of the CAP registers on every build (R8, R40). -/
def Obligations.ResetValues : Prop :=
  (State.reset.readValue (locOf Config.thisHardware 0x000) = 0x4E545255 ∧
    State.reset.readValue (locOf Config.thisHardware 0x004) = 0x00010000 ∧
    State.reset.readValue (locOf Config.thisHardware 0x080) = 1024 ∧
    State.reset.readValue (locOf Config.thisHardware 0x084) = 4096 ∧
    State.reset.readValue (locOf Config.thisHardware 0x088) = 33792 ∧
    State.reset.readValue (locOf Config.thisHardware 0x08C) = 64) ∧
  (∀ b : Config.Build, b.Valid → (State.resetOf b).build = b ∧
    ((State.resetOf b).readValue (locOf b 0x080)).toNat = b.nmax ∧
    ((State.resetOf b).readValue (locOf b 0x084)).toNat = b.bmax ∧
    ((State.resetOf b).readValue (locOf b 0x088)).toNat = b.cmax ∧
    ((State.resetOf b).readValue (locOf b 0x08C)).toNat = b.rfifo) ∧
  State.reset.ctrl = ⟨false, .port⟩ ∧ statusNumber State.reset.status = 0 ∧
  State.reset.cmd = 0 ∧ State.reset.errinfo = 0 ∧ State.reset.errcmd = 0 ∧ State.reset.fifo = [] ∧
  State.reset.cfgN = 0 ∧ State.reset.cfgP = 0 ∧ State.reset.cfgQ = 0 ∧
  State.reset.cfgDf = 0 ∧ State.reset.cfgDg = 0 ∧ State.reset.cfgDr = 0 ∧
  State.reset.modarg = 0 ∧ State.reset.sampNp = 0 ∧ State.reset.sampNm = 0 ∧
  State.reset.wplus = 0 ∧ State.reset.wminus = 0 ∧ State.reset.wother = 0 ∧
  State.reset.mlen = 0 ∧ State.reset.clen = 0 ∧ State.reset.nblk = 0 ∧
  (∀ k : PReg, State.reset.plen[k] = 0) ∧
  (∀ (k : PReg) (i : Nat), State.reset.slot k i = none) ∧
  (∀ i, bufGet State.reset.bbuf i = none) ∧ (∀ i, bufGet State.reset.cbuf i = none) ∧
  State.reset.engine = .idle ∧ State.reset.irq = false

/-- R260 and R261: the reset input and a CTRL write with SRST = 1, at any time, give the reset values to every piece of
state of the core, whatever its build. The model's own choices: words offered on the entropy port stay offered (log entry 4),
and the fields agenda, bus, draws and turnLimit go on (log entry 7). -/
def Obligations.ResetsGiveResetValues : Prop :=
  (∀ (s : State) (rest : List Event), s.agenda = .reset :: rest →
    ∃ t, step s = .next t ∧
      t = { State.resetOf s.build with
        entropy := s.entropy, agenda := rest, bus := t.bus, draws := t.draws, turnLimit := t.turnLimit }) ∧
  (∀ (s : State) (v : Word) (rest : List Event), s.agenda = .write .word 0x008 v :: rest → v.getLsbD 2 = true →
    ∃ t, step s = .next t ∧ t.bus.error = false ∧
      t = { State.resetOf s.build with
        entropy := s.entropy, agenda := rest, bus := t.bus, draws := t.draws, turnLimit := t.turnLimit })

/-- The invariant holds right after reset, of this hardware and of every build that R8 admits. -/
def Obligations.ResetMeetsInvariant : Prop :=
  Inv State.reset ∧ ∀ b : Config.Build, b.Valid → Inv (State.resetOf b)

/-- Every step keeps the invariant: a build that R8 admits, canonical contents, a FIFO of at most RFIFO words, BUSY = 1
exactly while a command is in flight, DONE = 0 and ERR = 0 while it runs, RNGWAIT = 1 only while it samples, CFGOK = 1 only
for parameters that pass CFGCHK, and a sampler that fits its command. No step changes the build. -/
def Obligations.StepKeepsInvariant : Prop :=
  ∀ s t : State, Inv s → step s = .next t → Inv t ∧ t.build = s.build

/-! ### Whole-machine rules -/

/-- R224: a command completes, by a success or by an error, or is a sampling command and goes on; no command does anything
else. R224 says that it completes exactly once. That a command other than a sampling one completes in the first turn of the
engine is the model's (log entry 15, DEDUCED from R62, R64 and R269; R270 gives it any number of engine steps). -/
def Obligations.CommandsCompleteOnce : Prop :=
  ∀ (i : Instr) (s : State), ∃ t, exec i s = .next t ∧
    ((t.engine = .idle ∧ t.status.busy = false ∧ t.status.done = true ∧ t.status.rngwait = false ∧
        (t.status.err = .success → t.errcmd = s.errcmd ∧ t.errinfo = s.errinfo) ∧
        (t.status.err ≠ .success → t.errcmd = s.cmd)) ∨
     ((s.samplePlan i).isSome = true ∧ (∃ src job, t.engine = .sampling src job) ∧ t.status.busy = s.status.busy ∧
        t.status.done = s.status.done ∧ t.status.err = s.status.err ∧ t.errcmd = s.errcmd ∧ t.errinfo = s.errinfo))

/-- R226: a command that fails changes the report and nothing else, but for CFGOK of a failing CFGCHK and BBUF of an SDEC
that fails after its pre-checks. No word of the FIFO or of the entropy port is taken. (draws: the model's own count.) -/
def Obligations.ErrorsAreAtomic : Prop :=
  ∀ (i : Instr) (s t : State), Inv s → s.status.busy = true → s.command = .ok i →
    exec i s = .next t → t.status.err ≠ .success →
    t = { s with
      status := { s.status with busy := false, done := true, rngwait := false, err := t.status.err, cfgok := t.status.cfgok }
      errcmd := s.cmd
      errinfo := t.errinfo
      engine := .idle
      bbuf := t.bbuf
      draws := t.draws } ∧
    (t.status.cfgok = s.status.cfgok ∨ (i = .cfgchk ∧ t.status.cfgok = false)) ∧
    (t.bbuf = s.bbuf ∨ ((∃ rs1 rs2, i = .sdec rs1 rs2) ∧ t.status.err = .fmt ∧ ∀ j, bufGet t.bbuf j = none))

/-- 20_memory.md R67, and R28, R42 for the flags: what each command writes, whether it completes, fails or waits. -/
def Obligations.CommandFootprint : Prop :=
  ∀ (i : Instr) (s t : State), exec i s = .next t →
    (t.ctrl = s.ctrl ∧ t.cmd = s.cmd ∧ t.cfgN = s.cfgN ∧ t.cfgP = s.cfgP ∧ t.cfgQ = s.cfgQ ∧ t.cfgDf = s.cfgDf ∧
      t.cfgDg = s.cfgDg ∧ t.cfgDr = s.cfgDr ∧ t.modarg = s.modarg ∧ t.sampNp = s.sampNp ∧ t.sampNm = s.sampNm ∧
      t.agenda = s.agenda ∧ t.bus = s.bus ∧ t.build = s.build ∧ t.status.cmdovr = s.status.cmdovr ∧ t.status.busywr = s.status.busywr ∧
      t.status.rngovr = s.status.rngovr) ∧
    (∀ k, destination i ≠ some k → t.p[k] = s.p[k] ∧ t.plen[k] = s.plen[k]) ∧
    ((∀ rs1, i ≠ .pwck rs1) →
      t.wplus = s.wplus ∧ t.wminus = s.wminus ∧ t.wother = s.wother ∧ t.status.tern = s.status.tern) ∧
    ((∀ rd rs1 sel, i ≠ .pinv rd rs1 sel) → t.status.noinv = s.status.noinv) ∧
    (i ≠ .cfgchk → t.status.cfgok = s.status.cfgok) ∧
    ((∀ rd rs1 rs2, i ≠ .pmul rd rs1 rs2 ∧ i ≠ .padd rd rs1 rs2) → (∀ rd rs1 sel, i ≠ .pscl rd rs1 sel) →
      t.status.ovf = s.status.ovf) ∧
    (s.status.ovf = true → t.status.ovf = true) ∧
    ((i ≠ .bfin ∧ ∀ rs1 rs2, i ≠ .sdec rs1 rs2) → t.mlen = s.mlen) ∧
    ((∀ k l, i ≠ .benc k l ∧ i ≠ .bdec k l) → (∀ k l, i ≠ .senc k ∧ i ≠ .sdec k l) → t.nblk = s.nblk) ∧
    ((∀ rs1, i ≠ .senc rs1) → t.clen = s.clen ∧ t.cbuf = s.cbuf) ∧
    ((∀ k l r, i ≠ .bdec k l ∧ i ≠ .sdec k r) → t.bbuf = s.bbuf) ∧
    (s.samplePlan i = none → t.fifo = s.fifo ∧ t.entropy = s.entropy)

/-- R28, R42, R112: OVF, CMDOVR, BUSYWR and RNGOVR go from 1 to 0 only by a host write of 1 to the bit, or by a reset. -/
def Obligations.StickyBitsClearedByHostOnly : Prop :=
  ∀ s t : State, step s = .next t → ¬ s.ResetNext →
    (s.status.ovf = true → t.status.ovf = false → s.ClearNext 5) ∧
    (s.status.cmdovr = true → t.status.cmdovr = false → s.ClearNext 6) ∧
    (s.status.busywr = true → t.status.busywr = false → s.ClearNext 7) ∧
    (s.status.rngovr = true → t.status.rngovr = false → s.ClearNext 8)

/-- R230: irq = IRQEN ∧ DONE, and it rises by the completion of a command, or by the host's enabling it while DONE = 1. -/
def Obligations.InterruptFollowsCompletion : Prop :=
  (∀ s : State, s.irq = true ↔ s.ctrl.irqen = true ∧ s.status.done = true) ∧
  (∀ s t : State, step s = .next t → s.irq = false → t.irq = true →
    (s.status.busy = true ∧ t.status.busy = false) ∨
    (s.status.done = true ∧ ∃ v rest, s.agenda = .write .word 0x008 v :: rest ∧ v.getLsbD 0 = true))

/-! ### Checks (R225), in their order -/

/-- R102: the configuration gate. -/
def Obligations.ConfigGate : Prop :=
  ∀ (i : Instr) (s : State), i ≠ .nop → i ≠ .cfgchk → s.NotSampling → s.status.cfgok = false →
    exec i s = .next (s.reported .cfg 0)

/-- R221, code 5, (a) to (f): the argument errors, with their ERRINFO; after the gate, before every other check. -/
def Obligations.ArgumentChecks : Prop :=
  ∀ (i : Instr) (s : State) (info : Word), s.NotSampling → s.status.cfgok = true → ArgError s i info →
    exec i s = .next (s.reported .arg info)

/-- R110: the first source register, in the order RS1, RS2, RD, whose length tag is not N; after the argument checks. -/
def Obligations.LengthChecks : Prop :=
  ∀ (i : Instr) (s : State) (before after : List PReg) (k : PReg), s.NotSampling → s.status.cfgok = true →
    (∀ info, ¬ ArgError s i info) → sources i = before ++ k :: after → (∀ j ∈ before, s.plen[j] = s.cfgN) →
    s.plen[k] ≠ s.cfgN →
    exec i s = .next (s.reported .len (BitVec.ofNat 32 (s.plen[k].toNat * 65536 + k.val)))

/-- R221, code 4, (a) and (b): the format checks that need no computation; after the length checks. -/
def Obligations.FormatPrechecks : Prop :=
  (∀ (rd rs1 rs2 : PReg) (s : State), s.status.cfgok = true → s.plen[rs1] = s.cfgN → s.plen[rs2] = s.cfgN →
    s.n < s.plen[rd].toNat →
    exec (.ndec rd rs1 rs2) s = .next (s.reported .fmt (BitVec.ofNat 32 s.plen[rd].toNat))) ∧
  (∀ (rs1 rs2 : PReg) (s : State), s.status.cfgok = true → s.plen[rs1] = s.cfgN → s.plen[rs2] = s.cfgN →
    s.clen.toNat ≤ s.build.cmax → ¬ s.n ∣ s.clen.toNat →
    exec (.sdec rs1 rs2) s = .next (s.reported .fmt (BitVec.ofNat 32 s.clen.toNat)))

/-! ### Control commands -/

/-- R100: NOP completes in every state, with no other effect. -/
def Obligations.NopCompletes : Prop :=
  ∀ s : State, exec .nop s = .next s.succeeded

/-- R101, R103: CFGCHK sets CFGOK when every invariant holds, else it clears it and reports the bits of those that fail. -/
def Obligations.CfgchkValidates : Prop :=
  (∀ s : State, s.ConfigValid →
    exec .cfgchk s = .next { s.succeeded with status := { s.succeeded.status with cfgok := true } }) ∧
  (∀ s : State, ¬ s.ConfigValid →
    ∃ t, exec .cfgchk s = .next t ∧
      (∀ b, b < 32 → (t.errinfo.getLsbD b = true ↔
        BadParam s.build.nmax s.n s.cfgP.toNat s.cfgQ.toNat s.cfgDf.toNat s.cfgDg.toNat s.cfgDr.toNat b)) ∧
      t = { s.reported .cfg t.errinfo with status := { (s.reported .cfg t.errinfo).status with cfgok := false } })

/-! ### Ring commands -/

/-- What a read of a source gives: the stored value wherever there is one (R15, R170; elsewhere a draw, log entry 2); NDEC's
ciphertext operand is 0 from its tag on. -/
def Obligations.OperandsReadStoredValues : Prop :=
  (∀ (s : State) (k : PReg) (i : Nat) (w : Word), i < s.n → s.slot k i = some w → (s.src k).getD i 0 = w.toInt) ∧
  (∀ (s : State) (k : PReg) (i : Nat) (w : Word), i < s.n → i < s.plen[k].toNat → s.slot k i = some w →
    (s.srcExt k).getD i 0 = w.toInt) ∧
  (∀ (s : State) (k : PReg) (i : Nat), i < s.n → s.plen[k].toNat ≤ i → (s.srcExt k).getD i 0 = 0) ∧
  (∀ (s : State) (k i : Nat) (w : Word), i < s.n → bufGet s.cbuf (k * s.n + i) = some w →
    (s.cipherBlock k).getD i 0 = w.toInt) ∧
  (∀ (s : State) (j : Nat) (b : Byte), bufGet s.bbuf (j / 8) = some b → s.streamBit j = b.getLsbD (7 - j % 8)) ∧
  (∀ (s : State) (k : PReg), (s.src k).length = s.n ∧ s.drew.p = s.p ∧ s.drew.bbuf = s.bbuf ∧ s.drew.cbuf = s.cbuf)

/-- R116: PCLR. -/
def Obligations.PclrZeroes : Prop :=
  ∀ (rd : PReg) (s : State), s.status.cfgok = true →
    ∃ t, exec (.pclr rd) s = .next t ∧ WritesPoly s t rd (fun _ => 0) ∧
      t = { s.succeeded with p := t.p, plen := t.plen }

/-- R117: PMOV copies every slot, unspecified ones as unspecified, and the tag. -/
def Obligations.PmovCopies : Prop :=
  ∀ (rd rs1 : PReg) (s : State), s.status.cfgok = true →
    ∃ t, exec (.pmov rd rs1) s = .next t ∧
      (∀ i, t.slot rd i = s.slot rs1 i) ∧ t.plen[rd] = s.plen[rs1] ∧
      (∀ k, k ≠ rd → t.p[k] = s.p[k] ∧ t.plen[k] = s.plen[k]) ∧
      t = { s.succeeded with p := t.p, plen := t.plen }

/-- R113, R112: PMUL. -/
def Obligations.PmulConvolves : Prop :=
  ∀ (rd rs1 rs2 : PReg) (s : State), s.status.cfgok = true → s.plen[rs1] = s.cfgN → s.plen[rs2] = s.cfgN →
    ∃ t, exec (.pmul rd rs1 rs2) s = .next t ∧
      WritesPoly s t rd (convCoeff s.n (s.src rs1) (s.drew.src rs2)) ∧
      (t.status.ovf = true ↔
        s.status.ovf = true ∨ ∃ k, k < s.n ∧ ¬ Fits32 (convCoeff s.n (s.src rs1) (s.drew.src rs2) k)) ∧
      t = { s.succeeded with
        p := t.p, plen := t.plen, draws := t.draws, status := { s.succeeded.status with ovf := t.status.ovf } }

/-- R114, R112: PADD. -/
def Obligations.PaddAdds : Prop :=
  ∀ (rd rs1 rs2 : PReg) (s : State), s.status.cfgok = true → s.plen[rs1] = s.cfgN → s.plen[rs2] = s.cfgN →
    ∃ t, exec (.padd rd rs1 rs2) s = .next t ∧
      WritesPoly s t rd (fun k => (s.src rs1).getD k 0 + (s.drew.src rs2).getD k 0) ∧
      (t.status.ovf = true ↔
        s.status.ovf = true ∨ ∃ k, k < s.n ∧ ¬ Fits32 ((s.src rs1).getD k 0 + (s.drew.src rs2).getD k 0)) ∧
      t = { s.succeeded with
        p := t.p, plen := t.plen, draws := t.draws, status := { s.succeeded.status with ovf := t.status.ovf } }

/-- R115, R112: PSCL; the scalar is CFG_P or CFG_Q zero-extended, or MODARG sign-extended. -/
def Obligations.PsclScales : Prop :=
  ∀ (rd rs1 : PReg) (sel : ModSel) (x : Int) (s : State), s.status.cfgok = true → s.plen[rs1] = s.cfgN →
    (sel = .p → x = s.cfgP.toNat) → (sel = .q → x = s.cfgQ.toNat) → (sel = .m → x = s.modarg.toInt) →
    ∃ t, exec (.pscl rd rs1 sel) s = .next t ∧
      WritesPoly s t rd (fun k => x * (s.src rs1).getD k 0) ∧
      (t.status.ovf = true ↔ s.status.ovf = true ∨ ∃ k, k < s.n ∧ ¬ Fits32 (x * (s.src rs1).getD k 0)) ∧
      t = { s.succeeded with
        p := t.p, plen := t.plen, draws := t.draws, status := { s.succeeded.status with ovf := t.status.ovf } }

/-- R118: PRED; every coefficient becomes the representative of its class in (−m/2, m/2] or in [0, m). -/
def Obligations.PredReduces : Prop :=
  ∀ (rd rs1 : PReg) (sel : ModSel) (rep : RepSel) (m : Nat) (s : State), s.status.cfgok = true → s.plen[rs1] = s.cfgN →
    (sel = .p → m = s.cfgP.toNat) → (sel = .q → m = s.cfgQ.toNat) → (sel = .m → m = s.modarg.toNat) →
    1 ≤ m → m ≤ 2 ^ 31 - 1 →
    ∃ t c, exec (.pred rd rs1 sel rep) s = .next t ∧ WritesPoly s t rd c ∧
      (∀ k, k < s.n → (m : Int) ∣ c k - (s.src rs1).getD k 0 ∧
        (rep = .centred → -(m : Int) < 2 * c k ∧ 2 * c k ≤ m) ∧ (rep = .unsigned → 0 ≤ c k ∧ c k < m)) ∧
      t = { s.succeeded with p := t.p, plen := t.plen, draws := t.draws }

/-- R119: PWCK counts the coefficients +1, −1 and those outside {−1, 0, +1}; no polynomial register is written. -/
def Obligations.PwckCounts : Prop :=
  ∀ (rs1 : PReg) (s : State), s.status.cfgok = true → s.plen[rs1] = s.cfgN →
    ∃ t, exec (.pwck rs1) s = .next t ∧
      t.wplus.toNat = (s.src rs1).count 1 ∧ t.wminus.toNat = (s.src rs1).count (-1) ∧
      t.wother.toNat + (s.src rs1).count 1 + (s.src rs1).count (-1) + (s.src rs1).count 0 = s.n ∧
      (t.status.tern = true ↔ ∀ x ∈ s.src rs1, x = -1 ∨ x = 0 ∨ x = 1) ∧
      t = { s.succeeded with
        wplus := t.wplus, wminus := t.wminus, wother := t.wother, draws := t.draws
        status := { s.succeeded.status with tern := t.status.tern } }

/-- R120: the laws of the exact ring operations. -/
def Obligations.ConvolutionLaws : Prop :=
  ∀ (n m : Nat) (a b c : Poly), a.length = n → b.length = n → c.length = n → 1 ≤ m →
    conv a b = conv b a ∧ conv (conv a b) c = conv a (conv b c) ∧
    conv a (addPoly b c) = addPoly (conv a b) (conv a c) ∧ conv a (identityPoly n) = a ∧
    centerPoly m (conv a b) = centerPoly m (conv (centerPoly m a) (centerPoly m b))

/-! ### The inverse -/

/-- R141: PINV writes an inverse and clears NOINV, or leaves the register and sets NOINV; ERR is 0 either way. -/
def Obligations.PinvResultIsInverse : Prop :=
  ∀ (rd rs1 : PReg) (sel : ModSel) (s : State), s.status.cfgok = true → s.plen[rs1] = s.cfgN →
    IsPrimePow (s.modulus sel) → s.modulus sel ≤ 2 ^ 31 - 1 →
    ∃ t, exec (.pinv rd rs1 sel) s = .next t ∧
      ((t.status.noinv = false ∧
          ∃ b, IsInverse s.n (s.modulus sel) (s.src rs1) b ∧ WritesPoly s t rd (fun k => b.getD k 0)) ∨
       (t.status.noinv = true ∧ t.p = s.p ∧ t.plen = s.plen)) ∧
      t = { s.succeeded with
        p := t.p, plen := t.plen, draws := t.draws, status := { s.succeeded.status with noinv := t.status.noinv } }

/-- R141: in every ring that CFGCHK accepts, PINV finds the inverse whenever there is one. -/
def Obligations.PinvFindsEveryInverse : Prop :=
  ∀ (rd rs1 : PReg) (sel : ModSel) (s : State), s.status.cfgok = true → s.n.Prime → s.plen[rs1] = s.cfgN →
    IsPrimePow (s.modulus sel) → s.modulus sel ≤ 2 ^ 31 - 1 →
    (∃ b, IsInverse s.n (s.modulus sel) (s.src rs1) b) →
    ∃ t, exec (.pinv rd rs1 sel) s = .next t ∧ t.status.noinv = false

/-! ### The sampler -/

/-- R150, R151: PSMP, in a turn that completes it: a turn that starts it, or one that resumes it, whether it waited or not
(R153). `Samples` is what it draws and from which words, `Completes` that the words and the turn's limit suffice (the limit
is the model's: log entry 5). -/
def Obligations.PsmpDrawsSample : Prop :=
  ∀ (rd : PReg) (w : WeightSel) (s : State) (src : RandSource) (draw : List Word → Option (List Poly × List Word))
    (rs : List Poly) (left : List Word), s.Samples (.psmp rd w) src draw → s.Completes src draw rs left →
    ∃ t, exec (.psmp rd w) s = .next t ∧ WritesPoly s t rd (fun k => (rs.getD 0 []).getD k 0) ∧
      t = { (s.withWords src (left ++ (s.granted (s.wordsOf src)).2)).succeeded with p := t.p, plen := t.plen }

/-- R156 (a): whatever the words and however many turns they took, each sample a command completes with (PSMP's, the r of
NENC, the r of each block of SENC) has exactly np times +1, nm times −1 and 0 elsewhere. -/
def Obligations.SamplesHaveExactWeights : Prop :=
  ∀ (i : Instr) (s t : State) (np nm count : Nat), Inv s → s.status.busy = true → s.command = .ok i →
    s.samplePlan i = some (np, nm, count) → exec i s = .next t → t.status.busy = false → t.status.err = .success →
    ∃ rs : List Poly, rs.length = count ∧ (∀ r ∈ rs, Ternary s.n np nm r) ∧ WritesSampled s t rs i

/-- R153, R229: a sampling command that does not complete in its turn, for want of words or because the turn has no event left
for the completion (limit: log entry 5), keeps a sampler that ends as it would have with the words taken and those to come.
RNGWAIT is 1 when it asks for a word there is not, and falls when a word is taken; in a turn without an event it falls when
there is a word (log entry 6). Nothing else changes. -/
def Obligations.SamplingWaits : Prop :=
  ∀ (i : Instr) (s : State) (src : RandSource) (draw : List Word → Option (List Poly × List Word)),
    s.Samples i src draw → (∀ rs left, ¬ s.Completes src draw rs left) →
    ∃ job wait, exec i s = .next { s.withWords src (s.granted (s.wordsOf src)).2 with
        status := { s.status with rngwait := wait }
        engine := .sampling src job } ∧
      (∀ ws, job.drawsFrom ws = draw ((s.granted (s.wordsOf src)).1 ++ ws)) ∧
      (s.turnLimit = none → wait = true) ∧
      (s.turnLimit = some 0 → wait = (s.status.rngwait && (s.wordsOf src).isEmpty)) ∧
      (∀ k, s.turnLimit = some (k + 1) → (wait = true ↔ (s.wordsOf src).length ≤ k))

/-- R153, R155, R229: a sampling command that stays in flight after a turn (of at most k events: log entry 5), and whose next
turn finds the words left together with words that came meanwhile, whether it waited or not, goes on and ends as if it had
found them all at once. -/
def Obligations.SamplingResumes : Prop :=
  ∀ (i : Instr) (s t : State) (limit : Option Nat) (src : RandSource) (job : Sampling) (more : List Word),
    exec i { s with turnLimit := limit } = .next t → t.engine = .sampling src job →
    exec i { t.withWords src (t.wordsOf src ++ more) with turnLimit := none } =
      exec i { s.withWords src (s.wordsOf src ++ more) with turnLimit := none }

/-- R152, R154, R155, R267: a turn of a sampling command takes words from the front of its source and none elsewhere, at least
one for each draw it makes. So a command takes at least np + nm words for each of its samples, in all its turns together; and
none when it has no draw to make. -/
def Obligations.SamplesTakeWordsInOrder : Prop :=
  ∀ (i : Instr) (s t : State) (src : RandSource) (draw : List Word → Option (List Poly × List Word)),
    s.Samples i src draw → exec i s = .next t →
    (∀ other, other ≠ src → t.wordsOf other = s.wordsOf other) ∧
    ∃ used, s.wordsOf src = used ++ t.wordsOf src ∧
      (∀ np nm count, s.engine = .issued src → s.samplePlan i = some (np, nm, count) →
        count * (np + nm) ≤ used.length + t.drawsToMake ∧ (count * (np + nm) = 0 → used = [])) ∧
      (∀ job, s.engine = .sampling src job →
        job.drawsToMake ≤ used.length + t.drawsToMake ∧ (job.drawsToMake = 0 → used = []))

/-! ### The cryptor -/

/-- R190: NENC, in a turn that completes it, started or resumed (R153; `Samples`, `Completes`: log entry 5). -/
def Obligations.NencEncrypts : Prop :=
  ∀ (rd rs1 rs2 : PReg) (s : State) (src : RandSource) (draw : List Word → Option (List Poly × List Word))
    (rs : List Poly) (left : List Word), s.Samples (.nenc rd rs1 rs2) src draw → s.Completes src draw rs left →
    ∃ t, exec (.nenc rd rs1 rs2) s = .next t ∧
      WritesPoly s t rd (encryptCoeff s.n s.cfgQ.toNat (rs.getD 0 []) (s.src rs1) (s.drew.src rs2)) ∧
      t = { (s.withWords src (left ++ (s.granted (s.wordsOf src)).2)).succeeded with
        p := t.p, plen := t.plen, draws := t.draws }

/-- R191: NENCX. -/
def Obligations.NencxEncrypts : Prop :=
  ∀ (rd rs1 rs2 : PReg) (s : State), s.status.cfgok = true →
    s.plen[rs1] = s.cfgN → s.plen[rs2] = s.cfgN → s.plen[rd] = s.cfgN →
    ∃ t, exec (.nencx rd rs1 rs2) s = .next t ∧
      WritesPoly s t rd (encryptCoeff s.n s.cfgQ.toNat (s.src rd) (s.drew.src rs1) (s.drew.drew.src rs2)) ∧
      t = { s.succeeded with p := t.p, plen := t.plen, draws := t.draws }

/-- R192: NDEC. -/
def Obligations.NdecDecrypts : Prop :=
  ∀ (rd rs1 rs2 : PReg) (s : State), s.status.cfgok = true →
    s.plen[rs1] = s.cfgN → s.plen[rs2] = s.cfgN → s.plen[rd].toNat ≤ s.n →
    ∃ t, exec (.ndec rd rs1 rs2) s = .next t ∧
      WritesPoly s t rd
        (decryptCoeff s.n s.cfgP.toNat s.cfgQ.toNat (s.drew.src rs1) (s.drew.drew.src rs2) (s.srcExt rd)) ∧
      t = { s.succeeded with p := t.p, plen := t.plen, draws := t.draws }

/-- R193: with matching keys, NENCX and then NDEC give the message block back, when every coefficient of
p·conv(r, g) + conv(f, m) lies in (−q/2, q/2]. rd = kf and rd = kfp are left out because NENCX writes the ciphertext over
the key there (R191, R266), which NDEC then reads. -/
def Obligations.DecryptionRecoversMessage : Prop :=
  ∀ (s : State) (rd kh km kf kfp : PReg) (r h m f fp fq g : Poly),
    s.status.cfgok = true → s.ConfigValid → 3 ≤ s.cfgP.toNat →
    rd ≠ kf → rd ≠ kfp → s.Holds rd r → s.Holds kh h → s.Holds km m → s.Holds kf f → s.Holds kfp fp →
    g.length = s.n → (∀ x ∈ m, x = 0 ∨ x = 1) →
    IsInverse s.n s.cfgQ.toNat f fq → IsInverse s.n s.cfgP.toNat f fp →
    (∀ k, k < s.n → h.getD k 0 = center (convCoeff s.n (scalePoly s.cfgP.toNat fq) g k) s.cfgQ.toNat) →
    (∀ k, k < s.n → -(s.cfgQ.toNat : Int) < 2 * (s.cfgP.toNat * convCoeff s.n r g k + convCoeff s.n f m k) ∧
      2 * (s.cfgP.toNat * convCoeff s.n r g k + convCoeff s.n f m k) ≤ s.cfgQ.toNat) →
    ∃ t, runCommands [.nencx rd kh km, .ndec rd kf kfp] s = some t ∧ t.Holds rd m

/-! ### The codec -/

/-- R170 to R172: BENC. -/
def Obligations.BencEncodes : Prop :=
  ∀ (rd : PReg) (k : Nat) (s : State), s.build.Valid → s.status.cfgok = true → s.mlen.toNat ≤ s.build.bmax →
    k < (8 * s.mlen.toNat) ⌈/⌉ s.n →
    ∃ t, exec (.benc rd k) s = .next t ∧ WritesPoly s t rd (fun i => s.paddedBit s.mlen.toNat (k * s.n + i)) ∧
      t.nblk.toNat = (8 * s.mlen.toNat) ⌈/⌉ s.n ∧
      t = { s.succeeded with p := t.p, plen := t.plen, nblk := t.nblk, draws := t.draws }

/-- R173: BDEC of a block of message bits. (That BDEC writes NBLK: R173; log entry 19. That a byte of BBUF which was
unspecified, and which the block's bits cover in part, is specified from then on, its other bits drawn: R46; the model's
reading, log entry 3.) -/
def Obligations.BdecDecodes : Prop :=
  ∀ (rs1 : PReg) (k : Nat) (s : State), k < 16384 → s.status.cfgok = true → s.plen[rs1] = s.cfgN →
    (∀ i, i < s.n → MessageBit s.build.bmax (fun j => (s.src rs1).getD (j - k * s.n) 0) (k * s.n + i)) →
    ∃ t, exec (.bdec rs1 k) s = .next t ∧
      WritesBits s.drew t (k * s.n) (k * s.n + s.n) (fun j => decide ((s.src rs1).getD (j - k * s.n) 0 = 1)) ∧
      t.nblk.toNat = k + 1 ∧
      t = { s.succeeded with bbuf := t.bbuf, nblk := t.nblk, draws := t.draws }

/-- R174: BFIN when the bits after the last whole byte are 0. BBUF is not changed. -/
def Obligations.BfinFinishes : Prop :=
  ∀ s : State, s.build.Valid → s.status.cfgok = true →
    (s.nblk.toNat * s.n < 8 * s.build.bmax → ∀ j, 8 * (s.nblk.toNat * s.n / 8) ≤ j → j < s.nblk.toNat * s.n →
      s.streamBit j = false) →
    ∃ t, exec .bfin s = .next t ∧
      TrimmedTo (fun i => s.byteAt i = 0) (min (s.nblk.toNat * s.n / 8) s.build.bmax) t.mlen.toNat ∧
      t = { s.succeeded with mlen := t.mlen, draws := t.draws }

/-- R173, R174, R201, R226: the errors found in decoded values. BDEC and BFIN have no effect beyond the report; an SDEC
leaves BBUF unspecified. -/
def Obligations.DecodedValueErrors : Prop :=
  (∀ (rs1 : PReg) (k j : Nat) (s : State), s.status.cfgok = true → s.plen[rs1] = s.cfgN →
    FirstBadBit s.build.bmax (fun j => (s.src rs1).getD (j - k * s.n) 0) (k * s.n) (k * s.n + s.n) j →
    ∃ t, exec (.bdec rs1 k) s = .next t ∧ t = { s.reported .fmt (BitVec.ofNat 32 j) with draws := t.draws }) ∧
  (∀ (j : Nat) (s : State), s.status.cfgok = true → FirstPadBit s.build.bmax (fun j => s.streamBit j = true) (s.nblk.toNat * s.n) j →
    ∃ t, exec .bfin s = .next t ∧ t = { s.reported .fmt (BitVec.ofNat 32 j) with draws := t.draws }) ∧
  (∀ (rs1 rs2 : PReg) (j : Nat) (c : Nat → Int) (s : State), s.status.cfgok = true →
    s.plen[rs1] = s.cfgN → s.plen[rs2] = s.cfgN → s.clen.toNat ≤ s.build.cmax → s.n ∣ s.clen.toNat →
    (∀ j, c j = decryptCoeff s.n s.cfgP.toNat s.cfgQ.toNat (s.src rs1) (s.drew.src rs2)
      (s.drew.drew.cipherBlock (j / s.n)) (j % s.n)) →
    ((∃ k, k < s.clen.toNat / s.n ∧ (∀ i, i < k * s.n → MessageBit s.build.bmax c i) ∧ FirstBadBit s.build.bmax c (k * s.n) (k * s.n + s.n) j) ∨
     ((∀ i, i < s.clen.toNat → MessageBit s.build.bmax c i) ∧ FirstPadBit s.build.bmax (fun i => c i = 1) s.clen.toNat j)) →
    ∃ t, exec (.sdec rs1 rs2) s = .next t ∧ (∀ i, bufGet t.bbuf i = none) ∧
      t = { s.reported .fmt (BitVec.ofNat 32 j) with bbuf := t.bbuf, draws := t.draws })

/-- R175: encoding a message that does not end in 0x00 block by block, decoding every block, and finishing gives the message
and its length back. -/
def Obligations.CodecRoundTrip : Prop :=
  ∀ (s : State) (rd : PReg), s.build.Valid → s.status.cfgok = true → s.ConfigValid → s.mlen.toNat ≤ s.build.bmax →
    (∀ i, i < s.mlen.toNat → ∃ b, bufGet s.bbuf i = some b) →
    (s.mlen.toNat = 0 → s.nblk = 0) → (s.mlen.toNat ≠ 0 → bufGet s.bbuf (s.mlen.toNat - 1) ≠ some 0) →
    ∃ t, runCommands
        ((List.range ((8 * s.mlen.toNat) ⌈/⌉ s.n)).flatMap (fun k => [.benc rd k, .bdec rd k]) ++ [.bfin]) s = some t ∧
      t.mlen = s.mlen ∧ ∀ i, i < s.mlen.toNat → bufGet t.bbuf i = bufGet s.bbuf i

/-! ### Whole-message commands -/

/-- R200: SENC, in a turn that completes it, started or resumed (R153; `Samples`, `Completes`: log entry 5): every block in
CBUF, and further words as they were. -/
def Obligations.SencEncryptsMessage : Prop :=
  ∀ (rs1 : PReg) (s : State) (src : RandSource) (draw : List Word → Option (List Poly × List Word))
    (rs : List Poly) (left : List Word), s.build.Valid → s.ConfigValid →
    s.Samples (.senc rs1) src draw → s.Completes src draw rs left →
    rs.length = (8 * s.mlen.toNat) ⌈/⌉ s.n ∧
    ∃ t, exec (.senc rs1) s = .next t ∧ WritesCipher s t rs1 rs ∧
      t = { (s.withWords src (left ++ (s.granted (s.wordsOf src)).2)).succeeded with
        cbuf := t.cbuf, clen := t.clen, nblk := t.nblk, draws := t.draws }

/-- R201: SDEC of a ciphertext whose decrypted coefficients are message bits and whose pad bits are 0. (That a last byte which
was unspecified, and which the bits cover in part, is specified from then on, its other bits drawn: R46; the model's reading,
log entry 3.) -/
def Obligations.SdecDecryptsMessage : Prop :=
  ∀ (rs1 rs2 : PReg) (c : Nat → Int) (s : State), s.status.cfgok = true →
    s.plen[rs1] = s.cfgN → s.plen[rs2] = s.cfgN → s.clen.toNat ≤ s.build.cmax → s.n ∣ s.clen.toNat →
    (∀ j, c j = decryptCoeff s.n s.cfgP.toNat s.cfgQ.toNat (s.src rs1) (s.drew.src rs2)
      (s.drew.drew.cipherBlock (j / s.n)) (j % s.n)) →
    (∀ j, j < s.clen.toNat → MessageBit s.build.bmax c j) →
    (s.clen.toNat < 8 * s.build.bmax → ∀ j, 8 * (s.clen.toNat / 8) ≤ j → j < s.clen.toNat → c j = 0) →
    ∃ t, exec (.sdec rs1 rs2) s = .next t ∧
      WritesBits s.drew.drew.drew t 0 s.clen.toNat (fun j => decide (c j = 1)) ∧
      TrimmedTo (fun i => bufGet t.bbuf i = some 0) (min (s.clen.toNat / 8) s.build.bmax) t.mlen.toNat ∧
      t.nblk.toNat = s.clen.toNat / s.n ∧
      t = { s.succeeded with bbuf := t.bbuf, mlen := t.mlen, nblk := t.nblk, draws := t.draws }

/-! ### The bus (20_memory.md, 10_state.md) -/

/-- R51: an access of another width, or to an offset that is no multiple of 4, gets a bus error and has no effect; a read
returns 0. -/
def Obligations.BadAccessIsBusError : Prop :=
  ∀ (s : State) (w : Width) (off : Nat) (v : Word) (rest : List Event), off < 0x40000 → (w ≠ .word ∨ ¬ 4 ∣ off) →
    (s.agenda = .read w off :: rest → step s = .next { s with agenda := rest, bus := ⟨0, true⟩ }) ∧
    (s.agenda = .write w off v :: rest →
      ∃ t, step s = .next t ∧ t.bus.error = true ∧ t = { s with agenda := rest, bus := t.bus })

/-- R54, R55: reserved offsets, the unused part of every region of a smaller build included. (draws: the model's own
count.) -/
def Obligations.ReservedOffsets : Prop :=
  ∀ (s : State) (off : Nat) (v : Word) (rest : List Event), ReservedOffset s.build off → 4 ∣ off →
    (s.agenda = .read .word off :: rest →
      ∃ t, step s = .next t ∧ t.bus = ⟨0, false⟩ ∧ t = { s with agenda := rest, bus := t.bus, draws := t.draws }) ∧
    (s.agenda = .write .word off v :: rest →
      ∃ t, step s = .next t ∧ t.bus.error = false ∧ t = { s with agenda := rest, bus := t.bus })

/-- R56: the polynomial register window while BUSY = 0. -/
def Obligations.PolyWindow : Prop :=
  ∀ (s : State) (k : PReg) (i : Nat) (v : Word) (rest : List Event), i < s.build.nmax → i < 1024 → s.status.busy = false →
    (s.agenda = .read .word (0x1000 + 0x1000 * k.val + 4 * i) :: rest →
      ∃ t, step s = .next t ∧ t.bus.error = false ∧ (∀ w, s.slot k i = some w → t.bus.data = w) ∧
        t = { s with agenda := rest, bus := t.bus, draws := t.draws }) ∧
    (s.agenda = .write .word (0x1000 + 0x1000 * k.val + 4 * i) v :: rest →
      ∃ t, step s = .next t ∧ t.bus.error = false ∧ t.slot k i = some v ∧
        (∀ j l, (j ≠ k ∨ l ≠ i) → t.slot j l = s.slot j l) ∧ t = { s with agenda := rest, bus := t.bus, p := t.p })

/-- R57, R52: the byte buffer window while BUSY = 0, four bytes a word, the lowest index in the lowest bits. A last word that
BBUF fills only in part reads 0 beyond it, and a write is ignored there (R41, R54; the model's reading, log entry 20). -/
def Obligations.BbufWindow : Prop :=
  ∀ (s : State) (j : Nat) (v : Word) (rest : List Event), 4 * j < s.build.bmax → j < 1024 → s.status.busy = false →
    (s.agenda = .read .word (0x9000 + 4 * j) :: rest →
      ∃ t, step s = .next t ∧ t.bus.error = false ∧
        (∀ b x, b < 4 → 4 * j + b < s.build.bmax → bufGet s.bbuf (4 * j + b) = some x →
          t.bus.data.extractLsb' (8 * b) 8 = x) ∧
        (∀ b, b < 4 → s.build.bmax ≤ 4 * j + b → t.bus.data.extractLsb' (8 * b) 8 = 0) ∧
        t = { s with agenda := rest, bus := t.bus, draws := t.draws }) ∧
    (s.agenda = .write .word (0x9000 + 4 * j) v :: rest →
      ∃ t, step s = .next t ∧ t.bus.error = false ∧
        (∀ b, b < 4 → 4 * j + b < s.build.bmax → bufGet t.bbuf (4 * j + b) = some (v.extractLsb' (8 * b) 8)) ∧
        (∀ i, (i < 4 * j ∨ 4 * j + 4 ≤ i ∨ s.build.bmax ≤ i) → bufGet t.bbuf i = bufGet s.bbuf i) ∧
        t = { s with agenda := rest, bus := t.bus, bbuf := t.bbuf })

/-- R58: the ciphertext buffer window while BUSY = 0: the words of CBUF whose offset lies in the window of R50. -/
def Obligations.CbufWindow : Prop :=
  ∀ (s : State) (i : Nat) (v : Word) (rest : List Event), i < s.build.cmax → 0x10000 + 4 * i < 0x40000 → s.status.busy = false →
    (s.agenda = .read .word (0x10000 + 4 * i) :: rest →
      ∃ t, step s = .next t ∧ t.bus.error = false ∧ (∀ w, bufGet s.cbuf i = some w → t.bus.data = w) ∧
        t = { s with agenda := rest, bus := t.bus, draws := t.draws }) ∧
    (s.agenda = .write .word (0x10000 + 4 * i) v :: rest →
      ∃ t, step s = .next t ∧ t.bus.error = false ∧ bufGet t.cbuf i = some v ∧
        (∀ j, j ≠ i → bufGet t.cbuf j = bufGet s.cbuf j) ∧ t = { s with agenda := rest, bus := t.bus, cbuf := t.cbuf })

/-- R59: a write to busy-held state while a command runs is ignored and sets BUSYWR. -/
def Obligations.BusyWritesAreIgnored : Prop :=
  ∀ (s : State) (off : Nat) (v : Word) (rest : List Event), BusyHeldOffset s.build off → 4 ∣ off → s.status.busy = true →
    s.agenda = .write .word off v :: rest →
    ∃ t, step s = .next t ∧ t.bus.error = false ∧
      t = { s with agenda := rest, bus := t.bus, status := { s.status with busywr := true } }

/-- R26, R60, R61: what the registers read as, and that no read has a side effect. -/
def Obligations.RegisterReads : Prop :=
  ∀ (s : State) (off : Nat) (rest : List Event), s.agenda = .read .word off :: rest → off < 0x40000 → 4 ∣ off →
    ∃ t, step s = .next t ∧ t.bus.error = false ∧
      (∀ v, (off, v) ∈ s.alwaysReadable → t.bus.data = v) ∧
      (∀ v, (off, v) ∈ s.idleReadable → s.status.busy = false → t.bus.data = v) ∧
      t = { s with agenda := rest, bus := t.bus, draws := t.draws }

/-- R30 to R37, R41: writes to the registers while BUSY = 0, and to read-only registers at any time. -/
def Obligations.RegisterWrites : Prop :=
  (∀ (s s' : State) (off : Nat) (v : Word) (rest : List Event), s.agenda = .write .word off v :: rest →
    s.status.busy = false → (off, s') ∈ s.registerWrites v →
    ∃ t, step s = .next t ∧ t.bus.error = false ∧ t = { s' with agenda := rest, bus := t.bus }) ∧
  (∀ (s : State) (off : Nat) (v : Word) (rest : List Event), s.agenda = .write .word off v :: rest →
    off ∈ readOnlyOffsets →
    ∃ t, step s = .next t ∧ t.bus.error = false ∧ t = { s with agenda := rest, bus := t.bus })

/-- R27, R28: a STATUS write clears the W1C bits written 1; a CTRL write without SRST sets IRQEN and RSRC. Both also while
BUSY = 1. -/
def Obligations.StatusAndCtrlWrites : Prop :=
  ∀ (s : State) (v : Word) (rest : List Event),
    (s.agenda = .write .word 0x00C v :: rest →
      ∃ t, step s = .next t ∧ t.bus.error = false ∧
        t = { s with
          agenda := rest
          bus := t.bus
          status := { s.status with
            done := s.status.done && !v.getLsbD 1
            ovf := s.status.ovf && !v.getLsbD 5
            cmdovr := s.status.cmdovr && !v.getLsbD 6
            busywr := s.status.busywr && !v.getLsbD 7
            rngovr := s.status.rngovr && !v.getLsbD 8 } }) ∧
    (s.agenda = .write .word 0x008 v :: rest → v.getLsbD 2 = false →
      ∃ t, step s = .next t ∧ t.bus.error = false ∧
        t = { s with agenda := rest, bus := t.bus, ctrl := ⟨v.getLsbD 0, if v.getLsbD 1 = true then .fifo else .port⟩ })

/-- R39: a RNGDATA write appends its word, or is dropped with RNGOVR when the FIFO holds RFIFO words. R45: the platform gives
the core words on the entropy port; that an offered word stands in a list behind those offered before, until the engine takes
it, is the model's choice (log entry 4). Both also while BUSY = 1. -/
def Obligations.RandomWordInputs : Prop :=
  ∀ (s : State) (w : Word) (rest : List Event),
    (s.agenda = .write .word 0x01C w :: rest →
      ∃ t, step s = .next t ∧ t.bus.error = false ∧
        (s.fifo.length < s.build.rfifo → t = { s with agenda := rest, bus := t.bus, fifo := s.fifo ++ [w] }) ∧
        (s.build.rfifo ≤ s.fifo.length → t = { s with agenda := rest, bus := t.bus, status := { s.status with rngovr := true } })) ∧
    (s.agenda = .offer w :: rest → step s = .next { s with agenda := rest, entropy := s.entropy ++ [w] })

end Statements
end

