-- ==== Sys2Proof/Laws/Buffer.lean ====
section
/-! SUPPORT. Laws/Buffer.lean: what the storage operations do to one entry, that they keep the canonical form, and that
contents in canonical form are equal when their entries are. -/

namespace Sys2Proof.Machine

variable {α : Type}

/-! ### Read after write -/

@[simp] theorem bufGet_nil (i : Nat) : bufGet ([] : Buf α) i = none := rfl

@[simp] theorem bufGet_bufPut_self (b : Buf α) (i : Nat) (v : α) : bufGet (bufPut b i v) i = some v := by
  induction b with
  | nil => simp [bufPut, bufGet]
  | cons e r ih =>
    obtain ⟨j, w⟩ := e
    simp only [bufPut]
    split
    · simp [bufGet]
    · split
      · simp [bufGet]
      · next h => simp [bufGet, Ne.symm h, ih]

theorem bufGet_bufPut_of_ne (b : Buf α) {i j : Nat} (v : α) (h : j ≠ i) : bufGet (bufPut b i v) j = bufGet b j := by
  induction b with
  | nil => simp [bufPut, bufGet, Ne.symm h]
  | cons e r ih =>
    obtain ⟨k, w⟩ := e
    simp only [bufPut]
    split
    · simp [bufGet, Ne.symm h]
    · split
      · next hk => subst hk; simp [bufGet, Ne.symm h]
      · simp [bufGet, ih]

theorem bufGet_bufPut (b : Buf α) (i j : Nat) (v : α) :
    bufGet (bufPut b i v) j = if j = i then some v else bufGet b j := by
  split
  · next h => subst h; simp
  · next h => exact bufGet_bufPut_of_ne b v h

theorem bufGet_bufOfListFrom (l : List α) (k i : Nat) :
    bufGet (bufOfListFrom k l) i = if k ≤ i then l[i - k]? else none := by
  induction l generalizing k with
  | nil => simp [bufOfListFrom]
  | cons v r ih =>
    simp only [bufOfListFrom, bufGet, ih]
    by_cases h : k = i
    · subst h; simp
    · by_cases hk : k ≤ i
      · have h1 : k + 1 ≤ i := by omega
        have h2 : i - k = (i - (k + 1)) + 1 := by omega
        simp [h, hk, h1, h2]
      · have h1 : ¬ k + 1 ≤ i := by omega
        simp [h, hk, h1]

@[simp] theorem bufGet_bufOfList (l : List α) (i : Nat) : bufGet (bufOfList l) i = l[i]? := by
  simp [bufOfList, bufGet_bufOfListFrom]

theorem bufGet_append (a b : Buf α) (i : Nat) : bufGet (a ++ b) i = (bufGet a i).or (bufGet b i) := by
  induction a with
  | nil => simp
  | cons e r ih =>
    obtain ⟨j, w⟩ := e
    simp only [List.cons_append, bufGet]
    split <;> simp [ih]

theorem bufGet_filter_ge (b : Buf α) (n i : Nat) :
    bufGet (b.filter (fun e => decide (n ≤ e.1))) i = if n ≤ i then bufGet b i else none := by
  induction b with
  | nil => simp
  | cons e r ih =>
    obtain ⟨j, w⟩ := e
    by_cases hj : n ≤ j
    · simp only [List.filter_cons, hj, decide_true, if_true, bufGet, ih]
      by_cases hi : j = i
      · subst hi; simp [hj]
      · simp [hi]
    · by_cases hi : j = i
      · subst hi; simp [hj, ih]
      · simp [hj, bufGet, hi, ih]

/-- A run of values written from index 0 on: the values below its length, the old entries from there on. -/
theorem bufGet_bufOverwrite (l : List α) (b : Buf α) (i : Nat) :
    bufGet (bufOverwrite l b) i = if i < l.length then l[i]? else bufGet b i := by
  simp only [bufOverwrite, bufGet_append, bufGet_bufOfList, bufGet_filter_ge]
  by_cases h : i < l.length
  · have h' : ¬ l.length ≤ i := by omega
    simp [h, h']
  · have h' : l.length ≤ i := by omega
    simp [h, h']

/-! ### The canonical form -/

theorem bufWfFrom_cons {cap lo i : Nat} {v : α} {r : Buf α} :
    bufWfFrom cap lo ((i, v) :: r) = true ↔ lo ≤ i ∧ i < cap ∧ bufWfFrom cap (i + 1) r = true := by
  simp [bufWfFrom, and_assoc]

theorem bufWfFrom_mono {cap lo lo' : Nat} {b : Buf α} (h : lo' ≤ lo) (hb : bufWfFrom cap lo b = true) :
    bufWfFrom cap lo' b = true := by
  cases b with
  | nil => rfl
  | cons e r =>
    obtain ⟨i, v⟩ := e
    rw [bufWfFrom_cons] at hb ⊢
    exact ⟨by omega, hb.2⟩

theorem bufWfFrom_bufPut {cap lo i : Nat} {b : Buf α} (v : α) (hb : bufWfFrom cap lo b = true) (hlo : lo ≤ i)
    (hi : i < cap) : bufWfFrom cap lo (bufPut b i v) = true := by
  induction b generalizing lo with
  | nil => simp [bufPut, bufWfFrom, hlo, hi]
  | cons e r ih =>
    obtain ⟨j, w⟩ := e
    rw [bufWfFrom_cons] at hb
    simp only [bufPut]
    split
    · next h => simp only [bufWfFrom_cons]; exact ⟨hlo, hi, by omega, hb.2.1, hb.2.2⟩
    · split
      · next h => subst h; simp only [bufWfFrom_cons]; exact hb
      · simp only [bufWfFrom_cons]; exact ⟨hb.1, hb.2.1, ih hb.2.2 (by omega)⟩

/-- A write inside the capacity keeps the canonical form. -/
theorem bufWf_bufPut {cap i : Nat} {b : Buf α} (v : α) (hb : bufWf cap b = true) (hi : i < cap) :
    bufWf cap (bufPut b i v) = true :=
  bufWfFrom_bufPut v hb (Nat.zero_le _) hi

theorem bufWfFrom_append {cap lo : Nat} {a b : Buf α} (ha : bufWfFrom cap lo a = true)
    (hb : bufWfFrom cap lo b = true) (hab : ∀ x ∈ a, ∀ y ∈ b, x.1 < y.1) : bufWfFrom cap lo (a ++ b) = true := by
  induction a generalizing lo with
  | nil => simpa using hb
  | cons e r ih =>
    obtain ⟨i, v⟩ := e
    rw [List.cons_append, bufWfFrom_cons]
    rw [bufWfFrom_cons] at ha
    refine ⟨ha.1, ha.2.1, ih ha.2.2 ?_ (fun x hx y hy => hab x (List.mem_cons_of_mem _ hx) y hy)⟩
    cases b with
    | nil => rfl
    | cons y t =>
      obtain ⟨j, u⟩ := y
      have := hab (i, v) (List.mem_cons_self ..) (j, u) (List.mem_cons_self ..)
      rw [bufWfFrom_cons] at hb ⊢
      exact ⟨this, hb.2⟩

theorem bufWfFrom_bufOfListFrom {cap k : Nat} {l : List α} (h : k + l.length ≤ cap) :
    bufWfFrom cap k (bufOfListFrom k l) = true := by
  induction l generalizing k with
  | nil => rfl
  | cons v r ih =>
    simp only [List.length_cons] at h
    simp only [bufOfListFrom, bufWfFrom_cons]
    exact ⟨Nat.le_refl _, by omega, ih (by omega)⟩

theorem bufWf_bufOfList {cap : Nat} {l : List α} (h : l.length ≤ cap) : bufWf cap (bufOfList l) = true :=
  bufWfFrom_bufOfListFrom (by omega)

theorem mem_bufOfListFrom_lt {l : List α} {k : Nat} {x : Nat × α} (h : x ∈ bufOfListFrom k l) : x.1 < k + l.length := by
  induction l generalizing k with
  | nil => simp [bufOfListFrom] at h
  | cons v r ih =>
    simp only [bufOfListFrom, List.mem_cons] at h
    rcases h with rfl | h
    · simp
    · have := ih h
      simp only [List.length_cons]
      omega

theorem bufWfFrom_filter {cap lo : Nat} {b : Buf α} (q : Nat × α → Bool) (hb : bufWfFrom cap lo b = true) :
    bufWfFrom cap lo (b.filter q) = true := by
  induction b generalizing lo with
  | nil => rfl
  | cons e r ih =>
    obtain ⟨i, v⟩ := e
    rw [bufWfFrom_cons] at hb
    simp only [List.filter_cons]
    split
    · rw [bufWfFrom_cons]; exact ⟨hb.1, hb.2.1, ih hb.2.2⟩
    · exact bufWfFrom_mono (by omega) (ih hb.2.2)

/-- A run of values that fits the capacity keeps the canonical form. -/
theorem bufWf_bufOverwrite {cap : Nat} {l : List α} {b : Buf α} (hb : bufWf cap b = true) (hl : l.length ≤ cap) :
    bufWf cap (bufOverwrite l b) = true := by
  refine bufWfFrom_append (bufWf_bufOfList hl) (bufWfFrom_filter _ hb) ?_
  intro x hx y hy
  have h1 := mem_bufOfListFrom_lt hx
  have h2 := (List.mem_filter.mp hy).2
  simp only [decide_eq_true_eq] at h2
  omega

theorem bufGet_eq_none_of_lt {cap lo i : Nat} {b : Buf α} (hb : bufWfFrom cap lo b = true) (h : i < lo) :
    bufGet b i = none := by
  induction b generalizing lo with
  | nil => rfl
  | cons e r ih =>
    obtain ⟨j, v⟩ := e
    rw [bufWfFrom_cons] at hb
    have hji : ¬ j = i := by omega
    simp [bufGet, hji, ih hb.2.2 (by omega)]

theorem bufGet_eq_none_of_ge {cap lo i : Nat} {b : Buf α} (hb : bufWfFrom cap lo b = true) (h : cap ≤ i) :
    bufGet b i = none := by
  induction b generalizing lo with
  | nil => rfl
  | cons e r ih =>
    obtain ⟨j, v⟩ := e
    rw [bufWfFrom_cons] at hb
    have hji : ¬ j = i := by omega
    simp [bufGet, hji, ih hb.2.2]

/-- Contents in canonical form are equal when they are equal entry by entry. -/
theorem bufWfFrom_ext {cap lo : Nat} {a b : Buf α} (ha : bufWfFrom cap lo a = true) (hb : bufWfFrom cap lo b = true)
    (h : ∀ i, bufGet a i = bufGet b i) : a = b := by
  induction a generalizing lo b with
  | nil =>
    cases b with
    | nil => rfl
    | cons e r => obtain ⟨j, v⟩ := e; simpa [bufGet] using h j
  | cons e r ih =>
    obtain ⟨i, v⟩ := e
    cases b with
    | nil => simpa [bufGet] using h i
    | cons e' r' =>
      obtain ⟨j, w⟩ := e'
      rw [bufWfFrom_cons] at ha hb
      have hij : i = j := by
        have hi := h i
        have hj := h j
        by_contra hne
        rcases Nat.lt_or_gt_of_ne hne with hlt | hgt
        · have hji : ¬ j = i := by omega
          simp [bufGet, hji, bufGet_eq_none_of_lt hb.2.2 (show i < j + 1 by omega)] at hi
        · have hij : ¬ i = j := hne
          simp [bufGet, hij, bufGet_eq_none_of_lt ha.2.2 (show j < i + 1 by omega)] at hj
      subst hij
      have hvw : v = w := by simpa [bufGet] using h i
      subst hvw
      refine congrArg _ (ih ha.2.2 hb.2.2 ?_)
      intro k
      by_cases hk : i = k
      · subst hk
        rw [bufGet_eq_none_of_lt ha.2.2 (Nat.lt_succ_self _), bufGet_eq_none_of_lt hb.2.2 (Nat.lt_succ_self _)]
      · simpa [bufGet, hk] using h k

theorem bufWf_ext {cap : Nat} {a b : Buf α} (ha : bufWf cap a = true) (hb : bufWf cap b = true)
    (h : ∀ i, bufGet a i = bufGet b i) : a = b :=
  bufWfFrom_ext ha hb h

/-! ### Padding -/

@[simp] theorem padTo_length (n : Nat) (z : α) (l : List α) : (padTo n z l).length = n := by
  simp only [padTo, List.length_append, List.length_take, List.length_replicate]
  omega

theorem padTo_getElem? (n : Nat) (z : α) (l : List α) (i : Nat) (h : i < n) :
    (padTo n z l)[i]? = some (l.getD i z) := by
  simp only [padTo]
  by_cases hi : i < l.length
  · rw [List.getElem?_append_left (by simp only [List.length_take]; omega), List.getElem?_take_of_lt h]
    simp [hi]
  · have hl : l.length ≤ i := by omega
    have ht : (l.take n).length = l.length := by simp only [List.length_take]; omega
    rw [List.getElem?_append_right (by omega), List.getElem?_replicate, ht, if_pos (by omega),
      List.getD_eq_default l z hl]

end Sys2Proof.Machine
end

