-- ==== Sys2Proof/Laws/State.lean ====
section
/-! SUPPORT. Laws/State.lean: one lemma per field for each named update of State, so that no proof unfolds a record update. -/

namespace Sys2Proof.Machine

/-! ### issue -/

@[simp] theorem State.issue_ctrl (w : Word) (s : State) : (s.issue w).ctrl = s.ctrl := rfl
@[simp] theorem State.issue_status (w : Word) (s : State) : (s.issue w).status = { s.status with busy := true, done := false, err := .success } := rfl
@[simp] theorem State.issue_cmd (w : Word) (s : State) : (s.issue w).cmd = w := rfl
@[simp] theorem State.issue_errinfo (w : Word) (s : State) : (s.issue w).errinfo = s.errinfo := rfl
@[simp] theorem State.issue_errcmd (w : Word) (s : State) : (s.issue w).errcmd = s.errcmd := rfl
@[simp] theorem State.issue_fifo (w : Word) (s : State) : (s.issue w).fifo = s.fifo := rfl
@[simp] theorem State.issue_cfgN (w : Word) (s : State) : (s.issue w).cfgN = s.cfgN := rfl
@[simp] theorem State.issue_cfgP (w : Word) (s : State) : (s.issue w).cfgP = s.cfgP := rfl
@[simp] theorem State.issue_cfgQ (w : Word) (s : State) : (s.issue w).cfgQ = s.cfgQ := rfl
@[simp] theorem State.issue_cfgDf (w : Word) (s : State) : (s.issue w).cfgDf = s.cfgDf := rfl
@[simp] theorem State.issue_cfgDg (w : Word) (s : State) : (s.issue w).cfgDg = s.cfgDg := rfl
@[simp] theorem State.issue_cfgDr (w : Word) (s : State) : (s.issue w).cfgDr = s.cfgDr := rfl
@[simp] theorem State.issue_modarg (w : Word) (s : State) : (s.issue w).modarg = s.modarg := rfl
@[simp] theorem State.issue_sampNp (w : Word) (s : State) : (s.issue w).sampNp = s.sampNp := rfl
@[simp] theorem State.issue_sampNm (w : Word) (s : State) : (s.issue w).sampNm = s.sampNm := rfl
@[simp] theorem State.issue_wplus (w : Word) (s : State) : (s.issue w).wplus = s.wplus := rfl
@[simp] theorem State.issue_wminus (w : Word) (s : State) : (s.issue w).wminus = s.wminus := rfl
@[simp] theorem State.issue_wother (w : Word) (s : State) : (s.issue w).wother = s.wother := rfl
@[simp] theorem State.issue_mlen (w : Word) (s : State) : (s.issue w).mlen = s.mlen := rfl
@[simp] theorem State.issue_clen (w : Word) (s : State) : (s.issue w).clen = s.clen := rfl
@[simp] theorem State.issue_nblk (w : Word) (s : State) : (s.issue w).nblk = s.nblk := rfl
@[simp] theorem State.issue_plen (w : Word) (s : State) : (s.issue w).plen = s.plen := rfl
@[simp] theorem State.issue_p (w : Word) (s : State) : (s.issue w).p = s.p := rfl
@[simp] theorem State.issue_bbuf (w : Word) (s : State) : (s.issue w).bbuf = s.bbuf := rfl
@[simp] theorem State.issue_cbuf (w : Word) (s : State) : (s.issue w).cbuf = s.cbuf := rfl
@[simp] theorem State.issue_engine (w : Word) (s : State) : (s.issue w).engine = .issued s.ctrl.rsrc := rfl
@[simp] theorem State.issue_entropy (w : Word) (s : State) : (s.issue w).entropy = s.entropy := rfl
@[simp] theorem State.issue_agenda (w : Word) (s : State) : (s.issue w).agenda = s.agenda := rfl
@[simp] theorem State.issue_bus (w : Word) (s : State) : (s.issue w).bus = s.bus := rfl
@[simp] theorem State.issue_draws (w : Word) (s : State) : (s.issue w).draws = s.draws := rfl
@[simp] theorem State.issue_turnLimit (w : Word) (s : State) : (s.issue w).turnLimit = s.turnLimit := rfl
@[simp] theorem State.issue_build (w : Word) (s : State) : (s.issue w).build = s.build := rfl

/-! ### complete -/

@[simp] theorem State.complete_ctrl (s : State) : (s.complete).ctrl = s.ctrl := rfl
@[simp] theorem State.complete_status (s : State) : (s.complete).status = { s.status with busy := false, done := true, rngwait := false, err := .success } := rfl
@[simp] theorem State.complete_cmd (s : State) : (s.complete).cmd = s.cmd := rfl
@[simp] theorem State.complete_errinfo (s : State) : (s.complete).errinfo = s.errinfo := rfl
@[simp] theorem State.complete_errcmd (s : State) : (s.complete).errcmd = s.errcmd := rfl
@[simp] theorem State.complete_fifo (s : State) : (s.complete).fifo = s.fifo := rfl
@[simp] theorem State.complete_cfgN (s : State) : (s.complete).cfgN = s.cfgN := rfl
@[simp] theorem State.complete_cfgP (s : State) : (s.complete).cfgP = s.cfgP := rfl
@[simp] theorem State.complete_cfgQ (s : State) : (s.complete).cfgQ = s.cfgQ := rfl
@[simp] theorem State.complete_cfgDf (s : State) : (s.complete).cfgDf = s.cfgDf := rfl
@[simp] theorem State.complete_cfgDg (s : State) : (s.complete).cfgDg = s.cfgDg := rfl
@[simp] theorem State.complete_cfgDr (s : State) : (s.complete).cfgDr = s.cfgDr := rfl
@[simp] theorem State.complete_modarg (s : State) : (s.complete).modarg = s.modarg := rfl
@[simp] theorem State.complete_sampNp (s : State) : (s.complete).sampNp = s.sampNp := rfl
@[simp] theorem State.complete_sampNm (s : State) : (s.complete).sampNm = s.sampNm := rfl
@[simp] theorem State.complete_wplus (s : State) : (s.complete).wplus = s.wplus := rfl
@[simp] theorem State.complete_wminus (s : State) : (s.complete).wminus = s.wminus := rfl
@[simp] theorem State.complete_wother (s : State) : (s.complete).wother = s.wother := rfl
@[simp] theorem State.complete_mlen (s : State) : (s.complete).mlen = s.mlen := rfl
@[simp] theorem State.complete_clen (s : State) : (s.complete).clen = s.clen := rfl
@[simp] theorem State.complete_nblk (s : State) : (s.complete).nblk = s.nblk := rfl
@[simp] theorem State.complete_plen (s : State) : (s.complete).plen = s.plen := rfl
@[simp] theorem State.complete_p (s : State) : (s.complete).p = s.p := rfl
@[simp] theorem State.complete_bbuf (s : State) : (s.complete).bbuf = s.bbuf := rfl
@[simp] theorem State.complete_cbuf (s : State) : (s.complete).cbuf = s.cbuf := rfl
@[simp] theorem State.complete_engine (s : State) : (s.complete).engine = .idle := rfl
@[simp] theorem State.complete_entropy (s : State) : (s.complete).entropy = s.entropy := rfl
@[simp] theorem State.complete_agenda (s : State) : (s.complete).agenda = s.agenda := rfl
@[simp] theorem State.complete_bus (s : State) : (s.complete).bus = s.bus := rfl
@[simp] theorem State.complete_draws (s : State) : (s.complete).draws = s.draws := rfl
@[simp] theorem State.complete_turnLimit (s : State) : (s.complete).turnLimit = s.turnLimit := rfl
@[simp] theorem State.complete_build (s : State) : (s.complete).build = s.build := rfl

/-! ### fail -/

@[simp] theorem State.fail_ctrl (r : Report) (s : State) : (s.fail r).ctrl = s.ctrl := rfl
@[simp] theorem State.fail_status (r : Report) (s : State) : (s.fail r).status = { s.status with busy := false, done := true, rngwait := false, err := r.code } := rfl
@[simp] theorem State.fail_cmd (r : Report) (s : State) : (s.fail r).cmd = s.cmd := rfl
@[simp] theorem State.fail_errinfo (r : Report) (s : State) : (s.fail r).errinfo = r.info := rfl
@[simp] theorem State.fail_errcmd (r : Report) (s : State) : (s.fail r).errcmd = s.cmd := rfl
@[simp] theorem State.fail_fifo (r : Report) (s : State) : (s.fail r).fifo = s.fifo := rfl
@[simp] theorem State.fail_cfgN (r : Report) (s : State) : (s.fail r).cfgN = s.cfgN := rfl
@[simp] theorem State.fail_cfgP (r : Report) (s : State) : (s.fail r).cfgP = s.cfgP := rfl
@[simp] theorem State.fail_cfgQ (r : Report) (s : State) : (s.fail r).cfgQ = s.cfgQ := rfl
@[simp] theorem State.fail_cfgDf (r : Report) (s : State) : (s.fail r).cfgDf = s.cfgDf := rfl
@[simp] theorem State.fail_cfgDg (r : Report) (s : State) : (s.fail r).cfgDg = s.cfgDg := rfl
@[simp] theorem State.fail_cfgDr (r : Report) (s : State) : (s.fail r).cfgDr = s.cfgDr := rfl
@[simp] theorem State.fail_modarg (r : Report) (s : State) : (s.fail r).modarg = s.modarg := rfl
@[simp] theorem State.fail_sampNp (r : Report) (s : State) : (s.fail r).sampNp = s.sampNp := rfl
@[simp] theorem State.fail_sampNm (r : Report) (s : State) : (s.fail r).sampNm = s.sampNm := rfl
@[simp] theorem State.fail_wplus (r : Report) (s : State) : (s.fail r).wplus = s.wplus := rfl
@[simp] theorem State.fail_wminus (r : Report) (s : State) : (s.fail r).wminus = s.wminus := rfl
@[simp] theorem State.fail_wother (r : Report) (s : State) : (s.fail r).wother = s.wother := rfl
@[simp] theorem State.fail_mlen (r : Report) (s : State) : (s.fail r).mlen = s.mlen := rfl
@[simp] theorem State.fail_clen (r : Report) (s : State) : (s.fail r).clen = s.clen := rfl
@[simp] theorem State.fail_nblk (r : Report) (s : State) : (s.fail r).nblk = s.nblk := rfl
@[simp] theorem State.fail_plen (r : Report) (s : State) : (s.fail r).plen = s.plen := rfl
@[simp] theorem State.fail_p (r : Report) (s : State) : (s.fail r).p = s.p := rfl
@[simp] theorem State.fail_bbuf (r : Report) (s : State) : (s.fail r).bbuf = s.bbuf := rfl
@[simp] theorem State.fail_cbuf (r : Report) (s : State) : (s.fail r).cbuf = s.cbuf := rfl
@[simp] theorem State.fail_engine (r : Report) (s : State) : (s.fail r).engine = .idle := rfl
@[simp] theorem State.fail_entropy (r : Report) (s : State) : (s.fail r).entropy = s.entropy := rfl
@[simp] theorem State.fail_agenda (r : Report) (s : State) : (s.fail r).agenda = s.agenda := rfl
@[simp] theorem State.fail_bus (r : Report) (s : State) : (s.fail r).bus = s.bus := rfl
@[simp] theorem State.fail_draws (r : Report) (s : State) : (s.fail r).draws = s.draws := rfl
@[simp] theorem State.fail_turnLimit (r : Report) (s : State) : (s.fail r).turnLimit = s.turnLimit := rfl
@[simp] theorem State.fail_build (r : Report) (s : State) : (s.fail r).build = s.build := rfl

/-! ### acknowledge -/

@[simp] theorem State.acknowledge_ctrl (s : State) : (s.acknowledge).ctrl = s.ctrl := rfl
@[simp] theorem State.acknowledge_status (s : State) : (s.acknowledge).status = { s.status with done := false } := rfl
@[simp] theorem State.acknowledge_cmd (s : State) : (s.acknowledge).cmd = s.cmd := rfl
@[simp] theorem State.acknowledge_errinfo (s : State) : (s.acknowledge).errinfo = s.errinfo := rfl
@[simp] theorem State.acknowledge_errcmd (s : State) : (s.acknowledge).errcmd = s.errcmd := rfl
@[simp] theorem State.acknowledge_fifo (s : State) : (s.acknowledge).fifo = s.fifo := rfl
@[simp] theorem State.acknowledge_cfgN (s : State) : (s.acknowledge).cfgN = s.cfgN := rfl
@[simp] theorem State.acknowledge_cfgP (s : State) : (s.acknowledge).cfgP = s.cfgP := rfl
@[simp] theorem State.acknowledge_cfgQ (s : State) : (s.acknowledge).cfgQ = s.cfgQ := rfl
@[simp] theorem State.acknowledge_cfgDf (s : State) : (s.acknowledge).cfgDf = s.cfgDf := rfl
@[simp] theorem State.acknowledge_cfgDg (s : State) : (s.acknowledge).cfgDg = s.cfgDg := rfl
@[simp] theorem State.acknowledge_cfgDr (s : State) : (s.acknowledge).cfgDr = s.cfgDr := rfl
@[simp] theorem State.acknowledge_modarg (s : State) : (s.acknowledge).modarg = s.modarg := rfl
@[simp] theorem State.acknowledge_sampNp (s : State) : (s.acknowledge).sampNp = s.sampNp := rfl
@[simp] theorem State.acknowledge_sampNm (s : State) : (s.acknowledge).sampNm = s.sampNm := rfl
@[simp] theorem State.acknowledge_wplus (s : State) : (s.acknowledge).wplus = s.wplus := rfl
@[simp] theorem State.acknowledge_wminus (s : State) : (s.acknowledge).wminus = s.wminus := rfl
@[simp] theorem State.acknowledge_wother (s : State) : (s.acknowledge).wother = s.wother := rfl
@[simp] theorem State.acknowledge_mlen (s : State) : (s.acknowledge).mlen = s.mlen := rfl
@[simp] theorem State.acknowledge_clen (s : State) : (s.acknowledge).clen = s.clen := rfl
@[simp] theorem State.acknowledge_nblk (s : State) : (s.acknowledge).nblk = s.nblk := rfl
@[simp] theorem State.acknowledge_plen (s : State) : (s.acknowledge).plen = s.plen := rfl
@[simp] theorem State.acknowledge_p (s : State) : (s.acknowledge).p = s.p := rfl
@[simp] theorem State.acknowledge_bbuf (s : State) : (s.acknowledge).bbuf = s.bbuf := rfl
@[simp] theorem State.acknowledge_cbuf (s : State) : (s.acknowledge).cbuf = s.cbuf := rfl
@[simp] theorem State.acknowledge_engine (s : State) : (s.acknowledge).engine = s.engine := rfl
@[simp] theorem State.acknowledge_entropy (s : State) : (s.acknowledge).entropy = s.entropy := rfl
@[simp] theorem State.acknowledge_agenda (s : State) : (s.acknowledge).agenda = s.agenda := rfl
@[simp] theorem State.acknowledge_bus (s : State) : (s.acknowledge).bus = s.bus := rfl
@[simp] theorem State.acknowledge_draws (s : State) : (s.acknowledge).draws = s.draws := rfl
@[simp] theorem State.acknowledge_turnLimit (s : State) : (s.acknowledge).turnLimit = s.turnLimit := rfl
@[simp] theorem State.acknowledge_build (s : State) : (s.acknowledge).build = s.build := rfl

/-! ### drew -/

@[simp] theorem State.drew_ctrl (s : State) : (s.drew).ctrl = s.ctrl := rfl
@[simp] theorem State.drew_status (s : State) : (s.drew).status = s.status := rfl
@[simp] theorem State.drew_cmd (s : State) : (s.drew).cmd = s.cmd := rfl
@[simp] theorem State.drew_errinfo (s : State) : (s.drew).errinfo = s.errinfo := rfl
@[simp] theorem State.drew_errcmd (s : State) : (s.drew).errcmd = s.errcmd := rfl
@[simp] theorem State.drew_fifo (s : State) : (s.drew).fifo = s.fifo := rfl
@[simp] theorem State.drew_cfgN (s : State) : (s.drew).cfgN = s.cfgN := rfl
@[simp] theorem State.drew_cfgP (s : State) : (s.drew).cfgP = s.cfgP := rfl
@[simp] theorem State.drew_cfgQ (s : State) : (s.drew).cfgQ = s.cfgQ := rfl
@[simp] theorem State.drew_cfgDf (s : State) : (s.drew).cfgDf = s.cfgDf := rfl
@[simp] theorem State.drew_cfgDg (s : State) : (s.drew).cfgDg = s.cfgDg := rfl
@[simp] theorem State.drew_cfgDr (s : State) : (s.drew).cfgDr = s.cfgDr := rfl
@[simp] theorem State.drew_modarg (s : State) : (s.drew).modarg = s.modarg := rfl
@[simp] theorem State.drew_sampNp (s : State) : (s.drew).sampNp = s.sampNp := rfl
@[simp] theorem State.drew_sampNm (s : State) : (s.drew).sampNm = s.sampNm := rfl
@[simp] theorem State.drew_wplus (s : State) : (s.drew).wplus = s.wplus := rfl
@[simp] theorem State.drew_wminus (s : State) : (s.drew).wminus = s.wminus := rfl
@[simp] theorem State.drew_wother (s : State) : (s.drew).wother = s.wother := rfl
@[simp] theorem State.drew_mlen (s : State) : (s.drew).mlen = s.mlen := rfl
@[simp] theorem State.drew_clen (s : State) : (s.drew).clen = s.clen := rfl
@[simp] theorem State.drew_nblk (s : State) : (s.drew).nblk = s.nblk := rfl
@[simp] theorem State.drew_plen (s : State) : (s.drew).plen = s.plen := rfl
@[simp] theorem State.drew_p (s : State) : (s.drew).p = s.p := rfl
@[simp] theorem State.drew_bbuf (s : State) : (s.drew).bbuf = s.bbuf := rfl
@[simp] theorem State.drew_cbuf (s : State) : (s.drew).cbuf = s.cbuf := rfl
@[simp] theorem State.drew_engine (s : State) : (s.drew).engine = s.engine := rfl
@[simp] theorem State.drew_entropy (s : State) : (s.drew).entropy = s.entropy := rfl
@[simp] theorem State.drew_agenda (s : State) : (s.drew).agenda = s.agenda := rfl
@[simp] theorem State.drew_bus (s : State) : (s.drew).bus = s.bus := rfl
@[simp] theorem State.drew_draws (s : State) : (s.drew).draws = s.draws + Config.drawBlock := rfl
@[simp] theorem State.drew_turnLimit (s : State) : (s.drew).turnLimit = s.turnLimit := rfl
@[simp] theorem State.drew_build (s : State) : (s.drew).build = s.build := rfl

/-! ### writePoly -/

@[simp] theorem State.writePoly_ctrl (k : PReg) (c : Poly) (s : State) : (s.writePoly k c).ctrl = s.ctrl := rfl
@[simp] theorem State.writePoly_status (k : PReg) (c : Poly) (s : State) : (s.writePoly k c).status = s.status := rfl
@[simp] theorem State.writePoly_cmd (k : PReg) (c : Poly) (s : State) : (s.writePoly k c).cmd = s.cmd := rfl
@[simp] theorem State.writePoly_errinfo (k : PReg) (c : Poly) (s : State) : (s.writePoly k c).errinfo = s.errinfo := rfl
@[simp] theorem State.writePoly_errcmd (k : PReg) (c : Poly) (s : State) : (s.writePoly k c).errcmd = s.errcmd := rfl
@[simp] theorem State.writePoly_fifo (k : PReg) (c : Poly) (s : State) : (s.writePoly k c).fifo = s.fifo := rfl
@[simp] theorem State.writePoly_cfgN (k : PReg) (c : Poly) (s : State) : (s.writePoly k c).cfgN = s.cfgN := rfl
@[simp] theorem State.writePoly_cfgP (k : PReg) (c : Poly) (s : State) : (s.writePoly k c).cfgP = s.cfgP := rfl
@[simp] theorem State.writePoly_cfgQ (k : PReg) (c : Poly) (s : State) : (s.writePoly k c).cfgQ = s.cfgQ := rfl
@[simp] theorem State.writePoly_cfgDf (k : PReg) (c : Poly) (s : State) : (s.writePoly k c).cfgDf = s.cfgDf := rfl
@[simp] theorem State.writePoly_cfgDg (k : PReg) (c : Poly) (s : State) : (s.writePoly k c).cfgDg = s.cfgDg := rfl
@[simp] theorem State.writePoly_cfgDr (k : PReg) (c : Poly) (s : State) : (s.writePoly k c).cfgDr = s.cfgDr := rfl
@[simp] theorem State.writePoly_modarg (k : PReg) (c : Poly) (s : State) : (s.writePoly k c).modarg = s.modarg := rfl
@[simp] theorem State.writePoly_sampNp (k : PReg) (c : Poly) (s : State) : (s.writePoly k c).sampNp = s.sampNp := rfl
@[simp] theorem State.writePoly_sampNm (k : PReg) (c : Poly) (s : State) : (s.writePoly k c).sampNm = s.sampNm := rfl
@[simp] theorem State.writePoly_wplus (k : PReg) (c : Poly) (s : State) : (s.writePoly k c).wplus = s.wplus := rfl
@[simp] theorem State.writePoly_wminus (k : PReg) (c : Poly) (s : State) : (s.writePoly k c).wminus = s.wminus := rfl
@[simp] theorem State.writePoly_wother (k : PReg) (c : Poly) (s : State) : (s.writePoly k c).wother = s.wother := rfl
@[simp] theorem State.writePoly_mlen (k : PReg) (c : Poly) (s : State) : (s.writePoly k c).mlen = s.mlen := rfl
@[simp] theorem State.writePoly_clen (k : PReg) (c : Poly) (s : State) : (s.writePoly k c).clen = s.clen := rfl
@[simp] theorem State.writePoly_nblk (k : PReg) (c : Poly) (s : State) : (s.writePoly k c).nblk = s.nblk := rfl
@[simp] theorem State.writePoly_plen (k : PReg) (c : Poly) (s : State) : (s.writePoly k c).plen = s.plen.set k s.cfgN := rfl
@[simp] theorem State.writePoly_p (k : PReg) (c : Poly) (s : State) : (s.writePoly k c).p = s.p.set k (polySlots s.build.nmax c) := rfl
@[simp] theorem State.writePoly_bbuf (k : PReg) (c : Poly) (s : State) : (s.writePoly k c).bbuf = s.bbuf := rfl
@[simp] theorem State.writePoly_cbuf (k : PReg) (c : Poly) (s : State) : (s.writePoly k c).cbuf = s.cbuf := rfl
@[simp] theorem State.writePoly_engine (k : PReg) (c : Poly) (s : State) : (s.writePoly k c).engine = s.engine := rfl
@[simp] theorem State.writePoly_entropy (k : PReg) (c : Poly) (s : State) : (s.writePoly k c).entropy = s.entropy := rfl
@[simp] theorem State.writePoly_agenda (k : PReg) (c : Poly) (s : State) : (s.writePoly k c).agenda = s.agenda := rfl
@[simp] theorem State.writePoly_bus (k : PReg) (c : Poly) (s : State) : (s.writePoly k c).bus = s.bus := rfl
@[simp] theorem State.writePoly_draws (k : PReg) (c : Poly) (s : State) : (s.writePoly k c).draws = s.draws := rfl
@[simp] theorem State.writePoly_turnLimit (k : PReg) (c : Poly) (s : State) : (s.writePoly k c).turnLimit = s.turnLimit := rfl
@[simp] theorem State.writePoly_build (k : PReg) (c : Poly) (s : State) : (s.writePoly k c).build = s.build := rfl

/-! ### movePoly -/

@[simp] theorem State.movePoly_ctrl (rd rs1 : PReg) (s : State) : (s.movePoly rd rs1).ctrl = s.ctrl := rfl
@[simp] theorem State.movePoly_status (rd rs1 : PReg) (s : State) : (s.movePoly rd rs1).status = s.status := rfl
@[simp] theorem State.movePoly_cmd (rd rs1 : PReg) (s : State) : (s.movePoly rd rs1).cmd = s.cmd := rfl
@[simp] theorem State.movePoly_errinfo (rd rs1 : PReg) (s : State) : (s.movePoly rd rs1).errinfo = s.errinfo := rfl
@[simp] theorem State.movePoly_errcmd (rd rs1 : PReg) (s : State) : (s.movePoly rd rs1).errcmd = s.errcmd := rfl
@[simp] theorem State.movePoly_fifo (rd rs1 : PReg) (s : State) : (s.movePoly rd rs1).fifo = s.fifo := rfl
@[simp] theorem State.movePoly_cfgN (rd rs1 : PReg) (s : State) : (s.movePoly rd rs1).cfgN = s.cfgN := rfl
@[simp] theorem State.movePoly_cfgP (rd rs1 : PReg) (s : State) : (s.movePoly rd rs1).cfgP = s.cfgP := rfl
@[simp] theorem State.movePoly_cfgQ (rd rs1 : PReg) (s : State) : (s.movePoly rd rs1).cfgQ = s.cfgQ := rfl
@[simp] theorem State.movePoly_cfgDf (rd rs1 : PReg) (s : State) : (s.movePoly rd rs1).cfgDf = s.cfgDf := rfl
@[simp] theorem State.movePoly_cfgDg (rd rs1 : PReg) (s : State) : (s.movePoly rd rs1).cfgDg = s.cfgDg := rfl
@[simp] theorem State.movePoly_cfgDr (rd rs1 : PReg) (s : State) : (s.movePoly rd rs1).cfgDr = s.cfgDr := rfl
@[simp] theorem State.movePoly_modarg (rd rs1 : PReg) (s : State) : (s.movePoly rd rs1).modarg = s.modarg := rfl
@[simp] theorem State.movePoly_sampNp (rd rs1 : PReg) (s : State) : (s.movePoly rd rs1).sampNp = s.sampNp := rfl
@[simp] theorem State.movePoly_sampNm (rd rs1 : PReg) (s : State) : (s.movePoly rd rs1).sampNm = s.sampNm := rfl
@[simp] theorem State.movePoly_wplus (rd rs1 : PReg) (s : State) : (s.movePoly rd rs1).wplus = s.wplus := rfl
@[simp] theorem State.movePoly_wminus (rd rs1 : PReg) (s : State) : (s.movePoly rd rs1).wminus = s.wminus := rfl
@[simp] theorem State.movePoly_wother (rd rs1 : PReg) (s : State) : (s.movePoly rd rs1).wother = s.wother := rfl
@[simp] theorem State.movePoly_mlen (rd rs1 : PReg) (s : State) : (s.movePoly rd rs1).mlen = s.mlen := rfl
@[simp] theorem State.movePoly_clen (rd rs1 : PReg) (s : State) : (s.movePoly rd rs1).clen = s.clen := rfl
@[simp] theorem State.movePoly_nblk (rd rs1 : PReg) (s : State) : (s.movePoly rd rs1).nblk = s.nblk := rfl
@[simp] theorem State.movePoly_plen (rd rs1 : PReg) (s : State) : (s.movePoly rd rs1).plen = s.plen.set rd s.plen[rs1] := rfl
@[simp] theorem State.movePoly_p (rd rs1 : PReg) (s : State) : (s.movePoly rd rs1).p = s.p.set rd s.p[rs1] := rfl
@[simp] theorem State.movePoly_bbuf (rd rs1 : PReg) (s : State) : (s.movePoly rd rs1).bbuf = s.bbuf := rfl
@[simp] theorem State.movePoly_cbuf (rd rs1 : PReg) (s : State) : (s.movePoly rd rs1).cbuf = s.cbuf := rfl
@[simp] theorem State.movePoly_engine (rd rs1 : PReg) (s : State) : (s.movePoly rd rs1).engine = s.engine := rfl
@[simp] theorem State.movePoly_entropy (rd rs1 : PReg) (s : State) : (s.movePoly rd rs1).entropy = s.entropy := rfl
@[simp] theorem State.movePoly_agenda (rd rs1 : PReg) (s : State) : (s.movePoly rd rs1).agenda = s.agenda := rfl
@[simp] theorem State.movePoly_bus (rd rs1 : PReg) (s : State) : (s.movePoly rd rs1).bus = s.bus := rfl
@[simp] theorem State.movePoly_draws (rd rs1 : PReg) (s : State) : (s.movePoly rd rs1).draws = s.draws := rfl
@[simp] theorem State.movePoly_turnLimit (rd rs1 : PReg) (s : State) : (s.movePoly rd rs1).turnLimit = s.turnLimit := rfl
@[simp] theorem State.movePoly_build (rd rs1 : PReg) (s : State) : (s.movePoly rd rs1).build = s.build := rfl

/-! ### putBit -/

@[simp] theorem State.putBit_ctrl (j : Nat) (v : Bool) (s : State) : (s.putBit j v).ctrl = s.ctrl := rfl
@[simp] theorem State.putBit_status (j : Nat) (v : Bool) (s : State) : (s.putBit j v).status = s.status := rfl
@[simp] theorem State.putBit_cmd (j : Nat) (v : Bool) (s : State) : (s.putBit j v).cmd = s.cmd := rfl
@[simp] theorem State.putBit_errinfo (j : Nat) (v : Bool) (s : State) : (s.putBit j v).errinfo = s.errinfo := rfl
@[simp] theorem State.putBit_errcmd (j : Nat) (v : Bool) (s : State) : (s.putBit j v).errcmd = s.errcmd := rfl
@[simp] theorem State.putBit_fifo (j : Nat) (v : Bool) (s : State) : (s.putBit j v).fifo = s.fifo := rfl
@[simp] theorem State.putBit_cfgN (j : Nat) (v : Bool) (s : State) : (s.putBit j v).cfgN = s.cfgN := rfl
@[simp] theorem State.putBit_cfgP (j : Nat) (v : Bool) (s : State) : (s.putBit j v).cfgP = s.cfgP := rfl
@[simp] theorem State.putBit_cfgQ (j : Nat) (v : Bool) (s : State) : (s.putBit j v).cfgQ = s.cfgQ := rfl
@[simp] theorem State.putBit_cfgDf (j : Nat) (v : Bool) (s : State) : (s.putBit j v).cfgDf = s.cfgDf := rfl
@[simp] theorem State.putBit_cfgDg (j : Nat) (v : Bool) (s : State) : (s.putBit j v).cfgDg = s.cfgDg := rfl
@[simp] theorem State.putBit_cfgDr (j : Nat) (v : Bool) (s : State) : (s.putBit j v).cfgDr = s.cfgDr := rfl
@[simp] theorem State.putBit_modarg (j : Nat) (v : Bool) (s : State) : (s.putBit j v).modarg = s.modarg := rfl
@[simp] theorem State.putBit_sampNp (j : Nat) (v : Bool) (s : State) : (s.putBit j v).sampNp = s.sampNp := rfl
@[simp] theorem State.putBit_sampNm (j : Nat) (v : Bool) (s : State) : (s.putBit j v).sampNm = s.sampNm := rfl
@[simp] theorem State.putBit_wplus (j : Nat) (v : Bool) (s : State) : (s.putBit j v).wplus = s.wplus := rfl
@[simp] theorem State.putBit_wminus (j : Nat) (v : Bool) (s : State) : (s.putBit j v).wminus = s.wminus := rfl
@[simp] theorem State.putBit_wother (j : Nat) (v : Bool) (s : State) : (s.putBit j v).wother = s.wother := rfl
@[simp] theorem State.putBit_mlen (j : Nat) (v : Bool) (s : State) : (s.putBit j v).mlen = s.mlen := rfl
@[simp] theorem State.putBit_clen (j : Nat) (v : Bool) (s : State) : (s.putBit j v).clen = s.clen := rfl
@[simp] theorem State.putBit_nblk (j : Nat) (v : Bool) (s : State) : (s.putBit j v).nblk = s.nblk := rfl
@[simp] theorem State.putBit_plen (j : Nat) (v : Bool) (s : State) : (s.putBit j v).plen = s.plen := rfl
@[simp] theorem State.putBit_p (j : Nat) (v : Bool) (s : State) : (s.putBit j v).p = s.p := rfl
@[simp] theorem State.putBit_bbuf (j : Nat) (v : Bool) (s : State) : (s.putBit j v).bbuf = bufPut s.bbuf (j / 8) (withMsbBit (s.byteAt (j / 8)) j v) := rfl
@[simp] theorem State.putBit_cbuf (j : Nat) (v : Bool) (s : State) : (s.putBit j v).cbuf = s.cbuf := rfl
@[simp] theorem State.putBit_engine (j : Nat) (v : Bool) (s : State) : (s.putBit j v).engine = s.engine := rfl
@[simp] theorem State.putBit_entropy (j : Nat) (v : Bool) (s : State) : (s.putBit j v).entropy = s.entropy := rfl
@[simp] theorem State.putBit_agenda (j : Nat) (v : Bool) (s : State) : (s.putBit j v).agenda = s.agenda := rfl
@[simp] theorem State.putBit_bus (j : Nat) (v : Bool) (s : State) : (s.putBit j v).bus = s.bus := rfl
@[simp] theorem State.putBit_draws (j : Nat) (v : Bool) (s : State) : (s.putBit j v).draws = s.draws := rfl
@[simp] theorem State.putBit_turnLimit (j : Nat) (v : Bool) (s : State) : (s.putBit j v).turnLimit = s.turnLimit := rfl
@[simp] theorem State.putBit_build (j : Nat) (v : Bool) (s : State) : (s.putBit j v).build = s.build := rfl

/-! ### raiseOvf -/

@[simp] theorem State.raiseOvf_ctrl (c : Poly) (s : State) : (s.raiseOvf c).ctrl = s.ctrl := rfl
@[simp] theorem State.raiseOvf_status (c : Poly) (s : State) : (s.raiseOvf c).status = { s.status with ovf := s.status.ovf || overflows c } := rfl
@[simp] theorem State.raiseOvf_cmd (c : Poly) (s : State) : (s.raiseOvf c).cmd = s.cmd := rfl
@[simp] theorem State.raiseOvf_errinfo (c : Poly) (s : State) : (s.raiseOvf c).errinfo = s.errinfo := rfl
@[simp] theorem State.raiseOvf_errcmd (c : Poly) (s : State) : (s.raiseOvf c).errcmd = s.errcmd := rfl
@[simp] theorem State.raiseOvf_fifo (c : Poly) (s : State) : (s.raiseOvf c).fifo = s.fifo := rfl
@[simp] theorem State.raiseOvf_cfgN (c : Poly) (s : State) : (s.raiseOvf c).cfgN = s.cfgN := rfl
@[simp] theorem State.raiseOvf_cfgP (c : Poly) (s : State) : (s.raiseOvf c).cfgP = s.cfgP := rfl
@[simp] theorem State.raiseOvf_cfgQ (c : Poly) (s : State) : (s.raiseOvf c).cfgQ = s.cfgQ := rfl
@[simp] theorem State.raiseOvf_cfgDf (c : Poly) (s : State) : (s.raiseOvf c).cfgDf = s.cfgDf := rfl
@[simp] theorem State.raiseOvf_cfgDg (c : Poly) (s : State) : (s.raiseOvf c).cfgDg = s.cfgDg := rfl
@[simp] theorem State.raiseOvf_cfgDr (c : Poly) (s : State) : (s.raiseOvf c).cfgDr = s.cfgDr := rfl
@[simp] theorem State.raiseOvf_modarg (c : Poly) (s : State) : (s.raiseOvf c).modarg = s.modarg := rfl
@[simp] theorem State.raiseOvf_sampNp (c : Poly) (s : State) : (s.raiseOvf c).sampNp = s.sampNp := rfl
@[simp] theorem State.raiseOvf_sampNm (c : Poly) (s : State) : (s.raiseOvf c).sampNm = s.sampNm := rfl
@[simp] theorem State.raiseOvf_wplus (c : Poly) (s : State) : (s.raiseOvf c).wplus = s.wplus := rfl
@[simp] theorem State.raiseOvf_wminus (c : Poly) (s : State) : (s.raiseOvf c).wminus = s.wminus := rfl
@[simp] theorem State.raiseOvf_wother (c : Poly) (s : State) : (s.raiseOvf c).wother = s.wother := rfl
@[simp] theorem State.raiseOvf_mlen (c : Poly) (s : State) : (s.raiseOvf c).mlen = s.mlen := rfl
@[simp] theorem State.raiseOvf_clen (c : Poly) (s : State) : (s.raiseOvf c).clen = s.clen := rfl
@[simp] theorem State.raiseOvf_nblk (c : Poly) (s : State) : (s.raiseOvf c).nblk = s.nblk := rfl
@[simp] theorem State.raiseOvf_plen (c : Poly) (s : State) : (s.raiseOvf c).plen = s.plen := rfl
@[simp] theorem State.raiseOvf_p (c : Poly) (s : State) : (s.raiseOvf c).p = s.p := rfl
@[simp] theorem State.raiseOvf_bbuf (c : Poly) (s : State) : (s.raiseOvf c).bbuf = s.bbuf := rfl
@[simp] theorem State.raiseOvf_cbuf (c : Poly) (s : State) : (s.raiseOvf c).cbuf = s.cbuf := rfl
@[simp] theorem State.raiseOvf_engine (c : Poly) (s : State) : (s.raiseOvf c).engine = s.engine := rfl
@[simp] theorem State.raiseOvf_entropy (c : Poly) (s : State) : (s.raiseOvf c).entropy = s.entropy := rfl
@[simp] theorem State.raiseOvf_agenda (c : Poly) (s : State) : (s.raiseOvf c).agenda = s.agenda := rfl
@[simp] theorem State.raiseOvf_bus (c : Poly) (s : State) : (s.raiseOvf c).bus = s.bus := rfl
@[simp] theorem State.raiseOvf_draws (c : Poly) (s : State) : (s.raiseOvf c).draws = s.draws := rfl
@[simp] theorem State.raiseOvf_turnLimit (c : Poly) (s : State) : (s.raiseOvf c).turnLimit = s.turnLimit := rfl
@[simp] theorem State.raiseOvf_build (c : Poly) (s : State) : (s.raiseOvf c).build = s.build := rfl

/-! ### setNoinv -/

@[simp] theorem State.setNoinv_ctrl (b : Bool) (s : State) : (s.setNoinv b).ctrl = s.ctrl := rfl
@[simp] theorem State.setNoinv_status (b : Bool) (s : State) : (s.setNoinv b).status = { s.status with noinv := b } := rfl
@[simp] theorem State.setNoinv_cmd (b : Bool) (s : State) : (s.setNoinv b).cmd = s.cmd := rfl
@[simp] theorem State.setNoinv_errinfo (b : Bool) (s : State) : (s.setNoinv b).errinfo = s.errinfo := rfl
@[simp] theorem State.setNoinv_errcmd (b : Bool) (s : State) : (s.setNoinv b).errcmd = s.errcmd := rfl
@[simp] theorem State.setNoinv_fifo (b : Bool) (s : State) : (s.setNoinv b).fifo = s.fifo := rfl
@[simp] theorem State.setNoinv_cfgN (b : Bool) (s : State) : (s.setNoinv b).cfgN = s.cfgN := rfl
@[simp] theorem State.setNoinv_cfgP (b : Bool) (s : State) : (s.setNoinv b).cfgP = s.cfgP := rfl
@[simp] theorem State.setNoinv_cfgQ (b : Bool) (s : State) : (s.setNoinv b).cfgQ = s.cfgQ := rfl
@[simp] theorem State.setNoinv_cfgDf (b : Bool) (s : State) : (s.setNoinv b).cfgDf = s.cfgDf := rfl
@[simp] theorem State.setNoinv_cfgDg (b : Bool) (s : State) : (s.setNoinv b).cfgDg = s.cfgDg := rfl
@[simp] theorem State.setNoinv_cfgDr (b : Bool) (s : State) : (s.setNoinv b).cfgDr = s.cfgDr := rfl
@[simp] theorem State.setNoinv_modarg (b : Bool) (s : State) : (s.setNoinv b).modarg = s.modarg := rfl
@[simp] theorem State.setNoinv_sampNp (b : Bool) (s : State) : (s.setNoinv b).sampNp = s.sampNp := rfl
@[simp] theorem State.setNoinv_sampNm (b : Bool) (s : State) : (s.setNoinv b).sampNm = s.sampNm := rfl
@[simp] theorem State.setNoinv_wplus (b : Bool) (s : State) : (s.setNoinv b).wplus = s.wplus := rfl
@[simp] theorem State.setNoinv_wminus (b : Bool) (s : State) : (s.setNoinv b).wminus = s.wminus := rfl
@[simp] theorem State.setNoinv_wother (b : Bool) (s : State) : (s.setNoinv b).wother = s.wother := rfl
@[simp] theorem State.setNoinv_mlen (b : Bool) (s : State) : (s.setNoinv b).mlen = s.mlen := rfl
@[simp] theorem State.setNoinv_clen (b : Bool) (s : State) : (s.setNoinv b).clen = s.clen := rfl
@[simp] theorem State.setNoinv_nblk (b : Bool) (s : State) : (s.setNoinv b).nblk = s.nblk := rfl
@[simp] theorem State.setNoinv_plen (b : Bool) (s : State) : (s.setNoinv b).plen = s.plen := rfl
@[simp] theorem State.setNoinv_p (b : Bool) (s : State) : (s.setNoinv b).p = s.p := rfl
@[simp] theorem State.setNoinv_bbuf (b : Bool) (s : State) : (s.setNoinv b).bbuf = s.bbuf := rfl
@[simp] theorem State.setNoinv_cbuf (b : Bool) (s : State) : (s.setNoinv b).cbuf = s.cbuf := rfl
@[simp] theorem State.setNoinv_engine (b : Bool) (s : State) : (s.setNoinv b).engine = s.engine := rfl
@[simp] theorem State.setNoinv_entropy (b : Bool) (s : State) : (s.setNoinv b).entropy = s.entropy := rfl
@[simp] theorem State.setNoinv_agenda (b : Bool) (s : State) : (s.setNoinv b).agenda = s.agenda := rfl
@[simp] theorem State.setNoinv_bus (b : Bool) (s : State) : (s.setNoinv b).bus = s.bus := rfl
@[simp] theorem State.setNoinv_draws (b : Bool) (s : State) : (s.setNoinv b).draws = s.draws := rfl
@[simp] theorem State.setNoinv_turnLimit (b : Bool) (s : State) : (s.setNoinv b).turnLimit = s.turnLimit := rfl
@[simp] theorem State.setNoinv_build (b : Bool) (s : State) : (s.setNoinv b).build = s.build := rfl

/-! ### setCfgok -/

@[simp] theorem State.setCfgok_ctrl (b : Bool) (s : State) : (s.setCfgok b).ctrl = s.ctrl := rfl
@[simp] theorem State.setCfgok_status (b : Bool) (s : State) : (s.setCfgok b).status = { s.status with cfgok := b } := rfl
@[simp] theorem State.setCfgok_cmd (b : Bool) (s : State) : (s.setCfgok b).cmd = s.cmd := rfl
@[simp] theorem State.setCfgok_errinfo (b : Bool) (s : State) : (s.setCfgok b).errinfo = s.errinfo := rfl
@[simp] theorem State.setCfgok_errcmd (b : Bool) (s : State) : (s.setCfgok b).errcmd = s.errcmd := rfl
@[simp] theorem State.setCfgok_fifo (b : Bool) (s : State) : (s.setCfgok b).fifo = s.fifo := rfl
@[simp] theorem State.setCfgok_cfgN (b : Bool) (s : State) : (s.setCfgok b).cfgN = s.cfgN := rfl
@[simp] theorem State.setCfgok_cfgP (b : Bool) (s : State) : (s.setCfgok b).cfgP = s.cfgP := rfl
@[simp] theorem State.setCfgok_cfgQ (b : Bool) (s : State) : (s.setCfgok b).cfgQ = s.cfgQ := rfl
@[simp] theorem State.setCfgok_cfgDf (b : Bool) (s : State) : (s.setCfgok b).cfgDf = s.cfgDf := rfl
@[simp] theorem State.setCfgok_cfgDg (b : Bool) (s : State) : (s.setCfgok b).cfgDg = s.cfgDg := rfl
@[simp] theorem State.setCfgok_cfgDr (b : Bool) (s : State) : (s.setCfgok b).cfgDr = s.cfgDr := rfl
@[simp] theorem State.setCfgok_modarg (b : Bool) (s : State) : (s.setCfgok b).modarg = s.modarg := rfl
@[simp] theorem State.setCfgok_sampNp (b : Bool) (s : State) : (s.setCfgok b).sampNp = s.sampNp := rfl
@[simp] theorem State.setCfgok_sampNm (b : Bool) (s : State) : (s.setCfgok b).sampNm = s.sampNm := rfl
@[simp] theorem State.setCfgok_wplus (b : Bool) (s : State) : (s.setCfgok b).wplus = s.wplus := rfl
@[simp] theorem State.setCfgok_wminus (b : Bool) (s : State) : (s.setCfgok b).wminus = s.wminus := rfl
@[simp] theorem State.setCfgok_wother (b : Bool) (s : State) : (s.setCfgok b).wother = s.wother := rfl
@[simp] theorem State.setCfgok_mlen (b : Bool) (s : State) : (s.setCfgok b).mlen = s.mlen := rfl
@[simp] theorem State.setCfgok_clen (b : Bool) (s : State) : (s.setCfgok b).clen = s.clen := rfl
@[simp] theorem State.setCfgok_nblk (b : Bool) (s : State) : (s.setCfgok b).nblk = s.nblk := rfl
@[simp] theorem State.setCfgok_plen (b : Bool) (s : State) : (s.setCfgok b).plen = s.plen := rfl
@[simp] theorem State.setCfgok_p (b : Bool) (s : State) : (s.setCfgok b).p = s.p := rfl
@[simp] theorem State.setCfgok_bbuf (b : Bool) (s : State) : (s.setCfgok b).bbuf = s.bbuf := rfl
@[simp] theorem State.setCfgok_cbuf (b : Bool) (s : State) : (s.setCfgok b).cbuf = s.cbuf := rfl
@[simp] theorem State.setCfgok_engine (b : Bool) (s : State) : (s.setCfgok b).engine = s.engine := rfl
@[simp] theorem State.setCfgok_entropy (b : Bool) (s : State) : (s.setCfgok b).entropy = s.entropy := rfl
@[simp] theorem State.setCfgok_agenda (b : Bool) (s : State) : (s.setCfgok b).agenda = s.agenda := rfl
@[simp] theorem State.setCfgok_bus (b : Bool) (s : State) : (s.setCfgok b).bus = s.bus := rfl
@[simp] theorem State.setCfgok_draws (b : Bool) (s : State) : (s.setCfgok b).draws = s.draws := rfl
@[simp] theorem State.setCfgok_turnLimit (b : Bool) (s : State) : (s.setCfgok b).turnLimit = s.turnLimit := rfl
@[simp] theorem State.setCfgok_build (b : Bool) (s : State) : (s.setCfgok b).build = s.build := rfl

/-! ### setWeights -/

@[simp] theorem State.setWeights_ctrl (plus minus other : Nat) (s : State) : (s.setWeights plus minus other).ctrl = s.ctrl := rfl
@[simp] theorem State.setWeights_status (plus minus other : Nat) (s : State) : (s.setWeights plus minus other).status = { s.status with tern := decide (other = 0) } := rfl
@[simp] theorem State.setWeights_cmd (plus minus other : Nat) (s : State) : (s.setWeights plus minus other).cmd = s.cmd := rfl
@[simp] theorem State.setWeights_errinfo (plus minus other : Nat) (s : State) : (s.setWeights plus minus other).errinfo = s.errinfo := rfl
@[simp] theorem State.setWeights_errcmd (plus minus other : Nat) (s : State) : (s.setWeights plus minus other).errcmd = s.errcmd := rfl
@[simp] theorem State.setWeights_fifo (plus minus other : Nat) (s : State) : (s.setWeights plus minus other).fifo = s.fifo := rfl
@[simp] theorem State.setWeights_cfgN (plus minus other : Nat) (s : State) : (s.setWeights plus minus other).cfgN = s.cfgN := rfl
@[simp] theorem State.setWeights_cfgP (plus minus other : Nat) (s : State) : (s.setWeights plus minus other).cfgP = s.cfgP := rfl
@[simp] theorem State.setWeights_cfgQ (plus minus other : Nat) (s : State) : (s.setWeights plus minus other).cfgQ = s.cfgQ := rfl
@[simp] theorem State.setWeights_cfgDf (plus minus other : Nat) (s : State) : (s.setWeights plus minus other).cfgDf = s.cfgDf := rfl
@[simp] theorem State.setWeights_cfgDg (plus minus other : Nat) (s : State) : (s.setWeights plus minus other).cfgDg = s.cfgDg := rfl
@[simp] theorem State.setWeights_cfgDr (plus minus other : Nat) (s : State) : (s.setWeights plus minus other).cfgDr = s.cfgDr := rfl
@[simp] theorem State.setWeights_modarg (plus minus other : Nat) (s : State) : (s.setWeights plus minus other).modarg = s.modarg := rfl
@[simp] theorem State.setWeights_sampNp (plus minus other : Nat) (s : State) : (s.setWeights plus minus other).sampNp = s.sampNp := rfl
@[simp] theorem State.setWeights_sampNm (plus minus other : Nat) (s : State) : (s.setWeights plus minus other).sampNm = s.sampNm := rfl
@[simp] theorem State.setWeights_wplus (plus minus other : Nat) (s : State) : (s.setWeights plus minus other).wplus = BitVec.ofNat 16 plus := rfl
@[simp] theorem State.setWeights_wminus (plus minus other : Nat) (s : State) : (s.setWeights plus minus other).wminus = BitVec.ofNat 16 minus := rfl
@[simp] theorem State.setWeights_wother (plus minus other : Nat) (s : State) : (s.setWeights plus minus other).wother = BitVec.ofNat 16 other := rfl
@[simp] theorem State.setWeights_mlen (plus minus other : Nat) (s : State) : (s.setWeights plus minus other).mlen = s.mlen := rfl
@[simp] theorem State.setWeights_clen (plus minus other : Nat) (s : State) : (s.setWeights plus minus other).clen = s.clen := rfl
@[simp] theorem State.setWeights_nblk (plus minus other : Nat) (s : State) : (s.setWeights plus minus other).nblk = s.nblk := rfl
@[simp] theorem State.setWeights_plen (plus minus other : Nat) (s : State) : (s.setWeights plus minus other).plen = s.plen := rfl
@[simp] theorem State.setWeights_p (plus minus other : Nat) (s : State) : (s.setWeights plus minus other).p = s.p := rfl
@[simp] theorem State.setWeights_bbuf (plus minus other : Nat) (s : State) : (s.setWeights plus minus other).bbuf = s.bbuf := rfl
@[simp] theorem State.setWeights_cbuf (plus minus other : Nat) (s : State) : (s.setWeights plus minus other).cbuf = s.cbuf := rfl
@[simp] theorem State.setWeights_engine (plus minus other : Nat) (s : State) : (s.setWeights plus minus other).engine = s.engine := rfl
@[simp] theorem State.setWeights_entropy (plus minus other : Nat) (s : State) : (s.setWeights plus minus other).entropy = s.entropy := rfl
@[simp] theorem State.setWeights_agenda (plus minus other : Nat) (s : State) : (s.setWeights plus minus other).agenda = s.agenda := rfl
@[simp] theorem State.setWeights_bus (plus minus other : Nat) (s : State) : (s.setWeights plus minus other).bus = s.bus := rfl
@[simp] theorem State.setWeights_draws (plus minus other : Nat) (s : State) : (s.setWeights plus minus other).draws = s.draws := rfl
@[simp] theorem State.setWeights_turnLimit (plus minus other : Nat) (s : State) : (s.setWeights plus minus other).turnLimit = s.turnLimit := rfl
@[simp] theorem State.setWeights_build (plus minus other : Nat) (s : State) : (s.setWeights plus minus other).build = s.build := rfl

/-! ### setNblk -/

@[simp] theorem State.setNblk_ctrl (k : Nat) (s : State) : (s.setNblk k).ctrl = s.ctrl := rfl
@[simp] theorem State.setNblk_status (k : Nat) (s : State) : (s.setNblk k).status = s.status := rfl
@[simp] theorem State.setNblk_cmd (k : Nat) (s : State) : (s.setNblk k).cmd = s.cmd := rfl
@[simp] theorem State.setNblk_errinfo (k : Nat) (s : State) : (s.setNblk k).errinfo = s.errinfo := rfl
@[simp] theorem State.setNblk_errcmd (k : Nat) (s : State) : (s.setNblk k).errcmd = s.errcmd := rfl
@[simp] theorem State.setNblk_fifo (k : Nat) (s : State) : (s.setNblk k).fifo = s.fifo := rfl
@[simp] theorem State.setNblk_cfgN (k : Nat) (s : State) : (s.setNblk k).cfgN = s.cfgN := rfl
@[simp] theorem State.setNblk_cfgP (k : Nat) (s : State) : (s.setNblk k).cfgP = s.cfgP := rfl
@[simp] theorem State.setNblk_cfgQ (k : Nat) (s : State) : (s.setNblk k).cfgQ = s.cfgQ := rfl
@[simp] theorem State.setNblk_cfgDf (k : Nat) (s : State) : (s.setNblk k).cfgDf = s.cfgDf := rfl
@[simp] theorem State.setNblk_cfgDg (k : Nat) (s : State) : (s.setNblk k).cfgDg = s.cfgDg := rfl
@[simp] theorem State.setNblk_cfgDr (k : Nat) (s : State) : (s.setNblk k).cfgDr = s.cfgDr := rfl
@[simp] theorem State.setNblk_modarg (k : Nat) (s : State) : (s.setNblk k).modarg = s.modarg := rfl
@[simp] theorem State.setNblk_sampNp (k : Nat) (s : State) : (s.setNblk k).sampNp = s.sampNp := rfl
@[simp] theorem State.setNblk_sampNm (k : Nat) (s : State) : (s.setNblk k).sampNm = s.sampNm := rfl
@[simp] theorem State.setNblk_wplus (k : Nat) (s : State) : (s.setNblk k).wplus = s.wplus := rfl
@[simp] theorem State.setNblk_wminus (k : Nat) (s : State) : (s.setNblk k).wminus = s.wminus := rfl
@[simp] theorem State.setNblk_wother (k : Nat) (s : State) : (s.setNblk k).wother = s.wother := rfl
@[simp] theorem State.setNblk_mlen (k : Nat) (s : State) : (s.setNblk k).mlen = s.mlen := rfl
@[simp] theorem State.setNblk_clen (k : Nat) (s : State) : (s.setNblk k).clen = s.clen := rfl
@[simp] theorem State.setNblk_nblk (k : Nat) (s : State) : (s.setNblk k).nblk = BitVec.ofNat 16 k := rfl
@[simp] theorem State.setNblk_plen (k : Nat) (s : State) : (s.setNblk k).plen = s.plen := rfl
@[simp] theorem State.setNblk_p (k : Nat) (s : State) : (s.setNblk k).p = s.p := rfl
@[simp] theorem State.setNblk_bbuf (k : Nat) (s : State) : (s.setNblk k).bbuf = s.bbuf := rfl
@[simp] theorem State.setNblk_cbuf (k : Nat) (s : State) : (s.setNblk k).cbuf = s.cbuf := rfl
@[simp] theorem State.setNblk_engine (k : Nat) (s : State) : (s.setNblk k).engine = s.engine := rfl
@[simp] theorem State.setNblk_entropy (k : Nat) (s : State) : (s.setNblk k).entropy = s.entropy := rfl
@[simp] theorem State.setNblk_agenda (k : Nat) (s : State) : (s.setNblk k).agenda = s.agenda := rfl
@[simp] theorem State.setNblk_bus (k : Nat) (s : State) : (s.setNblk k).bus = s.bus := rfl
@[simp] theorem State.setNblk_draws (k : Nat) (s : State) : (s.setNblk k).draws = s.draws := rfl
@[simp] theorem State.setNblk_turnLimit (k : Nat) (s : State) : (s.setNblk k).turnLimit = s.turnLimit := rfl
@[simp] theorem State.setNblk_build (k : Nat) (s : State) : (s.setNblk k).build = s.build := rfl

/-! ### trimMessage -/

@[simp] theorem State.trimMessage_ctrl (t : Nat) (s : State) : (s.trimMessage t).ctrl = s.ctrl := rfl
@[simp] theorem State.trimMessage_status (t : Nat) (s : State) : (s.trimMessage t).status = s.status := rfl
@[simp] theorem State.trimMessage_cmd (t : Nat) (s : State) : (s.trimMessage t).cmd = s.cmd := rfl
@[simp] theorem State.trimMessage_errinfo (t : Nat) (s : State) : (s.trimMessage t).errinfo = s.errinfo := rfl
@[simp] theorem State.trimMessage_errcmd (t : Nat) (s : State) : (s.trimMessage t).errcmd = s.errcmd := rfl
@[simp] theorem State.trimMessage_fifo (t : Nat) (s : State) : (s.trimMessage t).fifo = s.fifo := rfl
@[simp] theorem State.trimMessage_cfgN (t : Nat) (s : State) : (s.trimMessage t).cfgN = s.cfgN := rfl
@[simp] theorem State.trimMessage_cfgP (t : Nat) (s : State) : (s.trimMessage t).cfgP = s.cfgP := rfl
@[simp] theorem State.trimMessage_cfgQ (t : Nat) (s : State) : (s.trimMessage t).cfgQ = s.cfgQ := rfl
@[simp] theorem State.trimMessage_cfgDf (t : Nat) (s : State) : (s.trimMessage t).cfgDf = s.cfgDf := rfl
@[simp] theorem State.trimMessage_cfgDg (t : Nat) (s : State) : (s.trimMessage t).cfgDg = s.cfgDg := rfl
@[simp] theorem State.trimMessage_cfgDr (t : Nat) (s : State) : (s.trimMessage t).cfgDr = s.cfgDr := rfl
@[simp] theorem State.trimMessage_modarg (t : Nat) (s : State) : (s.trimMessage t).modarg = s.modarg := rfl
@[simp] theorem State.trimMessage_sampNp (t : Nat) (s : State) : (s.trimMessage t).sampNp = s.sampNp := rfl
@[simp] theorem State.trimMessage_sampNm (t : Nat) (s : State) : (s.trimMessage t).sampNm = s.sampNm := rfl
@[simp] theorem State.trimMessage_wplus (t : Nat) (s : State) : (s.trimMessage t).wplus = s.wplus := rfl
@[simp] theorem State.trimMessage_wminus (t : Nat) (s : State) : (s.trimMessage t).wminus = s.wminus := rfl
@[simp] theorem State.trimMessage_wother (t : Nat) (s : State) : (s.trimMessage t).wother = s.wother := rfl
@[simp] theorem State.trimMessage_mlen (t : Nat) (s : State) : (s.trimMessage t).mlen = BitVec.ofNat 16 (s.wholeBytes t - s.trailingZeros (s.wholeBytes t)) := rfl
@[simp] theorem State.trimMessage_clen (t : Nat) (s : State) : (s.trimMessage t).clen = s.clen := rfl
@[simp] theorem State.trimMessage_nblk (t : Nat) (s : State) : (s.trimMessage t).nblk = s.nblk := rfl
@[simp] theorem State.trimMessage_plen (t : Nat) (s : State) : (s.trimMessage t).plen = s.plen := rfl
@[simp] theorem State.trimMessage_p (t : Nat) (s : State) : (s.trimMessage t).p = s.p := rfl
@[simp] theorem State.trimMessage_bbuf (t : Nat) (s : State) : (s.trimMessage t).bbuf = s.bbuf := rfl
@[simp] theorem State.trimMessage_cbuf (t : Nat) (s : State) : (s.trimMessage t).cbuf = s.cbuf := rfl
@[simp] theorem State.trimMessage_engine (t : Nat) (s : State) : (s.trimMessage t).engine = s.engine := rfl
@[simp] theorem State.trimMessage_entropy (t : Nat) (s : State) : (s.trimMessage t).entropy = s.entropy := rfl
@[simp] theorem State.trimMessage_agenda (t : Nat) (s : State) : (s.trimMessage t).agenda = s.agenda := rfl
@[simp] theorem State.trimMessage_bus (t : Nat) (s : State) : (s.trimMessage t).bus = s.bus := rfl
@[simp] theorem State.trimMessage_draws (t : Nat) (s : State) : (s.trimMessage t).draws = s.draws := rfl
@[simp] theorem State.trimMessage_turnLimit (t : Nat) (s : State) : (s.trimMessage t).turnLimit = s.turnLimit := rfl
@[simp] theorem State.trimMessage_build (t : Nat) (s : State) : (s.trimMessage t).build = s.build := rfl

/-! ### writeCipher -/

@[simp] theorem State.writeCipher_ctrl (c : List Word) (s : State) : (s.writeCipher c).ctrl = s.ctrl := rfl
@[simp] theorem State.writeCipher_status (c : List Word) (s : State) : (s.writeCipher c).status = s.status := rfl
@[simp] theorem State.writeCipher_cmd (c : List Word) (s : State) : (s.writeCipher c).cmd = s.cmd := rfl
@[simp] theorem State.writeCipher_errinfo (c : List Word) (s : State) : (s.writeCipher c).errinfo = s.errinfo := rfl
@[simp] theorem State.writeCipher_errcmd (c : List Word) (s : State) : (s.writeCipher c).errcmd = s.errcmd := rfl
@[simp] theorem State.writeCipher_fifo (c : List Word) (s : State) : (s.writeCipher c).fifo = s.fifo := rfl
@[simp] theorem State.writeCipher_cfgN (c : List Word) (s : State) : (s.writeCipher c).cfgN = s.cfgN := rfl
@[simp] theorem State.writeCipher_cfgP (c : List Word) (s : State) : (s.writeCipher c).cfgP = s.cfgP := rfl
@[simp] theorem State.writeCipher_cfgQ (c : List Word) (s : State) : (s.writeCipher c).cfgQ = s.cfgQ := rfl
@[simp] theorem State.writeCipher_cfgDf (c : List Word) (s : State) : (s.writeCipher c).cfgDf = s.cfgDf := rfl
@[simp] theorem State.writeCipher_cfgDg (c : List Word) (s : State) : (s.writeCipher c).cfgDg = s.cfgDg := rfl
@[simp] theorem State.writeCipher_cfgDr (c : List Word) (s : State) : (s.writeCipher c).cfgDr = s.cfgDr := rfl
@[simp] theorem State.writeCipher_modarg (c : List Word) (s : State) : (s.writeCipher c).modarg = s.modarg := rfl
@[simp] theorem State.writeCipher_sampNp (c : List Word) (s : State) : (s.writeCipher c).sampNp = s.sampNp := rfl
@[simp] theorem State.writeCipher_sampNm (c : List Word) (s : State) : (s.writeCipher c).sampNm = s.sampNm := rfl
@[simp] theorem State.writeCipher_wplus (c : List Word) (s : State) : (s.writeCipher c).wplus = s.wplus := rfl
@[simp] theorem State.writeCipher_wminus (c : List Word) (s : State) : (s.writeCipher c).wminus = s.wminus := rfl
@[simp] theorem State.writeCipher_wother (c : List Word) (s : State) : (s.writeCipher c).wother = s.wother := rfl
@[simp] theorem State.writeCipher_mlen (c : List Word) (s : State) : (s.writeCipher c).mlen = s.mlen := rfl
@[simp] theorem State.writeCipher_clen (c : List Word) (s : State) : (s.writeCipher c).clen = s.clen := rfl
@[simp] theorem State.writeCipher_nblk (c : List Word) (s : State) : (s.writeCipher c).nblk = s.nblk := rfl
@[simp] theorem State.writeCipher_plen (c : List Word) (s : State) : (s.writeCipher c).plen = s.plen := rfl
@[simp] theorem State.writeCipher_p (c : List Word) (s : State) : (s.writeCipher c).p = s.p := rfl
@[simp] theorem State.writeCipher_bbuf (c : List Word) (s : State) : (s.writeCipher c).bbuf = s.bbuf := rfl
@[simp] theorem State.writeCipher_cbuf (c : List Word) (s : State) : (s.writeCipher c).cbuf = bufOverwrite (c.take s.build.cmax) s.cbuf := rfl
@[simp] theorem State.writeCipher_engine (c : List Word) (s : State) : (s.writeCipher c).engine = s.engine := rfl
@[simp] theorem State.writeCipher_entropy (c : List Word) (s : State) : (s.writeCipher c).entropy = s.entropy := rfl
@[simp] theorem State.writeCipher_agenda (c : List Word) (s : State) : (s.writeCipher c).agenda = s.agenda := rfl
@[simp] theorem State.writeCipher_bus (c : List Word) (s : State) : (s.writeCipher c).bus = s.bus := rfl
@[simp] theorem State.writeCipher_draws (c : List Word) (s : State) : (s.writeCipher c).draws = s.draws := rfl
@[simp] theorem State.writeCipher_turnLimit (c : List Word) (s : State) : (s.writeCipher c).turnLimit = s.turnLimit := rfl
@[simp] theorem State.writeCipher_build (c : List Word) (s : State) : (s.writeCipher c).build = s.build := rfl

/-! ### setCipherLength -/

@[simp] theorem State.setCipherLength_ctrl (c nb : Nat) (s : State) : (s.setCipherLength c nb).ctrl = s.ctrl := rfl
@[simp] theorem State.setCipherLength_status (c nb : Nat) (s : State) : (s.setCipherLength c nb).status = s.status := rfl
@[simp] theorem State.setCipherLength_cmd (c nb : Nat) (s : State) : (s.setCipherLength c nb).cmd = s.cmd := rfl
@[simp] theorem State.setCipherLength_errinfo (c nb : Nat) (s : State) : (s.setCipherLength c nb).errinfo = s.errinfo := rfl
@[simp] theorem State.setCipherLength_errcmd (c nb : Nat) (s : State) : (s.setCipherLength c nb).errcmd = s.errcmd := rfl
@[simp] theorem State.setCipherLength_fifo (c nb : Nat) (s : State) : (s.setCipherLength c nb).fifo = s.fifo := rfl
@[simp] theorem State.setCipherLength_cfgN (c nb : Nat) (s : State) : (s.setCipherLength c nb).cfgN = s.cfgN := rfl
@[simp] theorem State.setCipherLength_cfgP (c nb : Nat) (s : State) : (s.setCipherLength c nb).cfgP = s.cfgP := rfl
@[simp] theorem State.setCipherLength_cfgQ (c nb : Nat) (s : State) : (s.setCipherLength c nb).cfgQ = s.cfgQ := rfl
@[simp] theorem State.setCipherLength_cfgDf (c nb : Nat) (s : State) : (s.setCipherLength c nb).cfgDf = s.cfgDf := rfl
@[simp] theorem State.setCipherLength_cfgDg (c nb : Nat) (s : State) : (s.setCipherLength c nb).cfgDg = s.cfgDg := rfl
@[simp] theorem State.setCipherLength_cfgDr (c nb : Nat) (s : State) : (s.setCipherLength c nb).cfgDr = s.cfgDr := rfl
@[simp] theorem State.setCipherLength_modarg (c nb : Nat) (s : State) : (s.setCipherLength c nb).modarg = s.modarg := rfl
@[simp] theorem State.setCipherLength_sampNp (c nb : Nat) (s : State) : (s.setCipherLength c nb).sampNp = s.sampNp := rfl
@[simp] theorem State.setCipherLength_sampNm (c nb : Nat) (s : State) : (s.setCipherLength c nb).sampNm = s.sampNm := rfl
@[simp] theorem State.setCipherLength_wplus (c nb : Nat) (s : State) : (s.setCipherLength c nb).wplus = s.wplus := rfl
@[simp] theorem State.setCipherLength_wminus (c nb : Nat) (s : State) : (s.setCipherLength c nb).wminus = s.wminus := rfl
@[simp] theorem State.setCipherLength_wother (c nb : Nat) (s : State) : (s.setCipherLength c nb).wother = s.wother := rfl
@[simp] theorem State.setCipherLength_mlen (c nb : Nat) (s : State) : (s.setCipherLength c nb).mlen = s.mlen := rfl
@[simp] theorem State.setCipherLength_clen (c nb : Nat) (s : State) : (s.setCipherLength c nb).clen = BitVec.ofNat 16 c := rfl
@[simp] theorem State.setCipherLength_nblk (c nb : Nat) (s : State) : (s.setCipherLength c nb).nblk = BitVec.ofNat 16 nb := rfl
@[simp] theorem State.setCipherLength_plen (c nb : Nat) (s : State) : (s.setCipherLength c nb).plen = s.plen := rfl
@[simp] theorem State.setCipherLength_p (c nb : Nat) (s : State) : (s.setCipherLength c nb).p = s.p := rfl
@[simp] theorem State.setCipherLength_bbuf (c nb : Nat) (s : State) : (s.setCipherLength c nb).bbuf = s.bbuf := rfl
@[simp] theorem State.setCipherLength_cbuf (c nb : Nat) (s : State) : (s.setCipherLength c nb).cbuf = s.cbuf := rfl
@[simp] theorem State.setCipherLength_engine (c nb : Nat) (s : State) : (s.setCipherLength c nb).engine = s.engine := rfl
@[simp] theorem State.setCipherLength_entropy (c nb : Nat) (s : State) : (s.setCipherLength c nb).entropy = s.entropy := rfl
@[simp] theorem State.setCipherLength_agenda (c nb : Nat) (s : State) : (s.setCipherLength c nb).agenda = s.agenda := rfl
@[simp] theorem State.setCipherLength_bus (c nb : Nat) (s : State) : (s.setCipherLength c nb).bus = s.bus := rfl
@[simp] theorem State.setCipherLength_draws (c nb : Nat) (s : State) : (s.setCipherLength c nb).draws = s.draws := rfl
@[simp] theorem State.setCipherLength_turnLimit (c nb : Nat) (s : State) : (s.setCipherLength c nb).turnLimit = s.turnLimit := rfl
@[simp] theorem State.setCipherLength_build (c nb : Nat) (s : State) : (s.setCipherLength c nb).build = s.build := rfl

/-! ### failDecoding -/

@[simp] theorem State.failDecoding_ctrl (r : Report) (s : State) : (s.failDecoding r).ctrl = s.ctrl := rfl
@[simp] theorem State.failDecoding_status (r : Report) (s : State) : (s.failDecoding r).status = { s.status with busy := false, done := true, rngwait := false, err := r.code } := rfl
@[simp] theorem State.failDecoding_cmd (r : Report) (s : State) : (s.failDecoding r).cmd = s.cmd := rfl
@[simp] theorem State.failDecoding_errinfo (r : Report) (s : State) : (s.failDecoding r).errinfo = r.info := rfl
@[simp] theorem State.failDecoding_errcmd (r : Report) (s : State) : (s.failDecoding r).errcmd = s.cmd := rfl
@[simp] theorem State.failDecoding_fifo (r : Report) (s : State) : (s.failDecoding r).fifo = s.fifo := rfl
@[simp] theorem State.failDecoding_cfgN (r : Report) (s : State) : (s.failDecoding r).cfgN = s.cfgN := rfl
@[simp] theorem State.failDecoding_cfgP (r : Report) (s : State) : (s.failDecoding r).cfgP = s.cfgP := rfl
@[simp] theorem State.failDecoding_cfgQ (r : Report) (s : State) : (s.failDecoding r).cfgQ = s.cfgQ := rfl
@[simp] theorem State.failDecoding_cfgDf (r : Report) (s : State) : (s.failDecoding r).cfgDf = s.cfgDf := rfl
@[simp] theorem State.failDecoding_cfgDg (r : Report) (s : State) : (s.failDecoding r).cfgDg = s.cfgDg := rfl
@[simp] theorem State.failDecoding_cfgDr (r : Report) (s : State) : (s.failDecoding r).cfgDr = s.cfgDr := rfl
@[simp] theorem State.failDecoding_modarg (r : Report) (s : State) : (s.failDecoding r).modarg = s.modarg := rfl
@[simp] theorem State.failDecoding_sampNp (r : Report) (s : State) : (s.failDecoding r).sampNp = s.sampNp := rfl
@[simp] theorem State.failDecoding_sampNm (r : Report) (s : State) : (s.failDecoding r).sampNm = s.sampNm := rfl
@[simp] theorem State.failDecoding_wplus (r : Report) (s : State) : (s.failDecoding r).wplus = s.wplus := rfl
@[simp] theorem State.failDecoding_wminus (r : Report) (s : State) : (s.failDecoding r).wminus = s.wminus := rfl
@[simp] theorem State.failDecoding_wother (r : Report) (s : State) : (s.failDecoding r).wother = s.wother := rfl
@[simp] theorem State.failDecoding_mlen (r : Report) (s : State) : (s.failDecoding r).mlen = s.mlen := rfl
@[simp] theorem State.failDecoding_clen (r : Report) (s : State) : (s.failDecoding r).clen = s.clen := rfl
@[simp] theorem State.failDecoding_nblk (r : Report) (s : State) : (s.failDecoding r).nblk = s.nblk := rfl
@[simp] theorem State.failDecoding_plen (r : Report) (s : State) : (s.failDecoding r).plen = s.plen := rfl
@[simp] theorem State.failDecoding_p (r : Report) (s : State) : (s.failDecoding r).p = s.p := rfl
@[simp] theorem State.failDecoding_bbuf (r : Report) (s : State) : (s.failDecoding r).bbuf = [] := rfl
@[simp] theorem State.failDecoding_cbuf (r : Report) (s : State) : (s.failDecoding r).cbuf = s.cbuf := rfl
@[simp] theorem State.failDecoding_engine (r : Report) (s : State) : (s.failDecoding r).engine = .idle := rfl
@[simp] theorem State.failDecoding_entropy (r : Report) (s : State) : (s.failDecoding r).entropy = s.entropy := rfl
@[simp] theorem State.failDecoding_agenda (r : Report) (s : State) : (s.failDecoding r).agenda = s.agenda := rfl
@[simp] theorem State.failDecoding_bus (r : Report) (s : State) : (s.failDecoding r).bus = s.bus := rfl
@[simp] theorem State.failDecoding_draws (r : Report) (s : State) : (s.failDecoding r).draws = s.draws + Config.drawBlock := rfl
@[simp] theorem State.failDecoding_turnLimit (r : Report) (s : State) : (s.failDecoding r).turnLimit = s.turnLimit := rfl
@[simp] theorem State.failDecoding_build (r : Report) (s : State) : (s.failDecoding r).build = s.build := rfl

/-! ### keepSampling -/

@[simp] theorem State.keepSampling_ctrl (src : RandSource) (job : Sampling) (wait : Bool) (s : State) : (s.keepSampling src job wait).ctrl = s.ctrl := rfl
@[simp] theorem State.keepSampling_status (src : RandSource) (job : Sampling) (wait : Bool) (s : State) : (s.keepSampling src job wait).status = { s.status with rngwait := wait } := rfl
@[simp] theorem State.keepSampling_cmd (src : RandSource) (job : Sampling) (wait : Bool) (s : State) : (s.keepSampling src job wait).cmd = s.cmd := rfl
@[simp] theorem State.keepSampling_errinfo (src : RandSource) (job : Sampling) (wait : Bool) (s : State) : (s.keepSampling src job wait).errinfo = s.errinfo := rfl
@[simp] theorem State.keepSampling_errcmd (src : RandSource) (job : Sampling) (wait : Bool) (s : State) : (s.keepSampling src job wait).errcmd = s.errcmd := rfl
@[simp] theorem State.keepSampling_fifo (src : RandSource) (job : Sampling) (wait : Bool) (s : State) : (s.keepSampling src job wait).fifo = s.fifo := rfl
@[simp] theorem State.keepSampling_cfgN (src : RandSource) (job : Sampling) (wait : Bool) (s : State) : (s.keepSampling src job wait).cfgN = s.cfgN := rfl
@[simp] theorem State.keepSampling_cfgP (src : RandSource) (job : Sampling) (wait : Bool) (s : State) : (s.keepSampling src job wait).cfgP = s.cfgP := rfl
@[simp] theorem State.keepSampling_cfgQ (src : RandSource) (job : Sampling) (wait : Bool) (s : State) : (s.keepSampling src job wait).cfgQ = s.cfgQ := rfl
@[simp] theorem State.keepSampling_cfgDf (src : RandSource) (job : Sampling) (wait : Bool) (s : State) : (s.keepSampling src job wait).cfgDf = s.cfgDf := rfl
@[simp] theorem State.keepSampling_cfgDg (src : RandSource) (job : Sampling) (wait : Bool) (s : State) : (s.keepSampling src job wait).cfgDg = s.cfgDg := rfl
@[simp] theorem State.keepSampling_cfgDr (src : RandSource) (job : Sampling) (wait : Bool) (s : State) : (s.keepSampling src job wait).cfgDr = s.cfgDr := rfl
@[simp] theorem State.keepSampling_modarg (src : RandSource) (job : Sampling) (wait : Bool) (s : State) : (s.keepSampling src job wait).modarg = s.modarg := rfl
@[simp] theorem State.keepSampling_sampNp (src : RandSource) (job : Sampling) (wait : Bool) (s : State) : (s.keepSampling src job wait).sampNp = s.sampNp := rfl
@[simp] theorem State.keepSampling_sampNm (src : RandSource) (job : Sampling) (wait : Bool) (s : State) : (s.keepSampling src job wait).sampNm = s.sampNm := rfl
@[simp] theorem State.keepSampling_wplus (src : RandSource) (job : Sampling) (wait : Bool) (s : State) : (s.keepSampling src job wait).wplus = s.wplus := rfl
@[simp] theorem State.keepSampling_wminus (src : RandSource) (job : Sampling) (wait : Bool) (s : State) : (s.keepSampling src job wait).wminus = s.wminus := rfl
@[simp] theorem State.keepSampling_wother (src : RandSource) (job : Sampling) (wait : Bool) (s : State) : (s.keepSampling src job wait).wother = s.wother := rfl
@[simp] theorem State.keepSampling_mlen (src : RandSource) (job : Sampling) (wait : Bool) (s : State) : (s.keepSampling src job wait).mlen = s.mlen := rfl
@[simp] theorem State.keepSampling_clen (src : RandSource) (job : Sampling) (wait : Bool) (s : State) : (s.keepSampling src job wait).clen = s.clen := rfl
@[simp] theorem State.keepSampling_nblk (src : RandSource) (job : Sampling) (wait : Bool) (s : State) : (s.keepSampling src job wait).nblk = s.nblk := rfl
@[simp] theorem State.keepSampling_plen (src : RandSource) (job : Sampling) (wait : Bool) (s : State) : (s.keepSampling src job wait).plen = s.plen := rfl
@[simp] theorem State.keepSampling_p (src : RandSource) (job : Sampling) (wait : Bool) (s : State) : (s.keepSampling src job wait).p = s.p := rfl
@[simp] theorem State.keepSampling_bbuf (src : RandSource) (job : Sampling) (wait : Bool) (s : State) : (s.keepSampling src job wait).bbuf = s.bbuf := rfl
@[simp] theorem State.keepSampling_cbuf (src : RandSource) (job : Sampling) (wait : Bool) (s : State) : (s.keepSampling src job wait).cbuf = s.cbuf := rfl
@[simp] theorem State.keepSampling_engine (src : RandSource) (job : Sampling) (wait : Bool) (s : State) : (s.keepSampling src job wait).engine = .sampling src job := rfl
@[simp] theorem State.keepSampling_entropy (src : RandSource) (job : Sampling) (wait : Bool) (s : State) : (s.keepSampling src job wait).entropy = s.entropy := rfl
@[simp] theorem State.keepSampling_agenda (src : RandSource) (job : Sampling) (wait : Bool) (s : State) : (s.keepSampling src job wait).agenda = s.agenda := rfl
@[simp] theorem State.keepSampling_bus (src : RandSource) (job : Sampling) (wait : Bool) (s : State) : (s.keepSampling src job wait).bus = s.bus := rfl
@[simp] theorem State.keepSampling_draws (src : RandSource) (job : Sampling) (wait : Bool) (s : State) : (s.keepSampling src job wait).draws = s.draws := rfl
@[simp] theorem State.keepSampling_turnLimit (src : RandSource) (job : Sampling) (wait : Bool) (s : State) : (s.keepSampling src job wait).turnLimit = s.turnLimit := rfl
@[simp] theorem State.keepSampling_build (src : RandSource) (job : Sampling) (wait : Bool) (s : State) : (s.keepSampling src job wait).build = s.build := rfl

/-! ### respond -/

@[simp] theorem State.respond_ctrl (r : BusResponse) (s : State) : (s.respond r).ctrl = s.ctrl := rfl
@[simp] theorem State.respond_status (r : BusResponse) (s : State) : (s.respond r).status = s.status := rfl
@[simp] theorem State.respond_cmd (r : BusResponse) (s : State) : (s.respond r).cmd = s.cmd := rfl
@[simp] theorem State.respond_errinfo (r : BusResponse) (s : State) : (s.respond r).errinfo = s.errinfo := rfl
@[simp] theorem State.respond_errcmd (r : BusResponse) (s : State) : (s.respond r).errcmd = s.errcmd := rfl
@[simp] theorem State.respond_fifo (r : BusResponse) (s : State) : (s.respond r).fifo = s.fifo := rfl
@[simp] theorem State.respond_cfgN (r : BusResponse) (s : State) : (s.respond r).cfgN = s.cfgN := rfl
@[simp] theorem State.respond_cfgP (r : BusResponse) (s : State) : (s.respond r).cfgP = s.cfgP := rfl
@[simp] theorem State.respond_cfgQ (r : BusResponse) (s : State) : (s.respond r).cfgQ = s.cfgQ := rfl
@[simp] theorem State.respond_cfgDf (r : BusResponse) (s : State) : (s.respond r).cfgDf = s.cfgDf := rfl
@[simp] theorem State.respond_cfgDg (r : BusResponse) (s : State) : (s.respond r).cfgDg = s.cfgDg := rfl
@[simp] theorem State.respond_cfgDr (r : BusResponse) (s : State) : (s.respond r).cfgDr = s.cfgDr := rfl
@[simp] theorem State.respond_modarg (r : BusResponse) (s : State) : (s.respond r).modarg = s.modarg := rfl
@[simp] theorem State.respond_sampNp (r : BusResponse) (s : State) : (s.respond r).sampNp = s.sampNp := rfl
@[simp] theorem State.respond_sampNm (r : BusResponse) (s : State) : (s.respond r).sampNm = s.sampNm := rfl
@[simp] theorem State.respond_wplus (r : BusResponse) (s : State) : (s.respond r).wplus = s.wplus := rfl
@[simp] theorem State.respond_wminus (r : BusResponse) (s : State) : (s.respond r).wminus = s.wminus := rfl
@[simp] theorem State.respond_wother (r : BusResponse) (s : State) : (s.respond r).wother = s.wother := rfl
@[simp] theorem State.respond_mlen (r : BusResponse) (s : State) : (s.respond r).mlen = s.mlen := rfl
@[simp] theorem State.respond_clen (r : BusResponse) (s : State) : (s.respond r).clen = s.clen := rfl
@[simp] theorem State.respond_nblk (r : BusResponse) (s : State) : (s.respond r).nblk = s.nblk := rfl
@[simp] theorem State.respond_plen (r : BusResponse) (s : State) : (s.respond r).plen = s.plen := rfl
@[simp] theorem State.respond_p (r : BusResponse) (s : State) : (s.respond r).p = s.p := rfl
@[simp] theorem State.respond_bbuf (r : BusResponse) (s : State) : (s.respond r).bbuf = s.bbuf := rfl
@[simp] theorem State.respond_cbuf (r : BusResponse) (s : State) : (s.respond r).cbuf = s.cbuf := rfl
@[simp] theorem State.respond_engine (r : BusResponse) (s : State) : (s.respond r).engine = s.engine := rfl
@[simp] theorem State.respond_entropy (r : BusResponse) (s : State) : (s.respond r).entropy = s.entropy := rfl
@[simp] theorem State.respond_agenda (r : BusResponse) (s : State) : (s.respond r).agenda = s.agenda := rfl
@[simp] theorem State.respond_bus (r : BusResponse) (s : State) : (s.respond r).bus = r := rfl
@[simp] theorem State.respond_draws (r : BusResponse) (s : State) : (s.respond r).draws = s.draws := rfl
@[simp] theorem State.respond_turnLimit (r : BusResponse) (s : State) : (s.respond r).turnLimit = s.turnLimit := rfl
@[simp] theorem State.respond_build (r : BusResponse) (s : State) : (s.respond r).build = s.build := rfl

/-! ### withAgenda -/

@[simp] theorem State.withAgenda_ctrl (rest : List Event) (s : State) : (s.withAgenda rest).ctrl = s.ctrl := rfl
@[simp] theorem State.withAgenda_status (rest : List Event) (s : State) : (s.withAgenda rest).status = s.status := rfl
@[simp] theorem State.withAgenda_cmd (rest : List Event) (s : State) : (s.withAgenda rest).cmd = s.cmd := rfl
@[simp] theorem State.withAgenda_errinfo (rest : List Event) (s : State) : (s.withAgenda rest).errinfo = s.errinfo := rfl
@[simp] theorem State.withAgenda_errcmd (rest : List Event) (s : State) : (s.withAgenda rest).errcmd = s.errcmd := rfl
@[simp] theorem State.withAgenda_fifo (rest : List Event) (s : State) : (s.withAgenda rest).fifo = s.fifo := rfl
@[simp] theorem State.withAgenda_cfgN (rest : List Event) (s : State) : (s.withAgenda rest).cfgN = s.cfgN := rfl
@[simp] theorem State.withAgenda_cfgP (rest : List Event) (s : State) : (s.withAgenda rest).cfgP = s.cfgP := rfl
@[simp] theorem State.withAgenda_cfgQ (rest : List Event) (s : State) : (s.withAgenda rest).cfgQ = s.cfgQ := rfl
@[simp] theorem State.withAgenda_cfgDf (rest : List Event) (s : State) : (s.withAgenda rest).cfgDf = s.cfgDf := rfl
@[simp] theorem State.withAgenda_cfgDg (rest : List Event) (s : State) : (s.withAgenda rest).cfgDg = s.cfgDg := rfl
@[simp] theorem State.withAgenda_cfgDr (rest : List Event) (s : State) : (s.withAgenda rest).cfgDr = s.cfgDr := rfl
@[simp] theorem State.withAgenda_modarg (rest : List Event) (s : State) : (s.withAgenda rest).modarg = s.modarg := rfl
@[simp] theorem State.withAgenda_sampNp (rest : List Event) (s : State) : (s.withAgenda rest).sampNp = s.sampNp := rfl
@[simp] theorem State.withAgenda_sampNm (rest : List Event) (s : State) : (s.withAgenda rest).sampNm = s.sampNm := rfl
@[simp] theorem State.withAgenda_wplus (rest : List Event) (s : State) : (s.withAgenda rest).wplus = s.wplus := rfl
@[simp] theorem State.withAgenda_wminus (rest : List Event) (s : State) : (s.withAgenda rest).wminus = s.wminus := rfl
@[simp] theorem State.withAgenda_wother (rest : List Event) (s : State) : (s.withAgenda rest).wother = s.wother := rfl
@[simp] theorem State.withAgenda_mlen (rest : List Event) (s : State) : (s.withAgenda rest).mlen = s.mlen := rfl
@[simp] theorem State.withAgenda_clen (rest : List Event) (s : State) : (s.withAgenda rest).clen = s.clen := rfl
@[simp] theorem State.withAgenda_nblk (rest : List Event) (s : State) : (s.withAgenda rest).nblk = s.nblk := rfl
@[simp] theorem State.withAgenda_plen (rest : List Event) (s : State) : (s.withAgenda rest).plen = s.plen := rfl
@[simp] theorem State.withAgenda_p (rest : List Event) (s : State) : (s.withAgenda rest).p = s.p := rfl
@[simp] theorem State.withAgenda_bbuf (rest : List Event) (s : State) : (s.withAgenda rest).bbuf = s.bbuf := rfl
@[simp] theorem State.withAgenda_cbuf (rest : List Event) (s : State) : (s.withAgenda rest).cbuf = s.cbuf := rfl
@[simp] theorem State.withAgenda_engine (rest : List Event) (s : State) : (s.withAgenda rest).engine = s.engine := rfl
@[simp] theorem State.withAgenda_entropy (rest : List Event) (s : State) : (s.withAgenda rest).entropy = s.entropy := rfl
@[simp] theorem State.withAgenda_agenda (rest : List Event) (s : State) : (s.withAgenda rest).agenda = rest := rfl
@[simp] theorem State.withAgenda_bus (rest : List Event) (s : State) : (s.withAgenda rest).bus = s.bus := rfl
@[simp] theorem State.withAgenda_draws (rest : List Event) (s : State) : (s.withAgenda rest).draws = s.draws := rfl
@[simp] theorem State.withAgenda_turnLimit (rest : List Event) (s : State) : (s.withAgenda rest).turnLimit = s.turnLimit := rfl
@[simp] theorem State.withAgenda_build (rest : List Event) (s : State) : (s.withAgenda rest).build = s.build := rfl

/-! ### beginTurn -/

@[simp] theorem State.beginTurn_ctrl (limit : Option Nat) (s : State) : (s.beginTurn limit).ctrl = s.ctrl := rfl
@[simp] theorem State.beginTurn_status (limit : Option Nat) (s : State) : (s.beginTurn limit).status = s.status := rfl
@[simp] theorem State.beginTurn_cmd (limit : Option Nat) (s : State) : (s.beginTurn limit).cmd = s.cmd := rfl
@[simp] theorem State.beginTurn_errinfo (limit : Option Nat) (s : State) : (s.beginTurn limit).errinfo = s.errinfo := rfl
@[simp] theorem State.beginTurn_errcmd (limit : Option Nat) (s : State) : (s.beginTurn limit).errcmd = s.errcmd := rfl
@[simp] theorem State.beginTurn_fifo (limit : Option Nat) (s : State) : (s.beginTurn limit).fifo = s.fifo := rfl
@[simp] theorem State.beginTurn_cfgN (limit : Option Nat) (s : State) : (s.beginTurn limit).cfgN = s.cfgN := rfl
@[simp] theorem State.beginTurn_cfgP (limit : Option Nat) (s : State) : (s.beginTurn limit).cfgP = s.cfgP := rfl
@[simp] theorem State.beginTurn_cfgQ (limit : Option Nat) (s : State) : (s.beginTurn limit).cfgQ = s.cfgQ := rfl
@[simp] theorem State.beginTurn_cfgDf (limit : Option Nat) (s : State) : (s.beginTurn limit).cfgDf = s.cfgDf := rfl
@[simp] theorem State.beginTurn_cfgDg (limit : Option Nat) (s : State) : (s.beginTurn limit).cfgDg = s.cfgDg := rfl
@[simp] theorem State.beginTurn_cfgDr (limit : Option Nat) (s : State) : (s.beginTurn limit).cfgDr = s.cfgDr := rfl
@[simp] theorem State.beginTurn_modarg (limit : Option Nat) (s : State) : (s.beginTurn limit).modarg = s.modarg := rfl
@[simp] theorem State.beginTurn_sampNp (limit : Option Nat) (s : State) : (s.beginTurn limit).sampNp = s.sampNp := rfl
@[simp] theorem State.beginTurn_sampNm (limit : Option Nat) (s : State) : (s.beginTurn limit).sampNm = s.sampNm := rfl
@[simp] theorem State.beginTurn_wplus (limit : Option Nat) (s : State) : (s.beginTurn limit).wplus = s.wplus := rfl
@[simp] theorem State.beginTurn_wminus (limit : Option Nat) (s : State) : (s.beginTurn limit).wminus = s.wminus := rfl
@[simp] theorem State.beginTurn_wother (limit : Option Nat) (s : State) : (s.beginTurn limit).wother = s.wother := rfl
@[simp] theorem State.beginTurn_mlen (limit : Option Nat) (s : State) : (s.beginTurn limit).mlen = s.mlen := rfl
@[simp] theorem State.beginTurn_clen (limit : Option Nat) (s : State) : (s.beginTurn limit).clen = s.clen := rfl
@[simp] theorem State.beginTurn_nblk (limit : Option Nat) (s : State) : (s.beginTurn limit).nblk = s.nblk := rfl
@[simp] theorem State.beginTurn_plen (limit : Option Nat) (s : State) : (s.beginTurn limit).plen = s.plen := rfl
@[simp] theorem State.beginTurn_p (limit : Option Nat) (s : State) : (s.beginTurn limit).p = s.p := rfl
@[simp] theorem State.beginTurn_bbuf (limit : Option Nat) (s : State) : (s.beginTurn limit).bbuf = s.bbuf := rfl
@[simp] theorem State.beginTurn_cbuf (limit : Option Nat) (s : State) : (s.beginTurn limit).cbuf = s.cbuf := rfl
@[simp] theorem State.beginTurn_engine (limit : Option Nat) (s : State) : (s.beginTurn limit).engine = s.engine := rfl
@[simp] theorem State.beginTurn_entropy (limit : Option Nat) (s : State) : (s.beginTurn limit).entropy = s.entropy := rfl
@[simp] theorem State.beginTurn_agenda (limit : Option Nat) (s : State) : (s.beginTurn limit).agenda = s.agenda := rfl
@[simp] theorem State.beginTurn_bus (limit : Option Nat) (s : State) : (s.beginTurn limit).bus = s.bus := rfl
@[simp] theorem State.beginTurn_draws (limit : Option Nat) (s : State) : (s.beginTurn limit).draws = s.draws := rfl
@[simp] theorem State.beginTurn_turnLimit (limit : Option Nat) (s : State) : (s.beginTurn limit).turnLimit = limit := rfl
@[simp] theorem State.beginTurn_build (limit : Option Nat) (s : State) : (s.beginTurn limit).build = s.build := rfl

/-! ### offerWord -/

@[simp] theorem State.offerWord_ctrl (w : Word) (s : State) : (s.offerWord w).ctrl = s.ctrl := rfl
@[simp] theorem State.offerWord_status (w : Word) (s : State) : (s.offerWord w).status = s.status := rfl
@[simp] theorem State.offerWord_cmd (w : Word) (s : State) : (s.offerWord w).cmd = s.cmd := rfl
@[simp] theorem State.offerWord_errinfo (w : Word) (s : State) : (s.offerWord w).errinfo = s.errinfo := rfl
@[simp] theorem State.offerWord_errcmd (w : Word) (s : State) : (s.offerWord w).errcmd = s.errcmd := rfl
@[simp] theorem State.offerWord_fifo (w : Word) (s : State) : (s.offerWord w).fifo = s.fifo := rfl
@[simp] theorem State.offerWord_cfgN (w : Word) (s : State) : (s.offerWord w).cfgN = s.cfgN := rfl
@[simp] theorem State.offerWord_cfgP (w : Word) (s : State) : (s.offerWord w).cfgP = s.cfgP := rfl
@[simp] theorem State.offerWord_cfgQ (w : Word) (s : State) : (s.offerWord w).cfgQ = s.cfgQ := rfl
@[simp] theorem State.offerWord_cfgDf (w : Word) (s : State) : (s.offerWord w).cfgDf = s.cfgDf := rfl
@[simp] theorem State.offerWord_cfgDg (w : Word) (s : State) : (s.offerWord w).cfgDg = s.cfgDg := rfl
@[simp] theorem State.offerWord_cfgDr (w : Word) (s : State) : (s.offerWord w).cfgDr = s.cfgDr := rfl
@[simp] theorem State.offerWord_modarg (w : Word) (s : State) : (s.offerWord w).modarg = s.modarg := rfl
@[simp] theorem State.offerWord_sampNp (w : Word) (s : State) : (s.offerWord w).sampNp = s.sampNp := rfl
@[simp] theorem State.offerWord_sampNm (w : Word) (s : State) : (s.offerWord w).sampNm = s.sampNm := rfl
@[simp] theorem State.offerWord_wplus (w : Word) (s : State) : (s.offerWord w).wplus = s.wplus := rfl
@[simp] theorem State.offerWord_wminus (w : Word) (s : State) : (s.offerWord w).wminus = s.wminus := rfl
@[simp] theorem State.offerWord_wother (w : Word) (s : State) : (s.offerWord w).wother = s.wother := rfl
@[simp] theorem State.offerWord_mlen (w : Word) (s : State) : (s.offerWord w).mlen = s.mlen := rfl
@[simp] theorem State.offerWord_clen (w : Word) (s : State) : (s.offerWord w).clen = s.clen := rfl
@[simp] theorem State.offerWord_nblk (w : Word) (s : State) : (s.offerWord w).nblk = s.nblk := rfl
@[simp] theorem State.offerWord_plen (w : Word) (s : State) : (s.offerWord w).plen = s.plen := rfl
@[simp] theorem State.offerWord_p (w : Word) (s : State) : (s.offerWord w).p = s.p := rfl
@[simp] theorem State.offerWord_bbuf (w : Word) (s : State) : (s.offerWord w).bbuf = s.bbuf := rfl
@[simp] theorem State.offerWord_cbuf (w : Word) (s : State) : (s.offerWord w).cbuf = s.cbuf := rfl
@[simp] theorem State.offerWord_engine (w : Word) (s : State) : (s.offerWord w).engine = s.engine := rfl
@[simp] theorem State.offerWord_entropy (w : Word) (s : State) : (s.offerWord w).entropy = s.entropy ++ [w] := rfl
@[simp] theorem State.offerWord_agenda (w : Word) (s : State) : (s.offerWord w).agenda = s.agenda := rfl
@[simp] theorem State.offerWord_bus (w : Word) (s : State) : (s.offerWord w).bus = s.bus := rfl
@[simp] theorem State.offerWord_draws (w : Word) (s : State) : (s.offerWord w).draws = s.draws := rfl
@[simp] theorem State.offerWord_turnLimit (w : Word) (s : State) : (s.offerWord w).turnLimit = s.turnLimit := rfl
@[simp] theorem State.offerWord_build (w : Word) (s : State) : (s.offerWord w).build = s.build := rfl

/-! ### withWords: only the source's own words change -/

@[simp] theorem State.withWords_ctrl (src : RandSource) (ws : List Word) (s : State) : (s.withWords src ws).ctrl = s.ctrl := by cases src <;> rfl
@[simp] theorem State.withWords_status (src : RandSource) (ws : List Word) (s : State) : (s.withWords src ws).status = s.status := by cases src <;> rfl
@[simp] theorem State.withWords_cmd (src : RandSource) (ws : List Word) (s : State) : (s.withWords src ws).cmd = s.cmd := by cases src <;> rfl
@[simp] theorem State.withWords_errinfo (src : RandSource) (ws : List Word) (s : State) : (s.withWords src ws).errinfo = s.errinfo := by cases src <;> rfl
@[simp] theorem State.withWords_errcmd (src : RandSource) (ws : List Word) (s : State) : (s.withWords src ws).errcmd = s.errcmd := by cases src <;> rfl
@[simp] theorem State.withWords_cfgN (src : RandSource) (ws : List Word) (s : State) : (s.withWords src ws).cfgN = s.cfgN := by cases src <;> rfl
@[simp] theorem State.withWords_cfgP (src : RandSource) (ws : List Word) (s : State) : (s.withWords src ws).cfgP = s.cfgP := by cases src <;> rfl
@[simp] theorem State.withWords_cfgQ (src : RandSource) (ws : List Word) (s : State) : (s.withWords src ws).cfgQ = s.cfgQ := by cases src <;> rfl
@[simp] theorem State.withWords_cfgDf (src : RandSource) (ws : List Word) (s : State) : (s.withWords src ws).cfgDf = s.cfgDf := by cases src <;> rfl
@[simp] theorem State.withWords_cfgDg (src : RandSource) (ws : List Word) (s : State) : (s.withWords src ws).cfgDg = s.cfgDg := by cases src <;> rfl
@[simp] theorem State.withWords_cfgDr (src : RandSource) (ws : List Word) (s : State) : (s.withWords src ws).cfgDr = s.cfgDr := by cases src <;> rfl
@[simp] theorem State.withWords_modarg (src : RandSource) (ws : List Word) (s : State) : (s.withWords src ws).modarg = s.modarg := by cases src <;> rfl
@[simp] theorem State.withWords_sampNp (src : RandSource) (ws : List Word) (s : State) : (s.withWords src ws).sampNp = s.sampNp := by cases src <;> rfl
@[simp] theorem State.withWords_sampNm (src : RandSource) (ws : List Word) (s : State) : (s.withWords src ws).sampNm = s.sampNm := by cases src <;> rfl
@[simp] theorem State.withWords_wplus (src : RandSource) (ws : List Word) (s : State) : (s.withWords src ws).wplus = s.wplus := by cases src <;> rfl
@[simp] theorem State.withWords_wminus (src : RandSource) (ws : List Word) (s : State) : (s.withWords src ws).wminus = s.wminus := by cases src <;> rfl
@[simp] theorem State.withWords_wother (src : RandSource) (ws : List Word) (s : State) : (s.withWords src ws).wother = s.wother := by cases src <;> rfl
@[simp] theorem State.withWords_mlen (src : RandSource) (ws : List Word) (s : State) : (s.withWords src ws).mlen = s.mlen := by cases src <;> rfl
@[simp] theorem State.withWords_clen (src : RandSource) (ws : List Word) (s : State) : (s.withWords src ws).clen = s.clen := by cases src <;> rfl
@[simp] theorem State.withWords_nblk (src : RandSource) (ws : List Word) (s : State) : (s.withWords src ws).nblk = s.nblk := by cases src <;> rfl
@[simp] theorem State.withWords_plen (src : RandSource) (ws : List Word) (s : State) : (s.withWords src ws).plen = s.plen := by cases src <;> rfl
@[simp] theorem State.withWords_p (src : RandSource) (ws : List Word) (s : State) : (s.withWords src ws).p = s.p := by cases src <;> rfl
@[simp] theorem State.withWords_bbuf (src : RandSource) (ws : List Word) (s : State) : (s.withWords src ws).bbuf = s.bbuf := by cases src <;> rfl
@[simp] theorem State.withWords_cbuf (src : RandSource) (ws : List Word) (s : State) : (s.withWords src ws).cbuf = s.cbuf := by cases src <;> rfl
@[simp] theorem State.withWords_engine (src : RandSource) (ws : List Word) (s : State) : (s.withWords src ws).engine = s.engine := by cases src <;> rfl
@[simp] theorem State.withWords_agenda (src : RandSource) (ws : List Word) (s : State) : (s.withWords src ws).agenda = s.agenda := by cases src <;> rfl
@[simp] theorem State.withWords_bus (src : RandSource) (ws : List Word) (s : State) : (s.withWords src ws).bus = s.bus := by cases src <;> rfl
@[simp] theorem State.withWords_draws (src : RandSource) (ws : List Word) (s : State) : (s.withWords src ws).draws = s.draws := by cases src <;> rfl
@[simp] theorem State.withWords_turnLimit (src : RandSource) (ws : List Word) (s : State) : (s.withWords src ws).turnLimit = s.turnLimit := by cases src <;> rfl
@[simp] theorem State.withWords_build (src : RandSource) (ws : List Word) (s : State) : (s.withWords src ws).build = s.build := by cases src <;> rfl

@[simp] theorem State.withWords_wordsOf (src : RandSource) (ws : List Word) (s : State) :
    (s.withWords src ws).wordsOf src = ws := by cases src <;> rfl

theorem State.withWords_wordsOf_of_ne {src other : RandSource} (h : other ≠ src) (ws : List Word) (s : State) :
    (s.withWords src ws).wordsOf other = s.wordsOf other := by cases src <;> cases other <;> simp_all [withWords, wordsOf]

/-! ### hardReset: what stands outside the core stays -/

@[simp] theorem State.hardReset_ctrl (s : State) : s.hardReset.ctrl = State.reset.ctrl := rfl
@[simp] theorem State.hardReset_status (s : State) : s.hardReset.status = State.reset.status := rfl
@[simp] theorem State.hardReset_cmd (s : State) : s.hardReset.cmd = State.reset.cmd := rfl
@[simp] theorem State.hardReset_errinfo (s : State) : s.hardReset.errinfo = State.reset.errinfo := rfl
@[simp] theorem State.hardReset_errcmd (s : State) : s.hardReset.errcmd = State.reset.errcmd := rfl
@[simp] theorem State.hardReset_fifo (s : State) : s.hardReset.fifo = State.reset.fifo := rfl
@[simp] theorem State.hardReset_cfgN (s : State) : s.hardReset.cfgN = State.reset.cfgN := rfl
@[simp] theorem State.hardReset_cfgP (s : State) : s.hardReset.cfgP = State.reset.cfgP := rfl
@[simp] theorem State.hardReset_cfgQ (s : State) : s.hardReset.cfgQ = State.reset.cfgQ := rfl
@[simp] theorem State.hardReset_cfgDf (s : State) : s.hardReset.cfgDf = State.reset.cfgDf := rfl
@[simp] theorem State.hardReset_cfgDg (s : State) : s.hardReset.cfgDg = State.reset.cfgDg := rfl
@[simp] theorem State.hardReset_cfgDr (s : State) : s.hardReset.cfgDr = State.reset.cfgDr := rfl
@[simp] theorem State.hardReset_modarg (s : State) : s.hardReset.modarg = State.reset.modarg := rfl
@[simp] theorem State.hardReset_sampNp (s : State) : s.hardReset.sampNp = State.reset.sampNp := rfl
@[simp] theorem State.hardReset_sampNm (s : State) : s.hardReset.sampNm = State.reset.sampNm := rfl
@[simp] theorem State.hardReset_wplus (s : State) : s.hardReset.wplus = State.reset.wplus := rfl
@[simp] theorem State.hardReset_wminus (s : State) : s.hardReset.wminus = State.reset.wminus := rfl
@[simp] theorem State.hardReset_wother (s : State) : s.hardReset.wother = State.reset.wother := rfl
@[simp] theorem State.hardReset_mlen (s : State) : s.hardReset.mlen = State.reset.mlen := rfl
@[simp] theorem State.hardReset_clen (s : State) : s.hardReset.clen = State.reset.clen := rfl
@[simp] theorem State.hardReset_nblk (s : State) : s.hardReset.nblk = State.reset.nblk := rfl
@[simp] theorem State.hardReset_plen (s : State) : s.hardReset.plen = State.reset.plen := rfl
@[simp] theorem State.hardReset_p (s : State) : s.hardReset.p = State.reset.p := rfl
@[simp] theorem State.hardReset_bbuf (s : State) : s.hardReset.bbuf = State.reset.bbuf := rfl
@[simp] theorem State.hardReset_cbuf (s : State) : s.hardReset.cbuf = State.reset.cbuf := rfl
@[simp] theorem State.hardReset_engine (s : State) : s.hardReset.engine = State.reset.engine := rfl
@[simp] theorem State.hardReset_entropy (s : State) : s.hardReset.entropy = s.entropy := rfl
@[simp] theorem State.hardReset_agenda (s : State) : s.hardReset.agenda = s.agenda := rfl
@[simp] theorem State.hardReset_bus (s : State) : s.hardReset.bus = s.bus := rfl
@[simp] theorem State.hardReset_draws (s : State) : s.hardReset.draws = s.draws := rfl
@[simp] theorem State.hardReset_turnLimit (s : State) : s.hardReset.turnLimit = s.turnLimit := rfl
@[simp] theorem State.hardReset_build (s : State) : s.hardReset.build = s.build := rfl

/-! ### pushWord: the FIFO, or RNGOVR -/

@[simp] theorem State.pushWord_ctrl (w : Word) (s : State) : (s.pushWord w).ctrl = s.ctrl := by unfold State.pushWord; split <;> rfl
@[simp] theorem State.pushWord_cmd (w : Word) (s : State) : (s.pushWord w).cmd = s.cmd := by unfold State.pushWord; split <;> rfl
@[simp] theorem State.pushWord_errinfo (w : Word) (s : State) : (s.pushWord w).errinfo = s.errinfo := by unfold State.pushWord; split <;> rfl
@[simp] theorem State.pushWord_errcmd (w : Word) (s : State) : (s.pushWord w).errcmd = s.errcmd := by unfold State.pushWord; split <;> rfl
@[simp] theorem State.pushWord_cfgN (w : Word) (s : State) : (s.pushWord w).cfgN = s.cfgN := by unfold State.pushWord; split <;> rfl
@[simp] theorem State.pushWord_cfgP (w : Word) (s : State) : (s.pushWord w).cfgP = s.cfgP := by unfold State.pushWord; split <;> rfl
@[simp] theorem State.pushWord_cfgQ (w : Word) (s : State) : (s.pushWord w).cfgQ = s.cfgQ := by unfold State.pushWord; split <;> rfl
@[simp] theorem State.pushWord_cfgDf (w : Word) (s : State) : (s.pushWord w).cfgDf = s.cfgDf := by unfold State.pushWord; split <;> rfl
@[simp] theorem State.pushWord_cfgDg (w : Word) (s : State) : (s.pushWord w).cfgDg = s.cfgDg := by unfold State.pushWord; split <;> rfl
@[simp] theorem State.pushWord_cfgDr (w : Word) (s : State) : (s.pushWord w).cfgDr = s.cfgDr := by unfold State.pushWord; split <;> rfl
@[simp] theorem State.pushWord_modarg (w : Word) (s : State) : (s.pushWord w).modarg = s.modarg := by unfold State.pushWord; split <;> rfl
@[simp] theorem State.pushWord_sampNp (w : Word) (s : State) : (s.pushWord w).sampNp = s.sampNp := by unfold State.pushWord; split <;> rfl
@[simp] theorem State.pushWord_sampNm (w : Word) (s : State) : (s.pushWord w).sampNm = s.sampNm := by unfold State.pushWord; split <;> rfl
@[simp] theorem State.pushWord_wplus (w : Word) (s : State) : (s.pushWord w).wplus = s.wplus := by unfold State.pushWord; split <;> rfl
@[simp] theorem State.pushWord_wminus (w : Word) (s : State) : (s.pushWord w).wminus = s.wminus := by unfold State.pushWord; split <;> rfl
@[simp] theorem State.pushWord_wother (w : Word) (s : State) : (s.pushWord w).wother = s.wother := by unfold State.pushWord; split <;> rfl
@[simp] theorem State.pushWord_mlen (w : Word) (s : State) : (s.pushWord w).mlen = s.mlen := by unfold State.pushWord; split <;> rfl
@[simp] theorem State.pushWord_clen (w : Word) (s : State) : (s.pushWord w).clen = s.clen := by unfold State.pushWord; split <;> rfl
@[simp] theorem State.pushWord_nblk (w : Word) (s : State) : (s.pushWord w).nblk = s.nblk := by unfold State.pushWord; split <;> rfl
@[simp] theorem State.pushWord_plen (w : Word) (s : State) : (s.pushWord w).plen = s.plen := by unfold State.pushWord; split <;> rfl
@[simp] theorem State.pushWord_p (w : Word) (s : State) : (s.pushWord w).p = s.p := by unfold State.pushWord; split <;> rfl
@[simp] theorem State.pushWord_bbuf (w : Word) (s : State) : (s.pushWord w).bbuf = s.bbuf := by unfold State.pushWord; split <;> rfl
@[simp] theorem State.pushWord_cbuf (w : Word) (s : State) : (s.pushWord w).cbuf = s.cbuf := by unfold State.pushWord; split <;> rfl
@[simp] theorem State.pushWord_engine (w : Word) (s : State) : (s.pushWord w).engine = s.engine := by unfold State.pushWord; split <;> rfl
@[simp] theorem State.pushWord_entropy (w : Word) (s : State) : (s.pushWord w).entropy = s.entropy := by unfold State.pushWord; split <;> rfl
@[simp] theorem State.pushWord_agenda (w : Word) (s : State) : (s.pushWord w).agenda = s.agenda := by unfold State.pushWord; split <;> rfl
@[simp] theorem State.pushWord_bus (w : Word) (s : State) : (s.pushWord w).bus = s.bus := by unfold State.pushWord; split <;> rfl
@[simp] theorem State.pushWord_draws (w : Word) (s : State) : (s.pushWord w).draws = s.draws := by unfold State.pushWord; split <;> rfl
@[simp] theorem State.pushWord_turnLimit (w : Word) (s : State) : (s.pushWord w).turnLimit = s.turnLimit := by unfold State.pushWord; split <;> rfl
@[simp] theorem State.pushWord_build (w : Word) (s : State) : (s.pushWord w).build = s.build := by unfold State.pushWord; split <;> rfl

/-! ### storeByte: BBUF only -/

@[simp] theorem State.storeByte_ctrl (i : Nat) (v : Byte) (s : State) : (s.storeByte i v).ctrl = s.ctrl := by unfold State.storeByte; split <;> rfl
@[simp] theorem State.storeByte_status (i : Nat) (v : Byte) (s : State) : (s.storeByte i v).status = s.status := by unfold State.storeByte; split <;> rfl
@[simp] theorem State.storeByte_cmd (i : Nat) (v : Byte) (s : State) : (s.storeByte i v).cmd = s.cmd := by unfold State.storeByte; split <;> rfl
@[simp] theorem State.storeByte_errinfo (i : Nat) (v : Byte) (s : State) : (s.storeByte i v).errinfo = s.errinfo := by unfold State.storeByte; split <;> rfl
@[simp] theorem State.storeByte_errcmd (i : Nat) (v : Byte) (s : State) : (s.storeByte i v).errcmd = s.errcmd := by unfold State.storeByte; split <;> rfl
@[simp] theorem State.storeByte_fifo (i : Nat) (v : Byte) (s : State) : (s.storeByte i v).fifo = s.fifo := by unfold State.storeByte; split <;> rfl
@[simp] theorem State.storeByte_cfgN (i : Nat) (v : Byte) (s : State) : (s.storeByte i v).cfgN = s.cfgN := by unfold State.storeByte; split <;> rfl
@[simp] theorem State.storeByte_cfgP (i : Nat) (v : Byte) (s : State) : (s.storeByte i v).cfgP = s.cfgP := by unfold State.storeByte; split <;> rfl
@[simp] theorem State.storeByte_cfgQ (i : Nat) (v : Byte) (s : State) : (s.storeByte i v).cfgQ = s.cfgQ := by unfold State.storeByte; split <;> rfl
@[simp] theorem State.storeByte_cfgDf (i : Nat) (v : Byte) (s : State) : (s.storeByte i v).cfgDf = s.cfgDf := by unfold State.storeByte; split <;> rfl
@[simp] theorem State.storeByte_cfgDg (i : Nat) (v : Byte) (s : State) : (s.storeByte i v).cfgDg = s.cfgDg := by unfold State.storeByte; split <;> rfl
@[simp] theorem State.storeByte_cfgDr (i : Nat) (v : Byte) (s : State) : (s.storeByte i v).cfgDr = s.cfgDr := by unfold State.storeByte; split <;> rfl
@[simp] theorem State.storeByte_modarg (i : Nat) (v : Byte) (s : State) : (s.storeByte i v).modarg = s.modarg := by unfold State.storeByte; split <;> rfl
@[simp] theorem State.storeByte_sampNp (i : Nat) (v : Byte) (s : State) : (s.storeByte i v).sampNp = s.sampNp := by unfold State.storeByte; split <;> rfl
@[simp] theorem State.storeByte_sampNm (i : Nat) (v : Byte) (s : State) : (s.storeByte i v).sampNm = s.sampNm := by unfold State.storeByte; split <;> rfl
@[simp] theorem State.storeByte_wplus (i : Nat) (v : Byte) (s : State) : (s.storeByte i v).wplus = s.wplus := by unfold State.storeByte; split <;> rfl
@[simp] theorem State.storeByte_wminus (i : Nat) (v : Byte) (s : State) : (s.storeByte i v).wminus = s.wminus := by unfold State.storeByte; split <;> rfl
@[simp] theorem State.storeByte_wother (i : Nat) (v : Byte) (s : State) : (s.storeByte i v).wother = s.wother := by unfold State.storeByte; split <;> rfl
@[simp] theorem State.storeByte_mlen (i : Nat) (v : Byte) (s : State) : (s.storeByte i v).mlen = s.mlen := by unfold State.storeByte; split <;> rfl
@[simp] theorem State.storeByte_clen (i : Nat) (v : Byte) (s : State) : (s.storeByte i v).clen = s.clen := by unfold State.storeByte; split <;> rfl
@[simp] theorem State.storeByte_nblk (i : Nat) (v : Byte) (s : State) : (s.storeByte i v).nblk = s.nblk := by unfold State.storeByte; split <;> rfl
@[simp] theorem State.storeByte_plen (i : Nat) (v : Byte) (s : State) : (s.storeByte i v).plen = s.plen := by unfold State.storeByte; split <;> rfl
@[simp] theorem State.storeByte_p (i : Nat) (v : Byte) (s : State) : (s.storeByte i v).p = s.p := by unfold State.storeByte; split <;> rfl
@[simp] theorem State.storeByte_cbuf (i : Nat) (v : Byte) (s : State) : (s.storeByte i v).cbuf = s.cbuf := by unfold State.storeByte; split <;> rfl
@[simp] theorem State.storeByte_engine (i : Nat) (v : Byte) (s : State) : (s.storeByte i v).engine = s.engine := by unfold State.storeByte; split <;> rfl
@[simp] theorem State.storeByte_entropy (i : Nat) (v : Byte) (s : State) : (s.storeByte i v).entropy = s.entropy := by unfold State.storeByte; split <;> rfl
@[simp] theorem State.storeByte_agenda (i : Nat) (v : Byte) (s : State) : (s.storeByte i v).agenda = s.agenda := by unfold State.storeByte; split <;> rfl
@[simp] theorem State.storeByte_bus (i : Nat) (v : Byte) (s : State) : (s.storeByte i v).bus = s.bus := by unfold State.storeByte; split <;> rfl
@[simp] theorem State.storeByte_draws (i : Nat) (v : Byte) (s : State) : (s.storeByte i v).draws = s.draws := by unfold State.storeByte; split <;> rfl
@[simp] theorem State.storeByte_turnLimit (i : Nat) (v : Byte) (s : State) : (s.storeByte i v).turnLimit = s.turnLimit := by unfold State.storeByte; split <;> rfl
@[simp] theorem State.storeByte_build (i : Nat) (v : Byte) (s : State) : (s.storeByte i v).build = s.build := by unfold State.storeByte; split <;> rfl

/-! ### writeStatusReg: STATUS only -/

@[simp] theorem State.writeStatusReg_ctrl (v : Word) (s : State) : (s.writeStatusReg v).ctrl = s.ctrl := by unfold State.writeStatusReg; dsimp only; split <;> rfl
@[simp] theorem State.writeStatusReg_cmd (v : Word) (s : State) : (s.writeStatusReg v).cmd = s.cmd := by unfold State.writeStatusReg; dsimp only; split <;> rfl
@[simp] theorem State.writeStatusReg_errinfo (v : Word) (s : State) : (s.writeStatusReg v).errinfo = s.errinfo := by unfold State.writeStatusReg; dsimp only; split <;> rfl
@[simp] theorem State.writeStatusReg_errcmd (v : Word) (s : State) : (s.writeStatusReg v).errcmd = s.errcmd := by unfold State.writeStatusReg; dsimp only; split <;> rfl
@[simp] theorem State.writeStatusReg_fifo (v : Word) (s : State) : (s.writeStatusReg v).fifo = s.fifo := by unfold State.writeStatusReg; dsimp only; split <;> rfl
@[simp] theorem State.writeStatusReg_cfgN (v : Word) (s : State) : (s.writeStatusReg v).cfgN = s.cfgN := by unfold State.writeStatusReg; dsimp only; split <;> rfl
@[simp] theorem State.writeStatusReg_cfgP (v : Word) (s : State) : (s.writeStatusReg v).cfgP = s.cfgP := by unfold State.writeStatusReg; dsimp only; split <;> rfl
@[simp] theorem State.writeStatusReg_cfgQ (v : Word) (s : State) : (s.writeStatusReg v).cfgQ = s.cfgQ := by unfold State.writeStatusReg; dsimp only; split <;> rfl
@[simp] theorem State.writeStatusReg_cfgDf (v : Word) (s : State) : (s.writeStatusReg v).cfgDf = s.cfgDf := by unfold State.writeStatusReg; dsimp only; split <;> rfl
@[simp] theorem State.writeStatusReg_cfgDg (v : Word) (s : State) : (s.writeStatusReg v).cfgDg = s.cfgDg := by unfold State.writeStatusReg; dsimp only; split <;> rfl
@[simp] theorem State.writeStatusReg_cfgDr (v : Word) (s : State) : (s.writeStatusReg v).cfgDr = s.cfgDr := by unfold State.writeStatusReg; dsimp only; split <;> rfl
@[simp] theorem State.writeStatusReg_modarg (v : Word) (s : State) : (s.writeStatusReg v).modarg = s.modarg := by unfold State.writeStatusReg; dsimp only; split <;> rfl
@[simp] theorem State.writeStatusReg_sampNp (v : Word) (s : State) : (s.writeStatusReg v).sampNp = s.sampNp := by unfold State.writeStatusReg; dsimp only; split <;> rfl
@[simp] theorem State.writeStatusReg_sampNm (v : Word) (s : State) : (s.writeStatusReg v).sampNm = s.sampNm := by unfold State.writeStatusReg; dsimp only; split <;> rfl
@[simp] theorem State.writeStatusReg_wplus (v : Word) (s : State) : (s.writeStatusReg v).wplus = s.wplus := by unfold State.writeStatusReg; dsimp only; split <;> rfl
@[simp] theorem State.writeStatusReg_wminus (v : Word) (s : State) : (s.writeStatusReg v).wminus = s.wminus := by unfold State.writeStatusReg; dsimp only; split <;> rfl
@[simp] theorem State.writeStatusReg_wother (v : Word) (s : State) : (s.writeStatusReg v).wother = s.wother := by unfold State.writeStatusReg; dsimp only; split <;> rfl
@[simp] theorem State.writeStatusReg_mlen (v : Word) (s : State) : (s.writeStatusReg v).mlen = s.mlen := by unfold State.writeStatusReg; dsimp only; split <;> rfl
@[simp] theorem State.writeStatusReg_clen (v : Word) (s : State) : (s.writeStatusReg v).clen = s.clen := by unfold State.writeStatusReg; dsimp only; split <;> rfl
@[simp] theorem State.writeStatusReg_nblk (v : Word) (s : State) : (s.writeStatusReg v).nblk = s.nblk := by unfold State.writeStatusReg; dsimp only; split <;> rfl
@[simp] theorem State.writeStatusReg_plen (v : Word) (s : State) : (s.writeStatusReg v).plen = s.plen := by unfold State.writeStatusReg; dsimp only; split <;> rfl
@[simp] theorem State.writeStatusReg_p (v : Word) (s : State) : (s.writeStatusReg v).p = s.p := by unfold State.writeStatusReg; dsimp only; split <;> rfl
@[simp] theorem State.writeStatusReg_bbuf (v : Word) (s : State) : (s.writeStatusReg v).bbuf = s.bbuf := by unfold State.writeStatusReg; dsimp only; split <;> rfl
@[simp] theorem State.writeStatusReg_cbuf (v : Word) (s : State) : (s.writeStatusReg v).cbuf = s.cbuf := by unfold State.writeStatusReg; dsimp only; split <;> rfl
@[simp] theorem State.writeStatusReg_engine (v : Word) (s : State) : (s.writeStatusReg v).engine = s.engine := by unfold State.writeStatusReg; dsimp only; split <;> rfl
@[simp] theorem State.writeStatusReg_entropy (v : Word) (s : State) : (s.writeStatusReg v).entropy = s.entropy := by unfold State.writeStatusReg; dsimp only; split <;> rfl
@[simp] theorem State.writeStatusReg_agenda (v : Word) (s : State) : (s.writeStatusReg v).agenda = s.agenda := by unfold State.writeStatusReg; dsimp only; split <;> rfl
@[simp] theorem State.writeStatusReg_bus (v : Word) (s : State) : (s.writeStatusReg v).bus = s.bus := by unfold State.writeStatusReg; dsimp only; split <;> rfl
@[simp] theorem State.writeStatusReg_draws (v : Word) (s : State) : (s.writeStatusReg v).draws = s.draws := by unfold State.writeStatusReg; dsimp only; split <;> rfl
@[simp] theorem State.writeStatusReg_turnLimit (v : Word) (s : State) : (s.writeStatusReg v).turnLimit = s.turnLimit := by unfold State.writeStatusReg; dsimp only; split <;> rfl
@[simp] theorem State.writeStatusReg_build (v : Word) (s : State) : (s.writeStatusReg v).build = s.build := by unfold State.writeStatusReg; dsimp only; split <;> rfl

/-! ### putBits: BBUF only -/

@[simp] theorem State.putBits_ctrl (vs : List Bool) (j : Nat) (s : State) : (State.putBits vs j s).ctrl = s.ctrl := by
  induction vs generalizing j s with
  | nil => rfl
  | cons v vs ih => rw [State.putBits, ih]; split <;> rfl
@[simp] theorem State.putBits_status (vs : List Bool) (j : Nat) (s : State) : (State.putBits vs j s).status = s.status := by
  induction vs generalizing j s with
  | nil => rfl
  | cons v vs ih => rw [State.putBits, ih]; split <;> rfl
@[simp] theorem State.putBits_cmd (vs : List Bool) (j : Nat) (s : State) : (State.putBits vs j s).cmd = s.cmd := by
  induction vs generalizing j s with
  | nil => rfl
  | cons v vs ih => rw [State.putBits, ih]; split <;> rfl
@[simp] theorem State.putBits_errinfo (vs : List Bool) (j : Nat) (s : State) : (State.putBits vs j s).errinfo = s.errinfo := by
  induction vs generalizing j s with
  | nil => rfl
  | cons v vs ih => rw [State.putBits, ih]; split <;> rfl
@[simp] theorem State.putBits_errcmd (vs : List Bool) (j : Nat) (s : State) : (State.putBits vs j s).errcmd = s.errcmd := by
  induction vs generalizing j s with
  | nil => rfl
  | cons v vs ih => rw [State.putBits, ih]; split <;> rfl
@[simp] theorem State.putBits_fifo (vs : List Bool) (j : Nat) (s : State) : (State.putBits vs j s).fifo = s.fifo := by
  induction vs generalizing j s with
  | nil => rfl
  | cons v vs ih => rw [State.putBits, ih]; split <;> rfl
@[simp] theorem State.putBits_cfgN (vs : List Bool) (j : Nat) (s : State) : (State.putBits vs j s).cfgN = s.cfgN := by
  induction vs generalizing j s with
  | nil => rfl
  | cons v vs ih => rw [State.putBits, ih]; split <;> rfl
@[simp] theorem State.putBits_cfgP (vs : List Bool) (j : Nat) (s : State) : (State.putBits vs j s).cfgP = s.cfgP := by
  induction vs generalizing j s with
  | nil => rfl
  | cons v vs ih => rw [State.putBits, ih]; split <;> rfl
@[simp] theorem State.putBits_cfgQ (vs : List Bool) (j : Nat) (s : State) : (State.putBits vs j s).cfgQ = s.cfgQ := by
  induction vs generalizing j s with
  | nil => rfl
  | cons v vs ih => rw [State.putBits, ih]; split <;> rfl
@[simp] theorem State.putBits_cfgDf (vs : List Bool) (j : Nat) (s : State) : (State.putBits vs j s).cfgDf = s.cfgDf := by
  induction vs generalizing j s with
  | nil => rfl
  | cons v vs ih => rw [State.putBits, ih]; split <;> rfl
@[simp] theorem State.putBits_cfgDg (vs : List Bool) (j : Nat) (s : State) : (State.putBits vs j s).cfgDg = s.cfgDg := by
  induction vs generalizing j s with
  | nil => rfl
  | cons v vs ih => rw [State.putBits, ih]; split <;> rfl
@[simp] theorem State.putBits_cfgDr (vs : List Bool) (j : Nat) (s : State) : (State.putBits vs j s).cfgDr = s.cfgDr := by
  induction vs generalizing j s with
  | nil => rfl
  | cons v vs ih => rw [State.putBits, ih]; split <;> rfl
@[simp] theorem State.putBits_modarg (vs : List Bool) (j : Nat) (s : State) : (State.putBits vs j s).modarg = s.modarg := by
  induction vs generalizing j s with
  | nil => rfl
  | cons v vs ih => rw [State.putBits, ih]; split <;> rfl
@[simp] theorem State.putBits_sampNp (vs : List Bool) (j : Nat) (s : State) : (State.putBits vs j s).sampNp = s.sampNp := by
  induction vs generalizing j s with
  | nil => rfl
  | cons v vs ih => rw [State.putBits, ih]; split <;> rfl
@[simp] theorem State.putBits_sampNm (vs : List Bool) (j : Nat) (s : State) : (State.putBits vs j s).sampNm = s.sampNm := by
  induction vs generalizing j s with
  | nil => rfl
  | cons v vs ih => rw [State.putBits, ih]; split <;> rfl
@[simp] theorem State.putBits_wplus (vs : List Bool) (j : Nat) (s : State) : (State.putBits vs j s).wplus = s.wplus := by
  induction vs generalizing j s with
  | nil => rfl
  | cons v vs ih => rw [State.putBits, ih]; split <;> rfl
@[simp] theorem State.putBits_wminus (vs : List Bool) (j : Nat) (s : State) : (State.putBits vs j s).wminus = s.wminus := by
  induction vs generalizing j s with
  | nil => rfl
  | cons v vs ih => rw [State.putBits, ih]; split <;> rfl
@[simp] theorem State.putBits_wother (vs : List Bool) (j : Nat) (s : State) : (State.putBits vs j s).wother = s.wother := by
  induction vs generalizing j s with
  | nil => rfl
  | cons v vs ih => rw [State.putBits, ih]; split <;> rfl
@[simp] theorem State.putBits_mlen (vs : List Bool) (j : Nat) (s : State) : (State.putBits vs j s).mlen = s.mlen := by
  induction vs generalizing j s with
  | nil => rfl
  | cons v vs ih => rw [State.putBits, ih]; split <;> rfl
@[simp] theorem State.putBits_clen (vs : List Bool) (j : Nat) (s : State) : (State.putBits vs j s).clen = s.clen := by
  induction vs generalizing j s with
  | nil => rfl
  | cons v vs ih => rw [State.putBits, ih]; split <;> rfl
@[simp] theorem State.putBits_nblk (vs : List Bool) (j : Nat) (s : State) : (State.putBits vs j s).nblk = s.nblk := by
  induction vs generalizing j s with
  | nil => rfl
  | cons v vs ih => rw [State.putBits, ih]; split <;> rfl
@[simp] theorem State.putBits_plen (vs : List Bool) (j : Nat) (s : State) : (State.putBits vs j s).plen = s.plen := by
  induction vs generalizing j s with
  | nil => rfl
  | cons v vs ih => rw [State.putBits, ih]; split <;> rfl
@[simp] theorem State.putBits_p (vs : List Bool) (j : Nat) (s : State) : (State.putBits vs j s).p = s.p := by
  induction vs generalizing j s with
  | nil => rfl
  | cons v vs ih => rw [State.putBits, ih]; split <;> rfl
@[simp] theorem State.putBits_cbuf (vs : List Bool) (j : Nat) (s : State) : (State.putBits vs j s).cbuf = s.cbuf := by
  induction vs generalizing j s with
  | nil => rfl
  | cons v vs ih => rw [State.putBits, ih]; split <;> rfl
@[simp] theorem State.putBits_engine (vs : List Bool) (j : Nat) (s : State) : (State.putBits vs j s).engine = s.engine := by
  induction vs generalizing j s with
  | nil => rfl
  | cons v vs ih => rw [State.putBits, ih]; split <;> rfl
@[simp] theorem State.putBits_entropy (vs : List Bool) (j : Nat) (s : State) : (State.putBits vs j s).entropy = s.entropy := by
  induction vs generalizing j s with
  | nil => rfl
  | cons v vs ih => rw [State.putBits, ih]; split <;> rfl
@[simp] theorem State.putBits_agenda (vs : List Bool) (j : Nat) (s : State) : (State.putBits vs j s).agenda = s.agenda := by
  induction vs generalizing j s with
  | nil => rfl
  | cons v vs ih => rw [State.putBits, ih]; split <;> rfl
@[simp] theorem State.putBits_bus (vs : List Bool) (j : Nat) (s : State) : (State.putBits vs j s).bus = s.bus := by
  induction vs generalizing j s with
  | nil => rfl
  | cons v vs ih => rw [State.putBits, ih]; split <;> rfl
@[simp] theorem State.putBits_draws (vs : List Bool) (j : Nat) (s : State) : (State.putBits vs j s).draws = s.draws := by
  induction vs generalizing j s with
  | nil => rfl
  | cons v vs ih => rw [State.putBits, ih]; split <;> rfl
@[simp] theorem State.putBits_turnLimit (vs : List Bool) (j : Nat) (s : State) : (State.putBits vs j s).turnLimit = s.turnLimit := by
  induction vs generalizing j s with
  | nil => rfl
  | cons v vs ih => rw [State.putBits, ih]; split <;> rfl
@[simp] theorem State.putBits_build (vs : List Bool) (j : Nat) (s : State) : (State.putBits vs j s).build = s.build := by
  induction vs generalizing j s with
  | nil => rfl
  | cons v vs ih => rw [State.putBits, ih]; split <;> rfl

/-! ### Reads that an update leaves alone -/

@[simp] theorem State.complete_slot (s : State) (k : PReg) (i : Nat) : s.complete.slot k i = s.slot k i := rfl

@[simp] theorem State.drew_slot (s : State) (k : PReg) (i : Nat) : s.drew.slot k i = s.slot k i := rfl

@[simp] theorem State.drew_n (s : State) : s.drew.n = s.n := rfl

@[simp] theorem State.keepSampling_n (src : RandSource) (job : Sampling) (wait : Bool) (s : State) :
    (s.keepSampling src job wait).n = s.n := rfl

@[simp] theorem State.beginTurn_n (limit : Option Nat) (s : State) : (s.beginTurn limit).n = s.n := rfl

@[simp] theorem State.withWords_n (src : RandSource) (ws : List Word) (s : State) : (s.withWords src ws).n = s.n := by
  cases src <;> rfl

end Sys2Proof.Machine
end

