-- ==== Sys2Proof/Laws/Memory.lean ====
section
/-! SUPPORT. Laws/Memory.lean: every operation over the core's storage keeps Memory.wf, reset has it, and what a register
reads as after `writePoly` and a byte after `putBit`. -/

namespace Sys2Proof.Machine

theorem memory_wf_iff (s : State) :
    Memory.wf s = true ↔ (∀ k : PReg, bufWf s.build.nmax s.p[k] = true) ∧ bufWf s.build.bmax s.bbuf = true ∧
      bufWf s.build.cmax s.cbuf = true := by
  simp only [Memory.wf, Bool.and_eq_true, List.all_eq_true, Vector.mem_toList_iff, and_assoc]
  refine and_congr_left fun _ => ⟨fun h k => h _ (by simp), fun h x hx => ?_⟩
  obtain ⟨i, hi, rfl⟩ := Vector.getElem_of_mem hx
  exact h ⟨i, hi⟩

/-- Reset lists nothing, in any build. -/
theorem resetOf_memory_wf (b : Config.Build) : Memory.wf (State.resetOf b) = true := by
  rw [memory_wf_iff]
  exact ⟨fun k => by simp [State.resetOf, State.reset, bufWf, bufWfFrom], rfl, rfl⟩

theorem reset_memory_wf : Memory.wf State.reset = true := resetOf_memory_wf Config.thisHardware

/-- An update that leaves the storage alone keeps the form. -/
theorem memory_wf_of_eq {s t : State} (hd : t.build = s.build) (hp : t.p = s.p) (hb : t.bbuf = s.bbuf)
    (hc : t.cbuf = s.cbuf) (h : Memory.wf s = true) : Memory.wf t = true := by
  simpa [Memory.wf, hd, hp, hb, hc] using h

theorem polySlots_wf (nmax : Nat) (c : Poly) : bufWf nmax (polySlots nmax c) = true := bufWf_bufOfList (by simp)

/-- What slot i of a register holds after a polynomial was written to it. -/
theorem bufGet_polySlots {nmax : Nat} (c : Poly) {i : Nat} (h : i < nmax) :
    bufGet (polySlots nmax c) i = some (if i < c.length then wrap32 (c.getD i 0) else 0) := by
  rw [polySlots, bufGet_bufOfList, padTo_getElem? _ _ _ _ h]
  congr 1
  split
  · next hi => simp [List.getD_eq_getElem?_getD, hi]
  · next hi => simp [List.getD_eq_getElem?_getD, Nat.le_of_not_lt hi]

theorem memory_wf_setP {s : State} (k : PReg) {b : Buf Word} (hb : bufWf s.build.nmax b = true) {t : State}
    (hd : t.build = s.build) (hp : t.p = s.p.set k b) (hbb : t.bbuf = s.bbuf) (hc : t.cbuf = s.cbuf) (h : Memory.wf s = true) :
    Memory.wf t = true := by
  rw [memory_wf_iff] at h ⊢
  rw [hd]
  refine ⟨fun j => ?_, by rw [hbb]; exact h.2.1, by rw [hc]; exact h.2.2⟩
  rw [hp]
  by_cases hj : k = j
  · subst hj; simpa using hb
  · have hne : k.val ≠ j.val := fun e => hj (Fin.ext e)
    simpa [Vector.getElem_set, hne] using h.1 j

/-- `write_poly` keeps the canonical form. -/
theorem writePoly_wf {s : State} (k : PReg) (c : Poly) (h : Memory.wf s = true) : Memory.wf (s.writePoly k c) = true :=
  memory_wf_setP (s := s) k (polySlots_wf _ c) rfl rfl rfl rfl h

/-- PMOV's copy keeps the canonical form. -/
theorem movePoly_wf {s : State} (rd rs1 : PReg) (h : Memory.wf s = true) : Memory.wf (s.movePoly rd rs1) = true :=
  memory_wf_setP (s := s) rd ((memory_wf_iff s).mp h |>.1 rs1) rfl rfl rfl rfl h

theorem memory_wf_setBbuf {s t : State} (hd : t.build = s.build) (hp : t.p = s.p) (hb : bufWf s.build.bmax t.bbuf = true)
    (hc : t.cbuf = s.cbuf) (h : Memory.wf s = true) : Memory.wf t = true := by
  rw [memory_wf_iff] at h ⊢
  rw [hd]
  exact ⟨by rw [hp]; exact h.1, hb, by rw [hc]; exact h.2.2⟩

/-- Writing one message bit of BBUF keeps the canonical form. -/
theorem putBit_wf {s : State} {j : Nat} (v : Bool) (hj : j < 8 * s.build.bmax) (h : Memory.wf s = true) :
    Memory.wf (s.putBit j v) = true :=
  memory_wf_setBbuf (s := s) rfl rfl (bufWf_bufPut _ ((memory_wf_iff s).mp h).2.1 (by omega)) rfl h

/-- Writing a run of message bits keeps the canonical form: bits beyond BBUF are dropped. -/
theorem putBits_wf {s : State} (vs : List Bool) (j : Nat) (h : Memory.wf s = true) :
    Memory.wf (State.putBits vs j s) = true := by
  induction vs generalizing j s with
  | nil => exact h
  | cons v vs ih =>
    rw [State.putBits]
    split
    · next hj => exact ih _ (putBit_wf v hj h)
    · exact ih _ h

theorem memory_wf_setCbuf {s t : State} (hd : t.build = s.build) (hp : t.p = s.p) (hb : t.bbuf = s.bbuf)
    (hc : bufWf s.build.cmax t.cbuf = true) (h : Memory.wf s = true) : Memory.wf t = true := by
  rw [memory_wf_iff] at h ⊢
  rw [hd]
  exact ⟨by rw [hp]; exact h.1, by rw [hb]; exact h.2.1, hc⟩

/-- Writing a ciphertext to CBUF keeps the canonical form. -/
theorem writeCipher_wf {s : State} (c : List Word) (h : Memory.wf s = true) : Memory.wf (s.writeCipher c) = true :=
  memory_wf_setCbuf (s := s) rfl rfl rfl (bufWf_bufOverwrite ((memory_wf_iff s).mp h).2.2 (by rw [List.length_take]; omega)) h

/-- An SDEC that fails late leaves nothing listed in BBUF. -/
theorem failDecoding_wf {s : State} (r : Report) (h : Memory.wf s = true) : Memory.wf (s.failDecoding r) = true :=
  memory_wf_setBbuf (s := s) rfl rfl rfl rfl h

theorem hardReset_wf (s : State) : Memory.wf s.hardReset = true :=
  memory_wf_of_eq (s := State.resetOf s.build) rfl rfl rfl rfl (resetOf_memory_wf s.build)

/-- Writing one byte of BBUF's window keeps the canonical form: a byte beyond BBUF is not written. -/
theorem storeByte_wf {s : State} (i : Nat) (v : Byte) (h : Memory.wf s = true) : Memory.wf (s.storeByte i v) = true := by
  unfold State.storeByte
  split
  · next hi => exact memory_wf_setBbuf (s := s) rfl rfl (bufWf_bufPut _ ((memory_wf_iff s).mp h).2.1 hi) rfl h
  · exact h

/-! ### The bus window -/

/-- The indices a decoded offset can name are inside the storage: of a BBUF word, at least the first byte. -/
def locInRange (b : Config.Build) : Loc → Bool
  | .slot _ i => decide (i < b.nmax)
  | .bword j => decide (4 * j < b.bmax)
  | .cword i => decide (i < b.cmax)
  | _ => true

theorem lookup_inRange {b : Config.Build} (l : List (Nat × Loc)) (h : l.all (fun e => locInRange b e.2) = true) (off : Nat) :
    locInRange b ((l.lookup off).getD .reserved) = true := by
  induction l with
  | nil => rfl
  | cons e r ih =>
    simp only [List.all_cons, Bool.and_eq_true] at h
    obtain ⟨k, l⟩ := e
    by_cases hk : off = k
    · subst hk; simpa using h.1
    · have hb : (off == k) = false := by simpa using hk
      simpa [List.lookup, hb] using ih h.2

theorem locOf_inRange (b : Config.Build) (off : Nat) : locInRange b (locOf b off) = true := by
  unfold locOf
  split
  · exact lookup_inRange csrTable (by simp [csrTable, locInRange]) off
  · split
    · dsimp only
      split
      · next h => simpa [locInRange] using h
      · rfl
    · split
      · dsimp only
        split
        · next h => simpa [locInRange] using h
        · rfl
      · split
        · next h => simpa [locInRange] using h.2
        · rfl

/-- An honoured host write keeps the canonical form. -/
theorem storeLoc_wf {s : State} (v : Word) {l : Loc} (hl : locInRange s.build l = true) (h : Memory.wf s = true) :
    Memory.wf (s.storeLoc v l) = true := by
  have hw := (memory_wf_iff s).mp h
  cases l with
  | slot k i =>
    simp only [locInRange, decide_eq_true_eq] at hl
    exact memory_wf_setP (s := s) k (bufWf_bufPut v (hw.1 k) hl) rfl rfl rfl rfl h
  | bword j => exact storeByte_wf _ _ (storeByte_wf _ _ (storeByte_wf _ _ (storeByte_wf _ _ h)))
  | cword i =>
    simp only [locInRange, decide_eq_true_eq] at hl
    exact memory_wf_setCbuf (s := s) rfl rfl rfl (bufWf_bufPut v hw.2.2 hl) h
  | _ => exact memory_wf_of_eq (s := s) rfl rfl rfl rfl h

/-! ### Reads after writes -/

theorem slot_writePoly_self (s : State) (k : PReg) (c : Poly) {i : Nat} (h : i < s.build.nmax) :
    (s.writePoly k c).slot k i = some (if i < c.length then wrap32 (c.getD i 0) else 0) := by
  simp [State.slot, bufGet_polySlots c h]

theorem p_writePoly_of_ne (s : State) {j k : PReg} (c : Poly) (h : j ≠ k) : (s.writePoly k c).p[j] = s.p[j] := by
  have hne : k.val ≠ j.val := fun e => h (Fin.ext e.symm)
  simp [hne]

theorem bbuf_putBit_of_ne (s : State) {i j : Nat} (v : Bool) (h : i ≠ j / 8) :
    bufGet (s.putBit j v).bbuf i = bufGet s.bbuf i := by
  simp [bufGet_bufPut_of_ne _ _ h]

end Sys2Proof.Machine
end

