-- ==== Sys2Proof/Laws/Ops.lean ====
section
/-! SUPPORT. Laws/Ops.lean: what each shared operation of the machine can do, said once. -/

namespace Sys2Proof.Machine

/-! ### Pre-checks -/

@[simp] theorem firstReport_nil : firstReport [] = none := rfl

@[simp] theorem firstReport_some (r : Report) (l : List (Option Report)) : firstReport (some r :: l) = some r := rfl

@[simp] theorem firstReport_none (l : List (Option Report)) : firstReport (none :: l) = firstReport l := rfl

theorem firstReport_eq_none_iff (l : List (Option Report)) : firstReport l = none ↔ ∀ x ∈ l, x = none := by
  induction l with
  | nil => simp
  | cons x l ih => cases x <;> simp [ih]

/-- A report of `firstReport` is one of the checks', and every check before it passed. -/
theorem firstReport_eq_some_iff (l : List (Option Report)) (r : Report) :
    firstReport l = some r ↔ ∃ a b, l = a ++ some r :: b ∧ ∀ x ∈ a, x = none := by
  induction l with
  | nil => simp
  | cons x l ih =>
    cases x with
    | some r' =>
      simp only [firstReport_some, Option.some.injEq]
      constructor
      · rintro rfl; exact ⟨[], l, rfl, by simp⟩
      · rintro ⟨a, b, he, ha⟩
        cases a with
        | nil => simpa using (List.cons.inj he).1
        | cons y a => have := ha y (List.mem_cons_self ..); rw [← (List.cons.inj he).1] at this; cases this
    | none =>
      simp only [firstReport_none, ih]
      constructor
      · rintro ⟨a, b, rfl, ha⟩; exact ⟨none :: a, b, rfl, by simpa using ha⟩
      · rintro ⟨a, b, he, ha⟩
        cases a with
        | nil => cases (List.cons.inj he).1
        | cons y a => exact ⟨a, b, (List.cons.inj he).2, fun x hx => ha x (List.mem_cons_of_mem _ hx)⟩

theorem guarded_some {pre : Option Report} {r : Report} (h : pre = some r) (act : State → State) (s : State) :
    guarded pre act s = .next (s.fail r) := by subst h; rfl

theorem guarded_none {pre : Option Report} (h : pre = none) (act : State → State) (s : State) :
    guarded pre act s = .next (act s) := by subst h; rfl

/-- A guarded command reports, or acts. -/
theorem guarded_cases {pre : Option Report} {act : State → State} {s t : State} (h : guarded pre act s = .next t) :
    (∃ r, pre = some r ∧ t = s.fail r) ∨ (pre = none ∧ t = act s) := by
  cases pre with
  | some r => exact .inl ⟨r, rfl, by simpa [guarded] using h.symm⟩
  | none => exact .inr ⟨rfl, by simpa [guarded] using h.symm⟩

theorem guarded_isNext (pre : Option Report) (act : State → State) (s : State) : ∃ t, guarded pre act s = .next t := by
  cases pre <;> exact ⟨_, rfl⟩

theorem cfgGate_eq_none {s : State} : s.cfgGate = none ↔ s.status.cfgok = true := by
  unfold State.cfgGate; split <;> simp_all

theorem lenCheck_eq_none {s : State} {k : PReg} : s.lenCheck k = none ↔ s.plen[k] = s.cfgN := by
  unfold State.lenCheck; split <;> simp_all

/-! ### The sampler -/

/-- The words a turn may take and the rest are the source's words. -/
theorem granted_append (s : State) (ws : List Word) : (s.granted ws).1 ++ (s.granted ws).2 = ws := by
  unfold State.granted; split <;> simp

theorem feedWords_of_done {job : Sampling} (h : job.todo = 0) (ws : List Word) : feedWords job ws = (job, ws) := by
  cases ws <;> simp [feedWords, h]

/-- The engine stops for want of words only when it took all it was given. -/
theorem feedWords_left {job : Sampling} {ws : List Word} (h : (feedWords job ws).1.todo ≠ 0) : (feedWords job ws).2 = [] := by
  induction ws generalizing job with
  | nil => rfl
  | cons w ws ih =>
    simp only [feedWords] at h ⊢
    split
    · next h0 => simp [h0] at h
    · next h0 => simp only [h0, if_false] at h; exact ih h

theorem feedWords_length_le (job : Sampling) (ws : List Word) : (feedWords job ws).2.length ≤ ws.length := by
  induction ws generalizing job with
  | nil => exact Nat.le_refl _
  | cons w ws ih =>
    simp only [feedWords]
    split
    · exact Nat.le_refl _
    · exact Nat.le_trans (ih _) (Nat.le_succ _)

/-- A turn has an event left exactly when its limit, if it has one, is not used up. -/
theorem eventLeft_iff {s : State} {used : Nat} : s.eventLeft used = true ↔ ∀ k, s.turnLimit = some k → used < k := by
  unfold State.eventLeft
  cases s.turnLimit <;> simp

/-- A turn that has used up its events took every word it might take. -/
theorem granted_of_not_eventLeft {s : State} {job : Sampling} {ws : List Word}
    (h : s.eventLeft ((s.granted ws).1.length - (feedWords job (s.granted ws).1).2.length) = false) :
    (feedWords job (s.granted ws).1).2 = [] ∧ s.turnLimit = some (s.granted ws).1.length := by
  have hle := feedWords_length_le job (s.granted ws).1
  cases hk : s.turnLimit with
  | none => simp [State.eventLeft, hk] at h
  | some k =>
    have hg : (s.granted ws).1.length ≤ k := by simp only [State.granted, hk, List.length_take]; omega
    simp only [State.eventLeft, hk, decide_eq_false_iff_not, Nat.not_lt] at h
    refine ⟨List.length_eq_zero_iff.mp (by omega), by congr 1; omega⟩

/-- A turn of a sampling command finishes it with the samples drawn, or leaves it in flight with every word it may take
taken: waiting for a word there is not, or with no event left. -/
theorem sampleTurn_cases (src : RandSource) (job : Sampling) (finish : List Poly → State → State) (s : State) :
    let g := s.granted (s.wordsOf src)
    let r := feedWords job g.1
    (r.1.todo = 0 ∧ s.eventLeft (g.1.length - r.2.length) = true ∧
      sampleTurn src job finish s = finish r.1.done (s.withWords src (r.2 ++ g.2))) ∨
    (r.1.todo ≠ 0 ∧ r.2 = [] ∧ s.eventLeft g.1.length = true ∧
      sampleTurn src job finish s = (s.withWords src g.2).keepSampling src r.1 true) ∨
    (r.2 = [] ∧ s.turnLimit = some g.1.length ∧
      sampleTurn src job finish s =
        (s.withWords src g.2).keepSampling src r.1 (s.status.rngwait && decide (g.1.length = 0) && g.2.isEmpty)) := by
  intro g r
  cases he : s.eventLeft (g.1.length - r.2.length) with
  | true =>
    by_cases h : r.1.todo = 0
    · refine .inl ⟨h, rfl, ?_⟩
      simp only [sampleTurn]
      rw [if_pos he, if_pos h]
    · have hl : r.2 = [] := feedWords_left h
      refine .inr (.inl ⟨h, hl, by simpa [hl] using he, ?_⟩)
      simp only [sampleTurn]
      rw [if_pos he, if_neg h]
      simp only [g, r] at hl ⊢
      rw [hl, List.nil_append]
  | false =>
    obtain ⟨hl, hk⟩ := granted_of_not_eventLeft he
    refine .inr (.inr ⟨hl, hk, ?_⟩)
    simp only [sampleTurn]
    rw [if_neg (by simpa using he)]
    simp only [g, r] at hl ⊢
    rw [hl, List.nil_append, List.length_nil, Nat.sub_zero]

/-- A sampling command that is not in flight starts behind its pre-checks. -/
theorem sampled_start {s : State} (h : ∀ src job, s.engine ≠ .sampling src job) (pre : Option Report) (start : Sampling)
    (finish : List Poly → State → State) :
    sampled pre start finish s = guarded pre (sampleTurn s.recorded start finish) s := by
  unfold sampled
  cases he : s.engine with
  | sampling src job => exact absurd he (h src job)
  | _ => rfl

/-- A sampling command in flight goes on with its sampler. -/
theorem sampled_resume {s : State} {src : RandSource} {job : Sampling} (h : s.engine = .sampling src job)
    (pre : Option Report) (start : Sampling) (finish : List Poly → State → State) :
    sampled pre start finish s = .next (sampleTurn src job finish s) := by
  simp [sampled, h]

theorem sampled_isNext (pre : Option Report) (start : Sampling) (finish : List Poly → State → State) (s : State) :
    ∃ t, sampled pre start finish s = .next t := by
  unfold sampled
  split
  · exact ⟨_, rfl⟩
  · exact guarded_isNext ..
  · exact guarded_isNext ..

/-! ### Commands and steps -/

/-- Every command answers a next state, whatever the state. -/
theorem exec_isNext (i : Instr) (s : State) : ∃ t, exec i s = .next t := by
  cases i with
  | nop => exact ⟨_, rfl⟩
  | cfgchk => simp only [exec, execCfgchk]; split <;> exact ⟨_, rfl⟩
  | pclr _ => simp only [exec, execPclr]; exact guarded_isNext ..
  | pmov _ _ => simp only [exec, execPmov]; exact guarded_isNext ..
  | pmul _ _ _ => simp only [exec, execPmul]; exact guarded_isNext ..
  | padd _ _ _ => simp only [exec, execPadd]; exact guarded_isNext ..
  | pscl _ _ _ => simp only [exec, execPscl]; exact guarded_isNext ..
  | pred _ _ _ _ => simp only [exec, execPred]; exact guarded_isNext ..
  | pinv _ _ _ => simp only [exec, execPinv]; exact guarded_isNext ..
  | psmp _ _ => simp only [exec, execPsmp]; exact sampled_isNext ..
  | pwck _ => simp only [exec, execPwck]; exact guarded_isNext ..
  | nenc _ _ _ => simp only [exec, execNenc]; exact sampled_isNext ..
  | nencx _ _ _ => simp only [exec, execNencx]; exact guarded_isNext ..
  | ndec _ _ _ => simp only [exec, execNdec]; exact guarded_isNext ..
  | benc _ _ => simp only [exec, execBenc]; exact guarded_isNext ..
  | bdec _ _ => simp only [exec, execBdec]; exact guarded_isNext ..
  | bfin => simp only [exec, execBfin]; exact guarded_isNext ..
  | senc _ => simp only [exec, execSenc]; exact sampled_isNext ..
  | sdec _ _ => simp only [exec, execSdec]; exact guarded_isNext ..

/-- A turn of a running engine runs its command, or reports an illegal word. -/
theorem engineTurn_cases {limit : Option Nat} {s t : State} (h : engineTurn limit s = .next t) :
    (s.status.busy = false ∧ t = s) ∨
    (s.status.busy = true ∧ ∃ i, s.command = .ok i ∧ exec i (s.beginTurn limit) = .next t) ∨
    (s.status.busy = true ∧ ∃ e, s.command = .error e ∧ t = s.fail illegalReport) := by
  unfold engineTurn at h
  split at h
  · next hb =>
    cases hc : s.command with
    | ok i => rw [hc] at h; exact .inr (.inl ⟨hb, i, rfl, h⟩)
    | error e => rw [hc] at h; exact .inr (.inr ⟨hb, e, rfl, by simpa using h.symm⟩)
  · next hb => exact .inl ⟨by simpa using hb, by simpa using h.symm⟩

/-- What a host access does when it answers a next state: a bus error, or the access itself. -/
theorem busRead_cases {w : Width} {off : Nat} {s t : State} (h : busRead w off s = .next t) :
    off < Config.windowBytes ∧
    ((badAccess w off = true ∧ t = s.respond ⟨0, true⟩) ∨
     (badAccess w off = false ∧ t = s.drew.respond ⟨s.readValue (locOf s.build off), false⟩)) := by
  unfold busRead at h
  split at h
  · cases h
  · next ho =>
    refine ⟨by omega, ?_⟩
    split at h
    · next hb => exact .inl ⟨hb, by simpa using h.symm⟩
    · next hb => exact .inr ⟨by simpa using hb, by simpa using h.symm⟩

theorem busWrite_cases {w : Width} {off : Nat} {v : Word} {s t : State} (h : busWrite w off v s = .next t) :
    off < Config.windowBytes ∧
    ((badAccess w off = true ∧ t = s.respond ⟨0, true⟩) ∨
     (badAccess w off = false ∧ t = (s.writeValue v (locOf s.build off)).respond ⟨0, false⟩)) := by
  unfold busWrite at h
  split at h
  · cases h
  · next ho =>
    refine ⟨by omega, ?_⟩
    split at h
    · next hb => exact .inl ⟨hb, by simpa using h.symm⟩
    · next hb => exact .inr ⟨by simpa using hb, by simpa using h.symm⟩

/-- What one step can do, guards included. -/
theorem step_cases {s t : State} (h : step s = .next t) :
    (s.agenda = [] ∧ engineTurn none s = .next t) ∨
    (∃ limit rest, s.agenda = .engine limit :: rest ∧ engineTurn limit (s.withAgenda rest) = .next t) ∨
    (∃ w off rest, s.agenda = .read w off :: rest ∧ busRead w off (s.withAgenda rest) = .next t) ∨
    (∃ w off v rest, s.agenda = .write w off v :: rest ∧ busWrite w off v (s.withAgenda rest) = .next t) ∨
    (∃ w rest, s.agenda = .offer w :: rest ∧ t = (s.withAgenda rest).offerWord w) ∨
    (∃ rest, s.agenda = .reset :: rest ∧ t = (s.withAgenda rest).hardReset) := by
  unfold step at h
  cases ha : s.agenda with
  | nil => rw [ha] at h; exact .inl ⟨rfl, h⟩
  | cons e rest =>
    rw [ha] at h
    cases e with
    | engine limit => exact .inr (.inl ⟨limit, rest, rfl, h⟩)
    | read w off => exact .inr (.inr (.inl ⟨w, off, rest, rfl, h⟩))
    | write w off v => exact .inr (.inr (.inr (.inl ⟨w, off, v, rest, rfl, h⟩)))
    | offer w => exact .inr (.inr (.inr (.inr (.inl ⟨w, rest, rfl, by simpa using h.symm⟩))))
    | reset => exact .inr (.inr (.inr (.inr (.inr ⟨rest, rfl, by simpa using h.symm⟩))))

end Sys2Proof.Machine
end

