-- ==== Sys2Proof/Laws/Bus.lean ====
section
/-! SUPPORT. Laws/Bus.lean: a step that performs a host access, said once, and where the offsets of the window lead. -/

namespace Sys2Proof.Machine

/-- A step with a host read next, for an offset and width the port accepts. -/
theorem step_read {s : State} {off : Nat} {rest : List Event} (ha : s.agenda = .read .word off :: rest)
    (ho : off < 0x40000) (h4 : 4 ∣ off) :
    step s = .next ((s.withAgenda rest).drew.respond ⟨(s.withAgenda rest).readValue (locOf s.build off), false⟩) := by
  have hm : off % 4 = 0 := Nat.mod_eq_zero_of_dvd h4
  have hw : ¬ Config.windowBytes ≤ off := by show ¬ 0x40000 ≤ off; omega
  simp [step, ha, busRead, hw, badAccess, hm]

/-- A step with a host write next, for an offset and width the port accepts. -/
theorem step_write {s : State} {off : Nat} {v : Word} {rest : List Event} (ha : s.agenda = .write .word off v :: rest)
    (ho : off < 0x40000) (h4 : 4 ∣ off) :
    step s = .next (((s.withAgenda rest).writeValue v (locOf s.build off)).respond ⟨0, false⟩) := by
  have hm : off % 4 = 0 := Nat.mod_eq_zero_of_dvd h4
  have hw : ¬ Config.windowBytes ≤ off := by show ¬ 0x40000 ≤ off; omega
  simp [step, ha, busWrite, hw, badAccess, hm]

/-- The register offsets (10_state.md R26). -/
theorem locOf_csr (b : Config.Build) {off : Nat} (h : off < 0x1000) : locOf b off = (csrTable.lookup off).getD .reserved := by
  simp [locOf, h]

/-- The polynomial register window (20_memory.md R56). -/
theorem locOf_slot {b : Config.Build} (k : PReg) {i : Nat} (h : i < b.nmax) (hi : i < 1024) :
    locOf b (0x1000 + 0x1000 * k.val + 4 * i) = .slot k i := by
  have hk := k.isLt
  have h1 : ¬ 0x1000 + 0x1000 * k.val + 4 * i < 0x1000 := by omega
  have h2 : 0x1000 + 0x1000 * k.val + 4 * i < 0x9000 := by omega
  have h3 : (0x1000 + 0x1000 * k.val + 4 * i) % 0x1000 / 4 = i := by omega
  have h4 : (0x1000 + 0x1000 * k.val + 4 * i) / 0x1000 - 1 = k.val := by omega
  simp only [locOf, h1, h2, h3, h4, if_true, if_false]
  rw [if_pos h]
  congr 1
  exact Fin.ext (by simp)

/-- The byte buffer window (R57). -/
theorem locOf_bword {b : Config.Build} {j : Nat} (h : 4 * j < b.bmax) (hj : j < 1024) :
    locOf b (0x9000 + 4 * j) = .bword j := by
  have h1 : ¬ 0x9000 + 4 * j < 0x1000 := by omega
  have h2 : ¬ 0x9000 + 4 * j < 0x9000 := by omega
  have h3 : 0x9000 + 4 * j < 0xA000 := by omega
  have h4 : (0x9000 + 4 * j - 0x9000) / 4 = j := by omega
  simp only [locOf, h1, h2, h3, h4, if_true, if_false]
  rw [if_pos h]

/-- The ciphertext buffer window (R58). -/
theorem locOf_cword {b : Config.Build} {i : Nat} (h : i < b.cmax) : locOf b (0x10000 + 4 * i) = .cword i := by
  have h1 : ¬ 0x10000 + 4 * i < 0x1000 := by omega
  have h2 : ¬ 0x10000 + 4 * i < 0x9000 := by omega
  have h3 : ¬ 0x10000 + 4 * i < 0xA000 := by omega
  have h4 : (0x10000 + 4 * i - 0x10000) / 4 = i := by omega
  have h5 : 0x10000 ≤ 0x10000 + 4 * i := by omega
  simp only [locOf, h1, h2, h3, h4, h5, if_false, true_and]
  rw [if_pos h]

/-- An address in the core's window reaches the offset it has there (R50). -/
theorem windowOffset_base {off : Nat} (h : off < Config.windowBytes) : windowOffset (Config.base + off) = some off := by
  simp [windowOffset, h]

end Sys2Proof.Machine
end

