-- ==== Sys2Proof/Laws/Decode.lean ====
section
/-! SUPPORT. Laws/Decode.lean: the fields of a word and the word of the fields are inverse to each other (R81, R86). -/

namespace Sys2Proof

/-- Reading the fields of a word built from fields gives them back. -/
@[simp] theorem fieldsOf_wordOf (f : Fields) : fieldsOf (wordOf f) = f := by
  obtain ⟨opc, rd, rs1, rs2, msel, u, imm⟩ := f
  simp only [fieldsOf, wordOf, Fields.mk.injEq]
  refine ⟨?_, ?_, ?_, ?_, ?_, ?_, ?_⟩ <;>
  · apply BitVec.eq_of_getElem_eq
    intro i hi
    rw [BitVec.getElem_extractLsb', ← BitVec.getLsbD_eq_getElem hi]
    simp only [BitVec.getLsbD_append]
    repeat' split
    all_goals first | omega | (congr 1; omega)

/-- The word built from the fields of a word is that word: the fields cover all 32 bits (R81). -/
@[simp] theorem wordOf_fieldsOf (w : Word) : wordOf (fieldsOf w) = w := by
  apply BitVec.eq_of_getLsbD_eq
  intro i hi
  simp only [fieldsOf, wordOf, BitVec.getLsbD_append, BitVec.getLsbD_extractLsb']
  repeat' split
  all_goals
    rw [Bool.and_eq_right_iff_imp.mpr (fun _ => by simp only [decide_eq_true_eq]; omega)]
    congr 1
    omega

/-- Words with the same fields are the same word. -/
theorem fieldsOf_injective {v w : Word} (h : fieldsOf v = fieldsOf w) : v = w := by
  rw [← wordOf_fieldsOf v, h, wordOf_fieldsOf]

end Sys2Proof
end

