-- ==== Sys2Proof/Laws/Primes.lean ====
section
/-! SUPPORT. Laws/Primes.lean: the bounded trial divisions decide primality (40_control.md R101) and prime powers
(42_modular_inverse.md R140) exactly on the numbers they are used on. -/

namespace Sys2Proof.Machine

/-- `is_prime` of R101 is exact on 16-bit numbers. -/
theorem isPrime16_iff {n : Nat} (h : n < 65536) : isPrime16 n = true ↔ n.Prime := by
  simp only [isPrime16, noFactorUpTo, Bool.and_eq_true, decide_eq_true_eq, List.all_eq_true, List.mem_range'_1,
    Bool.or_eq_true, bne_iff_ne, ne_eq]
  constructor
  · rintro ⟨h2, hd⟩
    by_contra hp
    have hle := Nat.minFac_sq_le_self (by omega) hp
    have hmin := (Nat.minFac_prime (show n ≠ 1 by omega)).two_le
    have h255 : n.minFac ≤ 255 := by nlinarith
    rcases hd n.minFac ⟨hmin, by omega⟩ with h' | h'
    · nlinarith
    · exact h' (Nat.mod_eq_zero_of_dvd (Nat.minFac_dvd n))
  · intro hp
    refine ⟨hp.two_le, fun d hd => ?_⟩
    by_cases hdn : n ≤ d
    · exact .inl hdn
    · right
      intro h0
      rcases (Nat.dvd_prime hp).mp (Nat.dvd_of_mod_eq_zero h0) with h' | h' <;> omega

/-- `leastFactor` is the least prime factor of a number up to 2^31 − 1. -/
theorem leastFactor_eq {m : Nat} (h2 : 2 ≤ m) (h : m ≤ 2147483647) : leastFactor m = m.minFac := by
  unfold leastFactor
  have hmin := Nat.minFac_prime (show m ≠ 1 by omega)
  cases hf : (List.range' 2 46339).find? (fun d => m % d == 0) with
  | some d =>
    have hd := List.find?_some hf
    have hmem := List.mem_of_find?_eq_some hf
    rw [List.mem_range'_1] at hmem
    simp only [beq_iff_eq] at hd
    refine Nat.le_antisymm ?_ (Nat.minFac_le_of_dvd hmem.1 (Nat.dvd_of_mod_eq_zero hd))
    by_contra hlt
    rw [List.find?_eq_some_iff_getElem] at hf
    obtain ⟨_, i, hi, hdi, hall⟩ := hf
    simp only [List.getElem_range', Nat.one_mul] at hdi
    simp only [List.length_range'] at hi
    have hk := hall (m.minFac - 2) (by simp only [Option.getD_some] at hlt; have := hmin.two_le; omega)
    simp only [List.getElem_range', Nat.one_mul] at hk
    rw [show 2 + (m.minFac - 2) = m.minFac by have := hmin.two_le; omega] at hk
    simp [Nat.mod_eq_zero_of_dvd (Nat.minFac_dvd m)] at hk
  | none =>
    rw [List.find?_eq_none] at hf
    simp only [List.mem_range'_1, beq_iff_eq] at hf
    have hp : m.Prime := by
      by_contra hp
      have hle := Nat.minFac_sq_le_self (by omega) hp
      have hb : m.minFac ≤ 46340 := by nlinarith
      exact hf m.minFac ⟨hmin.two_le, by omega⟩ (Nat.mod_eq_zero_of_dvd (Nat.minFac_dvd m))
    rw [Option.getD_none, hp.minFac_eq]

/-- R140: what `primePowerBase` finds. -/
theorem primePowerBase_eq_some_iff {m l : Nat} :
    primePowerBase m = some l ↔ m ≤ 2147483647 ∧ l.Prime ∧ ∃ e, e < 31 ∧ m = l ^ (e + 1) := by
  unfold primePowerBase
  constructor
  · intro h
    split at h
    · next hm =>
      dsimp only at h
      split at h
      · next ha =>
        simp only [Option.some.injEq] at h
        rw [List.any_eq_true] at ha
        obtain ⟨e, he, hpow⟩ := ha
        rw [h] at hpow
        refine ⟨hm.2, ?_, e, List.mem_range.mp he, ?_⟩
        · rw [← h, leastFactor_eq hm.1 hm.2]; exact Nat.minFac_prime (by omega)
        · simpa using (beq_iff_eq.mp hpow).symm
      · cases h
    · cases h
  · rintro ⟨hm, hl, e, he, rfl⟩
    have h2 : 2 ≤ l ^ (e + 1) := le_trans hl.two_le (Nat.le_self_pow (by omega) l)
    rw [if_pos ⟨h2, hm⟩]
    have hf : leastFactor (l ^ (e + 1)) = l := by
      rw [leastFactor_eq h2 hm, Nat.pow_minFac (by omega), hl.minFac_eq]
    dsimp only
    rw [hf, if_pos]
    rw [List.any_eq_true]
    exact ⟨e, List.mem_range.mpr he, by simp⟩

/-- R140: PINV accepts exactly the prime powers up to 2^31 − 1. -/
theorem primePowerBase_isSome_iff {m : Nat} :
    (primePowerBase m).isSome = true ↔ IsPrimePow m ∧ m ≤ 2147483647 := by
  rw [Option.isSome_iff_exists]
  constructor
  · rintro ⟨l, h⟩
    obtain ⟨hm, hl, e, _, rfl⟩ := primePowerBase_eq_some_iff.mp h
    exact ⟨hl.isPrimePow.pow (by omega), hm⟩
  · rintro ⟨hp, hm⟩
    obtain ⟨l, e, hl, he, rfl⟩ := (isPrimePow_nat_iff _).mp hp
    refine ⟨l, primePowerBase_eq_some_iff.mpr ⟨hm, hl, e - 1, ?_, by rw [Nat.sub_add_cancel he]⟩⟩
    by_contra hge
    have h31 : 31 < e := by omega
    have : 2 ^ 32 ≤ l ^ e :=
      le_trans (Nat.pow_le_pow_right (by decide) h31) (Nat.pow_le_pow_left hl.two_le e)
    omega

end Sys2Proof.Machine
end

