-- ==== Sys2Proof/Laws/PolyArith.lean ====
section
/-! SUPPORT. Laws/PolyArith.lean: the coefficients of the polynomial operations, cyclic convolution among them, and the
ranges of the two representatives. -/

namespace Sys2Proof.Machine

/-! ### Lengths -/

@[simp] theorem zeroPoly_length (n : Nat) : (zeroPoly n).length = n := by simp [zeroPoly]

@[simp] theorem identityPoly_length (n : Nat) : (identityPoly n).length = n := by simp [identityPoly]

@[simp] theorem addPoly_length (a b : Poly) : (addPoly a b).length = min a.length b.length := by simp [addPoly]

@[simp] theorem scalePoly_length (x : Int) (a : Poly) : (scalePoly x a).length = a.length := by simp [scalePoly]

@[simp] theorem modPoly_length (m : Nat) (a : Poly) : (modPoly m a).length = a.length := by simp [modPoly]

@[simp] theorem centerPoly_length (m : Nat) (a : Poly) : (centerPoly m a).length = a.length := by simp [centerPoly]

@[simp] theorem rotatePoly_length (c : Poly) : (rotatePoly c).length = c.length := by
  rcases List.eq_nil_or_concat c with rfl | ⟨l, x, rfl⟩
  · rfl
  · simp [rotatePoly]

@[simp] theorem conv_length (a b : Poly) : (conv a b).length = b.length := by
  induction a with
  | nil => simp [conv]
  | cons x a ih =>
    have h : conv (x :: a) b = addPoly (scalePoly x b) (rotatePoly (conv a b)) := rfl
    simp [h, ih]

/-! ### Coefficients -/

theorem zeroPoly_getD (n k : Nat) : (zeroPoly n).getD k 0 = 0 := by
  simp only [zeroPoly, List.getD_eq_getElem?_getD, List.getElem?_replicate]
  split <;> rfl

theorem addPoly_getD {a b : Poly} (h : a.length = b.length) (k : Nat) :
    (addPoly a b).getD k 0 = a.getD k 0 + b.getD k 0 := by
  by_cases hk : k < a.length
  · have hb : k < b.length := by omega
    simp [addPoly, List.getD_eq_getElem?_getD, hk, hb]
  · rw [List.getD_eq_default _ _ (by rw [addPoly_length]; omega), List.getD_eq_default _ _ (by omega),
      List.getD_eq_default _ _ (by omega), Int.add_zero]

theorem map_getD (g : Int → Int) (a : Poly) {k : Nat} (h : k < a.length) : (a.map g).getD k 0 = g (a.getD k 0) := by
  simp [List.getD_eq_getElem?_getD, h]

theorem scalePoly_getD (x : Int) (a : Poly) (k : Nat) : (scalePoly x a).getD k 0 = x * a.getD k 0 := by
  by_cases h : k < a.length
  · exact map_getD _ _ h
  · rw [List.getD_eq_default _ _ (by rw [scalePoly_length]; omega), List.getD_eq_default _ _ (by omega), Int.mul_zero]

/-- Multiplying by x takes coefficient k from coefficient k − 1, cyclically. -/
theorem rotatePoly_getD (c : Poly) {k : Nat} (h : k < c.length) :
    (rotatePoly c).getD k 0 = c.getD ((k + c.length - 1) % c.length) 0 := by
  rcases List.eq_nil_or_concat c with rfl | ⟨l, x, rfl⟩
  · simp at h
  · have hr : rotatePoly (l ++ [x]) = x :: l := by simp [rotatePoly]
    simp only [List.concat_eq_append] at h ⊢
    rw [hr]
    simp only [List.length_append, List.length_cons, List.length_nil, Nat.zero_add] at h ⊢
    cases k with
    | zero => simp [List.getD_eq_getElem?_getD]
    | succ k =>
      have e : (k + 1 + (l.length + 1) - 1) % (l.length + 1) = k := by
        rw [show k + 1 + (l.length + 1) - 1 = k + (l.length + 1) by omega, Nat.add_mod_right,
          Nat.mod_eq_of_lt (by omega)]
      have hk : k < l.length := by omega
      rw [e]
      simp [List.getD_eq_getElem?_getD, List.getElem?_append_left hk, hk]

/-- The index mod(k − i, n) of R14 as a natural number. -/
def cyclicIndex (n k i : Nat) : Nat := (((k : Int) - (i : Int)) % (n : Int)).toNat

theorem cyclicIndex_eq {n k i : Nat} (hi : i ≤ n) : cyclicIndex n k i = (k + n - i) % n := by
  unfold cyclicIndex
  have h : ((k : Int) - i) % n = (((k + n - i : Nat) : Int)) % n := by
    rw [show ((k + n - i : Nat) : Int) = ((k : Int) - i) + n by omega, Int.add_emod_right]
  rw [h, ← Int.natCast_emod, Int.toNat_natCast]

theorem cyclicIndex_shift {n k i : Nat} (hk : k < n) : cyclicIndex n ((k + n - 1) % n) i = cyclicIndex n k (i + 1) := by
  unfold cyclicIndex
  congr 1
  have hn : 0 < n := by omega
  rw [Int.natCast_emod, Int.emod_sub_emod]
  rw [show ((k + n - 1 : Nat) : Int) - i = ((k : Int) - ((i + 1 : Nat) : Int)) + n by omega, Int.add_emod_right]

/-- Coefficient k of the convolution with a list of any length, as a sum over its entries. -/
theorem conv_getD_sum (a b : Poly) {k : Nat} (hk : k < b.length) :
    (conv a b).getD k 0 = ((List.range a.length).map (fun i => a.getD i 0 * b.getD (cyclicIndex b.length k i) 0)).sum := by
  induction a generalizing k with
  | nil => exact zeroPoly_getD _ _
  | cons x a ih =>
    have h : conv (x :: a) b = addPoly (scalePoly x b) (rotatePoly (conv a b)) := rfl
    have hrot := rotatePoly_getD (conv a b) (k := k) (by simpa using hk)
    rw [h, addPoly_getD (by simp), scalePoly_getD, hrot, conv_length, ih (Nat.mod_lt _ (by omega))]
    have h0 : cyclicIndex b.length k 0 = k := by
      rw [cyclicIndex_eq (Nat.zero_le _), Nat.sub_zero, Nat.add_mod_right, Nat.mod_eq_of_lt hk]
    rw [List.length_cons, List.range_succ_eq_map, List.map_cons, List.sum_cons, List.map_map]
    congr 1
    · simp [h0]
    · congr 1
      apply List.map_congr_left
      intro i _
      simp [cyclicIndex_shift hk]

/-- The convolution is that of R14: coefficient k is Σ_i a_i · b_{mod(k − i, n)}. -/
theorem conv_coeff {n : Nat} {a b : Poly} (ha : a.length = n) (hb : b.length = n) {k : Nat} (hk : k < n) :
    (conv a b).getD k 0 = (Finset.range n).sum (fun i => a.getD i 0 * b.getD ((k + n - i) % n) 0) := by
  subst hb
  rw [conv_getD_sum a b hk, ha]
  refine (List.sum_toFinset _ List.nodup_range).symm.trans ?_
  rw [List.toFinset_range]
  refine Finset.sum_congr rfl fun i hi => ?_
  rw [cyclicIndex_eq (Nat.le_of_lt (Finset.mem_range.mp hi))]

/-! ### Representatives (R13) -/

theorem imod_nonneg (x : Int) {m : Nat} (hm : 0 < m) : 0 ≤ imod x m := Int.emod_nonneg _ (by omega)

theorem imod_lt (x : Int) {m : Nat} (hm : 0 < m) : imod x m < m := Int.emod_lt_of_pos _ (by omega)

/-- center(x, m) lies in (−m/2, m/2]. -/
theorem center_range (x : Int) {m : Nat} (hm : 0 < m) : -(m : Int) < 2 * center x m ∧ 2 * center x m ≤ m := by
  have h1 := imod_nonneg x hm
  have h2 := imod_lt x hm
  simp only [center]
  split <;> omega

/-- center(x, m) is congruent to x modulo m. -/
theorem center_emod (x : Int) (m : Nat) : center x m % m = x % m := by
  unfold center imod
  dsimp only
  split
  · rw [Int.sub_emod, Int.emod_self, Int.sub_zero, Int.emod_emod_of_dvd _ (dvd_refl _), Int.emod_emod_of_dvd _ (dvd_refl _)]
  · exact Int.emod_emod_of_dvd _ (dvd_refl _)

/-- A word holds an integer that fits in 32 bits exactly (R12). -/
theorem val_wrap32 {x : Int} (h : fits32 x = true) : val (wrap32 x) = x := by
  simp only [fits32, Bool.and_eq_true, decide_eq_true_eq] at h
  simp only [val, wrap32]
  rw [BitVec.toInt_ofInt]
  rw [Int.bmod_def]
  split <;> omega

end Sys2Proof.Machine
end

