-- ==== Sys2Proof/Laws/Operands.lean ====
section
/-! SUPPORT. Laws/Operands.lean: what a source operand is read as, and the lengths of the polynomials the commands compute. -/

namespace Sys2Proof.Machine

@[simp] theorem src_length (s : State) (k : PReg) : (s.src k).length = s.n := by simp [State.src]

@[simp] theorem srcExt_length (s : State) (k : PReg) : (s.srcExt k).length = s.n := by simp [State.srcExt]

@[simp] theorem cipherBlock_length (s : State) (k : Nat) : (s.cipherBlock k).length = s.n := by simp [State.cipherBlock]

@[simp] theorem messageBlock_length (s : State) (l k : Nat) : (s.messageBlock l k).length = s.n := by
  simp [State.messageBlock]

theorem range_map_getD (n : Nat) (g : Nat → Int) {i : Nat} (h : i < n) : ((List.range n).map g).getD i 0 = g i := by
  simp [List.getD_eq_getElem?_getD, h]

theorem src_getD (s : State) (k : PReg) {i : Nat} (h : i < s.n) : (s.src k).getD i 0 = val (s.wordAt s.p[k] i) :=
  range_map_getD _ _ h

theorem cipherBlock_getD (s : State) (k : Nat) {i : Nat} (h : i < s.n) :
    (s.cipherBlock k).getD i 0 = val (s.wordAt s.cbuf (k * s.n + i)) :=
  range_map_getD _ _ h

theorem messageBlock_getD (s : State) (l k : Nat) {i : Nat} (h : i < s.n) :
    (s.messageBlock l k).getD i 0 = s.padBit l (k * s.n + i) :=
  range_map_getD _ _ h

/-- A slot that holds a value is read as it, whatever the draws. -/
theorem wordAt_of_some {s : State} {b : Buf Word} {i : Nat} {w : Word} (h : bufGet b i = some w) : s.wordAt b i = w := by
  simp [State.wordAt, h]

theorem byteAt_of_some {s : State} {i : Nat} {b : Byte} (h : bufGet s.bbuf i = some b) : s.byteAt i = b := by
  simp [State.byteAt, h]

@[simp] theorem encryptBlock_length (q : Nat) (r h m : Poly) : (encryptBlock q r h m).length = min h.length m.length := by
  simp [encryptBlock]

@[simp] theorem decryptBlock_length (p q : Nat) (f fp e : Poly) : (decryptBlock p q f fp e).length = e.length := by
  simp [decryptBlock]

@[simp] theorem swapAt_length (i j : Nat) (idx : List Nat) : (swapAt i j idx).length = idx.length := by simp [swapAt]

theorem foldl_set_length (l : List Nat) (v : Int) (c : Poly) : (l.foldl (fun s i => s.set i v) c).length = c.length := by
  induction l generalizing c with
  | nil => rfl
  | cons i l ih => rw [List.foldl_cons, ih, List.length_set]

@[simp] theorem ternaryAt_length (n np nm : Nat) (idx : List Nat) : (ternaryAt n np nm idx).length = n := by
  simp [ternaryAt, foldl_set_length]

end Sys2Proof.Machine
end

