-- ==== Sys2Proof/Laws/Ring.lean ====
section
/-! SUPPORT. Laws/Ring.lean: polynomials as elements of the group ring ℤ_m[ℤ/n], which is ℤ_m[x]/(xⁿ − 1) (00_scope.md R14):
the operations of PolyArith.lean are the ring operations there. With m = 0 the coefficients are the integers themselves. -/

namespace Sys2Proof.Machine

/-- ℤ_m[x]/(xⁿ − 1): x^i is `single i 1`, exponents wrap modulo n. -/
abbrev PolyRing (m n : Nat) : Type := AddMonoidAlgebra (ZMod m) (ZMod n)

/-- The element a_0 + a_1·x + … + a_{n−1}·x^{n−1}. -/
noncomputable def toRing (m n : Nat) (a : Poly) : PolyRing m n :=
  ∑ i ∈ Finset.range n, AddMonoidAlgebra.single ((i : Nat) : ZMod n) ((a.getD i 0 : Int) : ZMod m)

theorem toRing_congr {m n : Nat} {a b : Poly} (h : ∀ i, i < n → ((a.getD i 0 : Int) : ZMod m) = ((b.getD i 0 : Int) : ZMod m)) :
    toRing m n a = toRing m n b :=
  Finset.sum_congr rfl fun i hi => by rw [h i (Finset.mem_range.mp hi)]

/-- The coefficient of x^k. -/
theorem toRing_coeff {m n : Nat} (a : Poly) {k : Nat} (hk : k < n) :
    (toRing m n a).coeff ((k : Nat) : ZMod n) = ((a.getD k 0 : Int) : ZMod m) := by
  classical
  rw [toRing, AddMonoidAlgebra.coeff_sum, Finsupp.finsetSum_apply, Finset.sum_eq_single k]
  · simp
  · intro i hi hik
    rw [AddMonoidAlgebra.coeff_single, Finsupp.single_apply, if_neg]
    intro h
    have := (ZMod.natCast_eq_natCast_iff' i k n).mp h
    rw [Nat.mod_eq_of_lt (Finset.mem_range.mp hi), Nat.mod_eq_of_lt hk] at this
    exact hik this
  · intro h; exact absurd (Finset.mem_range.mpr hk) h

/-- Equal ring elements have the same coefficients modulo m. -/
theorem toRing_injective {m n : Nat} {a b : Poly} (h : toRing m n a = toRing m n b) {k : Nat} (hk : k < n) :
    ((a.getD k 0 : Int) : ZMod m) = ((b.getD k 0 : Int) : ZMod m) := by
  rw [← toRing_coeff a hk, ← toRing_coeff b hk, h]

theorem toRing_add {m n : Nat} {a b : Poly} (h : a.length = b.length) :
    toRing m n (addPoly a b) = toRing m n a + toRing m n b := by
  rw [toRing, toRing, toRing, ← Finset.sum_add_distrib]
  refine Finset.sum_congr rfl fun i _ => ?_
  rw [addPoly_getD h, Int.cast_add, AddMonoidAlgebra.single_add]

theorem toRing_scale {m n : Nat} (x : Int) (a : Poly) :
    toRing m n (scalePoly x a) = AddMonoidAlgebra.single 0 (x : ZMod m) * toRing m n a := by
  rw [toRing, toRing, Finset.mul_sum]
  refine Finset.sum_congr rfl fun i _ => ?_
  rw [scalePoly_getD, Int.cast_mul, AddMonoidAlgebra.single_mul_single, zero_add]

theorem toRing_identity {m n : Nat} (hn : 0 < n) : toRing m n (identityPoly n) = 1 := by
  rw [toRing, Finset.sum_eq_single 0]
  · have h : (identityPoly n).getD 0 0 = 1 := by simp [identityPoly, List.getD_eq_getElem?_getD, hn]
    rw [h, Int.cast_one, Nat.cast_zero]
    rfl
  · intro i hi h0
    have h : (identityPoly n).getD i 0 = 0 := by
      simp [identityPoly, List.getD_eq_getElem?_getD, Finset.mem_range.mp hi, h0]
    rw [h, Int.cast_zero, AddMonoidAlgebra.single_zero]
  · intro h; exact absurd (Finset.mem_range.mpr hn) h

/-- `conv` is the product of the ring (R14, "exponents wrap modulo N"). -/
theorem toRing_conv {m n : Nat} {a b : Poly} (ha : a.length = n) (hb : b.length = n) :
    toRing m n (conv a b) = toRing m n a * toRing m n b := by
  have h1 : toRing m n (conv a b) = ∑ k ∈ Finset.range n, ∑ i ∈ Finset.range n,
      AddMonoidAlgebra.single ((k : Nat) : ZMod n)
        (((a.getD i 0 : Int) : ZMod m) * ((b.getD ((k + n - i) % n) 0 : Int) : ZMod m)) := by
    rw [toRing]
    refine Finset.sum_congr rfl fun k hk => ?_
    rw [conv_coeff ha hb (Finset.mem_range.mp hk), Int.cast_sum,
      ← AddMonoidAlgebra.singleAddHom_apply, map_sum]
    exact Finset.sum_congr rfl fun i _ => by rw [Int.cast_mul, AddMonoidAlgebra.singleAddHom_apply]
  rw [h1, Finset.sum_comm, toRing, toRing, Finset.sum_mul]
  refine Finset.sum_congr rfl fun i hi => ?_
  rw [Finset.mul_sum]
  have hin := Finset.mem_range.mp hi
  refine Finset.sum_nbij' (fun k => (k + n - i) % n) (fun j => (j + i) % n) ?_ ?_ ?_ ?_ ?_
  · intro k _; exact Finset.mem_range.mpr (Nat.mod_lt _ (by omega))
  · intro k _; exact Finset.mem_range.mpr (Nat.mod_lt _ (by omega))
  · intro k hk
    have hkn := Finset.mem_range.mp hk
    show ((k + n - i) % n + i) % n = k
    rw [Nat.mod_add_mod, show k + n - i + i = k + n by omega, Nat.add_mod_right, Nat.mod_eq_of_lt hkn]
  · intro j hj
    have hjn := Finset.mem_range.mp hj
    show ((j + i) % n + n - i) % n = j
    have : (j + i) % n + n - i = (j + i) % n + (n - i) := by omega
    rw [this, Nat.mod_add_mod, show j + i + (n - i) = j + n by omega, Nat.add_mod_right, Nat.mod_eq_of_lt hjn]
  · intro k hk
    rw [AddMonoidAlgebra.single_mul_single, ← Nat.cast_add]
    congr 1
    refine (ZMod.natCast_eq_natCast_iff' _ _ _).mpr ?_
    rw [Nat.add_mod_mod, show i + (k + n - i) = k + n by omega, Nat.add_mod_right]

theorem toRing_mod {m n : Nat} {a : Poly} (ha : a.length = n) : toRing m n (modPoly m a) = toRing m n a := by
  refine toRing_congr fun i hi => ?_
  rw [modPoly, map_getD _ _ (by omega), imod, ZMod.intCast_mod]

theorem toRing_center {m n : Nat} {a : Poly} (ha : a.length = n) : toRing m n (centerPoly m a) = toRing m n a := by
  refine toRing_congr fun i hi => ?_
  rw [centerPoly, map_getD _ _ (by omega)]
  exact (ZMod.intCast_eq_intCast_iff_dvd_sub _ _ _).mpr (Int.ModEq.dvd (center_emod _ _))

@[simp] theorem mulMod_length (m : Nat) (a b : Poly) : (mulMod m a b).length = b.length := by simp [mulMod]

theorem toRing_mulMod {m n : Nat} {a b : Poly} (ha : a.length = n) (hb : b.length = n) :
    toRing m n (mulMod m a b) = toRing m n a * toRing m n b := by
  rw [mulMod, toRing_mod (by simp [hb]), toRing_conv ha hb]

/-- Polynomials of n integers that are the same ring element over the integers are the same polynomial. -/
theorem eq_of_toRing_zero {n : Nat} {a b : Poly} (ha : a.length = n) (hb : b.length = n)
    (h : toRing 0 n a = toRing 0 n b) : a = b := by
  apply List.ext_getElem (by rw [ha, hb])
  intro k h1 h2
  have hk := toRing_injective h (k := k) (by omega)
  rw [List.getD_eq_getElem _ _ h1, List.getD_eq_getElem _ _ h2] at hk
  exact hk

/-- Polynomials whose coefficients agree modulo m have the same representatives. -/
theorem center_congr {m : Nat} {x y : Int} (h : (x : ZMod m) = (y : ZMod m)) : center x m = center y m := by
  have : imod x m = imod y m := (ZMod.intCast_eq_intCast_iff' x y m).mp h
  simp only [center, this]

end Sys2Proof.Machine
end

