-- ==== Sys2Proof/Laws/Inverse.lean ====
section
/-! SUPPORT. Laws/Inverse.lean: the method of PolyArith.lean finds every inverse (42_modular_inverse.md R141 to R143): its result
is an inverse, and in a ring with N prime it is there whenever an inverse is. -/

namespace Sys2Proof.Machine

/-! ### Exponents in binary -/

theorem mod_two_pow_succ (k w : Nat) : k % 2 ^ (w + 1) = (k.testBit w).toNat * 2 ^ w + k % 2 ^ w := by
  have h := Nat.toNat_testBit k w
  rw [h, Nat.pow_succ, Nat.mod_mul, Nat.add_comm, Nat.mul_comm]

theorem foldl_bits (w k j : Nat) :
    ((List.range w).reverse.map (fun i => k.testBit i)).foldl (fun acc b => 2 * acc + b.toNat) j =
      j * 2 ^ w + k % 2 ^ w := by
  induction w generalizing j with
  | zero => simp [Nat.mod_one]
  | succ w ih =>
    rw [List.range_succ, List.reverse_append, List.map_append, List.foldl_append, ih]
    simp only [List.reverse_cons, List.reverse_nil, List.nil_append, List.map_cons, List.map_nil, List.foldl_cons,
      List.foldl_nil]
    rw [mod_two_pow_succ, Nat.pow_succ]
    ring

theorem foldl_dropWhile_false (l : List Bool) :
    (l.dropWhile (· == false)).foldl (fun acc b => 2 * acc + b.toNat) 0 = l.foldl (fun acc b => 2 * acc + b.toNat) 0 := by
  induction l with
  | nil => rfl
  | cons b l ih => cases b <;> simp_all

/-- The bits of an exponent, the highest first, make the exponent. -/
theorem bitsFrom_value {w k : Nat} (h : k < 2 ^ w) : (bitsFrom w k).foldl (fun acc b => 2 * acc + b.toNat) 0 = k := by
  rw [bitsFrom, foldl_dropWhile_false, foldl_bits, Nat.zero_mul, Nat.zero_add, Nat.mod_eq_of_lt h]

/-! ### Powers and the Frobenius map -/

theorem powMod_fold {m n : Nat} {a : Poly} (ha : a.length = n) (bits : List Bool) (acc : Poly) (j : Nat)
    (hl : acc.length = n) (h : toRing m n acc = toRing m n a ^ j) :
    let r := bits.foldl (fun acc bit => let sq := mulMod m acc acc; if bit then mulMod m sq a else sq) acc
    r.length = n ∧ toRing m n r = toRing m n a ^ bits.foldl (fun acc b => 2 * acc + b.toNat) j := by
  induction bits generalizing acc j with
  | nil => exact ⟨hl, h⟩
  | cons b bits ih =>
    rw [List.foldl_cons, List.foldl_cons]
    have hsq : (mulMod m acc acc).length = n := by simp [hl]
    have hs : toRing m n (mulMod m acc acc) = toRing m n a ^ (2 * j) := by
      rw [toRing_mulMod hl hl, h, ← pow_add, two_mul]
    cases b with
    | false => exact ih _ _ hsq hs
    | true =>
      refine ih (mulMod m (mulMod m acc acc) a) _ (by simp [ha]) ?_
      rw [toRing_mulMod hsq ha, hs, Bool.toNat_true, pow_succ]

theorem toRing_powMod {m n e : Nat} {a : Poly} (hn : 0 < n) (ha : a.length = n) (he : e < 2 ^ 64) :
    (powMod m a e).length = n ∧ toRing m n (powMod m a e) = toRing m n a ^ e := by
  have h := powMod_fold (m := m) ha (bitsFrom 64 e) (modPoly m (identityPoly a.length)) 0 (by simp [ha]) (by
    rw [toRing_mod (by simp [ha]), ha, toRing_identity hn, pow_zero])
  rw [bitsFrom_value he] at h
  exact h

/-- Adding `x` at degree k. -/
theorem toRing_modify {m n : Nat} {c : Poly} (hc : c.length = n) {k : Nat} (hk : k < n) (x : Int) :
    toRing m n (c.modify k (· + x)) = toRing m n c + AddMonoidAlgebra.single ((k : Nat) : ZMod n) (x : ZMod m) := by
  have hg : ∀ i, i < n → ((c.modify k (· + x)).getD i 0) = c.getD i 0 + if i = k then x else 0 := by
    intro i hi
    rw [List.getD_eq_getElem _ _ (by simp [hc, hi]), List.getD_eq_getElem _ _ (by omega), List.getElem_modify]
    by_cases h : k = i
    · subst h; simp
    · simp [h, Ne.symm h]
  rw [toRing, toRing]
  have h1 : ∀ i ∈ Finset.range n,
      AddMonoidAlgebra.single ((i : Nat) : ZMod n) ((((c.modify k (· + x)).getD i 0 : Int)) : ZMod m) =
        AddMonoidAlgebra.single ((i : Nat) : ZMod n) ((c.getD i 0 : Int) : ZMod m) +
          if i = k then AddMonoidAlgebra.single ((k : Nat) : ZMod n) (x : ZMod m) else 0 := by
    intro i hi
    rw [hg i (Finset.mem_range.mp hi), Int.cast_add, AddMonoidAlgebra.single_add]
    congr 1
    split
    · next h => rw [h]
    · rw [Int.cast_zero, AddMonoidAlgebra.single_zero]
  rw [Finset.sum_congr rfl h1, Finset.sum_add_distrib]
  congr 1
  rw [Finset.sum_ite_eq' (Finset.range n) k, if_pos (Finset.mem_range.mpr hk)]

theorem substPow_fold {m n L : Nat} (l : List (Int × Nat)) (acc : Poly) (hn : 0 < n) (hacc : acc.length = n) :
    let r := l.foldl (fun acc e => acc.modify ((e.2 * L) % n) (· + e.1)) acc
    r.length = n ∧ toRing m n r = toRing m n acc +
      (l.map (fun e => AddMonoidAlgebra.single (((e.2 * L : Nat)) : ZMod n) ((e.1 : Int) : ZMod m))).sum := by
  induction l generalizing acc with
  | nil => simp [hacc]
  | cons e l ih =>
    rw [List.foldl_cons]
    obtain ⟨h1, h2⟩ := ih (acc.modify ((e.2 * L) % n) (· + e.1)) (by simp [hacc])
    refine ⟨h1, ?_⟩
    rw [h2, toRing_modify hacc (Nat.mod_lt _ hn), List.map_cons, List.sum_cons, add_assoc]
    congr 3
    exact (ZMod.natCast_eq_natCast_iff' _ _ _).mpr (Nat.mod_mod _ _)

/-- `substPow L` replaces x by x^L. -/
theorem toRing_substPow {m n L : Nat} {c : Poly} (hn : 0 < n) (hc : c.length = n) :
    (substPow L c).length = n ∧ toRing m n (substPow L c) =
      ∑ i ∈ Finset.range n, AddMonoidAlgebra.single (((i * L : Nat)) : ZMod n) ((c.getD i 0 : Int) : ZMod m) := by
  have h := substPow_fold (m := m) (L := L) c.zipIdx (zeroPoly n) hn (by simp)
  have hs : substPow L c = c.zipIdx.foldl (fun acc e => acc.modify ((e.2 * L) % n) (· + e.1)) (zeroPoly n) := by
    rw [substPow, hc]
  rw [hs]
  refine ⟨h.1, h.2.trans ?_⟩
  have hz : toRing m n (zeroPoly n) = 0 := by
    rw [toRing]
    refine Finset.sum_eq_zero fun i hi => ?_
    rw [zeroPoly_getD, Int.cast_zero, AddMonoidAlgebra.single_zero]
  rw [hz, zero_add]
  have hm : c.zipIdx.map (fun e => AddMonoidAlgebra.single (((e.2 * L : Nat)) : ZMod n) ((e.1 : Int) : ZMod m)) =
      (List.range n).map (fun i => AddMonoidAlgebra.single (((i * L : Nat)) : ZMod n) ((c.getD i 0 : Int) : ZMod m)) := by
    apply List.ext_getElem (by simp [hc])
    intro i h1 h2
    have hi : i < c.length := by simpa using h1
    simp [List.getD_eq_getElem?_getD, hi]
  rw [hm]
  exact (List.sum_toFinset _ List.nodup_range).symm.trans (by rw [List.toFinset_range])

/-- In characteristic ℓ, raising to the power ℓ^k replaces x by x^(ℓ^k). -/
theorem toRing_pow_frobenius {l n k : Nat} [Fact l.Prime] (c : Poly) :
    toRing l n c ^ l ^ k =
      ∑ i ∈ Finset.range n, AddMonoidAlgebra.single (((i * l ^ k : Nat)) : ZMod n) ((c.getD i 0 : Int) : ZMod l) := by
  have : CharP (PolyRing l n) l :=
    charP_of_injective_algebraMap (algebraMap (ZMod l) (PolyRing l n)).injective l
  rw [toRing, sum_pow_char_pow]
  refine Finset.sum_congr rfl fun i _ => ?_
  rw [AddMonoidAlgebra.single_pow, ZMod.pow_card_pow, nsmul_eq_mul, Nat.cast_mul, mul_comm]

theorem toRing_frobenius {l n k : Nat} [Fact l.Prime] {c : Poly} (hn : 0 < n) (hc : c.length = n) :
    (frobenius l k c).length = n ∧ toRing l n (frobenius l k c) = toRing l n c ^ l ^ k := by
  obtain ⟨h1, h2⟩ := toRing_substPow (m := l) (L := l ^ k % n) hn hc
  rw [frobenius, hc]
  refine ⟨by rw [modPoly_length, h1], ?_⟩
  rw [toRing_mod h1, h2, toRing_pow_frobenius]
  refine Finset.sum_congr rfl fun i _ => ?_
  congr 1
  exact (ZMod.natCast_eq_natCast_iff' _ _ _).mpr (Nat.mul_mod_mod _ _ _)

/-- 1 + ℓ + … + ℓ^(k−1). -/
def geomSum (l k : Nat) : Nat := ∑ i ∈ Finset.range k, l ^ i

theorem geomSum_add (l j k : Nat) : geomSum l (j + k) = geomSum l j + l ^ j * geomSum l k := by
  rw [geomSum, geomSum, geomSum, Finset.sum_range_add, Finset.mul_sum]
  exact congrArg _ (Finset.sum_congr rfl fun i _ => by rw [Nat.pow_add])

theorem normPow_fold {l n : Nat} [Fact l.Prime] {f : Poly} (hn : 0 < n) (hf : f.length = n) (bits : List Bool)
    (acc : Poly × Nat) (hl : acc.1.length = n) (h : toRing l n acc.1 = toRing l n f ^ geomSum l acc.2) :
    let r := bits.foldl (normStep l f) acc
    r.1.length = n ∧ r.2 = bits.foldl (fun acc b => 2 * acc + b.toNat) acc.2 ∧
      toRing l n r.1 = toRing l n f ^ geomSum l r.2 := by
  induction bits generalizing acc with
  | nil => exact ⟨hl, rfl, h⟩
  | cons b bits ih =>
    rw [List.foldl_cons, List.foldl_cons]
    obtain ⟨f1, f2⟩ := toRing_frobenius (l := l) (k := acc.2) hn hl
    have ht : (mulMod l acc.1 (frobenius l acc.2 acc.1)).length = n := by rw [mulMod_length, f1]
    have hv : toRing l n (mulMod l acc.1 (frobenius l acc.2 acc.1)) = toRing l n f ^ geomSum l (2 * acc.2) := by
      rw [toRing_mulMod hl f1, f2, h, ← pow_mul, ← pow_add, two_mul, geomSum_add, Nat.mul_comm (l ^ acc.2)]
    cases b with
    | false =>
      exact ih (normStep l f acc false) ht hv
    | true =>
      obtain ⟨g1, g2⟩ := toRing_frobenius (l := l) (k := 1) hn ht
      refine ih (normStep l f acc true) ?_ ?_
      · show (mulMod l f (frobenius l 1 _)).length = n
        rw [mulMod_length, g1]
      · show toRing l n (mulMod l f (frobenius l 1 _)) = toRing l n f ^ geomSum l (2 * acc.2 + 1)
        rw [toRing_mulMod hf g1, g2, hv, ← pow_mul, ← pow_succ', Nat.add_comm (2 * acc.2) 1, geomSum_add]
        congr 1
        simp [geomSum]
        ring

theorem toRing_normPow {l n k : Nat} [Fact l.Prime] {f : Poly} (hn : 0 < n) (hf : f.length = n) (hk : k < 2 ^ 16) :
    (normPow l f k).length = n ∧ toRing l n (normPow l f k) = toRing l n f ^ geomSum l k := by
  have h := normPow_fold (l := l) hn hf (bitsFrom 16 k) (modPoly l (identityPoly f.length), 0) (by simp [hf]) (by
    rw [toRing_mod (by simp [hf]), hf, toRing_identity hn]; rfl)
  obtain ⟨h1, h2, h3⟩ := h
  simp only at h1 h2 h3
  rw [bitsFrom_value hk] at h2
  rw [h2] at h3
  exact ⟨h1, h3⟩

/-! ### The inverse modulo a prime -/

theorem geomSum_mul_pred {l : Nat} (hl : 1 ≤ l) (k : Nat) : geomSum l k * (l - 1) + 1 = l ^ k := by
  induction k with
  | zero => simp [geomSum]
  | succ k ih =>
    rw [geomSum, Finset.sum_range_succ, Nat.add_mul, ← geomSum, Nat.pow_succ]
    obtain ⟨q, rfl⟩ := Nat.exists_eq_add_of_le hl
    simp only [Nat.add_sub_cancel_left] at ih ⊢
    rw [← ih]
    ring

/-- For N prime, every unit f of 𝔽_ℓ[x]/(x^N − 1) has f^(ℓ^N) = f^ℓ, since ℓ^N ≡ ℓ (mod N). -/
theorem toRing_pow_pow {l n : Nat} [Fact l.Prime] (hn : n.Prime) (f : Poly) :
    toRing l n f ^ l ^ n = toRing l n f ^ l := by
  have : Fact n.Prime := ⟨hn⟩
  have h1 : toRing l n f ^ l = toRing l n f ^ l ^ 1 := by rw [Nat.pow_one]
  rw [h1, toRing_pow_frobenius, toRing_pow_frobenius]
  refine Finset.sum_congr rfl fun i _ => ?_
  congr 1
  rw [Nat.cast_mul, Nat.cast_mul, Nat.cast_pow, Nat.cast_pow, ZMod.pow_card, pow_one]

/-- The candidate modulo ℓ is the inverse of every unit. -/
theorem toRing_inverseModPrime {l n : Nat} [Fact l.Prime] {a : Poly} (hn : n.Prime) (hn16 : n < 2 ^ 16) (hl32 : l < 2 ^ 32)
    (ha : a.length = n) (hu : IsUnit (toRing l n a)) :
    (inverseModPrime l a).length = n ∧ toRing l n a * toRing l n (inverseModPrime l a) = 1 := by
  have hl : l.Prime := Fact.out
  have hn2 := hn.two_le
  have hl2 := hl.two_le
  obtain ⟨p1, p2⟩ := toRing_normPow (l := l) (k := n - 2) hn.pos ha (by omega)
  obtain ⟨g1, g2⟩ := toRing_frobenius (l := l) (k := 1) hn.pos p1
  rw [p2, pow_one, ← pow_mul] at g2
  have t1 : (mulMod l a (frobenius l 1 (normPow l a (n - 2)))).length = n := by rw [mulMod_length, g1]
  have t2 : toRing l n (mulMod l a (frobenius l 1 (normPow l a (n - 2)))) = toRing l n a ^ geomSum l (n - 1) := by
    rw [toRing_mulMod ha g1, g2, ← pow_succ', show n - 1 = 1 + (n - 2) by omega, geomSum_add]
    congr 1
    simp [geomSum]
    ring
  have he : l * l - l - 1 < 2 ^ 64 := by
    have : l * l ≤ 2 ^ 32 * 2 ^ 32 := Nat.mul_le_mul (by omega) (by omega)
    omega
  obtain ⟨q1, q2⟩ := toRing_powMod (m := l) hn.pos t1 he
  have hi : inverseModPrime l a = mulMod l (frobenius l 1 (normPow l a (n - 2)))
      (powMod l (mulMod l a (frobenius l 1 (normPow l a (n - 2)))) (l * l - l - 1)) := by
    rw [inverseModPrime, ha]
  rw [hi]
  refine ⟨by rw [mulMod_length, q1], ?_⟩
  rw [toRing_mulMod g1 q1, q2, t2, ← mul_assoc, g2, ← pow_succ', ← pow_mul, ← pow_add]
  have hexp : geomSum l (n - 2) * l + 1 + geomSum l (n - 1) * (l * l - l - 1) + l = l ^ n := by
    have h1 : geomSum l (n - 2) * l + 1 = geomSum l (n - 1) := by
      rw [show n - 1 = 1 + (n - 2) by omega, geomSum_add]
      simp [geomSum]
      ring
    have h2 := geomSum_mul_pred (show 1 ≤ l by omega) (n - 1)
    have h3 : l ^ n = l * l ^ (n - 1) := by rw [← Nat.pow_succ', show (n - 1).succ = n by omega]
    have h4 : l * l - l - 1 + 1 = l * (l - 1) := by
      obtain ⟨q, rfl⟩ := Nat.exists_eq_add_of_le hl2
      have e1 : (2 + q) * (2 + q) = 2 + q + 1 + (q * q + 3 * q + 1) := by ring
      have e2 : 2 + q - 1 = 1 + q := by omega
      rw [e1, e2, show 2 + q + 1 + (q * q + 3 * q + 1) - (2 + q) - 1 + 1 = q * q + 3 * q + 2 by omega]
      ring
    rw [h1, h3, ← h2]
    have h5 : geomSum l (n - 1) + geomSum l (n - 1) * (l * l - l - 1) = geomSum l (n - 1) * (l * (l - 1)) := by
      rw [← h4]; ring
    rw [h5]
    ring
  have hpow := toRing_pow_pow (l := l) hn a
  rw [← hexp, pow_add] at hpow
  exact (hu.pow l).mul_right_cancel (hpow.trans (one_mul _).symm)

/-! ### The lift to a prime power -/

theorem toRing_newtonStep {m n : Nat} {a b : Poly} (hn : 0 < n) (ha : a.length = n) (hb : b.length = n) :
    (newtonStep m a b).length = n ∧
      1 - toRing m n a * toRing m n (newtonStep m a b) = (1 - toRing m n a * toRing m n b) ^ 2 := by
  have h1 : (addPoly (scalePoly 2 (identityPoly a.length)) (scalePoly (-1) (mulMod m a b))).length = n := by
    simp [ha, hb]
  have h2 : toRing m n (addPoly (scalePoly 2 (identityPoly a.length)) (scalePoly (-1) (mulMod m a b))) =
      2 - toRing m n a * toRing m n b := by
    rw [toRing_add (by simp [ha, hb]), toRing_scale, toRing_scale, ha, toRing_identity hn, toRing_mulMod ha hb]
    have e2 : (AddMonoidAlgebra.single 0 ((2 : Int) : ZMod m) : PolyRing m n) = 2 := by
      rw [Int.cast_ofNat]; exact (map_ofNat (AddMonoidAlgebra.singleZeroRingHom (R := ZMod m) (M := ZMod n)) 2)
    have e3 : (AddMonoidAlgebra.single 0 ((-1 : Int) : ZMod m) : PolyRing m n) = -1 := by
      rw [Int.cast_neg, Int.cast_one, AddMonoidAlgebra.single_neg]; rfl
    rw [e2, e3]
    ring
  rw [newtonStep]
  refine ⟨by rw [mulMod_length, h1], ?_⟩
  rw [toRing_mulMod hb h1, h2]
  ring

theorem toRing_newton {m n : Nat} {a : Poly} (hn : 0 < n) (ha : a.length = n) (k : Nat) (b : Poly) (hb : b.length = n) :
    let r := (List.range k).foldl (fun b _ => newtonStep m a b) b
    r.length = n ∧ 1 - toRing m n a * toRing m n r = (1 - toRing m n a * toRing m n b) ^ 2 ^ k := by
  induction k with
  | zero => exact ⟨hb, by rw [Nat.pow_zero, pow_one]; rfl⟩
  | succ k ih =>
    rw [List.range_succ, List.foldl_append]
    obtain ⟨h1, h2⟩ := ih
    obtain ⟨h3, h4⟩ := toRing_newtonStep (m := m) hn ha h1
    refine ⟨h3, ?_⟩
    show 1 - toRing m n a * toRing m n (newtonStep m a _) = _
    rw [h4, h2, ← pow_mul, Nat.pow_succ]

/-- A polynomial that is 0 modulo ℓ is ℓ times a ring element, modulo any multiple of ℓ. -/
theorem dvd_of_toRing_eq_zero {l m n : Nat} {c : Poly} (h : toRing l n c = 0) :
    ((l : Nat) : PolyRing m n) ∣ toRing m n c := by
  rw [toRing]
  refine Finset.dvd_sum fun i hi => ?_
  have hz : ((c.getD i 0 : Int) : ZMod l) = 0 := by
    have := toRing_coeff (m := l) c (Finset.mem_range.mp hi)
    rw [h] at this
    simpa using this.symm
  obtain ⟨d, hd⟩ := (ZMod.intCast_zmod_eq_zero_iff_dvd _ _).mp hz
  refine ⟨AddMonoidAlgebra.single ((i : Nat) : ZMod n) ((d : Int) : ZMod m), ?_⟩
  rw [hd, Int.cast_mul, Int.cast_natCast, ← nsmul_eq_mul, ← nsmul_eq_mul, ← AddMonoidAlgebra.singleAddHom_apply,
    ← AddMonoidAlgebra.singleAddHom_apply, map_nsmul]

/-- The candidate modulo ℓ^e is the inverse of every unit. -/
theorem toRing_inverseCandidate {l e n : Nat} {a : Poly} (hl : l.Prime) (he : 0 < e) (he32 : e ≤ 32) (hn : n.Prime)
    (hn16 : n < 2 ^ 16) (hl32 : l < 2 ^ 32) (ha : a.length = n) (hu : IsUnit (toRing l n a)) :
    (inverseCandidate l (l ^ e) a).length = n ∧
      toRing (l ^ e) n a * toRing (l ^ e) n (inverseCandidate l (l ^ e) a) = 1 := by
  have : Fact l.Prime := ⟨hl⟩
  obtain ⟨p1, p2⟩ := toRing_inverseModPrime hn hn16 hl32 ha hu
  have hb : (modPoly (l ^ e) (inverseModPrime l a)).length = n := by rw [modPoly_length, p1]
  obtain ⟨q1, q2⟩ := toRing_newton (m := l ^ e) hn.pos ha 5 _ hb
  refine ⟨q1, ?_⟩
  rw [toRing_mod p1] at q2
  have hz : toRing l n (addPoly (identityPoly n) (scalePoly (-1) (conv a (inverseModPrime l a)))) = 0 := by
    rw [toRing_add (by simp [p1]), toRing_scale, toRing_identity hn.pos, toRing_conv ha p1, p2]
    have e3 : (AddMonoidAlgebra.single 0 ((-1 : Int) : ZMod l) : PolyRing l n) = -1 := by
      rw [Int.cast_neg, Int.cast_one, AddMonoidAlgebra.single_neg]; rfl
    rw [e3]
    ring
  have hd := dvd_of_toRing_eq_zero (m := l ^ e) hz
  rw [toRing_add (by simp [p1]), toRing_scale, toRing_identity hn.pos, toRing_conv ha p1] at hd
  have e3 : (AddMonoidAlgebra.single 0 ((-1 : Int) : ZMod (l ^ e)) : PolyRing (l ^ e) n) = -1 := by
    rw [Int.cast_neg, Int.cast_one, AddMonoidAlgebra.single_neg]; rfl
  rw [e3, neg_one_mul, ← sub_eq_add_neg] at hd
  have h0 : (((l : Nat) : PolyRing (l ^ e) n)) ^ 2 ^ 5 = 0 := by
    have hle : (((l ^ e : Nat)) : PolyRing (l ^ e) n) = 0 := by
      have : (((l ^ e : Nat)) : PolyRing (l ^ e) n) = algebraMap (ZMod (l ^ e)) (PolyRing (l ^ e) n) (((l ^ e : Nat)) : ZMod (l ^ e)) := by
        rw [map_natCast]
      rw [this, ZMod.natCast_self, map_zero]
    rw [show 2 ^ 5 = e + (32 - e) by omega, pow_add, ← Nat.cast_pow, hle, zero_mul]
  have hz2 : (1 - toRing (l ^ e) n a * toRing (l ^ e) n (inverseModPrime l a)) ^ 2 ^ 5 = 0 := by
    have := pow_dvd_pow_of_dvd hd (2 ^ 5)
    rw [h0] at this
    exact zero_dvd_iff.mp this
  rw [hz2] at q2
  exact (sub_eq_zero.mp q2).symm

/-! ### Lengths and ranges, in every ring -/

@[simp] theorem frobenius_length (l k : Nat) (c : Poly) : (frobenius l k c).length = c.length := by
  have h : ∀ (ops : List (Int × Nat)) (L : Nat) (acc : Poly),
      (ops.foldl (fun acc e => acc.modify ((e.2 * L) % c.length) (· + e.1)) acc).length = acc.length := by
    intro ops L
    induction ops with
    | nil => intro acc; rfl
    | cons e ops ih => intro acc; rw [List.foldl_cons, ih, List.length_modify]
  rw [frobenius, modPoly_length, substPow, h, zeroPoly_length]

theorem normPow_length (l : Nat) (f : Poly) (k : Nat) : (normPow l f k).length = f.length := by
  have h : ∀ (bits : List Bool) (acc : Poly × Nat), acc.1.length = f.length →
      (bits.foldl (normStep l f) acc).1.length = f.length := by
    intro bits
    induction bits with
    | nil => intro acc hacc; exact hacc
    | cons b bits ih =>
      intro acc hacc
      rw [List.foldl_cons]
      refine ih _ ?_
      cases b <;> simp [normStep, hacc]
  exact h _ _ (by simp)

theorem powMod_length (m : Nat) (a : Poly) (e : Nat) : (powMod m a e).length = a.length := by
  have h : ∀ (bits : List Bool) (acc : Poly), acc.length = a.length →
      (bits.foldl (fun acc bit => let sq := mulMod m acc acc; if bit then mulMod m sq a else sq) acc).length =
        a.length := by
    intro bits
    induction bits with
    | nil => intro acc hacc; exact hacc
    | cons b bits ih =>
      intro acc hacc
      rw [List.foldl_cons]
      refine ih _ ?_
      cases b <;> simp [hacc]
  exact h _ _ (by simp)

theorem newtonStep_length (m : Nat) {a b : Poly} (h : a.length = b.length) : (newtonStep m a b).length = b.length := by
  simp [newtonStep, h]

/-- The candidate has N coefficients. -/
theorem inverseCandidate_length (l m : Nat) (a : Poly) : (inverseCandidate l m a).length = a.length := by
  have h : ∀ (ks : List Nat) (b : Poly), a.length = b.length →
      (ks.foldl (fun b _ => newtonStep m a b) b).length = a.length := by
    intro ks
    induction ks with
    | nil => intro b hb; exact hb.symm
    | cons k ks ih =>
      intro b hb
      rw [List.foldl_cons]
      exact ih _ (by rw [newtonStep_length m hb, hb])
  refine h _ _ ?_
  rw [modPoly_length, inverseModPrime, mulMod_length, powMod_length, mulMod_length, frobenius_length, normPow_length]

/-- The candidate's coefficients are in [0, m). -/
theorem inverseCandidate_range (l : Nat) {m : Nat} (hm : 0 < m) (a : Poly) :
    ∀ x ∈ inverseCandidate l m a, 0 ≤ x ∧ x < m := by
  have hstep : ∀ (ks : List Nat) (b : Poly), ks ≠ [] →
      ∀ x ∈ ks.foldl (fun b _ => newtonStep m a b) b, 0 ≤ x ∧ x < m := by
    intro ks
    induction ks with
    | nil => intro b h; exact absurd rfl h
    | cons k ks ih =>
      intro b _ x hx
      rw [List.foldl_cons] at hx
      rcases eq_or_ne ks [] with rfl | hk
      · rw [List.foldl_nil, newtonStep, mulMod, modPoly] at hx
        obtain ⟨y, _, rfl⟩ := List.mem_map.mp hx
        exact ⟨imod_nonneg y hm, imod_lt y hm⟩
      · exact ih _ hk x hx
  exact hstep _ _ (by decide)

/-! ### `invertPoly` (R141) -/

/-- A product that is 1 in the ring is the identity polynomial, and conversely. -/
theorem mulMod_eq_identity_iff {m n : Nat} {a b : Poly} (hm : 2 ≤ m) (hn : 0 < n) (ha : a.length = n) (hb : b.length = n) :
    mulMod m a b = identityPoly n ↔ toRing m n a * toRing m n b = 1 := by
  rw [← toRing_mulMod ha hb, ← toRing_identity (m := m) hn]
  constructor
  · intro h; rw [h]
  · intro h
    apply List.ext_getElem (by simp [hb])
    intro k h1 h2
    have hk : k < n := by simpa [hb] using h1
    have hc := toRing_injective h hk
    rw [List.getD_eq_getElem _ _ h1, List.getD_eq_getElem _ _ h2] at hc
    have hmod := (ZMod.intCast_eq_intCast_iff' _ _ _).mp hc
    have hr : (mulMod m a b)[k] % (m : Int) = (mulMod m a b)[k] := by
      simp only [mulMod, modPoly, List.getElem_map, imod]
      exact Int.emod_emod_of_dvd _ (dvd_refl _)
    have hi : (identityPoly n)[k] % (m : Int) = (identityPoly n)[k] := by
      simp only [identityPoly, List.getElem_map, List.getElem_range]
      split
      · exact Int.emod_eq_of_lt (by decide) (by omega)
      · exact Int.zero_emod _
    rw [← hr, hmod, hi]

/-- `IsInverse` in the ring. -/
theorem isInverse_iff {m n : Nat} {a b : Poly} (hn : 0 < n) (ha : a.length = n) :
    IsInverse n m a b ↔ b.length = n ∧ (∀ x ∈ b, 0 ≤ x ∧ x < m) ∧ toRing m n a * toRing m n b = 1 := by
  constructor
  · rintro ⟨h1, h2, h3⟩
    refine ⟨h1, h2, ?_⟩
    rw [← toRing_conv ha h1, ← toRing_identity hn]
    refine toRing_congr fun k hk => ?_
    have := h3 k hk
    rw [convCoeff, ← conv_coeff ha h1 hk] at this
    have he : (identityPoly n).getD k 0 = if k = 0 then 1 else 0 := by
      simp [identityPoly, List.getD_eq_getElem?_getD, hk]
    rw [he]
    exact (ZMod.intCast_eq_intCast_iff' _ _ _).mpr this
  · rintro ⟨h1, h2, h3⟩
    refine ⟨h1, h2, fun k hk => ?_⟩
    rw [← toRing_conv ha h1, ← toRing_identity hn] at h3
    have := toRing_injective h3 hk
    have he : (identityPoly n).getD k 0 = if k = 0 then 1 else 0 := by
      simp [identityPoly, List.getD_eq_getElem?_getD, hk]
    rw [he] at this
    rw [convCoeff, ← conv_coeff ha h1 hk]
    exact (ZMod.intCast_eq_intCast_iff' _ _ _).mp this

/-- What `invertPoly` accepts is an inverse. -/
theorem invertPoly_sound {l m n : Nat} {a b : Poly} (hm : 2 ≤ m) (hn : 0 < n) (ha : a.length = n)
    (h : invertPoly l m a = some b) : IsInverse n m a b := by
  have hlen : (inverseCandidate l m (modPoly m a)).length = n := by rw [inverseCandidate_length, modPoly_length, ha]
  have hr := inverseCandidate_range l (m := m) (by omega) (modPoly m a)
  unfold invertPoly at h
  dsimp only at h
  split at h
  · next he =>
    simp only [Option.some.injEq] at h
    subst h
    rw [ha] at he
    rw [isInverse_iff hn ha, ← toRing_mod ha]
    exact ⟨hlen, hr, (mulMod_eq_identity_iff hm hn (by simp [ha]) hlen).mp he⟩
  · cases h

/-- Every inverse is found: N prime, m = ℓ^e (R140, R141). -/
theorem invertPoly_complete {l e n : Nat} {a b : Poly} (hl : l.Prime) (he : 0 < e) (he32 : e ≤ 32) (hn : n.Prime)
    (hn16 : n < 2 ^ 16) (hl32 : l < 2 ^ 32) (ha : a.length = n) (h : IsInverse n (l ^ e) a b) :
    (invertPoly l (l ^ e) a).isSome = true := by
  have hm2 : 2 ≤ l ^ e := le_trans hl.two_le (Nat.le_self_pow (by omega) l)
  have habar : (modPoly (l ^ e) a).length = n := by simp [ha]
  have hu : IsUnit (toRing l n (modPoly (l ^ e) a)) := by
    have hdvd : l ∣ l ^ e := dvd_pow_self l (by omega)
    have h1 : toRing l n (modPoly (l ^ e) a) = toRing l n a := by
      refine toRing_congr fun i hi => ?_
      rw [modPoly, map_getD _ _ (by omega), imod]
      refine (ZMod.intCast_eq_intCast_iff' _ _ _).mpr ?_
      exact Int.emod_emod_of_dvd _ (by exact_mod_cast hdvd)
    have h2 : toRing l n a * toRing l n b = 1 := by
      rw [← toRing_conv ha h.length, ← toRing_identity hn.pos]
      refine toRing_congr fun k hk => ?_
      have := h.product k hk
      rw [convCoeff, ← conv_coeff ha h.length hk] at this
      have hid : (identityPoly n).getD k 0 = if k = 0 then 1 else 0 := by
        simp [identityPoly, List.getD_eq_getElem?_getD, hk]
      rw [hid]
      exact (ZMod.intCast_eq_intCast_iff _ _ _).mpr
        ((show _ ≡ _ [ZMOD ((l ^ e : Nat) : Int)] from this).of_dvd (by exact_mod_cast hdvd))
    rw [h1]
    exact IsUnit.of_mul_eq_one _ h2
  obtain ⟨c1, c2⟩ := toRing_inverseCandidate hl he he32 hn hn16 hl32 habar hu
  unfold invertPoly
  dsimp only
  rw [if_pos]
  · rfl
  · rw [ha]
    exact (mulMod_eq_identity_iff hm2 hn.pos habar c1).mpr c2

end Sys2Proof.Machine
end

