-- ==== Sys2Proof/Laws/PerInstr.lean ====
section
/-! SUPPORT. Laws/PerInstr.lean: what is said of every command as syntax. OpcodeField: its word carries the opcode of
spec/30_encoding.md R84 in bits 31:26. -/

namespace Sys2Proof.Laws.OpcodeField

/-- The opcode column of R84. -/
def opcode : Instr → BitVec 6
  | .nop => 0x00
  | .cfgchk => 0x01
  | .pclr _ => 0x02
  | .pmov _ _ => 0x03
  | .pmul _ _ _ => 0x04
  | .padd _ _ _ => 0x05
  | .pscl _ _ _ => 0x06
  | .pred _ _ _ _ => 0x07
  | .pinv _ _ _ => 0x08
  | .psmp _ _ => 0x09
  | .pwck _ => 0x0A
  | .nenc _ _ _ => 0x0B
  | .nencx _ _ _ => 0x0C
  | .ndec _ _ _ => 0x0D
  | .benc _ _ => 0x0E
  | .bdec _ _ => 0x0F
  | .bfin => 0x10
  | .senc _ => 0x11
  | .sdec _ _ => 0x12

/-- The word of a command carries its opcode. -/
def Statement (i : Instr) : Prop := (encode i).extractLsb' 26 6 = opcode i

theorem opcode_of_word (i : Instr) : (encode i).extractLsb' 26 6 = (encodeFields i).opc :=
  congrArg Fields.opc (fieldsOf_wordOf (encodeFields i))

theorem nop : Statement (.nop) := opcode_of_word _

theorem cfgchk : Statement (.cfgchk) := opcode_of_word _

theorem pclr (rd : PReg) : Statement (.pclr rd) := opcode_of_word _

theorem pmov (rd rs1 : PReg) : Statement (.pmov rd rs1) := opcode_of_word _

theorem pmul (rd rs1 rs2 : PReg) : Statement (.pmul rd rs1 rs2) := opcode_of_word _

theorem padd (rd rs1 rs2 : PReg) : Statement (.padd rd rs1 rs2) := opcode_of_word _

theorem pscl (rd rs1 : PReg) (sel : ModSel) : Statement (.pscl rd rs1 sel) := opcode_of_word _

theorem pred (rd rs1 : PReg) (sel : ModSel) (rep : RepSel) : Statement (.pred rd rs1 sel rep) := opcode_of_word _

theorem pinv (rd rs1 : PReg) (sel : ModSel) : Statement (.pinv rd rs1 sel) := opcode_of_word _

theorem psmp (rd : PReg) (w : WeightSel) : Statement (.psmp rd w) := opcode_of_word _

theorem pwck (rs1 : PReg) : Statement (.pwck rs1) := opcode_of_word _

theorem nenc (rd rs1 rs2 : PReg) : Statement (.nenc rd rs1 rs2) := opcode_of_word _

theorem nencx (rd rs1 rs2 : PReg) : Statement (.nencx rd rs1 rs2) := opcode_of_word _

theorem ndec (rd rs1 rs2 : PReg) : Statement (.ndec rd rs1 rs2) := opcode_of_word _

theorem benc (rd : PReg) (k : Nat) : Statement (.benc rd k) := opcode_of_word _

theorem bdec (rs1 : PReg) (k : Nat) : Statement (.bdec rs1 k) := opcode_of_word _

theorem bfin : Statement (.bfin) := opcode_of_word _

theorem senc (rs1 : PReg) : Statement (.senc rs1) := opcode_of_word _

theorem sdec (rs1 rs2 : PReg) : Statement (.sdec rs1 rs2) := opcode_of_word _

end Sys2Proof.Laws.OpcodeField
end

