-- ==== Sys2Proof/Laws/Results.lean ====
section
/-! SUPPORT. Laws/Results.lean: what the shared operations that write results do, in the terms of Safety.lean: a polynomial to
a register, message bits to BBUF, the trimmed length. -/

namespace Sys2Proof.Machine

/-! ### Polynomial results -/

/-- `write_poly` writes the coefficients of a polynomial of N coefficients. `s` is any state with the same registers. -/
theorem writesPoly_of_eq {s u t : State} {rd : PReg} {c : Poly} {g : Nat → Int} (hd : u.build = s.build) (hp : u.p = s.p)
    (hl : u.plen = s.plen) (hn : u.cfgN = s.cfgN) (hc : c.length = s.n) (hg : ∀ i, i < s.n → g i = c.getD i 0)
    (htp : t.p = (u.writePoly rd c).p) (htl : t.plen = (u.writePoly rd c).plen) : WritesPoly s t rd g where
  slots i hi := by
    have h := slot_writePoly_self u rd c (hd ▸ hi)
    simp only [State.slot] at h ⊢
    rw [htp, h, hc]
    congr 1
    split
    · next hin => rw [hg i hin]
    · rfl
  tag := by rw [htl, State.writePoly_plen, hl, hn]
  others k hk := by rw [htp, p_writePoly_of_ne u c hk, hp]

/-! ### OVF -/

theorem fits32_iff {x : Int} : fits32 x = true ↔ Fits32 x := by simp [fits32, Fits32]

theorem overflows_iff {n : Nat} {c : Poly} (hc : c.length = n) :
    overflows c = true ↔ ∃ k, k < n ∧ ¬ Fits32 (c.getD k 0) := by
  subst hc
  simp only [overflows, List.any_eq_true, Bool.not_eq_eq_eq_not, Bool.not_true, ← Bool.not_eq_true, fits32_iff]
  constructor
  · rintro ⟨x, hx, hf⟩
    obtain ⟨k, hk, rfl⟩ := List.getElem_of_mem hx
    exact ⟨k, hk, by simpa [List.getD_eq_getElem?_getD, hk] using hf⟩
  · rintro ⟨k, hk, hf⟩
    exact ⟨c.get ⟨k, hk⟩, List.get_mem _ _, by simpa [List.getD_eq_getElem?_getD, hk] using hf⟩

/-! ### Message bits -/

/-- The two ways to name bit j of the message stream (R170). -/
theorem bitAt_eq_streamBit (s : State) (j : Nat) : s.bitAt j = s.streamBit j := by
  have h : j % 8 < 8 := Nat.mod_lt _ (by decide)
  simp only [State.bitAt, State.streamBit, msbBit, BitVec.getMsbD, h, decide_true, Bool.true_and]

/-- A byte after one of its bits was set. -/
theorem withMsbBit_getMsbD (b : Byte) (j : Nat) (v : Bool) {r : Nat} (hr : r < 8) :
    (withMsbBit b j v).getMsbD r = if r = j % 8 then v else b.getMsbD r := by
  have hj : j % 8 < 8 := Nat.mod_lt _ (by decide)
  simp only [withMsbBit]
  generalize j % 8 = i at hj
  have hk : ∀ k, (1#8 <<< (7 - i)).getLsbD k = decide (k = 7 - i) := by
    intro k
    by_cases h : k = 7 - i
    · subst h; simp [BitVec.getLsbD_shiftLeft]; omega
    · simp only [BitVec.getLsbD_shiftLeft, BitVec.getLsbD_one, h, decide_false, Bool.and_eq_false_imp]
      intro h1; simp at h1 ⊢; omega
  have hri : (7 - r = 7 - i) ↔ r = i := by omega
  cases v <;> simp only [BitVec.getMsbD, if_true, Bool.false_eq_true, if_false, BitVec.getLsbD_or, BitVec.getLsbD_and,
    BitVec.getLsbD_not, hk, hr, decide_true, Bool.true_and, Nat.add_one_sub_one, hri]
  · by_cases h : r = i <;> simp [h, show 7 - i < 8 by omega]
    omega
  · by_cases h : r = i <;> simp [h]

/-- What one write of a message bit does to a byte (R173). -/
theorem bufGet_putBit (s : State) (j i : Nat) (v : Bool) :
    bufGet (s.putBit j v).bbuf i = if i = j / 8 then some (withMsbBit (s.byteAt i) j v) else bufGet s.bbuf i := by
  simp only [State.putBit, bufGet_bufPut]
  split
  · next h => rw [h]
  · rfl

/-- A write of a message bit changes no bit of any byte but that one. -/
theorem streamBit_putBit (s : State) (j k : Nat) (v : Bool) :
    (s.putBit j v).streamBit k = if k = j then v else s.streamBit k := by
  have hb : (s.putBit j v).byteAt (k / 8) =
      if k / 8 = j / 8 then withMsbBit (s.byteAt (k / 8)) j v else s.byteAt (k / 8) := by
    rw [State.byteAt, bufGet_putBit]
    split
    · rfl
    · rfl
  simp only [State.streamBit, hb]
  by_cases h8 : k / 8 = j / 8
  · rw [if_pos h8, withMsbBit_getMsbD _ _ _ (Nat.mod_lt _ (by decide))]
    by_cases hk : k = j
    · simp [hk]
    · rw [if_neg (by omega), if_neg hk]
  · rw [if_neg h8, if_neg (fun h => h8 (by rw [h]))]

/-- A run of message bits written to BBUF (R173): the bits of the run, and every other bit as it was. -/
theorem streamBit_putBits (vs : List Bool) (j k : Nat) (s : State) :
    (State.putBits vs j s).streamBit k =
      if j ≤ k ∧ k < j + vs.length ∧ k < 8 * s.build.bmax then vs.getD (k - j) false else s.streamBit k := by
  induction vs generalizing j s with
  | nil => rw [if_neg (by simp only [List.length_nil]; omega)]; rfl
  | cons v vs ih =>
    rw [State.putBits, ih]
    simp only [List.length_cons]
    by_cases hj : j < 8 * s.build.bmax
    · rw [if_pos hj, streamBit_putBit, State.putBit_build]
      by_cases hk : k = j
      · subst hk; rw [if_neg (by omega), if_pos rfl, if_pos (by omega)]; simp
      · by_cases h : j ≤ k ∧ k < j + (vs.length + 1) ∧ k < 8 * s.build.bmax
        · rw [if_pos (by omega), if_pos h, show k - j = (k - (j + 1)) + 1 by omega]; rfl
        · rw [if_neg (by omega), if_neg hk, if_neg h]
    · rw [if_neg hj, if_neg (by omega), if_neg (by omega)]

/-- One step of a run of message bits is in the same core. -/
theorem putBit_ite_build (s : State) (j : Nat) (v : Bool) {c : Prop} [Decidable c] :
    (if c then s.putBit j v else s).build = s.build := by split <;> rfl

/-- A run of message bits leaves a byte it does not reach as it was. -/
theorem bufGet_putBits_of_untouched (vs : List Bool) (j i : Nat) (s : State)
    (h : ¬ (i < s.build.bmax ∧ ∃ k, j ≤ k ∧ k < j + vs.length ∧ k / 8 = i)) :
    bufGet (State.putBits vs j s).bbuf i = bufGet s.bbuf i := by
  induction vs generalizing j s with
  | nil => rfl
  | cons v vs ih =>
    rw [State.putBits, ih]
    · split
      · next hj =>
        rw [bufGet_putBit, if_neg]
        intro e
        refine h ⟨by omega, j, Nat.le_refl _, ?_, e.symm⟩
        simp
      · rfl
    · rintro ⟨hi, k, h1, h2, h3⟩
      rw [putBit_ite_build] at hi
      refine h ⟨hi, k, by omega, ?_, h3⟩
      simp only [List.length_cons]
      omega

/-- A byte that holds a value, or that the run reaches, holds a value after the run. -/
theorem bufGet_putBits_isSome (vs : List Bool) (j i : Nat) (s : State)
    (h : (bufGet s.bbuf i).isSome = true ∨ (i < s.build.bmax ∧ ∃ k, j ≤ k ∧ k < j + vs.length ∧ k / 8 = i)) :
    (bufGet (State.putBits vs j s).bbuf i).isSome = true := by
  induction vs generalizing j s with
  | nil =>
    rcases h with h | ⟨_, k, h1, h2, _⟩
    · exact h
    · simp only [List.length_nil] at h2; omega
  | cons v vs ih =>
    rw [State.putBits]
    refine ih _ _ ?_
    rcases h with h | ⟨hi, k, h1, h2, h3⟩
    · left
      split
      · rw [bufGet_putBit]; split
        · rfl
        · exact h
      · exact h
    · by_cases hk : k = j
      · left
        subst hk
        rw [if_pos (by omega), bufGet_putBit, if_pos h3.symm]
        rfl
      · right
        refine ⟨by rw [putBit_ite_build]; exact hi, k, by omega, ?_, h3⟩
        simp only [List.length_cons] at h2
        omega

/-- A run of message bits, in full (R173). -/
theorem writesBits_putBits {s t : State} (vs : List Bool) (lo hi : Nat) (v : Nat → Bool) (hlen : hi = lo + vs.length)
    (hv : ∀ k, lo ≤ k → k < hi → vs.getD (k - lo) false = v k) (ht : t.bbuf = (State.putBits vs lo s).bbuf) :
    WritesBits s t lo hi v where
  touched i hi' hk := by
    subst hlen
    have hs := bufGet_putBits_isSome vs lo i s (.inr ⟨hi', hk⟩)
    obtain ⟨b, hb⟩ := Option.isSome_iff_exists.mp hs
    refine ⟨b, by rw [ht]; exact hb, fun r hr => ?_⟩
    have h := streamBit_putBits vs lo (8 * i + r) s
    rw [State.streamBit, show (8 * i + r) / 8 = i by omega, show (8 * i + r) % 8 = r by omega,
      byteAt_of_some hb] at h
    rw [h]
    have hB : 8 * i + r < 8 * s.build.bmax := by omega
    by_cases hin : lo ≤ 8 * i + r ∧ 8 * i + r < lo + vs.length
    · rw [if_pos ⟨hin.1, hin.2, hB⟩, if_pos hin, hv _ hin.1 hin.2]
    · rw [if_neg (by omega), if_neg hin]
  untouched i h := by
    subst hlen
    rw [ht]
    exact bufGet_putBits_of_untouched vs lo i s h

/-! ### The decoded length (R174) -/

/-- `trailingZeros` counts the trailing zero bytes of the first `l`. -/
theorem trimmedTo_trailingZeros (s : State) (l : Nat) :
    TrimmedTo (fun i => s.byteAt i = 0) l (l - s.trailingZeros l) := by
  induction l with
  | zero => exact ⟨by omega, by omega, .inl (by omega)⟩
  | succ l ih =>
    rw [State.trailingZeros]
    split
    · next h0 =>
      obtain ⟨h1, h2, h3⟩ := ih
      refine ⟨by omega, fun i hi hl => ?_, ?_⟩
      · by_cases hil : i = l
        · subst hil; exact h0
        · exact h2 i (by omega) (by omega)
      · rw [Nat.add_sub_add_right]; exact h3
    · next h0 => exact ⟨Nat.le_refl _, by omega, .inr (by simpa using h0)⟩

theorem trailingZeros_le (s : State) (l : Nat) : s.trailingZeros l ≤ l := by
  induction l with
  | zero => exact Nat.le_refl _
  | succ l ih => rw [State.trailingZeros]; split <;> omega

/-! ### First offences (R173, R174, R201) -/

theorem find?_range'_eq_some_iff {lo n j : Nat} {bad : Nat → Bool} :
    (List.range' lo n).find? bad = some j ↔
      lo ≤ j ∧ j < lo + n ∧ bad j = true ∧ ∀ i, lo ≤ i → i < j → bad i = false := by
  induction n generalizing lo with
  | zero => simp; omega
  | succ n ih =>
    rw [List.range'_succ, List.find?_cons]
    split
    · next h =>
      simp only [Option.some.injEq]
      constructor
      · rintro rfl; exact ⟨Nat.le_refl _, by omega, h, fun i h1 h2 => by omega⟩
      · rintro ⟨h1, _, _, h4⟩
        by_contra hne
        exact absurd (h4 lo (Nat.le_refl _) (by omega)) (by simp [h])
    · next h =>
      rw [ih]
      constructor
      · rintro ⟨h1, h2, h3, h4⟩
        refine ⟨by omega, by omega, h3, fun i hi hj => ?_⟩
        by_cases hil : i = lo
        · subst hil; simpa using h
        · exact h4 i (by omega) hj
      · rintro ⟨h1, h2, h3, h4⟩
        have hne : j ≠ lo := by rintro rfl; exact absurd h3 (by simpa using h)
        exact ⟨by omega, by omega, h3, fun i hi hj => h4 i (by omega) hj⟩

/-- The least index with `bad` in a range. -/
theorem firstIn_eq_some_iff {lo hi j : Nat} {bad : Nat → Bool} :
    firstIn lo hi bad = some j ↔ lo ≤ j ∧ j < hi ∧ bad j = true ∧ ∀ i, lo ≤ i → i < j → bad i = false := by
  rw [firstIn, find?_range'_eq_some_iff]
  constructor
  · rintro ⟨h1, h2, h3, h4⟩; exact ⟨h1, by omega, h3, h4⟩
  · rintro ⟨h1, h2, h3, h4⟩; exact ⟨h1, by omega, h3, h4⟩

/-- No index of a range is `bad`. -/
theorem firstIn_eq_none_iff {lo hi : Nat} {bad : Nat → Bool} :
    firstIn lo hi bad = none ↔ ∀ i, lo ≤ i → i < hi → bad i = false := by
  rw [firstIn, List.find?_eq_none]
  simp only [List.mem_range'_1]
  constructor
  · intro h i h1 h2; simpa using h i ⟨h1, by omega⟩
  · rintro h i ⟨h1, h2⟩; simpa using h i h1 (by omega)

/-- The format checks of a block pass exactly when all its coefficients are message bits. -/
theorem blockFormatCheck_eq_none_iff {bmax base : Nat} {c : Poly} {g : Nat → Int}
    (hg : ∀ i, i < c.length → g (base + i) = c.getD i 0) :
    blockFormatCheck bmax base c = none ↔ ∀ i, i < c.length → MessageBit bmax g (base + i) := by
  unfold blockFormatCheck
  constructor
  · intro h
    split at h
    · cases h
    · next h1 =>
      split at h
      · cases h
      · next h2 =>
        rw [firstIn_eq_none_iff] at h1 h2
        intro i hi
        have a := h1 i (Nat.zero_le _) hi
        have b := h2 i (Nat.zero_le _) hi
        simp only [isBit, Bool.not_eq_false', Bool.or_eq_true, decide_eq_true_eq, ← hg i hi] at a
        simp only [Bool.and_eq_false_imp, decide_eq_true_eq, decide_eq_false_iff_not, ← hg i hi] at b
        exact ⟨a, fun hB => a.resolve_right (b hB)⟩
  · intro h
    have h1 : firstIn 0 c.length (fun i => !isBit (c.getD i 0)) = none := by
      rw [firstIn_eq_none_iff]
      intro i _ hi
      have := (h i hi).1
      rw [hg i hi] at this
      rcases this with h | h <;> simp only [isBit, h] <;> rfl
    have h2 : firstIn 0 c.length (fun i => decide (8 * bmax ≤ base + i) && decide (c.getD i 0 = 1)) = none := by
      rw [firstIn_eq_none_iff]
      intro i _ hi
      simp only [Bool.and_eq_false_imp, decide_eq_true_eq, decide_eq_false_iff_not]
      intro hB
      have := (h i hi).2 hB
      rw [hg i hi] at this
      omega
    simp only [h1, h2]

/-- What the format checks of a block report: the bit index of the first offence. -/
theorem blockFormatCheck_of_firstBadBit {bmax base j : Nat} {c : Poly} {g : Nat → Int}
    (hg : ∀ i, i < c.length → g (base + i) = c.getD i 0) (h : FirstBadBit bmax g base (base + c.length) j) :
    blockFormatCheck bmax base c = some ⟨.fmt, BitVec.ofNat 32 j⟩ := by
  obtain ⟨h1, h2, h3⟩ := h
  obtain ⟨i, rfl⟩ := Nat.exists_eq_add_of_le h1
  have hi : i < c.length := by omega
  unfold blockFormatCheck
  rcases h3 with ⟨ha, hb⟩ | ⟨ha, hB, hc, hd⟩
  · have hf : firstIn 0 c.length (fun i => !isBit (c.getD i 0)) = some i := by
      rw [firstIn_eq_some_iff]
      refine ⟨Nat.zero_le _, hi, ?_, fun k _ hk => ?_⟩
      · rw [hg i hi] at ha; simpa [isBit] using ha
      · have := hb (base + k) (by omega) (by omega)
        rw [hg k (by omega)] at this
        rcases this with h | h <;> simp only [isBit, h] <;> rfl
    rw [hf]
  · have hn : firstIn 0 c.length (fun i => !isBit (c.getD i 0)) = none := by
      rw [firstIn_eq_none_iff]
      intro k _ hk
      have := ha (base + k) (by omega) (by omega)
      rw [hg k hk] at this
      rcases this with h | h <;> simp only [isBit, h] <;> rfl
    have hf : firstIn 0 c.length (fun i => decide (8 * bmax ≤ base + i) && decide (c.getD i 0 = 1)) = some i := by
      rw [firstIn_eq_some_iff]
      refine ⟨Nat.zero_le _, hi, ?_, fun k _ hk => ?_⟩
      · rw [hg i hi] at hc; simp only [hB, hc, decide_true, Bool.and_self]
      · simp only [Bool.and_eq_false_imp, decide_eq_true_eq, decide_eq_false_iff_not]
        intro hBk
        have := hd (base + k) hBk (by omega) (by omega)
        rw [hg k (by omega)] at this
        omega
    rw [hn, hf]

/-- The pad-bit check passes exactly when the bits after the last whole byte are 0 (R174). -/
theorem padCheck_eq_none_iff (s : State) (t : Nat) :
    s.padCheck t = none ↔ (t < 8 * s.build.bmax → ∀ j, 8 * (t / 8) ≤ j → j < t → s.streamBit j = false) := by
  unfold State.padCheck
  split
  · next ht =>
    have hw : s.wholeBytes t = t / 8 := by simp only [State.wholeBytes]; omega
    simp only [ht, forall_const, hw]
    constructor
    · intro h
      split at h
      · cases h
      · next h1 =>
        rw [firstIn_eq_none_iff] at h1
        intro j h2 h3
        rw [← bitAt_eq_streamBit]
        exact h1 j h2 h3
    · intro h
      rw [firstIn_eq_none_iff.mpr (fun j h2 h3 => by rw [bitAt_eq_streamBit]; exact h j h2 h3)]
  · next ht => simp [ht]

/-- What the pad-bit check reports (R174). -/
theorem padCheck_of_firstPadBit {s : State} {t j : Nat} (h : FirstPadBit s.build.bmax (fun j => s.streamBit j = true) t j) :
    s.padCheck t = some ⟨.fmt, BitVec.ofNat 32 j⟩ := by
  obtain ⟨ht, h1, h2, h3, h4⟩ := h
  have hw : s.wholeBytes t = t / 8 := by simp only [State.wholeBytes]; omega
  unfold State.padCheck
  rw [if_pos ht, hw, firstIn_eq_some_iff.mpr ⟨h1, h2, by rw [bitAt_eq_streamBit]; exact h3, fun i hi hj => by
    rw [bitAt_eq_streamBit]; simpa using h4 i hi hj⟩]

/-! ### The cryptor's formulas (R190, R192) -/

theorem centerPoly_getD {m : Nat} {a : Poly} {k : Nat} (h : k < a.length) :
    (centerPoly m a).getD k 0 = center (a.getD k 0) m := map_getD _ _ h

theorem encryptBlock_getD {n q k : Nat} {r h m : Poly} (hr : r.length = n) (hh : h.length = n) (hm : m.length = n)
    (hk : k < n) : (encryptBlock q r h m).getD k 0 = encryptCoeff n q r h m k := by
  have hc : (conv r h).length = n := by simp [hh]
  rw [encryptBlock, centerPoly_getD (by simp [hh, hm, hk]), addPoly_getD (by simp [hh, hm]), conv_coeff hr hh hk]
  rfl

theorem decryptBlock_getD {n p q k : Nat} {f fp e : Poly} (hf : f.length = n) (hfp : fp.length = n) (he : e.length = n)
    (hk : k < n) : (decryptBlock p q f fp e).getD k 0 = decryptCoeff n p q f fp e k := by
  have hb : centerPoly p (centerPoly q (conv f e)) =
      ((List.range n).map (fun i => center (convCoeff n f e i) q)).map (fun x => center x p) := by
    apply List.ext_getElem
    · simp [centerPoly, he]
    · intro i h1 h2
      have hi : i < n := by simpa using h2
      have hc : (conv f e)[i]'(by simp [he, hi]) = convCoeff n f e i := by
        rw [convCoeff, ← conv_coeff hf he hi, List.getD_eq_getElem _ _ (by simp [he, hi])]
      simp only [centerPoly, List.getElem_map, List.getElem_range, hc]
  rw [decryptBlock, centerPoly_getD (by simp [he, hk]), hb, conv_coeff hfp (by simp) hk]
  rfl

/-! ### What the codec's loops can do -/

/-- Writing bits changes BBUF and nothing else. -/
theorem putBits_frame (vs : List Bool) (j : Nat) (s : State) :
    State.putBits vs j s = { s with bbuf := (State.putBits vs j s).bbuf } := by
  induction vs generalizing j s with
  | nil => rfl
  | cons v vs ih =>
    rw [State.putBits]
    split
    · rw [ih]; rfl
    · rw [ih]

theorem blockFormatCheck_code {bmax base : Nat} {c : Poly} {r : Report} (h : blockFormatCheck bmax base c = some r) : r.code = .fmt := by
  unfold blockFormatCheck at h
  split at h
  · cases h; rfl
  · split at h
    · cases h; rfl
    · cases h

theorem padCheck_code {s : State} {t : Nat} {r : Report} (h : s.padCheck t = some r) : r.code = .fmt := by
  unfold State.padCheck at h
  split at h
  · split at h
    · cases h; rfl
    · cases h
  · cases h

/-- SDEC's loop ends with E_FMT and BBUF unspecified, or with a success that writes BBUF, MLEN and NBLK (R201, R226). -/
theorem decodeBlocks_cases (nb : Nat) (cs : List Poly) (base : Nat) (s : State) :
    (∃ r, r.code = .fmt ∧ decodeBlocks nb cs base s = { s.drew.fail r with bbuf := [] }) ∨
    (∃ b m, decodeBlocks nb cs base s = { s.drew.complete with bbuf := b, mlen := m, nblk := BitVec.ofNat 16 nb }) := by
  induction cs generalizing base s with
  | nil =>
    unfold decodeBlocks State.finishSdec
    split
    · next r h => exact .inl ⟨r, padCheck_code h, rfl⟩
    · exact .inr ⟨_, _, rfl⟩
  | cons c cs ih =>
    unfold decodeBlocks
    split
    · next r h => exact .inl ⟨r, blockFormatCheck_code h, rfl⟩
    · rw [putBits_frame]
      exact ih _ _

/-- Writing one register leaves the others. -/
theorem vector_set_other {α : Type} {n : Nat} (v : Vector α n) {rd k : Fin n} (x : α) (h : rd ≠ k) : (v.set rd x)[k] = v[k] := by
  have hv : rd.val ≠ k.val := fun e => h (Fin.ext e)
  simp only [Fin.getElem_fin]
  exact Vector.getElem_set_ne (h := hv) ..

end Sys2Proof.Machine
end

