-- ==== Sys2Proof/Laws/Sampler.lean ====
section
/-! SUPPORT. Laws/Sampler.lean: the sampler that takes its words one by one draws the samples of 43_sampler.md R155, and the
samples have the exact weights (R156). -/

namespace Sys2Proof.Machine

/-! ### The word-by-word sampler and the procedure of R155 -/

theorem drawIndex_cons (m : Nat) (w : Word) (ws : List Word) :
    drawIndex m (w :: ws) = if uval w < acceptLimit m then some (uval w % m, ws) else drawIndex m ws := rfl

/-- A sample that is not drawn has a draw still to make. -/
abbrev Sampling.Live (job : Sampling) : Prop := 0 < job.todo → job.t < job.np + job.nm

theorem drawsFrom_of_done {job : Sampling} (h : job.todo = 0) (ws : List Word) : job.drawsFrom ws = some (job.done, ws) := by
  simp [Sampling.drawsFrom, h]

/-- A draw still to make needs a word. -/
theorem drawsFrom_nil {job : Sampling} (h : job.todo ≠ 0) (hl : job.Live) : job.drawsFrom [] = none := by
  have hk : job.np + job.nm - job.t = (job.np + job.nm - job.t - 1) + 1 := by have := hl (by omega); omega
  rw [Sampling.drawsFrom, if_neg h, hk]
  rfl

/-- What one word does to the sampler: it is rejected, or it makes a draw, or it makes the last draw of a sample. -/
theorem feedWord_cases (job : Sampling) (w : Word) :
    feedWord job w = job ∨
    (job.t + 1 ≠ job.np + job.nm ∧ ∃ idx, feedWord job w = { job with t := job.t + 1, idx := idx }) ∨
    (job.t + 1 = job.np + job.nm ∧ ∃ idx, feedWord job w =
      { job with todo := job.todo - 1, t := 0, idx := List.range job.n,
                 done := job.done ++ [ternaryAt job.n job.np job.nm idx] }) := by
  simp only [feedWord]
  split
  · split
    · next h => exact .inr (.inr ⟨h, _, rfl⟩)
    · next h => exact .inr (.inl ⟨h, _, rfl⟩)
  · exact .inl rfl

theorem feedWord_live {job : Sampling} (hl : job.Live) (w : Word) : (feedWord job w).Live := by
  intro h
  rcases feedWord_cases job w with e | ⟨h1, _, e⟩ | ⟨h1, _, e⟩ <;> rw [e] at h ⊢
  · exact hl h
  · have := hl h; show job.t + 1 < job.np + job.nm; omega
  · show 0 < job.np + job.nm; omega

theorem feedWords_live {job : Sampling} (hl : job.Live) (ws : List Word) : (feedWords job ws).1.Live := by
  induction ws generalizing job with
  | nil => exact hl
  | cons w ws ih =>
    simp only [feedWords]
    split
    · exact hl
    · exact ih (feedWord_live hl w)

theorem startSampling_live (n np nm count : Nat) : (startSampling n np nm count).Live := by
  unfold startSampling
  split
  · exact fun h => absurd h (by simp)
  · next h0 => intro _; show 0 < np + nm; omega

/-- A sampler that was given a word ends as it would have with that word in front. -/
theorem drawsFrom_cons {job : Sampling} (h : job.todo ≠ 0) (hl : job.Live) (w : Word) (ws : List Word) :
    job.drawsFrom (w :: ws) = (feedWord job w).drawsFrom ws := by
  have ht := hl (by omega)
  have hk : job.np + job.nm - job.t = (job.np + job.nm - job.t - 1) + 1 := by omega
  rw [Sampling.drawsFrom, if_neg h, hk]
  simp only [shuffleFrom, drawIndex_cons, feedWord]
  by_cases ha : uval w < acceptLimit (job.n - job.t)
  · simp only [ha, if_true]
    by_cases hlast : job.t + 1 = job.np + job.nm
    · have h0 : job.np + job.nm - job.t - 1 = 0 := by omega
      simp only [h0, shuffleFrom, hlast, if_true]
      by_cases h1 : job.todo - 1 = 0
      · rw [drawsFrom_of_done h1, h1]
        rfl
      · rw [Sampling.drawsFrom, if_neg h1]
        obtain ⟨k, hk1⟩ := Nat.exists_eq_succ_of_ne_zero h1
        simp only [hk1, samplesFrom, sampleFrom, Nat.sub_zero, Nat.succ_eq_add_one, Nat.add_one_sub_one]
        cases shuffleFrom job.n (job.np + job.nm) 0 (List.range job.n) ws with
        | none => rfl
        | some p =>
          simp only
          cases samplesFrom job.n job.np job.nm k p.2 with
          | none => rfl
          | some q => simp only [List.append_assoc, List.cons_append, List.nil_append]
    · simp only [hlast, if_false]
      rw [Sampling.drawsFrom, if_neg h]
      simp only [show job.np + job.nm - (job.t + 1) = job.np + job.nm - job.t - 1 by omega]
  · simp only [ha, if_false]
    rw [Sampling.drawsFrom, if_neg h, hk]
    simp only [shuffleFrom, Nat.add_one_sub_one]

/-- Word by word or all at once: a sampler that was given the words `a` ends, on the words left and those behind them, as it
would have on all of them. -/
theorem drawsFrom_feedWords {job : Sampling} (hl : job.Live) (a b : List Word) :
    job.drawsFrom (a ++ b) = (feedWords job a).1.drawsFrom ((feedWords job a).2 ++ b) := by
  induction a generalizing job with
  | nil => rfl
  | cons w a ih =>
    simp only [feedWords]
    split
    · rfl
    · next h => rw [List.cons_append, drawsFrom_cons h hl, ih (feedWord_live hl w)]

/-- The words suffice for the samples exactly when the sampler, given them, is done. -/
theorem drawsFrom_eq_some_iff {job : Sampling} (hl : job.Live) {ws left : List Word} {rs : List Poly} :
    job.drawsFrom ws = some (rs, left) ↔
      (feedWords job ws).1.todo = 0 ∧ (feedWords job ws).1.done = rs ∧ (feedWords job ws).2 = left := by
  have h := drawsFrom_feedWords hl ws []
  rw [List.append_nil, List.append_nil] at h
  rw [h]
  by_cases h0 : (feedWords job ws).1.todo = 0
  · rw [drawsFrom_of_done h0]; simp [h0]
  · rw [feedWords_left h0, drawsFrom_nil h0 (feedWords_live hl ws)]; simp [h0]

/-- Samples without draws take no word (R150: "np = nm = 0 gives the zero polynomial and consumes no random word"). -/
theorem samplesFrom_zero (n count : Nat) (ws : List Word) :
    samplesFrom n 0 0 count ws = some (List.replicate count (zeroPoly n), ws) := by
  induction count with
  | zero => rfl
  | succ count ih =>
    have h1 : sampleFrom n 0 0 ws = some (zeroPoly n, ws) := rfl
    simp only [samplesFrom, h1, ih, List.replicate_succ]

/-- A command that starts draws the samples of R155. -/
theorem drawsFrom_startSampling (n np nm count : Nat) :
    (startSampling n np nm count).drawsFrom = samplesFrom n np nm count := by
  funext ws
  by_cases h0 : np + nm = 0
  · obtain ⟨rfl, rfl⟩ : np = 0 ∧ nm = 0 := by omega
    rw [samplesFrom_zero]
    rfl
  · simp only [startSampling, h0, if_false]
    cases count with
    | zero => rfl
    | succ count =>
      simp only [Sampling.drawsFrom, samplesFrom, sampleFrom, Nat.sub_zero, Nat.succ_ne_zero, if_false,
        Nat.add_one_sub_one, List.nil_append]
      cases shuffleFrom n (np + nm) 0 (List.range n) ws <;> rfl

/-! ### A turn of a sampling command -/

/-- A sampling command that starts, its pre-checks passing, takes its first turn with a fresh sampler. -/
theorem sampled_issued {s : State} {src : RandSource} (he : s.engine = .issued src) {pre : Option Report} (hp : pre = none)
    (start : Sampling) (finish : List Poly → State → State) :
    sampled pre start finish s = .next (sampleTurn src start finish s) := by
  have hr : s.recorded = src := by simp [State.recorded, he]
  rw [sampled_start (by rw [he]; intro _ _ h; cases h), guarded_none hp, hr]

/-- With enough words and an event left, a turn is the end of the command on its samples, the rest of the words given back. -/
theorem sampleTurn_completes {s : State} {src : RandSource} {job : Sampling} (hl : job.Live) {rs : List Poly}
    {left : List Word} (h : s.Completes src job.drawsFrom rs left) (finish : List Poly → State → State) :
    sampleTurn src job finish s = finish rs (s.withWords src (left ++ (s.granted (s.wordsOf src)).2)) := by
  obtain ⟨h1, h2⟩ := h
  obtain ⟨ht, rfl, rfl⟩ := (drawsFrom_eq_some_iff hl).mp h1
  rcases sampleTurn_cases src job finish s with ⟨_, _, e⟩ | ⟨hn, _⟩ | ⟨hn, hk, _⟩
  · exact e
  · exact absurd ht hn
  · exact absurd (h2 _ hk) (by rw [hn]; simp)

/-- Else the command stays in flight with every word it may take taken (R153, R229), by a sampler that ends as it would have
with the words taken and those to come. -/
theorem sampleTurn_waits {s : State} {src : RandSource} {job : Sampling} (hl : job.Live)
    (h : ∀ rs left, ¬ s.Completes src job.drawsFrom rs left) (finish : List Poly → State → State) :
    ∃ job' wait, sampleTurn src job finish s =
        (s.withWords src (s.granted (s.wordsOf src)).2).keepSampling src job' wait ∧
      (∀ ws, job'.drawsFrom ws = job.drawsFrom ((s.granted (s.wordsOf src)).1 ++ ws)) ∧
      (s.turnLimit = none → wait = true) ∧
      (s.turnLimit = some 0 → wait = (s.status.rngwait && (s.wordsOf src).isEmpty)) ∧
      (∀ k, s.turnLimit = some (k + 1) → (wait = true ↔ (s.wordsOf src).length ≤ k)) := by
  have hd : (feedWords job (s.granted (s.wordsOf src)).1).2 = [] → ∀ ws,
      (feedWords job (s.granted (s.wordsOf src)).1).1.drawsFrom ws =
        job.drawsFrom ((s.granted (s.wordsOf src)).1 ++ ws) := by
    intro he ws; rw [drawsFrom_feedWords hl, he, List.nil_append]
  rcases sampleTurn_cases src job finish s with ⟨ht, hv, e⟩ | ⟨hn, hleft, hv, e⟩ | ⟨hleft, hk, e⟩
  · exact absurd ⟨(drawsFrom_eq_some_iff hl).mpr ⟨ht, rfl, rfl⟩, eventLeft_iff.mp hv⟩ (h _ _)
  · refine ⟨_, _, e, hd hleft, fun _ => rfl, fun hk => ?_, fun k hk => ?_⟩
    · have := eventLeft_iff.mp hv 0 hk; omega
    · have := eventLeft_iff.mp hv _ hk
      simp only [State.granted, hk, List.length_take] at this
      simp only [true_iff]
      omega
  · refine ⟨_, _, e, hd hleft, fun hk0 => ?_, fun hk0 => ?_, fun k hk1 => ?_⟩
    · rw [hk0] at hk; cases hk
    · simp [State.granted, hk0]
    · have hlen : (s.granted (s.wordsOf src)).1.length = k + 1 := by rw [hk1] at hk; exact (Option.some.inj hk).symm
      have hle : k + 1 ≤ (s.wordsOf src).length := by
        have := hlen
        simp only [State.granted, hk1, List.length_take] at this
        omega
      rw [hlen]
      simp only [Nat.succ_ne_zero, decide_false, Bool.and_false, Bool.false_and, Bool.false_eq_true, false_iff]
      omega

/-! ### The three sampling commands as one -/

/-- The end of a sampling command on its samples; other commands have none. -/
def finishOf : Instr → List Poly → State → State
  | .psmp rd _ => finishPsmp rd
  | .nenc rd rs1 rs2 => finishNenc rd rs1 rs2
  | .senc rs1 => finishSenc rs1
  | .nop | .cfgchk | .pclr _ | .pmov _ _ | .pmul _ _ _ | .padd _ _ _ | .pscl _ _ _ | .pred _ _ _ _ => fun _ s => s
  | .pinv _ _ _ | .pwck _ | .nencx _ _ _ | .ndec _ _ _ | .benc _ _ | .bdec _ _ | .bfin | .sdec _ _ => fun _ s => s

/-- The pre-checks of a sampling command (R225); other commands are not asked for theirs here. -/
def State.sampleChecks (s : State) : Instr → Option Report
  | .psmp _ w => firstReport [s.cfgGate, s.weightCheck w]
  | .nenc _ rs1 rs2 => firstReport [s.cfgGate, s.lenCheck rs1, s.lenCheck rs2]
  | .senc rs1 => firstReport [s.cfgGate, s.mlenCheck, s.lenCheck rs1]
  | .nop | .cfgchk | .pclr _ | .pmov _ _ | .pmul _ _ _ | .padd _ _ _ | .pscl _ _ _ | .pred _ _ _ _ => none
  | .pinv _ _ _ | .pwck _ | .nencx _ _ _ | .ndec _ _ _ | .benc _ _ | .bdec _ _ | .bfin | .sdec _ _ => none

theorem selectedWeights_eq (s : State) (w : WeightSel) : s.selectedWeights w = s.weights w := by cases w <;> rfl

/-- A sampling command is `sampled` of its checks, its samples and its end. -/
theorem exec_of_plan {s : State} {i : Instr} {np nm count : Nat} (h : s.samplePlan i = some (np, nm, count)) :
    exec i s = sampled (s.sampleChecks i) (startSampling s.n np nm count) (finishOf i) s := by
  cases i <;> simp only [State.samplePlan, Option.some.injEq, Prod.mk.injEq, reduceCtorEq] at h <;>
    obtain ⟨rfl, rfl, rfl⟩ := h
  · rw [selectedWeights_eq]; rfl
  · rfl
  · rfl

/-- A sampling command whose configuration, arguments and source tags are good passes its pre-checks. -/
theorem sampleChecks_eq_none {s : State} {i : Instr} (hc : s.status.cfgok = true) (ha : ∀ info, ¬ ArgError s i info)
    (ht : ∀ k ∈ sources i, s.plen[k] = s.cfgN) : s.sampleChecks i = none := by
  cases i <;> try rfl
  · next rd w =>
    have hw : s.weightCheck w = none := by
      unfold State.weightCheck
      by_cases h : (s.weights w).1 + (s.weights w).2 > s.n
      · exact absurd ⟨by rw [selectedWeights_eq]; exact h, rfl⟩ (ha _)
      · simp only [h, if_false]
    simp [State.sampleChecks, cfgGate_eq_none.mpr hc, hw]
  · next rd rs1 rs2 =>
    simp [State.sampleChecks, cfgGate_eq_none.mpr hc, lenCheck_eq_none.mpr (ht rs1 (by simp [sources])),
      lenCheck_eq_none.mpr (ht rs2 (by simp [sources]))]
  · next rs1 =>
    have hm : s.mlenCheck = none := by
      unfold State.mlenCheck
      split
      · next h => exact absurd ⟨h, rfl⟩ (ha _)
      · rfl
    simp [State.sampleChecks, cfgGate_eq_none.mpr hc, hm, lenCheck_eq_none.mpr (ht rs1 (by simp [sources]))]

/-- A turn of a sampling command, started or resumed, is a turn of a live sampler that draws its samples. -/
theorem exec_samples {s : State} {i : Instr} {src : RandSource} {draw : List Word → Option (List Poly × List Word)}
    (h : s.Samples i src draw) :
    ∃ job, job.Live ∧ job.drawsFrom = draw ∧ exec i s = .next (sampleTurn src job (finishOf i) s) ∧
      ((s.engine = .issued src ∧
          ∃ np nm count, s.samplePlan i = some (np, nm, count) ∧ job = startSampling s.n np nm count) ∨
       (s.engine = .sampling src job ∧ JobFits s i job)) := by
  cases h with
  | @starts np nm count issued cfgok arguments tags plan =>
    refine ⟨_, startSampling_live s.n np nm count, drawsFrom_startSampling .., ?_, .inl ⟨issued, _, _, _, plan, rfl⟩⟩
    rw [exec_of_plan plan]
    exact sampled_issued issued (sampleChecks_eq_none cfgok arguments tags) ..
  | resumes flight fits =>
    refine ⟨_, fits.draws, rfl, ?_, .inr ⟨flight, fits⟩⟩
    rw [exec_of_plan fits.order]
    exact sampled_resume flight ..

/-- The end of a sampling command takes no word. -/
theorem finishOf_wordsOf (i : Instr) (rs : List Poly) (src : RandSource) (s : State) :
    (finishOf i rs s).wordsOf src = s.wordsOf src := by
  cases i <;> cases src <;> simp [finishOf, finishPsmp, finishNenc, finishSenc, State.wordsOf]

/-- The end of a sampling command leaves the engine idle. -/
theorem finishOf_engine {i : Instr} {s u : State} (h : (s.samplePlan i).isSome = true) (rs : List Poly) :
    (finishOf i rs u).engine = .idle := by
  cases i <;> first | rfl | cases h

section KeepSampling

variable (s : State) (src : RandSource) (job : Sampling) (wait : Bool)

theorem keepSampling_drew : (s.keepSampling src job wait).drew = s.drew.keepSampling src job wait := rfl

theorem keepSampling_src (k : PReg) : (s.keepSampling src job wait).src k = s.src k := rfl

theorem keepSampling_blocks (l : Nat) : (s.keepSampling src job wait).blocks l = s.blocks l := by
  unfold State.blocks; rfl

theorem keepSampling_cipherOf (h : Poly) (l : Nat) (rs : List Poly) :
    (s.keepSampling src job wait).cipherOf h l rs = s.cipherOf h l rs := by
  unfold State.cipherOf; rfl

theorem keepSampling_writePoly_complete (k : PReg) (c : Poly) :
    ((s.keepSampling src job wait).writePoly k c).complete = (s.writePoly k c).complete := rfl

theorem keepSampling_writeCipher_complete (c : List Word) (l nb : Nat) :
    (((s.keepSampling src job wait).writeCipher c).setCipherLength l nb).complete =
      ((s.writeCipher c).setCipherLength l nb).complete := by
  simp only [State.writeCipher, State.setCipherLength, State.complete, State.keepSampling]

/-- The end of a sampling command does not depend on RNGWAIT or on the sampler in flight. -/
theorem finishOf_keepSampling {i : Instr} {t : State} (h : (t.samplePlan i).isSome = true) (rs : List Poly) :
    finishOf i rs (s.keepSampling src job wait) = finishOf i rs s := by
  cases i <;> try cases h
  · simp only [finishOf, finishPsmp, State.keepSampling_n, keepSampling_writePoly_complete]
  · simp only [finishOf, finishNenc, State.keepSampling_n, State.keepSampling_cfgQ, keepSampling_drew, keepSampling_src,
      keepSampling_writePoly_complete]
  · simp only [finishOf, finishSenc, State.keepSampling_n, State.keepSampling_mlen, keepSampling_drew, keepSampling_src,
      keepSampling_blocks, keepSampling_cipherOf, keepSampling_writeCipher_complete]

end KeepSampling

/-- The samples of R155 are as many as asked for, of N coefficients each. -/
theorem samplesFrom_length {n np nm count : Nat} {ws left : List Word} {rs : List Poly}
    (h : samplesFrom n np nm count ws = some (rs, left)) : rs.length = count ∧ ∀ r ∈ rs, r.length = n := by
  induction count generalizing ws rs with
  | zero =>
    simp only [samplesFrom, Option.some.injEq, Prod.mk.injEq] at h
    rw [← h.1]
    exact ⟨rfl, fun r hr => by cases hr⟩
  | succ count ih =>
    simp only [samplesFrom] at h
    cases h1 : sampleFrom n np nm ws with
    | none => rw [h1] at h; cases h
    | some p =>
      rw [h1] at h
      simp only at h
      cases h2 : samplesFrom n np nm count p.2 with
      | none => rw [h2] at h; cases h
      | some q =>
        rw [h2] at h
        simp only [Option.some.injEq, Prod.mk.injEq] at h
        obtain ⟨hl, hm⟩ := ih (ws := p.2) (rs := q.1) (by rw [h2, ← h.2])
        rw [← h.1]
        refine ⟨by rw [List.length_cons, hl], fun r hr => ?_⟩
        rcases List.mem_cons.mp hr with rfl | hr
        · unfold sampleFrom at h1
          split at h1 <;> cases h1
          exact ternaryAt_length ..
        · exact hm r hr

/-! ### The words a turn takes (R267) -/

theorem feedWord_drawsToMake {job : Sampling} (h : job.todo ≠ 0) (w : Word) :
    job.drawsToMake ≤ (feedWord job w).drawsToMake + 1 := by
  rcases feedWord_cases job w with e | ⟨_, _, e⟩ | ⟨h1, _, e⟩ <;> rw [e] <;> simp only [Sampling.drawsToMake]
  · omega
  · omega
  · obtain ⟨k, hk⟩ := Nat.exists_eq_succ_of_ne_zero h
    rw [hk, Nat.succ_mul]
    simp only [Nat.succ_eq_add_one, Nat.add_one_sub_one, ← h1]
    omega

/-- A sampler takes words from the front of those it is given, at least one for each draw it makes, and none when it is
done. -/
theorem feedWords_used (job : Sampling) (ws : List Word) :
    ∃ used, ws = used ++ (feedWords job ws).2 ∧
      job.drawsToMake ≤ used.length + (feedWords job ws).1.drawsToMake ∧ (job.todo = 0 → used = []) := by
  induction ws generalizing job with
  | nil => exact ⟨[], rfl, by simp [feedWords], fun _ => rfl⟩
  | cons w ws ih =>
    simp only [feedWords]
    split
    · exact ⟨[], rfl, by simp, fun _ => rfl⟩
    · next h =>
      obtain ⟨used, h1, h2, _⟩ := ih (feedWord job w)
      have := feedWord_drawsToMake h w
      refine ⟨w :: used, by rw [List.cons_append, ← h1], by rw [List.length_cons]; omega, fun h0 => absurd h0 h⟩

/-! ### A sampler that goes on -/

/-- Words given in two parts are the same as the words given at once. -/
theorem feedWords_append (job : Sampling) (a b : List Word) :
    feedWords job (a ++ b) =
      if (feedWords job a).1.todo = 0 then ((feedWords job a).1, (feedWords job a).2 ++ b)
      else feedWords (feedWords job a).1 b := by
  induction a generalizing job with
  | nil =>
    by_cases h : job.todo = 0
    · simp only [List.nil_append, feedWords, h, if_true]; exact feedWords_of_done h b
    · simp only [List.nil_append, feedWords, h, if_false]
  | cons w a ih =>
    by_cases h : job.todo = 0
    · simp only [List.cons_append, feedWords, h, if_true]
    · simp only [List.cons_append, feedWords, h, if_false]; exact ih _

/-! ### Weights (R156 (a)) -/

theorem swapAt_perm {i j : Nat} {idx : List Nat} (hi : i < idx.length) (hj : j < idx.length) :
    (swapAt i j idx).Perm idx := by
  unfold swapAt
  rw [List.getD_eq_getElem _ _ hi, List.getD_eq_getElem _ _ hj]
  exact List.set_set_perm hi hj

/-- Every draw keeps the index list a permutation of 0..N−1. -/
theorem shuffleFrom_perm {n todo t : Nat} {idx idx' : List Nat} {ws left : List Word} (hp : idx.Perm (List.range n))
    (ht : t + todo ≤ n) (h : shuffleFrom n todo t idx ws = some (idx', left)) : idx'.Perm (List.range n) := by
  induction todo generalizing t idx ws with
  | zero => simp only [shuffleFrom, Option.some.injEq, Prod.mk.injEq] at h; rw [← h.1]; exact hp
  | succ todo ih =>
    simp only [shuffleFrom] at h
    cases hd : drawIndex (n - t) ws with
    | none => rw [hd] at h; cases h
    | some p =>
      obtain ⟨u, ws'⟩ := p
      rw [hd] at h
      have hu : u < n - t := by
        clear h
        induction ws with
        | nil => cases hd
        | cons w ws ihw =>
          rw [drawIndex_cons] at hd
          split at hd
          · simp only [Option.some.injEq, Prod.mk.injEq] at hd
            rw [← hd.1]
            exact Nat.mod_lt _ (by omega)
          · exact ihw hd
      have hl : idx.length = n := by rw [hp.length_eq, List.length_range]
      exact ih ((swapAt_perm (by omega) (by omega)).trans hp) (by omega) h

/-- Coefficient i after the positions `l` were set to `v`. -/
theorem foldl_set_getD (l : List Nat) (v : Int) (c : Poly) {i : Nat} (hi : i < c.length) :
    (l.foldl (fun s j => s.set j v) c).getD i 0 = if i ∈ l then v else c.getD i 0 := by
  induction l generalizing c with
  | nil => simp
  | cons j l ih =>
    rw [List.foldl_cons, ih _ (by rw [List.length_set]; exact hi)]
    by_cases h : i ∈ l
    · rw [if_pos h, if_pos (List.mem_cons_of_mem _ h)]
    · rw [if_neg h]
      by_cases hij : i = j
      · subst hij
        rw [if_pos (List.mem_cons_self ..)]
        simp [List.getD_eq_getElem?_getD, hi]
      · rw [if_neg (by simp [hij, h])]
        simp [List.getD_eq_getElem?_getD, Ne.symm hij]

/-- R156 (a): a sample from a permutation of the positions has the exact weights. -/
theorem ternary_ternaryAt {n np nm : Nat} {idx : List Nat} (hp : idx.Perm (List.range n)) (hw : np + nm ≤ n) :
    Ternary n np nm (ternaryAt n np nm idx) := by
  have hl : idx.length = n := by rw [hp.length_eq, List.length_range]
  have hz : (zeroPoly n).length = n := List.length_replicate
  have hnd : idx.Nodup := hp.nodup_iff.mpr List.nodup_range
  have hlen : (ternaryAt n np nm idx).length = n := ternaryAt_length n np nm idx
  have hval : ∀ i, i < n → (ternaryAt n np nm idx).getD i 0 =
      if i ∈ (idx.drop np).take nm then -1 else if i ∈ idx.take np then 1 else 0 := by
    intro i hi
    rw [ternaryAt, foldl_set_getD _ _ _ (by rw [foldl_set_length, hz]; exact hi),
      foldl_set_getD _ _ _ (by rw [hz]; exact hi)]
    have h0 : (zeroPoly n).getD i 0 = 0 := by simp [zeroPoly, List.getD_eq_getElem?_getD, hi]
    rw [h0]
  have hmap : ternaryAt n np nm idx =
      (List.range n).map (fun i => if i ∈ (idx.drop np).take nm then -1 else if i ∈ idx.take np then 1 else 0) := by
    apply List.ext_getElem
    · simp [hlen]
    · intro i h1 h2
      have := hval i (by rw [hlen] at h1; exact h1)
      rw [List.getD_eq_getElem _ _ h1] at this
      simp [this]
  have hperm : (ternaryAt n np nm idx).Perm
      (idx.map (fun i => if i ∈ (idx.drop np).take nm then -1 else if i ∈ idx.take np then 1 else 0)) := by
    rw [hmap]; exact (hp.map _).symm
  have hsplit : idx = idx.take np ++ ((idx.drop np).take nm ++ (idx.drop np).drop nm) := by
    rw [List.take_append_drop, List.take_append_drop]
  have hnd' := hnd
  rw [hsplit, List.nodup_append] at hnd'
  obtain ⟨_, hnd2, hd1⟩ := hnd'
  rw [List.nodup_append] at hnd2
  obtain ⟨_, _, hd2⟩ := hnd2
  have hm : ∀ g : Nat → Int, idx.map g =
      (idx.take np).map g ++ (((idx.drop np).take nm).map g ++ ((idx.drop np).drop nm).map g) := by
    intro g
    conv_lhs => rw [hsplit]
    rw [List.map_append, List.map_append]
  have hparts : (ternaryAt n np nm idx).Perm
      (List.replicate np (1 : Int) ++ (List.replicate nm (-1 : Int) ++ List.replicate (n - np - nm) (0 : Int))) := by
    refine hperm.trans (List.Perm.of_eq ?_)
    rw [hm]
    have e1 : (idx.take np).map (fun i => if i ∈ (idx.drop np).take nm then (-1 : Int)
        else if i ∈ idx.take np then 1 else 0) = List.replicate np 1 := by
      rw [List.eq_replicate_iff]
      refine ⟨by simp; omega, fun x hx => ?_⟩
      obtain ⟨i, hi, rfl⟩ := List.mem_map.mp hx
      rw [if_neg (fun h => hd1 i hi i (List.mem_append_left _ h) rfl), if_pos hi]
    have e2 : ((idx.drop np).take nm).map (fun i => if i ∈ (idx.drop np).take nm then (-1 : Int)
        else if i ∈ idx.take np then 1 else 0) = List.replicate nm (-1) := by
      rw [List.eq_replicate_iff]
      refine ⟨by simp; omega, fun x hx => ?_⟩
      obtain ⟨i, hi, rfl⟩ := List.mem_map.mp hx
      rw [if_pos hi]
    have e3 : ((idx.drop np).drop nm).map (fun i => if i ∈ (idx.drop np).take nm then (-1 : Int)
        else if i ∈ idx.take np then 1 else 0) = List.replicate (n - np - nm) 0 := by
      rw [List.eq_replicate_iff]
      refine ⟨by simp; omega, fun x hx => ?_⟩
      obtain ⟨i, hi, rfl⟩ := List.mem_map.mp hx
      rw [if_neg (fun h => hd2 i h i hi rfl), if_neg (fun h => hd1 i h i (List.mem_append_right _ hi) rfl)]
    rw [e1, e2, e3]
  refine ⟨hlen, ?_, ?_, ?_⟩
  all_goals
    rw [hparts.count_eq]
    simp [List.count_append, List.count_replicate]

/-! ### A sampler that fits its command -/

/-- A draw keeps the index list a permutation. -/
theorem swapAt_draw_perm {n t m : Nat} {idx : List Nat} (hp : idx.Perm (List.range n)) (ht : t < n) :
    (swapAt t (t + m % (n - t)) idx).Perm (List.range n) := by
  have hl : idx.length = n := by rw [hp.length_eq, List.length_range]
  have hm : m % (n - t) < n - t := Nat.mod_lt _ (by omega)
  exact (swapAt_perm (by omega) (by omega)).trans hp

/-- A word keeps a sampler's fit (R155, R156 (a)). -/
theorem feedWord_fits {s : State} {i : Instr} {job : Sampling} (h : JobFits s i job) (h0 : job.todo ≠ 0) (w : Word) :
    JobFits s i (feedWord job w) := by
  have ht := h.draws (by omega)
  have hr := h.room
  have hp : (swapAt job.t (job.t + uval w % (job.n - job.t)) job.idx).Perm (List.range job.n) :=
    swapAt_draw_perm h.perm (by omega)
  have hl := feedWord_live h.draws w
  unfold feedWord at hl ⊢
  dsimp only at hl ⊢
  split
  · next ha =>
    rw [if_pos ha] at hl
    split
    · next hlast =>
      rw [if_pos hlast] at hl
      refine ⟨h.checked, ?_, h.size, hr, hl, List.Perm.refl _, fun c hc => ?_⟩
      · rw [h.order]
        simp only [List.length_append, List.length_cons, List.length_nil]
        congr 3
        omega
      · rcases List.mem_append.mp hc with hc | hc
        · exact h.samples c hc
        · rw [List.mem_singleton.mp hc]; exact ternary_ternaryAt hp hr
    · next hlast =>
      rw [if_neg hlast] at hl
      exact ⟨h.checked, h.order, h.size, hr, hl, hp, h.samples⟩
  · exact h

/-- Words keep a sampler's fit. -/
theorem feedWords_fits {s : State} {i : Instr} {job : Sampling} (h : JobFits s i job) (ws : List Word) :
    JobFits s i (feedWords job ws).1 := by
  induction ws generalizing job with
  | nil => exact h
  | cons w ws ih =>
    simp only [feedWords]
    split
    · exact h
    · next h0 => exact ih (feedWord_fits h h0 w)

/-- Samples without draws are the zero polynomial. -/
theorem ternary_zeroPoly (n : Nat) : Ternary n 0 0 (zeroPoly n) :=
  ⟨List.length_replicate, by simp [zeroPoly, List.count_replicate], by simp [zeroPoly, List.count_replicate],
    by simp [zeroPoly]⟩

/-- The sampler of a command that starts, its arguments passing the checks, fits it. -/
theorem startSampling_fits {s : State} {i : Instr} {np nm count : Nat} (hc : ∀ info, ¬ ArgError s i info)
    (hplan : s.samplePlan i = some (np, nm, count)) (hr : np + nm ≤ s.n) :
    JobFits s i (startSampling s.n np nm count) := by
  have hl := startSampling_live s.n np nm count
  unfold startSampling at hl ⊢
  split
  · next h0 =>
    obtain ⟨rfl, rfl⟩ : np = 0 ∧ nm = 0 := by omega
    refine ⟨hc, by simpa using hplan, rfl, hr, fun h => absurd h (by simp), List.Perm.refl _, fun c hm => ?_⟩
    rw [List.eq_of_mem_replicate hm]
    exact ternary_zeroPoly s.n
  · next h0 =>
    rw [if_neg h0] at hl
    exact ⟨hc, by simpa using hplan, rfl, hr, hl, List.Perm.refl _, fun c hm => by cases hm⟩

end Sys2Proof.Machine
end

