-- ==== Sys2Proof/Tests/Slice0.lean ====
section
/-! SUPPORT. Tests/Slice0.lean: the model's own tests. Expected values are those of spec/95_test_vectors.md (V-…, P…) and of
the examples of the rules. Behind them stand the witnesses: for every statement with hypotheses, states and operands that
meet them. -/

namespace Sys2Proof.Tests

open Sys2Proof Sys2Proof.Machine

-- One theorem at a time: every `decide +kernel` waits for the kernel, and each wait would keep a thread.
set_option Elab.async false

/-! ### WellFormed and Decode -/

/-- A block index that does not fit IMM is refused; the largest that fits is accepted (R82, R87). -/
theorem test_wellformed_refuses_wide_benc : ¬ WellFormed (.benc 2 16384) ∧ WellFormed (.benc 2 16383) := by decide

theorem test_wellformed_refuses_wide_bdec : ¬ WellFormed (.bdec 2 16384) ∧ WellFormed (.bdec 2 16383) := by decide

/-- The encoding check of 95_test_vectors.md, control and ring commands. -/
theorem test_decode_ring_words :
    decode 0x00000000 = .ok .nop ∧ decode 0x04000000 = .ok .cfgchk ∧ decode 0x0B000000 = .ok (.pclr 6) ∧
    decode 0x0FA00000 = .ok (.pmov 7 2) ∧ decode 0x11940000 = .ok (.pmul 3 1 2) ∧
    decode 0x17F20000 = .ok (.padd 7 7 1) ∧ decode 0x1BA00000 = .ok (.pscl 7 2 .p) ∧
    decode 0x1A910000 = .ok (.pscl 5 1 .m) ∧ decode 0x1DB08000 = .ok (.pred 3 3 .q .centred) ∧
    decode 0x1F604000 = .ok (.pred 6 6 .p .unsigned) ∧ decode 0x28100000 = .ok (.pwck 1) := by decide

/-- The encoding check, the other commands. -/
theorem test_decode_other_words :
    decode 0x22000000 = .ok (.pinv 4 0 .p) ∧ decode 0x21008000 = .ok (.pinv 2 0 .q) ∧
    decode 0x25800001 = .ok (.psmp 3 .g) ∧ decode 0x24000000 = .ok (.psmp 0 .f) ∧ decode 0x24800003 = .ok (.psmp 1 .x) ∧
    decode 0x2F140000 = .ok (.nenc 6 1 2) ∧ decode 0x31940000 = .ok (.nencx 3 1 2) ∧
    decode 0x374A0000 = .ok (.ndec 6 4 5) ∧ decode 0x39000001 = .ok (.benc 2 1) ∧ decode 0x3C200000 = .ok (.bdec 2 0) ∧
    decode 0x3C200BA3 = .ok (.bdec 2 2979) ∧ decode 0x40000000 = .ok .bfin ∧ decode 0x44400000 = .ok (.senc 4) ∧
    decode 0x48020000 = .ok (.sdec 0 1) := by decide

/-- V-CTL-2 and V-CTL-14 to V-CTL-21, with why each word is illegal. -/
theorem test_decode_illegal_words :
    decode 0x00000001 = .error .unusedField ∧ decode 0x4C000000 = .error .reservedOpcode ∧
    decode 0xFC000000 = .error .reservedOpcode ∧ decode 0x18A18000 = .error .reservedMsel ∧
    decode 0x11940001 = .error .unusedField ∧ decode 0x08900000 = .error .unusedField ∧
    decode 0x04000001 = .error .unusedField ∧ decode 0x24800004 = .error .unusedField ∧
    decode 0x44C00000 = .error .unusedField := by decide

theorem test_encode_words :
    encode (.pmul 3 1 2) = 0x11940000 ∧ encode (.pred 3 3 .q .centred) = 0x1DB08000 ∧
    encode (.pinv 4 0 .p) = 0x22000000 ∧ encode (.benc 2 1) = 0x39000001 ∧ encode (.bdec 2 2979) = 0x3C200BA3 := by decide

/-! ### Small states -/

/-- The state after a successful CFGCHK of the parameters, with the host FIFO as the random source. -/
def configured (n p q df dg dr : Half) : State :=
  { State.reset with
    ctrl := ⟨false, .fifo⟩
    status := { resetStatus with cfgok := true }
    cfgN := n
    cfgP := p
    cfgQ := q
    cfgDf := df
    cfgDg := dg
    cfgDr := dr }

/-- Configuration S of 95_test_vectors.md. -/
def configS : State := configured 7 3 32 2 2 2

/-- Configuration W of 95_test_vectors.md. -/
def configW : State := configured 11 3 64 3 2 2

/-- "Load Pk ← c" of 95_test_vectors.md: the slots and the tag. -/
def load (k : PReg) (c : Poly) (s : State) : State :=
  { s with p := s.p.set k (bufOfList (c.map wrap32)), plen := s.plen.set k (BitVec.ofNat 16 c.length) }

/-- BBUF from index 0 on, and MLEN. -/
def loadMessage (b : List Byte) (s : State) : State :=
  { s with bbuf := bufOfList b, mlen := BitVec.ofNat 16 b.length }

/-- CBUF from index 0 on, and CLEN. -/
def loadCipher (c : Poly) (s : State) : State :=
  { s with cbuf := bufOfList (c.map wrap32), clen := BitVec.ofNat 16 c.length }

/-- The outcome is a next state with `p`. -/
def nextWith (o : Host.Outcome State Fault Refusal) (p : State → Bool) : Bool :=
  match o with
  | .next t => p t
  | .fault _ => false
  | .refused _ => false

theorem exists_next {o : Host.Outcome State Fault Refusal} (p : State → Bool) (h : nextWith o p = true) :
    ∃ t, o = .next t ∧ p t = true := by
  cases o with
  | next t => exact ⟨t, rfl, h⟩
  | fault f => exact absurd h (by simp [nextWith])
  | refused r => exact absurd h (by simp [nextWith])

/-- One step that runs the command word `w` issued in `s` gives a next state with `p`. -/
def runs (w : Word) (s : State) (p : State → Bool) : Bool := nextWith (step (s.issue w)) p

/-- The stored coefficients 0 .. N−1 of register `k`; a slot without a value gives none. -/
def stored (t : State) (k : PReg) : List (Option Int) := (List.range t.n).map (fun i => (t.slot k i).map val)

/-- Register `k` holds exactly `c`, with its tag, and 0 in the slots above (where it is looked at). -/
def holds (t : State) (k : PReg) (c : Poly) : Bool :=
  decide (stored t k = c.map some) && decide (t.plen[k].toNat = c.length) && decide (t.slot k c.length = some 0) &&
    decide (t.slot k 1023 = some 0) && decide (t.slot k 1024 = none)

/-! ### Control -/

/-- V-CTL-1: NOP needs no CFGOK. -/
theorem test_nop : runs 0x00000000 State.reset (fun t => statusWord t.status == 0x00000002) = true := by decide

/-- V-CTL-2 and V-CTL-22. -/
theorem test_illegal_word :
    runs 0x00000001 State.reset (fun t =>
      statusWord t.status == 0x00010002 && t.errcmd == 0x00000001 && t.errinfo == 0) = true ∧
    runs 0x11940001 State.reset (fun t => statusWord t.status == 0x00010002) = true := by decide

/-- V-CTL-3. -/
theorem test_cfgchk_after_reset :
    runs 0x04000000 State.reset (fun t => statusWord t.status == 0x00020002 && t.errinfo == 0x10D) = true := by decide

/-- V-CTL-12 (W) and V-CTL-10: 8p = q and 2·1 = N pass, gcd(3, 24) does not. -/
theorem test_cfgchk_passes_and_fails :
    runs 0x04000000 { configW with status := resetStatus } (fun t => statusWord t.status == 0x00000006) = true ∧
    runs 0x04000000 (configured 2 3 24 1 1 1) (fun t => statusWord t.status == 0x00020002 && t.errinfo == 0x008) = true := by
  decide +kernel

/-! ### Ring arithmetic -/

/-- V-RNG-1. -/
theorem test_pmul :
    runs 0x11940000 (load 1 [3, -1, 0, 2, 0, 0, -4] (load 2 [1, 0, -1, 0, 0, 2, 0] configS))
      (fun t => holds t 3 [3, 7, -3, 3, -8, 4, -6] && statusWord t.status == 0x00000006) = true := by decide +kernel

/-- V-RNG-2: 2^32 wraps to 0, with OVF. -/
theorem test_pmul_overflow :
    runs 0x11920000 (load 1 [65536, 0, 0, 0, 0, 0, 0] configS)
      (fun t => holds t 3 [0, 0, 0, 0, 0, 0, 0] && statusWord t.status == 0x00000026) = true := by decide +kernel

/-- V-RNG-4. -/
theorem test_padd_overflow :
    runs 0x15940000 (load 1 [0x7FFFFFFF, -2147483648, 5, 0, 0, 0, 0] (load 2 [1, -1, -5, 0, 0, 0, 0] configS))
      (fun t => holds t 3 [-2147483648, 2147483647, 0, 0, 0, 0, 0] && t.status.ovf) = true := by decide +kernel

/-- V-RNG-5 and V-RNG-6: MODARG is a signed scalar. -/
theorem test_pscl :
    runs 0x1A900000 (load 1 [29, 20, 9, 11, 30, 13, 17] configS)
      (fun t => holds t 5 [87, 60, 27, 33, 90, 39, 51] && !t.status.ovf) = true ∧
    runs 0x1A910000 (load 1 [-2147483648, 1, -1, 0, 0, 0, 7] { configS with modarg := 0xFFFFFFFF })
      (fun t => holds t 5 [-2147483648, -1, 1, 0, 0, 0, -7] && t.status.ovf) = true := by decide +kernel

/-- V-RNG-8: the tag 9 and an unspecified slot are copied as they are. -/
theorem test_pmov :
    runs 0x0FA00000 { load 2 [1, -2, 3] configS with plen := configS.plen.set 2 9 }
      (fun t => t.slot 7 1 == some (wrap32 (-2)) && t.slot 7 3 == none && t.plen[7] == 9) = true := by decide

/-- V-RNG-9. -/
theorem test_pclr : runs 0x0B000000 configS (fun t => holds t 6 [0, 0, 0, 0, 0, 0, 0]) = true := by decide +kernel

/-- V-RNG-12: m/2 stays +16, on values of both ends. -/
theorem test_pred_centred :
    runs 0x1D108000 (load 1 [16, -16, 48, -17, 17, 0x7FFFFFFF, -2147483648] configS)
      (fun t => holds t 2 [16, 16, 16, 15, -15, -1, 0]) = true := by decide +kernel

/-- V-RNG-11 (unsigned, MODARG = 3) and V-RNG-18: E_ARG comes before E_LEN. -/
theorem test_pred_unsigned_and_argument :
    runs 0x1D114000 (load 1 [-5, -4, -3, -2, -1, 0, 1] { configS with modarg := 3 })
      (fun t => holds t 2 [1, 2, 0, 1, 2, 0, 1]) = true ∧
    runs 0x1D110000 { configS with plen := configS.plen.set 1 5 }
      (fun t => statusWord t.status == 0x00050006 && t.errinfo == 0) = true := by decide +kernel

/-- V-RNG-19. -/
theorem test_pwck_not_ternary :
    runs 0x28100000 (load 1 [1, -1, 0, 2, 1, 0, -1] configS)
      (fun t => t.wplus == 2 && t.wminus == 2 && t.wother == 1 && statusWord t.status == 0x00000006) = true := by
  decide +kernel

/-- V-RNG-20. -/
theorem test_pwck_ternary :
    runs 0x28100000 (load 1 [1, -1, 0, 0, 1, 0, -1] configS)
      (fun t => t.wother == 0 && statusWord t.status == 0x00000016) = true := by decide +kernel

/-! ### The inverse -/

/-- V-INV-2: a prime-power modulus. -/
theorem test_pinv :
    runs 0x22108000 (load 1 [1, 1, -1, 0, 0, 0, 0] configS)
      (fun t => holds t 4 [29, 20, 9, 11, 30, 13, 17] && statusWord t.status == 0x00000006) = true := by decide +kernel

/-- V-INV-3: no inverse leaves P2 and its tag. -/
theorem test_pinv_not_invertible :
    runs 0x21100000 (load 1 [1, -1, 0, 0, 0, 0, 0] configS)
      (fun t => statusWord t.status == 0x0000000E && t.p[2] == [] && t.plen[2] == 0) = true := by decide +kernel

/-! ### The sampler -/

/-- V-SMP-1. -/
theorem test_psmp :
    runs 0x24000000 { configS with fifo := [3, 10, 0] }
      (fun t => holds t 0 [0, 0, -1, 1, 0, 1, 0] && t.fifo == []) = true := by decide +kernel

/-- V-SMP-2: the first two words are rejected. -/
theorem test_psmp_rejects_words :
    runs 0x24800001 { configS with fifo := [0xFFFFFFFF, 0xFFFFFFFC, 0xFFFFFFFB, 6, 5, 4] }
      (fun t => holds t 1 [0, 1, -1, -1, 0, 0, 1] && t.fifo == []) = true := by decide +kernel

/-! ### Keys, message and ciphertext of configuration W (95_test_vectors.md, Cryptor and program P2) -/

def keyH : Poly := [-16, -20, 14, -1, 18, -26, 21, 25, 4, -31, 12]
def keyF : Poly := [0, 0, -1, -1, 0, 1, 0, 0, 1, 1, 0]
def keyFp : Poly := [1, 0, 1, 2, 1, 1, 1, 1, 1, 2, 2]
def keyFq : Poly := [45, 11, 3, 17, 36, 25, 23, 5, 34, 8, 50]
def keyG : Poly := [-1, -1, 0, 0, 0, 0, 0, 1, 0, 0, 1]
def blockM : Poly := [1, 0, 1, 1, 0, 0, 1, 0, 0, 0, 1]
def blockR : Poly := [1, 0, 0, -1, 0, 1, 0, 0, -1, 0, 0]
def blockE : Poly := [3, 18, -31, 28, 25, 4, -30, 9, -19, -14, 12]

/-- The ciphertext of "hi" (V-CHN-1). -/
def cipherHi : Poly := [24, 10, -3, 32, 18, 5, 6, -17, 24, 14, 20] ++ [9, -15, -14, 8, 3, 18, 32, 24, 28, 1, -28]

/-- The state in which P0 = f, P1 = fp and CBUF holds the ciphertext of "hi". -/
def receiver : State := load 0 keyF (load 1 keyFp (loadCipher cipherHi configW))

/-! ### The codec -/

/-- V-COD-1, and V-COD-3: block 2 is no block of the message. -/
theorem test_benc :
    runs 0x39000000 (loadMessage [0x68, 0x69] configW)
      (fun t => holds t 2 [0, 1, 1, 0, 1, 0, 0, 0, 0, 1, 1] && t.nblk == 2) = true ∧
    runs 0x39000002 (loadMessage [0x68, 0x69] configW)
      (fun t => statusWord t.status == 0x00050006 && t.errinfo == 2) = true := by decide +kernel

/-- V-COD-6. -/
theorem test_bdec :
    runs 0x3C200000 (load 2 [0, 1, 1, 0, 1, 0, 0, 0, 0, 1, 1] (loadMessage [0, 0, 0, 0] configW))
      (fun t => t.bbuf == [(0, 0x68), (1, 0x60), (2, 0), (3, 0)] && t.nblk == 1) = true := by decide +kernel

/-- V-COD-9: a 1 beyond BBUF. -/
theorem test_bdec_beyond_buffer :
    runs 0x3C200BA3 (load 2 [0, 0, 0, 0, 0, 0, 0, 0, 0, 0, 1] configW)
      (fun t => statusWord t.status == 0x00040006 && t.errinfo == 0x800B && t.bbuf == []) = true := by decide +kernel

/-- V-COD-12: the message's own trailing 0x00 is trimmed; V-COD-11: bit 16 after the last whole byte. -/
theorem test_bfin :
    runs 0x40000000 { loadMessage [0x61, 0x00, 0x00] configW with nblk := 2 } (fun t => t.mlen == 1) = true ∧
    runs 0x40000000 { loadMessage [0x61, 0x10, 0x80] configW with nblk := 2 }
      (fun t => statusWord t.status == 0x00040006 && t.errinfo == 0x10 && t.mlen == 3) = true := by decide +kernel

/-! ### The cryptor -/

/-- V-CRY-3. -/
theorem test_nenc :
    runs 0x2F140000 (load 1 keyH (load 2 blockM { configW with fifo := [0, 4, 1, 5] }))
      (fun t => holds t 6 blockE && t.fifo == []) = true := by decide +kernel

/-- V-CRY-1. -/
theorem test_nencx :
    runs 0x31940000 (load 1 keyH (load 2 blockM (load 3 blockR configW))) (fun t => holds t 3 blockE) = true := by
  decide +kernel

/-- V-CRY-2. -/
theorem test_ndec :
    runs 0x35CA0000 (load 3 blockE (load 4 keyF (load 5 keyFp configW))) (fun t => holds t 3 blockM) = true := by
  decide +kernel

/-- V-CRY-5: the missing coefficient reads as 0; V-CRY-4: one coefficient too many. -/
theorem test_ndec_lengths :
    runs 0x374A0000 (load 6 (blockE.take 10) (load 4 keyF (load 5 keyFp configW))) (fun t => holds t 6 blockM) = true ∧
    runs 0x374A0000 (load 6 (blockE ++ [0]) (load 4 keyF (load 5 keyFp configW)))
      (fun t => statusWord t.status == 0x00040006 && t.errinfo == 12) = true := by decide +kernel

/-! ### Whole messages -/

/-- V-CHN-1. -/
theorem test_senc :
    runs 0x44400000
      (load 4 keyH (loadMessage [0x68, 0x69] { configW with fifo := [0x01234567, 0x89ABCDEF, 5, 9, 0xA, 2, 3, 4] }))
      (fun t => t.cbuf == bufOfList (cipherHi.map wrap32) && t.clen == 22 && t.nblk == 2 && t.fifo == []) = true := by
  decide +kernel

/-- V-CHN-2 (P3: BBUF cleared before). -/
theorem test_sdec :
    runs 0x48020000 { receiver with bbuf := bufOfList [0, 0, 0, 0] } (fun t =>
      bufGet t.bbuf 0 == some 0x68 && bufGet t.bbuf 1 == some 0x69 && t.mlen == 2 && t.nblk == 2) = true := by
  decide +kernel

/-- V-CHN-8: block 0 decrypts to a −1; BBUF is unspecified afterwards. -/
theorem test_sdec_no_bit :
    runs 0x48020000 { receiver with cbuf := bufPut receiver.cbuf 0 29, bbuf := [(0, 1)] }
      (fun t => statusWord t.status == 0x00040006 && t.errinfo == 0 && t.bbuf == [] && t.mlen == 0) = true := by
  decide +kernel

/-! ### The bus, interrupts and reset -/

/-- V-BUS-1. -/
theorem test_identity_reads :
    nextWith (step { State.reset with agenda := [.read .word 0x000] }) (fun t => t.bus == ⟨0x4E545255, false⟩) = true ∧
    nextWith (step { State.reset with agenda := [.read .word 0x088] }) (fun t => t.bus == ⟨33792, false⟩) = true := by decide

/-- V-BUS-2. -/
theorem test_interrupt :
    runs 0 { State.reset with ctrl := ⟨true, .port⟩ } (fun t =>
      t.irq && nextWith (step { t with agenda := [.write .word 0x00C 2] }) (fun u => !u.irq)) = true := by decide

/-- P5, steps 7 to 9: a command that waits, an ignored write, a dropped command. -/
theorem test_waiting_command :
    runs 0x24800001 configS (fun t =>
      statusWord t.status == 0x00000205 &&
      nextWith (step { t with agenda := [.write .word 0x020 11] })
        (fun u => statusWord u.status == 0x00000285 && u.cfgN == 7) &&
      nextWith (step { t with agenda := [.write .word 0x010 0] })
        (fun u => statusWord u.status == 0x00000245 && u.cmd == 0x24800001)) = true := by decide +kernel

/-- P5, steps 10 and 11: words come one by one and the command completes. -/
theorem test_words_come_later :
    runs 0x24800001 { configS with fifo := [3, 10, 0] } (fun t =>
      statusWord t.status == 0x00000205 &&
      nextWith (step { t with fifo := t.fifo ++ [1] })
        (fun u => holds u 1 [0, 0, -1, 1, -1, 1, 0] && statusWord u.status == 0x00000006)) = true := by decide +kernel

/-- V-BUS-4. -/
theorem test_fifo_full :
    nextWith (step { State.reset with fifo := List.replicate 64 0, agenda := [.write .word 0x01C 5] })
      (fun t => t.status.rngovr && t.fifo.length == 64) = true := by decide

/-- R229: the last word is taken, the host reads RNGDATA (0 words left) and STATUS (BUSY = 1, RNGWAIT = 0), and then the
command completes. -/
theorem test_completion_is_an_event :
    nextWith (step { { configS with fifo := [3, 10, 0] }.issue 0x24000000 with agenda := [.engine (some 3)] }) (fun t =>
      nextWith (step { t with agenda := [.read .word 0x01C] }) (fun u => u.bus == ⟨0, false⟩) &&
      nextWith (step { t with agenda := [.read .word 0x00C] }) (fun u => u.bus == ⟨0x00000005, false⟩) &&
      nextWith (step { t with agenda := [.engine (some 1)] })
        (fun u => holds u 0 [0, 0, -1, 1, 0, 1, 0] && statusWord u.status == 0x00000006)) = true := by decide +kernel

/-- R153 and R28: RNGWAIT, risen for want of a word, falls with the word that arrives, before it is taken or when it is. -/
theorem test_rngwait_falls :
    runs 0x24800001 configS (fun t => t.status.rngwait &&
      nextWith (step { t with fifo := [3], agenda := [.engine (some 0)] }) (fun u => !u.status.rngwait && u.fifo == [3]) &&
      nextWith (step { t with fifo := [3], agenda := [.engine (some 1)] }) (fun u => !u.status.rngwait && u.fifo == []) &&
      nextWith (step { t with agenda := [.engine (some 0)] }) (fun u => u.status.rngwait)) = true := by decide +kernel

/-! ### Another build (R8, R54) -/

/-- A build of 8 slots, 6 bytes (one and a half words), 8·6 + 8 − 1 coefficient words and two random words. -/
def smallBuild : Config.Build := ⟨8, 6, 55, 2⟩

theorem test_small_build_is_valid : smallBuild.Valid ∧ Config.thisHardware.Valid ∧ ¬ (⟨8, 6, 54, 2⟩ : Config.Build).Valid := by
  decide

/-- What one host read returns in the small build, nothing being listed but what `s` lists. -/
def smallRead (off : Nat) (s : State) : Option Word :=
  match step { s with agenda := [.read .word off] } with
  | .next t => some t.bus.data
  | .fault _ => none
  | .refused _ => none

/-- The CAP registers (R40); slot 8, the word behind BBUF and the word behind CBUF are reserved (R54); the last word of BBUF
has two bytes (log entry 20). -/
theorem test_small_build_reads :
    let s := { State.resetOf smallBuild with bbuf := [(4, 0xAA), (5, 0xBB)], p := State.reset.p.set 0 [(7, 9)] }
    smallRead 0x080 s = some 8 ∧ smallRead 0x084 s = some 6 ∧ smallRead 0x088 s = some 55 ∧ smallRead 0x08C s = some 2 ∧
    smallRead 0x101C s = some 9 ∧ smallRead 0x1020 s = some 0 ∧ smallRead 0x9004 s = some 0x0000BBAA ∧
    smallRead 0x9008 s = some 0 ∧ smallRead 0x100DC s = some 0 := by decide +kernel

/-- A write of the last word writes two bytes; a third random word sets RNGOVR; N = 11 is above NMAX (R103, bit 1). -/
theorem test_small_build_limits :
    nextWith (step { State.resetOf smallBuild with agenda := [.write .word 0x9004 0x44332211] })
      (fun t => t.bbuf == [(4, 0x11), (5, 0x22)]) = true ∧
    nextWith (step { State.resetOf smallBuild with fifo := [1, 2], agenda := [.write .word 0x01C 3] })
      (fun t => t.fifo == [1, 2] && t.status.rngovr) = true ∧
    runs 0x04000000 { configW with build := smallBuild }
      (fun t => statusWord t.status == 0x00020002 && t.errinfo == 0x002) = true := by decide +kernel

/-! ### Witnesses: encoding and steps -/

theorem witness_DecodeEncodeAgree :
    WellFormed (.bdec 7 16383) ∧ decode 0x3C703FFF = .ok (.bdec 7 16383) := by decide

theorem witness_DecodeFollowsOpcodeMap :
    decode 0x1DB08000 = .ok (.pred 3 3 .q .centred) ∧
    ∃ row ∈ opcodeMap, row.matches 0x1DB08000 :=
  ⟨by decide, ⟨"PRED", 0x1C000000, 0xFC0E3FFF, true⟩, by decide, by decide, by decide⟩

/-- The first and the last reserved opcode, and a busy state with an illegal word, with and without an agenda. -/
theorem witness_IllegalWordsReportIllegal :
    0x13 ≤ (0x4C000000 : Word).toNat / 2 ^ 26 ∧ 0x13 ≤ (0xFC000000 : Word).toNat / 2 ^ 26 ∧
    (∃ (s : State) (e : Illegal), s.status.busy = true ∧ decode s.cmd = .error e ∧ s.agenda = [.engine (some 0)]) ∧
    (∃ (s : State) (e : Illegal), s.status.busy = true ∧ decode s.cmd = .error e ∧ s.agenda = []) :=
  ⟨by decide, by decide,
   ⟨{ State.reset.issue 0x00000001 with agenda := [.engine (some 0)] }, .unusedField, by decide, by decide, rfl⟩,
   ⟨State.reset.issue 0x4C000000, .reservedOpcode, by decide, by decide, rfl⟩⟩

theorem witness_StepRunsDecodedCommand :
    (∃ (s : State) (i : Instr), s.status.busy = true ∧ decode s.cmd = .ok i ∧ s.agenda = [.engine (some 3), .reset]) ∧
    (∃ (s : State) (i : Instr), s.status.busy = true ∧ decode s.cmd = .ok i ∧ s.agenda = []) ∧
    decode (BitVec.ofNat 32 (0x24800001 % 2 ^ 32)) = .ok (.psmp 1 .g) ∧
    (∃ s : State, s.status.busy = false ∧ s.agenda = [.engine none]) ∧ State.reset.status.busy = false :=
  ⟨⟨{ configS.issue 0x24800001 with agenda := [.engine (some 3), .reset] }, .psmp 1 .g, by decide, by decide, rfl⟩,
   ⟨configS.issue 0x24800001, .psmp 1 .g, by decide, by decide, rfl⟩, by decide,
   ⟨{ State.reset with agenda := [.engine none] }, by decide, rfl⟩, by decide⟩

/-- The last offset inside the window does not stop a step, the first outside does. -/
theorem witness_StepStopsOnlyOutsideWindow :
    step { State.reset with agenda := [.read .word 0x40000] } = .fault (.outsideWindow 0x40000) ∧
    nextWith (step { State.reset with agenda := [.read .word 0x3FFFC] }) (fun t => !t.bus.error) = true :=
  ⟨rfl, by decide⟩

theorem witness_CmdWriteIssues :
    ∃ (s : State) (w : Word) (i : Instr),
      s.agenda = [.write .word 0x010 w] ∧ s.status.busy = false ∧ decode w = .ok i :=
  ⟨{ configS with agenda := [.write .word 0x010 0x25800001] }, 0x25800001, .psmp 3 .g, rfl, by decide, by decide⟩

theorem witness_CmdWriteWhileBusyIsDropped :
    ∃ (s : State) (w : Word), s.agenda = [.write .word 0x010 w] ∧ s.status.busy = true :=
  ⟨{ configS.issue 0x24800001 with agenda := [.write .word 0x010 0] }, 0, rfl, by decide⟩

/-! ### Reset and the invariant -/

/-- This hardware, and a build of the least values. -/
theorem witness_ResetMeetsInvariant : Config.thisHardware.Valid ∧ (⟨2, 1, 9, 1⟩ : Config.Build).Valid := by decide

/-- A reset while a command waits; SRST with every other bit 1 and with every other bit 0. -/
theorem witness_ResetsGiveResetValues :
    (∃ s : State, s.status.busy = true ∧ s.agenda = [.reset]) ∧
    (0x00000004 : Word).getLsbD 2 = true ∧ (0xFFFFFFFF : Word).getLsbD 2 = true :=
  ⟨⟨{ configS.issue 0x24800001 with agenda := [.reset] }, by decide, rfl⟩, by decide, by decide⟩

theorem configS_valid : configS.ConfigValid :=
  ⟨by show Nat.Prime 7; norm_num, by decide, by decide, by decide, by decide, by decide, by decide, by decide, by decide⟩

theorem configW_valid : configW.ConfigValid :=
  ⟨by show Nat.Prime 11; norm_num, by decide, by decide, by decide, by decide, by decide, by decide, by decide, by decide⟩

/-- Issuing a word in an idle state with valid parameters gives a state with the invariant. -/
theorem issued_inv {s : State} (w : Word) (hb : s.build.Valid) (hm : Memory.wf s = true) (hf : s.fifo.length ≤ s.build.rfifo)
    (hr : s.status.rngwait = false) (hc : s.ConfigValid) : Inv (s.issue w) where
  build := hb
  memory := hm
  fifo := hf
  busy := ⟨fun _ => by simp [State.issue], fun _ => rfl⟩
  running := fun _ => ⟨rfl, rfl⟩
  waiting := fun h => absurd (hr.symm.trans h) (by decide)
  config := fun _ => hc
  sampler := fun src job h => by simp [State.issue] at h

/-- PSMP P1, G waiting for its second word: one draw is made (P5, steps 7 to 10). -/
def waitingS : State :=
  { configS.issue 0x24800001 with
    status := { (configS.issue 0x24800001).status with rngwait := true }
    engine := .sampling .fifo { startSampling 7 2 2 1 with t := 1, idx := [3, 1, 2, 0, 4, 5, 6] } }

theorem waitingS_inv : Inv waitingS where
  build := by decide
  memory := by decide
  fifo := by decide
  busy := by decide
  running := by decide
  waiting := fun _ => ⟨_, _, rfl⟩
  config := fun _ => configS_valid
  sampler := by
    intro src job h
    cases h
    exact ⟨rfl, .psmp 1 .g, rfl, fun info h => absurd h.1 (by decide), rfl, rfl, by decide, by decide, by decide,
      fun c hc => by simp [startSampling] at hc⟩

/-- A state in the middle of a sample, at a step that ends the command and at one that resets it. -/
theorem witness_StepKeepsInvariant :
    (∃ s t : State, Inv s ∧ step s = .next t ∧ s.status.busy = true ∧ t.status.busy = false) ∧
    (∃ s t : State, Inv s ∧ step s = .next t ∧ t.status.rngwait = true) := by
  constructor
  · obtain ⟨t, h, ht⟩ := exists_next (o := step ((load 1 [1, -1, 0, 2, 1, 0, -1] configS).issue 0x28100000))
      (fun t => !t.status.busy) (by decide +kernel)
    exact ⟨(load 1 [1, -1, 0, 2, 1, 0, -1] configS).issue 0x28100000, t,
      issued_inv _ (by decide) (by decide) (by decide) (by decide) configS_valid, h, by decide, by simpa using ht⟩
  · obtain ⟨t, h, ht⟩ := exists_next (o := step waitingS) (fun t => t.status.rngwait) (by decide +kernel)
    exact ⟨_, t, waitingS_inv, h, ht⟩

/-! ### Whole-machine rules -/

/-- The receiver with the first ciphertext word changed (V-CHN-8). -/
def forgedW : State := { receiver with cbuf := bufPut receiver.cbuf 0 29 }

/-- E_LEN of a started command (V-RNG-21), and E_FMT of an SDEC after its pre-checks (V-CHN-8). -/
theorem witness_ErrorsAreAtomic :
    (∃ (i : Instr) (s t : State), Inv s ∧ s.status.busy = true ∧ s.command = .ok i ∧ exec i s = .next t ∧
      t.status.err = .len) ∧
    (∃ (i : Instr) (s t : State), Inv s ∧ s.status.busy = true ∧ s.command = .ok i ∧ exec i s = .next t ∧
      t.status.err = .fmt) := by
  constructor
  · obtain ⟨t, h, ht⟩ := exists_next (o := exec (.pmul 3 1 2) (configS.issue 0x11940000))
      (fun t => decide (t.status.err = .len)) (by decide +kernel)
    exact ⟨_, _, t, issued_inv _ (by decide) (by decide) (by decide) (by decide) configS_valid, by decide, by decide, h, by simpa using ht⟩
  · obtain ⟨t, h, ht⟩ := exists_next
      (o := exec (.sdec 0 1) (forgedW.issue 0x48020000))
      (fun t => decide (t.status.err = .fmt)) (by decide +kernel)
    exact ⟨.sdec 0 1, forgedW.issue 0x48020000, t,
      issued_inv (s := forgedW) _ (by decide) (by decide +kernel) (by decide) (by decide) configW_valid, by decide, by decide, h,
      by simpa using ht⟩

theorem witness_CommandFootprint :
    ∃ t, exec (.psmp 0 .f) ({ configS with fifo := [3, 10, 0] }.issue 0x24000000) = .next t ∧ t.fifo = [] := by
  obtain ⟨t, h, ht⟩ := exists_next (o := exec (.psmp 0 .f) ({ configS with fifo := [3, 10, 0] }.issue 0x24000000))
    (fun t => decide (t.fifo = [])) (by decide +kernel)
  exact ⟨t, h, by simpa using ht⟩

/-- All four sticky bits 1, and a write that clears all four. -/
theorem witness_StickyBitsClearedByHostOnly :
    ∃ s t : State, step s = .next t ∧ ¬ s.ResetNext ∧
      (s.status.ovf = true ∧ t.status.ovf = false) ∧ (s.status.cmdovr = true ∧ t.status.cmdovr = false) ∧
      (s.status.busywr = true ∧ t.status.busywr = false) ∧ (s.status.rngovr = true ∧ t.status.rngovr = false) := by
  refine ⟨{ configS with
    status := { resetStatus with ovf := true, cmdovr := true, busywr := true, rngovr := true }
    agenda := [.write .word 0x00C 0x1E0] }, _, rfl, ?_, by decide, by decide, by decide, by decide⟩
  rintro (⟨rest, h⟩ | ⟨v, rest, h, _⟩) <;> cases h

/-- irq rises by a completion, and by enabling it. -/
theorem witness_InterruptFollowsCompletion :
    (∃ s t : State, step s = .next t ∧ s.irq = false ∧ t.irq = true ∧ s.status.busy = true) ∧
    (∃ s t : State, step s = .next t ∧ s.irq = false ∧ t.irq = true ∧ s.status.busy = false) :=
  ⟨⟨{ State.reset with ctrl := ⟨true, .port⟩ }.issue 0, _, rfl, by decide, by decide, by decide⟩,
   ⟨{ State.reset with status := { resetStatus with done := true }, agenda := [.write .word 0x008 1] }, _, rfl,
     by decide, by decide, by decide⟩⟩

/-! ### Checks -/

theorem started_notSampling (w : Word) (s : State) : (s.issue w).NotSampling := by
  intro src job h
  simp [State.issue] at h

theorem witness_ConfigGate :
    ∃ (i : Instr) (s : State), i ≠ .nop ∧ i ≠ .cfgchk ∧ s.NotSampling ∧ s.status.cfgok = false :=
  ⟨.pmul 3 1 2, State.reset.issue 0x11940000, by decide, by decide, started_notSampling _ _, by decide⟩

/-- (a) to (f) of R221, code 5, at both ends of every range: V-RNG-15, V-RNG-16, V-INV-9, V-SMP-3, V-COD-3, V-COD-4,
V-COD-5, V-CHN-4, V-CHN-10. -/
theorem witness_ArgumentChecks :
    ArgError configS (.pred 2 1 .m .centred) 0 ∧
    ArgError { configS with modarg := 0x80000000 } (.pred 2 1 .m .centred) 0x80000000 ∧
    ArgError { configS with modarg := 6 } (.pinv 3 1 .m) 6 ∧
    ArgError { configS with modarg := 0x80000000 } (.pinv 3 1 .m) 0x80000000 ∧
    ArgError { configS with sampNp := 4, sampNm := 4 } (.psmp 1 .x) 0x00040004 ∧
    ArgError { configW with mlen := 4097 } (.benc 2 0) 0x1001 ∧
    ArgError { configW with mlen := 2 } (.benc 2 2) 2 ∧
    ArgError configW (.benc 2 0) 0 ∧
    ArgError { configW with mlen := 4097 } (.senc 4) 0x1001 ∧
    ArgError { configW with clen := 33793 } (.sdec 0 1) 0x8401 := by
  refine ⟨⟨.inl rfl, rfl⟩, ⟨.inr (by decide), rfl⟩, ⟨?_, rfl⟩, ⟨?_, rfl⟩, ⟨by decide, rfl⟩, .inl ⟨by decide, rfl⟩,
    .inr ⟨by decide, by decide, rfl⟩, .inr ⟨by decide, by decide, rfl⟩, ⟨by decide, rfl⟩, ⟨by decide, rfl⟩⟩
  · rintro ⟨h, -⟩
    have hn : ¬ IsPrimePow 6 := by
      intro h6
      exact absurd (primePowerBase_isSome_iff.mpr ⟨h6, by decide⟩) (by decide +kernel)
    exact hn h
  · rintro ⟨-, h⟩
    exact absurd h (by decide)

/-- The second source fails behind a good first one; rd fails behind two good ones (V-CRY-8). -/
theorem witness_LengthChecks :
    (∃ (i : Instr) (s : State) (before after : List PReg) (k : PReg), s.NotSampling ∧ s.status.cfgok = true ∧
      (∀ info, ¬ ArgError s i info) ∧ sources i = before ++ k :: after ∧ before = [1] ∧
      (∀ j ∈ before, s.plen[j] = s.cfgN) ∧ s.plen[k] ≠ s.cfgN) ∧
    (∃ (i : Instr) (s : State) (before after : List PReg) (k : PReg), s.NotSampling ∧ s.status.cfgok = true ∧
      (∀ info, ¬ ArgError s i info) ∧ sources i = before ++ k :: after ∧ before = [1, 2] ∧
      (∀ j ∈ before, s.plen[j] = s.cfgN) ∧ s.plen[k] ≠ s.cfgN) :=
  ⟨⟨.pmul 3 1 2, (load 1 keyH configW).issue 0x11940000, [1], [], 2, started_notSampling _ _, by decide,
     fun _ h => h, rfl, rfl, by decide, by decide⟩,
   ⟨.nencx 7 1 2, (load 1 keyH (load 2 blockM configW)).issue 0x33940000, [1, 2], [], 7, started_notSampling _ _, by decide,
     fun _ h => h, rfl, rfl, by decide, by decide⟩⟩

/-- V-CRY-4 and V-CHN-3. -/
theorem witness_FormatPrechecks :
    (∃ s : State, s.status.cfgok = true ∧ s.plen[(4 : PReg)] = s.cfgN ∧ s.plen[(5 : PReg)] = s.cfgN ∧
      s.n < s.plen[(6 : PReg)].toNat) ∧
    (∃ s : State, s.status.cfgok = true ∧ s.plen[(0 : PReg)] = s.cfgN ∧ s.plen[(1 : PReg)] = s.cfgN ∧
      s.clen.toNat ≤ s.build.cmax ∧ ¬ s.n ∣ s.clen.toNat) :=
  ⟨⟨load 6 (blockE ++ [0]) (load 4 keyF (load 5 keyFp configW)), by decide, by decide, by decide, by decide⟩,
   ⟨{ receiver with clen := 21 }, by decide, by decide, by decide, by decide, by decide⟩⟩

/-! ### Control and ring commands -/

/-- V-CTL-11, the largest prime up to NMAX, the first prime above it (V-CTL-4), and the reset values (V-CTL-3). -/
theorem witness_CfgchkValidates :
    (configured 7 6 49 2 0 0).ConfigValid ∧ (configured 1021 3 64 3 2 2).ConfigValid ∧
    ¬ (configured 1031 3 64 3 2 2).ConfigValid ∧ ¬ State.reset.ConfigValid :=
  ⟨⟨by show Nat.Prime 7; norm_num, by decide, by decide, by decide, by decide, by decide, by decide, by decide, by decide⟩,
   ⟨by show Nat.Prime 1021; norm_num, by decide, by decide, by decide, by decide, by decide, by decide, by decide, by decide⟩,
   fun h => absurd h.capacity (by decide), fun h => absurd h.someF (by decide)⟩

/-- The last slot, the last slot below the tag, the first slot from the tag on, the last word of a block, a byte's first and
last bit. -/
theorem witness_OperandsReadStoredValues :
    (10 < configW.n ∧ (load 1 keyH configW).slot 1 10 = some (wrap32 12)) ∧
    (9 < (load 6 (blockE.take 10) configW).plen[(6 : PReg)].toNat ∧
      (load 6 (blockE.take 10) configW).slot 6 9 = some (wrap32 (-14))) ∧
    (10 < configW.n ∧ (load 6 (blockE.take 10) configW).plen[(6 : PReg)].toNat ≤ 10) ∧
    bufGet receiver.cbuf (1 * receiver.n + 10) = some (wrap32 (-28)) ∧
    bufGet (loadMessage [0x68, 0x69] configW).bbuf (8 / 8) = some 0x69 ∧
    bufGet (loadMessage [0x68, 0x69] configW).bbuf (15 / 8) = some 0x69 := by decide +kernel

/-- The state in which P1 and P2 of configuration S hold V-RNG-1's polynomials. -/
def ringS : State := load 1 [3, -1, 0, 2, 0, 0, -4] (load 2 [1, 0, -1, 0, 0, 2, 0] configS)

theorem witness_PclrZeroes : configS.status.cfgok = true := by decide

theorem witness_PmovCopies : configS.status.cfgok = true ∧ configS.slot 2 0 = none := by decide

theorem witness_PmulConvolves :
    ringS.status.cfgok = true ∧ ringS.plen[(1 : PReg)] = ringS.cfgN ∧ ringS.plen[(2 : PReg)] = ringS.cfgN := by decide

theorem witness_PaddAdds :
    ringS.status.cfgok = true ∧ ringS.plen[(1 : PReg)] = ringS.cfgN ∧ ringS.plen[(2 : PReg)] = ringS.cfgN := by decide

/-- All three scalars; MODARG = 0xFFFFFFFF is −1. -/
theorem witness_PsclScales :
    ringS.status.cfgok = true ∧ ringS.plen[(1 : PReg)] = ringS.cfgN ∧
    ∃ s : State, s.status.cfgok = true ∧ s.plen[(1 : PReg)] = s.cfgN ∧ (3 : Int) = s.cfgP.toNat ∧ (32 : Int) = s.cfgQ.toNat ∧
      (-1 : Int) = s.modarg.toInt :=
  ⟨by decide, by decide, { ringS with modarg := 0xFFFFFFFF }, by decide, by decide, by decide, by decide, by decide⟩

/-- The least and the greatest modulus. -/
theorem witness_PredReduces :
    (∃ s : State, s.status.cfgok = true ∧ s.plen[(1 : PReg)] = s.cfgN ∧ s.modarg.toNat = 1) ∧
    (∃ s : State, s.status.cfgok = true ∧ s.plen[(1 : PReg)] = s.cfgN ∧ s.modarg.toNat = 2 ^ 31 - 1) :=
  ⟨⟨{ ringS with modarg := 1 }, by decide, by decide, by decide⟩,
   ⟨{ ringS with modarg := 0x7FFFFFFF }, by decide, by decide, by decide⟩⟩

theorem witness_PwckCounts :
    ringS.status.cfgok = true ∧ ringS.plen[(1 : PReg)] = ringS.cfgN := by decide

theorem witness_ConvolutionLaws :
    ([1, -2, 3] : Poly).length = 3 ∧ ([0, 1, 5] : Poly).length = 3 ∧ ([7, 0, -1] : Poly).length = 3 ∧ 1 ≤ 1 := by decide

/-! ### The inverse -/

/-- V-INV-2's source. -/
def invertibleS : State := load 1 [1, 1, -1, 0, 0, 0, 0] configS

theorem isPrimePow_32 : IsPrimePow 32 := (isPrimePow_nat_iff 32).mpr ⟨2, 5, Nat.prime_two, by decide, by decide⟩

theorem witness_PinvResultIsInverse :
    ∃ s : State, s.status.cfgok = true ∧ s.plen[(1 : PReg)] = s.cfgN ∧ IsPrimePow (s.modulus .q) ∧
      s.modulus .q ≤ 2 ^ 31 - 1 :=
  ⟨invertibleS, by decide, by decide, isPrimePow_32, by decide⟩

/-- The inverse of V-INV-2. -/
theorem witness_PinvFindsEveryInverse :
    ∃ s : State, s.status.cfgok = true ∧ s.n.Prime ∧ s.plen[(1 : PReg)] = s.cfgN ∧ IsPrimePow (s.modulus .q) ∧
      s.modulus .q ≤ 2 ^ 31 - 1 ∧ ∃ b, IsInverse s.n (s.modulus .q) (s.src 1) b :=
  ⟨invertibleS, by decide, by show Nat.Prime 7; norm_num, by decide, isPrimePow_32, by decide,
    [29, 20, 9, 11, 30, 13, 17], by decide, by decide, by decide +kernel⟩

/-! ### The sampler -/

/-- PSMP P1, G with its four draws made and the completion still to come. -/
def drawnS : State :=
  { configS.issue 0x24800001 with
    engine := .sampling .fifo
      { startSampling 7 2 2 1 with todo := 0, idx := List.range 7, done := [[0, 0, -1, 1, -1, 1, 0]] } }

theorem drawnS_inv : Inv drawnS where
  build := by decide
  memory := by decide
  fifo := by decide
  busy := by decide
  running := by decide
  waiting := fun h => absurd h (by decide)
  config := fun _ => configS_valid
  sampler := by
    intro src job h
    cases h
    refine ⟨rfl, .psmp 1 .g, rfl, fun info h => absurd h.1 (by decide), rfl, rfl, by decide, by decide, by decide, ?_⟩
    intro c hc
    obtain rfl : c = [0, 0, -1, 1, -1, 1, 0] := by simpa using hc
    exact ⟨by decide, by decide, by decide, by decide⟩

/-- A sampler in flight of a state with the invariant fits the command in CMD. -/
theorem samples_of_inv {s : State} (h : Inv s) {i : Instr} (hi : s.command = .ok i) {src : RandSource} {job : Sampling}
    (he : s.engine = .sampling src job) : s.Samples i src job.drawsFrom := by
  obtain ⟨_, j, hj, hf⟩ := h.sampler src job he
  have : i = j := by rw [hi] at hj; exact Except.ok.inj hj
  exact .resumes he (this ▸ hf)

/-- What decides that a turn with words from the FIFO completes on the samples. -/
theorem completes_fifo {s : State} {draw : List Word → Option (List Poly × List Word)} {rs : List Poly} {left : List Word}
    (h1 : draw (s.granted s.fifo).1 = some (rs, left)) (h2 : s.eventLeft ((s.granted s.fifo).1.length - left.length) = true) :
    s.Completes .fifo draw rs left :=
  ⟨h1, eventLeft_iff.mp h2⟩

/-- The sampler of `waitingS`. -/
def waitingJob : Sampling := { startSampling 7 2 2 1 with t := 1, idx := [3, 1, 2, 0, 4, 5, 6] }

/-- `waitingS`, which waits with RNGWAIT = 1, with words that came meanwhile. -/
theorem waitingS_samples (ws : List Word) : { waitingS with fifo := ws }.Samples (.psmp 1 .g) .fifo waitingJob.drawsFrom := by
  obtain ⟨_, i, hi, hf⟩ := waitingS_inv.sampler _ _ rfl
  cases hi
  exact .resumes rfl { hf with }

/-- The sample of V-SMP-1 with a word more; one of np + nm = N (V-SMP-5); a turn with RNGWAIT = 1 that finds the words missing
(P5); a turn with the completion alone to do. -/
theorem witness_PsmpDrawsSample :
    (∃ (s : State) (draw : List Word → Option (List Poly × List Word)), s.Samples (.psmp 0 .f) .fifo draw ∧
      s.Completes .fifo draw [[0, 0, -1, 1, 0, 1, 0]] [9]) ∧
    (∃ (s : State) (draw : List Word → Option (List Poly × List Word)), s.Samples (.psmp 1 .x) .fifo draw ∧
      s.Completes .fifo draw [[1, 1, 1, 1, 1, 1, 1]] []) ∧
    (∃ (s : State) (draw : List Word → Option (List Poly × List Word)), s.Samples (.psmp 1 .g) .fifo draw ∧
      s.status.rngwait = true ∧ s.Completes .fifo draw [[0, 0, -1, 1, -1, 1, 0]] []) ∧
    (∃ (s : State) (draw : List Word → Option (List Poly × List Word)), s.Samples (.psmp 1 .g) .fifo draw ∧
      s.turnLimit = some 1 ∧ s.fifo = [8] ∧ s.Completes .fifo draw [[0, 0, -1, 1, -1, 1, 0]] [8]) := by
  obtain ⟨_, i, hi, hf⟩ := drawnS_inv.sampler _ _ rfl
  cases hi
  exact ⟨⟨{ configS with fifo := [3, 10, 0, 9] }.issue 0x24000000, _,
      .starts (np := 2) (nm := 1) (count := 1) rfl rfl (fun _ h => absurd h.1 (by decide)) (by decide) rfl,
      completes_fifo (by decide +kernel) (by decide +kernel)⟩,
    ⟨{ configS with sampNp := 7, fifo := [0, 0, 0, 0, 0, 0, 0] }.issue 0x24800003, _,
      .starts (np := 7) (nm := 0) (count := 1) rfl rfl (fun _ h => absurd h.1 (by decide)) (by decide) rfl,
      completes_fifo (by decide +kernel) (by decide +kernel)⟩,
    ⟨{ waitingS with fifo := [10, 0, 1] }, _, waitingS_samples _, rfl,
      completes_fifo (by decide +kernel) (by decide +kernel)⟩,
    ⟨{ drawnS with fifo := [8], turnLimit := some 1 }, _, .resumes rfl { hf with }, rfl, rfl,
      completes_fifo (by decide +kernel) (by decide +kernel)⟩⟩

/-- The sender of V-CHN-1, with random words of its own. -/
def senderW (ws : List Word) : State := load 4 keyH (loadMessage [0x68, 0x69] { configW with fifo := ws })

/-- A PSMP that starts and ends in one turn, one that is resumed with its last words, and a SENC of two blocks. -/
theorem witness_SamplesHaveExactWeights :
    (∃ s t : State, Inv s ∧ s.status.busy = true ∧ s.command = .ok (.psmp 1 .g) ∧ exec (.psmp 1 .g) s = .next t ∧
      t.status.busy = false ∧ t.status.err = .success ∧ s.engine = .issued .fifo) ∧
    (∃ s t : State, Inv s ∧ s.status.busy = true ∧ s.command = .ok (.psmp 1 .g) ∧ exec (.psmp 1 .g) s = .next t ∧
      t.status.busy = false ∧ t.status.err = .success ∧ ∃ job, s.engine = .sampling .fifo job) ∧
    (∃ s t : State, Inv s ∧ s.status.busy = true ∧ s.command = .ok (.senc 4) ∧ s.samplePlan (.senc 4) = some (2, 2, 2) ∧
      exec (.senc 4) s = .next t ∧ t.status.busy = false ∧ t.status.err = .success) := by
  refine ⟨?_, ?_, ?_⟩
  · obtain ⟨t, h, ht⟩ := exists_next (o := exec (.psmp 1 .g) ({ configS with fifo := [3, 10, 0, 1] }.issue 0x24800001))
      (fun t => decide (t.status.busy = false ∧ t.status.err = .success)) (by decide +kernel)
    obtain ⟨h1, h2⟩ := of_decide_eq_true ht
    exact ⟨{ configS with fifo := [3, 10, 0, 1] }.issue 0x24800001, t,
      issued_inv (s := { configS with fifo := [3, 10, 0, 1] }) _ (by decide) (by decide) (by decide) (by decide)
        configS_valid, rfl, by decide, h, h1, h2, rfl⟩
  · obtain ⟨t, h, ht⟩ := exists_next (o := exec (.psmp 1 .g) { waitingS with fifo := [10, 0, 1] })
      (fun t => decide (t.status.busy = false ∧ t.status.err = .success)) (by decide +kernel)
    obtain ⟨h1, h2⟩ := of_decide_eq_true ht
    exact ⟨{ waitingS with fifo := [10, 0, 1] }, t, { waitingS_inv with
        fifo := by decide
        sampler := fun src job hj => by
          obtain ⟨h1, i, h2, h3⟩ := waitingS_inv.sampler src job hj
          exact ⟨h1, i, h2, { h3 with }⟩ },
      rfl, by decide, h, h1, h2, _, rfl⟩
  · obtain ⟨t, h, ht⟩ := exists_next
      (o := exec (.senc 4) ((senderW [0x01234567, 0x89ABCDEF, 5, 9, 0xA, 2, 3, 4]).issue 0x44400000))
      (fun t => decide (t.status.busy = false ∧ t.status.err = .success)) (by decide +kernel)
    obtain ⟨h1, h2⟩ := of_decide_eq_true ht
    exact ⟨(senderW [0x01234567, 0x89ABCDEF, 5, 9, 0xA, 2, 3, 4]).issue 0x44400000, t,
      issued_inv (s := senderW [0x01234567, 0x89ABCDEF, 5, 9, 0xA, 2, 3, 4]) _ (by decide) (by decide +kernel) (by decide)
        (by decide) configW_valid, rfl, by decide, by decide, h, h1, h2⟩

/-- The draw does not come out of the words, or the turn has no event for the completion. -/
theorem not_completes_of_none {s : State} {src : RandSource} {draw : List Word → Option (List Poly × List Word)}
    (h : draw (s.granted (s.wordsOf src)).1 = none) (rs : List Poly) (left : List Word) : ¬ s.Completes src draw rs left :=
  fun hc => by rw [hc.1] at h; cases h

/-- V-SMP-6 with one word; a turn without events; a resumed SENC for want of its last words; a turn that makes the last draw
and has no event left for the completion (R229). -/
theorem witness_SamplingWaits :
    (∃ (s : State) (draw : List Word → Option (List Poly × List Word)), s.Samples (.psmp 1 .g) .fifo draw ∧
      (∀ rs left, ¬ s.Completes .fifo draw rs left) ∧ s.fifo = [3] ∧ s.turnLimit = none) ∧
    (∃ (s : State) (draw : List Word → Option (List Poly × List Word)), s.Samples (.senc 4) .fifo draw ∧
      (∀ rs left, ¬ s.Completes .fifo draw rs left) ∧ s.turnLimit = some 0) ∧
    (∃ (s : State) (draw : List Word → Option (List Poly × List Word)), s.Samples (.psmp 1 .g) .fifo draw ∧
      (∀ rs left, ¬ s.Completes .fifo draw rs left) ∧ s.status.rngwait = true ∧ s.fifo = [10]) ∧
    (∃ (s : State) (draw : List Word → Option (List Poly × List Word)), s.Samples (.psmp 1 .g) .fifo draw ∧
      (∀ rs left, ¬ s.Completes .fifo draw rs left) ∧ s.fifo = [10, 0, 1] ∧ s.turnLimit = some 3) := by
  obtain ⟨_, i, hi, hf⟩ := waitingS_inv.sampler _ _ rfl
  cases hi
  refine ⟨⟨{ configS with fifo := [3] }.issue 0x24800001, _,
      .starts (np := 2) (nm := 2) (count := 1) rfl rfl (fun _ h => absurd h.1 (by decide)) (by decide) rfl,
      not_completes_of_none (by decide +kernel), rfl, rfl⟩,
    ⟨{ senderW [1, 2] with turnLimit := some 0 }.issue 0x44400000, _,
      .starts (np := 2) (nm := 2) (count := 2) rfl rfl (fun _ h => absurd h.1 (by decide)) (by decide) (by decide),
      not_completes_of_none (by decide +kernel), rfl⟩,
    ⟨{ waitingS with fifo := [10] }, _, waitingS_samples _, not_completes_of_none (by decide +kernel), rfl, rfl⟩,
    ⟨{ waitingS with fifo := [10, 0, 1], turnLimit := some 3 }, _, .resumes rfl { hf with }, ?_, rfl, rfl⟩⟩
  rintro rs left ⟨h1, h2⟩
  have hd : waitingJob.drawsFrom [10, 0, 1] = some ([[0, 0, -1, 1, -1, 1, 0]], []) := by decide +kernel
  have hl : left = [] := congrArg Prod.snd (Option.some.inj (h1.symm.trans hd))
  have := h2 3 rfl
  rw [hl] at this
  exact absurd this (by decide)

/-- A turn without limit leaves PSMP waiting with RNGWAIT = 1, and a turn of two events leaves it with words in the FIFO. -/
theorem witness_SamplingResumes :
    (∃ (s t : State) (job : Sampling), exec (.psmp 1 .g) { s with turnLimit := none } = .next t ∧
      t.engine = .sampling .fifo job ∧ t.status.rngwait = true ∧ t.fifo = []) ∧
    (∃ (s t : State) (job : Sampling), exec (.psmp 1 .g) { s with turnLimit := some 2 } = .next t ∧
      t.engine = .sampling .fifo job ∧ t.status.rngwait = false ∧ t.fifo = [0, 1]) :=
  ⟨⟨{ configS with fifo := [3] }.issue 0x24800001, _, _, rfl, rfl, by decide +kernel, by decide +kernel⟩,
   ⟨{ configS with fifo := [3, 10, 0, 1] }.issue 0x24800001, _, _, rfl, rfl, by decide +kernel, by decide +kernel⟩⟩

/-- V-SMP-2's words, with one word more, in a turn that starts PSMP; a turn that resumes it; a PSMP without a draw. -/
theorem witness_SamplesTakeWordsInOrder :
    (∃ (s : State) (draw : List Word → Option (List Poly × List Word)), s.Samples (.psmp 1 .g) .fifo draw ∧
      s.engine = .issued .fifo ∧ s.samplePlan (.psmp 1 .g) = some (2, 2, 1) ∧
      s.fifo = [0xFFFFFFFF, 0xFFFFFFFC, 0xFFFFFFFB, 6, 5, 4, 8]) ∧
    (∃ (s : State) (draw : List Word → Option (List Poly × List Word)), s.Samples (.psmp 1 .g) .fifo draw ∧
      s.engine = .sampling .fifo waitingJob ∧ waitingJob.drawsToMake = 3) ∧
    (∃ (s : State) (draw : List Word → Option (List Poly × List Word)), s.Samples (.psmp 1 .x) .fifo draw ∧
      s.engine = .issued .fifo ∧ s.samplePlan (.psmp 1 .x) = some (0, 0, 1)) :=
  ⟨⟨{ configS with fifo := [0xFFFFFFFF, 0xFFFFFFFC, 0xFFFFFFFB, 6, 5, 4, 8] }.issue 0x24800001, _,
     .starts (np := 2) (nm := 2) (count := 1) rfl rfl (fun _ h => absurd h.1 (by decide)) (by decide) rfl, rfl, rfl, rfl⟩,
   ⟨_, _, waitingS_samples [10, 0, 1], rfl, by decide⟩,
   ⟨configS.issue 0x24800003, _,
     .starts (np := 0) (nm := 0) (count := 1) rfl rfl (fun _ h => absurd h.1 (by decide)) (by decide) rfl, rfl, rfl⟩⟩

/-! ### The cryptor -/

/-- V-CRY-3's NENC in one turn, and resumed after its first word (0, a draw of position 0) with RNGWAIT = 1. -/
theorem witness_NencEncrypts :
    (∃ (s : State) (draw : List Word → Option (List Poly × List Word)), s.Samples (.nenc 6 1 2) .fifo draw ∧
      s.engine = .issued .fifo ∧ s.Completes .fifo draw [blockR] []) ∧
    (∃ (s : State) (job : Sampling), s.Samples (.nenc 6 1 2) .fifo job.drawsFrom ∧ s.status.rngwait = true ∧
      s.Completes .fifo job.drawsFrom [blockR] []) := by
  refine ⟨⟨(load 1 keyH (load 2 blockM { configW with fifo := [0, 4, 1, 5] })).issue 0x2F140000, _,
      .starts (np := 2) (nm := 2) (count := 1) rfl rfl (fun _ h => h) (by decide) rfl, rfl,
      completes_fifo (by decide +kernel) (by decide +kernel)⟩,
    ⟨{ (load 1 keyH (load 2 blockM { configW with fifo := [4, 1, 5] })).issue 0x2F140000 with
        status := { (configW.issue 0).status with rngwait := true }
        engine := .sampling .fifo { startSampling 11 2 2 1 with t := 1 } }, { startSampling 11 2 2 1 with t := 1 },
      .resumes rfl ⟨fun _ h => h, rfl, rfl, by decide, by decide, by decide, fun c hc => by simp [startSampling] at hc⟩, rfl,
      completes_fifo (by decide +kernel) (by decide +kernel)⟩⟩

theorem witness_NencxEncrypts :
    ∃ s : State, s.status.cfgok = true ∧ s.plen[(1 : PReg)] = s.cfgN ∧ s.plen[(2 : PReg)] = s.cfgN ∧
      s.plen[(3 : PReg)] = s.cfgN :=
  ⟨load 1 keyH (load 2 blockM (load 3 blockR configW)), by decide, by decide, by decide, by decide⟩

/-- The longest and the shortest tag of a ciphertext block. -/
theorem witness_NdecDecrypts :
    (∃ s : State, s.status.cfgok = true ∧ s.plen[(4 : PReg)] = s.cfgN ∧ s.plen[(5 : PReg)] = s.cfgN ∧
      s.plen[(6 : PReg)].toNat = s.n) ∧
    (∃ s : State, s.status.cfgok = true ∧ s.plen[(4 : PReg)] = s.cfgN ∧ s.plen[(5 : PReg)] = s.cfgN ∧
      s.plen[(6 : PReg)].toNat = 0) :=
  ⟨⟨load 6 blockE (load 4 keyF (load 5 keyFp configW)), by decide, by decide, by decide, by decide⟩,
   ⟨load 4 keyF (load 5 keyFp configW), by decide, by decide, by decide, by decide⟩⟩

/-- The registers of V-CRY-1 and V-CRY-2. -/
def cryptorW : State := load 3 blockR (load 1 keyH (load 2 blockM (load 4 keyF (load 5 keyFp configW))))

theorem holds_of_stored {s : State} {k : PReg} {c : Poly} (h1 : c.length = s.n) (h2 : s.plen[k] = s.cfgN)
    (h3 : ∀ i, i < s.n → (s.slot k i).map val = some (c.getD i 0)) : s.Holds k c where
  length := h1
  tag := h2
  slots := fun i hi => by
    obtain ⟨w, hw, hv⟩ := Option.map_eq_some_iff.mp (h3 i hi)
    exact ⟨w, hw, hv⟩

/-- The keys of program P2 with the block and the blinding polynomial of V-CRY-1. -/
theorem witness_DecryptionRecoversMessage :
    ∃ s : State, s.status.cfgok = true ∧ s.ConfigValid ∧ 3 ≤ s.cfgP.toNat ∧
      s.Holds 3 blockR ∧ s.Holds 1 keyH ∧ s.Holds 2 blockM ∧ s.Holds 4 keyF ∧ s.Holds 5 keyFp ∧
      keyG.length = s.n ∧ (∀ x ∈ blockM, x = 0 ∨ x = 1) ∧
      IsInverse s.n s.cfgQ.toNat keyF keyFq ∧ IsInverse s.n s.cfgP.toNat keyF keyFp ∧
      (∀ k, k < s.n → keyH.getD k 0 = center (convCoeff s.n (scalePoly s.cfgP.toNat keyFq) keyG k) s.cfgQ.toNat) ∧
      (∀ k, k < s.n →
        -(s.cfgQ.toNat : Int) < 2 * (s.cfgP.toNat * convCoeff s.n blockR keyG k + convCoeff s.n keyF blockM k) ∧
        2 * (s.cfgP.toNat * convCoeff s.n blockR keyG k + convCoeff s.n keyF blockM k) ≤ s.cfgQ.toNat) :=
  ⟨cryptorW, by decide, configW_valid, by decide, holds_of_stored (by decide) (by decide) (by decide +kernel),
    holds_of_stored (by decide) (by decide) (by decide +kernel),
    holds_of_stored (by decide) (by decide) (by decide +kernel),
    holds_of_stored (by decide) (by decide) (by decide +kernel),
    holds_of_stored (by decide) (by decide) (by decide +kernel), by decide, by decide,
    ⟨by decide, by decide, by decide +kernel⟩, ⟨by decide, by decide, by decide +kernel⟩, by decide +kernel,
    by decide +kernel⟩

/-! ### The codec -/

/-- The last block of "hi", and of the longest message. -/
theorem witness_BencEncodes :
    (∃ s : State, s.build.Valid ∧ s.status.cfgok = true ∧ s.mlen.toNat ≤ s.build.bmax ∧
      1 < (8 * s.mlen.toNat) ⌈/⌉ s.n) ∧
    (∃ s : State, s.build.Valid ∧ s.status.cfgok = true ∧ s.mlen.toNat = s.build.bmax ∧
      2978 < (8 * s.mlen.toNat) ⌈/⌉ s.n) :=
  ⟨⟨loadMessage [0x68, 0x69] configW, by decide, by decide, by decide, by decide⟩,
   ⟨{ configW with mlen := 4096 }, by decide, by decide, by decide, by decide⟩⟩

/-- A block inside BBUF (V-COD-6) and one beyond it (V-COD-10). -/
theorem witness_BdecDecodes :
    (∃ s : State, 0 < 16384 ∧ s.status.cfgok = true ∧ s.plen[(2 : PReg)] = s.cfgN ∧
      ∀ i, i < s.n → MessageBit s.build.bmax (fun j => (s.src 2).getD (j - 0 * s.n) 0) (0 * s.n + i)) ∧
    (∃ s : State, 2979 < 16384 ∧ s.status.cfgok = true ∧ s.plen[(2 : PReg)] = s.cfgN ∧
      ∀ i, i < s.n → MessageBit s.build.bmax (fun j => (s.src 2).getD (j - 2979 * s.n) 0) (2979 * s.n + i)) := by
  refine ⟨⟨load 2 [0, 1, 1, 0, 1, 0, 0, 0, 0, 1, 1] configW, by decide, by decide, by decide, ?_⟩,
    ⟨load 2 (zeroPoly 11) configW, by decide, by decide, by decide, ?_⟩⟩ <;>
  · simp only [MessageBit]
    decide +kernel

/-- Bits to look at (block 2 of "hi" is 6 bits beyond its bytes), and decoded bits beyond BBUF, where there are none. -/
theorem witness_BfinFinishes :
    (∃ s : State, s.build.Valid ∧ s.status.cfgok = true ∧ s.nblk.toNat * s.n < 8 * s.build.bmax ∧
      ∀ j, 8 * (s.nblk.toNat * s.n / 8) ≤ j → j < s.nblk.toNat * s.n → s.streamBit j = false) ∧
    (∃ s : State, s.build.Valid ∧ s.status.cfgok = true ∧ ¬ s.nblk.toNat * s.n < 8 * s.build.bmax) := by
  refine ⟨⟨{ loadMessage [0x68, 0x69, 0] configW with nblk := 2 }, by decide, by decide, by decide, ?_⟩,
    ⟨{ configW with nblk := 2979 }, by decide, by decide, by decide⟩⟩
  intro j h1 h2
  have h1' : 16 ≤ j := h1
  have h2' : j < 22 := h2
  interval_cases j <;> decide +kernel

theorem firstBadBit_value {bmax : Nat} {c : Nat → Int} {lo hi j : Nat} (h1 : lo ≤ j) (h2 : j < hi) (h3 : ¬ (c j = 0 ∨ c j = 1))
    (h4 : ∀ d, d < j - lo → c (lo + d) = 0 ∨ c (lo + d) = 1) : FirstBadBit bmax c lo hi j :=
  ⟨h1, h2, .inl ⟨h3, fun i hi1 hi2 => by
    have := h4 (i - lo) (by omega)
    rwa [Nat.add_sub_cancel' hi1] at this⟩⟩

theorem firstBadBit_beyond {bmax : Nat} {c : Nat → Int} {lo hi j : Nat} (h1 : lo ≤ j) (h2 : j < hi) (h3 : c j = 1)
    (hB : 8 * bmax ≤ j) (h4 : ∀ d, d < hi - lo → c (lo + d) = 0 ∨ c (lo + d) = 1)
    (h5 : ∀ d, d < j - lo → c (lo + d) = 0) : FirstBadBit bmax c lo hi j :=
  ⟨h1, h2, .inr ⟨fun i hi1 hi2 => by
    have := h4 (i - lo) (by omega)
    rwa [Nat.add_sub_cancel' hi1] at this, hB, h3, fun i _ hi1 hi2 => by
    have := h5 (i - lo) (by omega)
    rwa [Nat.add_sub_cancel' hi1] at this⟩⟩

/-- V-COD-8, V-COD-9; V-COD-11. -/
theorem witness_DecodedValueErrors :
    (∃ s : State, s.status.cfgok = true ∧ s.plen[(2 : PReg)] = s.cfgN ∧
      FirstBadBit s.build.bmax (fun j => (s.src 2).getD (j - 0 * s.n) 0) (0 * s.n) (0 * s.n + s.n) 2) ∧
    (∃ s : State, s.status.cfgok = true ∧ s.plen[(2 : PReg)] = s.cfgN ∧
      FirstBadBit s.build.bmax (fun j => (s.src 2).getD (j - 2979 * s.n) 0) (2979 * s.n) (2979 * s.n + s.n) 32779) ∧
    (∃ s : State, s.status.cfgok = true ∧ FirstPadBit s.build.bmax (fun j => s.streamBit j = true) (s.nblk.toNat * s.n) 16) := by
  refine ⟨⟨load 2 [0, 1, -1, 0, 1, 0, 0, 0, 0, 1, 1] configW, by decide, by decide,
      firstBadBit_value (by decide) (by decide) (by decide +kernel) (by decide +kernel)⟩,
    ⟨load 2 [0, 0, 0, 0, 0, 0, 0, 0, 0, 0, 1] configW, by decide, by decide,
      firstBadBit_beyond (by decide) (by decide) (by decide +kernel) (by decide) (by decide +kernel) (by decide +kernel)⟩,
    ⟨{ loadMessage [0x61, 0x10, 0x80] configW with nblk := 2 }, by decide, by decide, by decide, by decide,
      by decide +kernel, ?_⟩⟩
  intro i h1 h2
  have : 16 ≤ i := h1
  omega

/-- What SDEC decrypts in a state (R201). -/
def decryptedIn (s : State) (j : Nat) : Int :=
  decryptCoeff s.n s.cfgP.toNat s.cfgQ.toNat (s.src 0) (s.drew.src 1) (s.drew.drew.cipherBlock (j / s.n)) (j % s.n)

/-- V-CHN-8, whose first coefficient is −1; and the one block blockM, whose bit 10 is a 1 after the only whole byte. -/
theorem witness_DecodedValueErrors_sdec :
    (∃ s : State, s.status.cfgok = true ∧ s.plen[(0 : PReg)] = s.cfgN ∧ s.plen[(1 : PReg)] = s.cfgN ∧
      s.clen.toNat ≤ s.build.cmax ∧ s.n ∣ s.clen.toNat ∧
      ∃ k j, k < s.clen.toNat / s.n ∧ (∀ i, i < k * s.n → MessageBit s.build.bmax (decryptedIn s) i) ∧
        FirstBadBit s.build.bmax (decryptedIn s) (k * s.n) (k * s.n + s.n) j) ∧
    (∃ s : State, s.status.cfgok = true ∧ s.plen[(0 : PReg)] = s.cfgN ∧ s.plen[(1 : PReg)] = s.cfgN ∧
      s.clen.toNat ≤ s.build.cmax ∧ s.n ∣ s.clen.toNat ∧
      ∃ j, (∀ i, i < s.clen.toNat → MessageBit s.build.bmax (decryptedIn s) i) ∧
        FirstPadBit s.build.bmax (fun i => decryptedIn s i = 1) s.clen.toNat j) := by
  refine ⟨⟨forgedW, by decide, by decide, by decide, by decide, by decide, 0, 0, by decide,
      fun i h => absurd h (by omega), firstBadBit_value (by decide) (by decide) (by decide +kernel) (by decide)⟩,
    ⟨load 0 keyF (load 1 keyFp (loadCipher blockE configW)), by decide, by decide, by decide, by decide, by decide, 10, ?_,
      by decide, by decide, by decide, by decide +kernel, ?_⟩⟩
  · simp only [MessageBit]
    decide +kernel
  · intro i h1 h2
    have h1' : 8 ≤ i := h1
    interval_cases i <;> decide +kernel

/-- "hi" and the empty message. -/
theorem witness_CodecRoundTrip :
    (∃ s : State, s.build.Valid ∧ s.status.cfgok = true ∧ s.ConfigValid ∧ s.mlen.toNat ≤ s.build.bmax ∧
      (∀ i, i < s.mlen.toNat → ∃ b, bufGet s.bbuf i = some b) ∧ (s.mlen.toNat = 0 → s.nblk = 0) ∧ s.mlen.toNat ≠ 0 ∧
      bufGet s.bbuf (s.mlen.toNat - 1) ≠ some 0) ∧
    (∃ s : State, s.build.Valid ∧ s.status.cfgok = true ∧ s.ConfigValid ∧ s.mlen.toNat = 0 ∧ s.nblk = 0) := by
  refine ⟨⟨loadMessage [0x68, 0x69] configW, by decide, by decide, configW_valid, by decide, ?_, by decide, by decide, by decide⟩,
    ⟨configW, by decide, by decide, configW_valid, by decide, by decide⟩⟩
  intro i hi
  have hi' : i < 2 := hi
  interval_cases i
  · exact ⟨0x68, by decide⟩
  · exact ⟨0x69, by decide⟩

/-! ### Whole messages -/

/-- V-CHN-1 with one word more, in one turn; and resumed with its first block's r drawn and RNGWAIT = 1. -/
theorem witness_SencEncryptsMessage :
    (∃ (s : State) (draw : List Word → Option (List Poly × List Word)) (rs : List Poly), s.build.Valid ∧ s.ConfigValid ∧
      s.Samples (.senc 4) .fifo draw ∧ s.engine = .issued .fifo ∧ s.Completes .fifo draw rs [6]) ∧
    (∃ (s : State) (job : Sampling) (rs : List Poly), s.build.Valid ∧ s.ConfigValid ∧
      s.Samples (.senc 4) .fifo job.drawsFrom ∧ s.status.rngwait = true ∧ s.Completes .fifo job.drawsFrom rs []) := by
  refine ⟨⟨(senderW [0x01234567, 0x89ABCDEF, 5, 9, 0xA, 2, 3, 4, 6]).issue 0x44400000, _,
      [[0, 0, 0, 1, -1, 0, 0, -1, 1, 0, 0], [0, 0, 0, 1, 0, -1, 0, -1, 0, 0, 1]], by decide, configW_valid,
      .starts (np := 2) (nm := 2) (count := 2) rfl rfl (fun _ h => absurd h.1 (by decide)) (by decide) (by decide), rfl,
      completes_fifo (by decide +kernel) (by decide +kernel)⟩,
    ⟨{ (senderW [0xA, 2, 3, 4]).issue 0x44400000 with
        status := { (configW.issue 0).status with rngwait := true }
        engine := .sampling .fifo
          { startSampling 11 2 2 2 with todo := 1, done := [[0, 0, 0, 1, -1, 0, 0, -1, 1, 0, 0]] } },
      { startSampling 11 2 2 2 with todo := 1, done := [[0, 0, 0, 1, -1, 0, 0, -1, 1, 0, 0]] },
      [[0, 0, 0, 1, -1, 0, 0, -1, 1, 0, 0], [0, 0, 0, 1, 0, -1, 0, -1, 0, 0, 1]], by decide, configW_valid,
      .resumes rfl ⟨fun _ h => absurd h.1 (by decide), by decide, rfl, by decide, by decide, by decide, ?_⟩, rfl,
      completes_fifo (by decide +kernel) (by decide +kernel)⟩⟩
  intro c hc
  obtain rfl : c = [0, 0, 0, 1, -1, 0, 0, -1, 1, 0, 0] := by simpa using hc
  exact ⟨by decide, by decide, by decide, by decide⟩

/-- V-CHN-2, and the empty ciphertext (V-CHN-5). -/
theorem witness_SdecDecryptsMessage :
    (∃ s : State, s.status.cfgok = true ∧ s.plen[(0 : PReg)] = s.cfgN ∧ s.plen[(1 : PReg)] = s.cfgN ∧
      s.clen.toNat ≤ s.build.cmax ∧ s.n ∣ s.clen.toNat ∧ s.clen.toNat = 22 ∧
      (∀ j, j < s.clen.toNat → MessageBit s.build.bmax (decryptedIn s) j) ∧
      (s.clen.toNat < 8 * s.build.bmax → ∀ j, 8 * (s.clen.toNat / 8) ≤ j → j < s.clen.toNat → decryptedIn s j = 0)) ∧
    (∃ s : State, s.status.cfgok = true ∧ s.plen[(0 : PReg)] = s.cfgN ∧ s.plen[(1 : PReg)] = s.cfgN ∧
      s.clen.toNat = 0 ∧ s.n ∣ s.clen.toNat) := by
  refine ⟨⟨receiver, by decide, by decide, by decide, by decide, by decide, by decide, ?_, ?_⟩,
    ⟨{ receiver with clen := 0 }, by decide, by decide, by decide, by decide, by decide⟩⟩
  · simp only [MessageBit]
    decide +kernel
  · intro _ j h1 h2
    have h1' : 16 ≤ j := h1
    have h2' : j < 22 := h2
    interval_cases j <;> decide +kernel

/-! ### The bus -/

/-- The narrow widths at an aligned offset, and the last offset of the window that is no multiple of 4. -/
theorem witness_BadAccessIsBusError :
    (0x010 < 0x40000 ∧ (Width.byte ≠ .word ∨ ¬ 4 ∣ 0x010)) ∧ (0x3FFFC < 0x40000 ∧ (Width.half ≠ .word ∨ ¬ 4 ∣ 0x3FFFC)) ∧
    (0x3FFFF < 0x40000 ∧ (Width.word ≠ .word ∨ ¬ 4 ∣ 0x3FFFF)) ∧
    ∃ s : State, s.agenda = [.read .byte 0x010] ∧ s.status.busy = true :=
  ⟨by decide, by decide, by decide, { configS.issue 0 with agenda := [.read .byte 0x010] }, rfl, by decide⟩

/-- The first and the last aligned offset of every reserved range; their neighbours are not reserved. On this hardware, and
with slots, bytes and words left out (R54). -/
theorem witness_ReservedOffsets :
    (∀ off ∈ [0x05C, 0x090, 0xFFC, 0xA000, 0xFFFC, 0x31000, 0x3FFFC],
      ReservedOffset Config.thisHardware off ∧ 4 ∣ off) ∧
    (∀ off ∈ [0x058, 0x060, 0x08C, 0x1000, 0x9FFC, 0x10000, 0x30FFC, 0x40000],
      ¬ ReservedOffset Config.thisHardware off) ∧
    (∀ off ∈ [0x1020, 0x1FFC, 0x8020, 0x8FFC, 0x9008, 0x9FFC, 0xFFFC, 0x100DC, 0x3FFFC],
      ReservedOffset smallBuild off ∧ 4 ∣ off) ∧
    (∀ off ∈ [0x1000, 0x101C, 0x801C, 0x9000, 0x9004, 0x10000, 0x100D8, 0x40000], ¬ ReservedOffset smallBuild off) := by
  simp only [ReservedOffset]
  decide

/-- The first and the last slot of the first and the last register. -/
theorem witness_PolyWindow :
    (0 < 1024 ∧ 0x1000 + 0x1000 * (0 : PReg).val + 4 * 0 = 0x1000) ∧
    (1023 < 1024 ∧ 0x1000 + 0x1000 * (7 : PReg).val + 4 * 1023 = 0x8FFC) ∧
    ∃ s : State, 1023 < s.build.nmax ∧ s.status.busy = false ∧ s.agenda = [.read .word 0x8FFC] ∧ s.slot 7 1023 = some 5 :=
  ⟨by decide, by decide, { configS with p := configS.p.set 7 [(1023, 5)], agenda := [.read .word 0x8FFC] }, by decide,
    by decide, rfl, by decide⟩

/-- The first and the last word, and a last word of two bytes. -/
theorem witness_BbufWindow :
    (0 < 1024 ∧ 0x9000 + 4 * 0 = 0x9000) ∧ (1023 < 1024 ∧ 0x9000 + 4 * 1023 = 0x9FFC) ∧
    (∃ s : State, 4 * 1023 < s.build.bmax ∧ s.status.busy = false ∧ s.agenda = [.write .word 0x9FFC 5] ∧
      bufGet s.bbuf (4 * 1023 + 3) = some 7) ∧
    (∃ s : State, 4 * 1 < s.build.bmax ∧ s.status.busy = false ∧ s.agenda = [.read .word 0x9004] ∧
      bufGet s.bbuf (4 * 1 + 1) = some 7 ∧ s.build.bmax ≤ 4 * 1 + 2) :=
  ⟨by decide, by decide,
   ⟨{ configS with bbuf := [(4095, 7)], agenda := [.write .word 0x9FFC 5] }, by decide, by decide, rfl, by decide⟩,
   ⟨{ State.resetOf smallBuild with bbuf := [(5, 7)], agenda := [.read .word 0x9004] }, by decide, by decide, rfl, by decide,
     by decide⟩⟩

/-- The first and the last word. -/
theorem witness_CbufWindow :
    (0x10000 + 4 * 0 = 0x10000) ∧ (0x10000 + 4 * 33791 = 0x30FFC ∧ 0x30FFC < 0x40000) ∧
    ∃ s : State, 33791 < s.build.cmax ∧ s.status.busy = false ∧ s.agenda = [.read .word 0x30FFC] ∧
      bufGet s.cbuf 33791 = some 5 :=
  ⟨by decide, by decide, { configS with cbuf := [(33791, 5)], agenda := [.read .word 0x30FFC] }, by decide, by decide, rfl,
    by decide⟩

/-- The first and the last aligned offset of every range; their neighbours are not held. -/
theorem witness_BusyWritesAreIgnored :
    (∀ off ∈ [0x020, 0x040, 0x050, 0x058, 0x060, 0x07C, 0x1000, 0x9FFC, 0x10000, 0x30FFC],
      BusyHeldOffset Config.thisHardware off ∧ 4 ∣ off) ∧
    (∀ off ∈ [0x01C, 0x044, 0x04C, 0x05C, 0x080, 0xFFC, 0xA000, 0xFFFC, 0x31000],
      ¬ BusyHeldOffset Config.thisHardware off) ∧
    (∀ off ∈ [0x101C, 0x801C, 0x9004, 0x100D8], BusyHeldOffset smallBuild off ∧ 4 ∣ off) ∧
    (∀ off ∈ [0x1020, 0x8020, 0x9008, 0x100DC], ¬ BusyHeldOffset smallBuild off) ∧
    ∃ s : State, s.status.busy = true ∧ s.agenda = [.write .word 0x020 11] := by
  refine ⟨?_, ?_, ?_, ?_, { configS.issue 0x24800001 with agenda := [.write .word 0x020 11] }, by decide, rfl⟩
  all_goals
    simp only [BusyHeldOffset]
    decide

/-- A register of either list; no offset is in both or twice in one, and none is reserved. -/
theorem witness_RegisterReads :
    (∃ s : State, s.agenda = [.read .word 0x00C] ∧ (0x00C, BitVec.ofNat 32 4) ∈ s.alwaysReadable) ∧
    (∃ s : State, s.agenda = [.read .word 0x07C] ∧ s.status.busy = false ∧ (0x07C, BitVec.ofNat 32 9) ∈ s.idleReadable) ∧
    ((configS.alwaysReadable ++ configS.idleReadable).map Prod.fst).Nodup :=
  ⟨⟨{ configS with agenda := [.read .word 0x00C] }, rfl, by decide⟩,
   ⟨{ configS with plen := configS.plen.set 7 9, agenda := [.read .word 0x07C] }, rfl, by decide, by decide⟩, by decide⟩

/-- A configuration register, the last length tag and a read-only register; no offset is in both lists or twice in one. -/
theorem witness_RegisterWrites :
    (∃ s s' : State, s.agenda = [.write .word 0x020 0xABCD0007] ∧ s.status.busy = false ∧
      (0x020, s') ∈ s.registerWrites 0xABCD0007 ∧ s'.cfgN = 7) ∧
    (∃ s s' : State, s.agenda = [.write .word 0x07C 9] ∧ s.status.busy = false ∧ (0x07C, s') ∈ s.registerWrites 9 ∧
      s'.plen[(7 : PReg)] = 9) ∧
    (∃ s : State, s.agenda = [.write .word 0x08C 9] ∧ 0x08C ∈ readOnlyOffsets) ∧
    ((configS.registerWrites 0).map Prod.fst ++ readOnlyOffsets).Nodup := by
  refine ⟨⟨{ configS with agenda := [.write .word 0x020 0xABCD0007] }, _, rfl, by decide, List.mem_cons_self, by decide⟩,
    ⟨{ configS with agenda := [.write .word 0x07C 9] }, _, rfl, by decide,
      List.mem_append_right _ (List.mem_map_of_mem (List.mem_finRange (7 : PReg))), by decide⟩,
    ⟨{ configS with agenda := [.write .word 0x08C 9] }, rfl, by decide⟩, by decide⟩

theorem witness_StatusAndCtrlWrites :
    (∃ s : State, s.agenda = [.write .word 0x00C 0x1E2] ∧ s.status.busy = true) ∧
    (∃ (s : State) (v : Word), s.agenda = [.write .word 0x008 v] ∧ v.getLsbD 2 = false ∧ v.getLsbD 1 = true) :=
  ⟨⟨{ configS.issue 0x24800001 with agenda := [.write .word 0x00C 0x1E2] }, rfl, by decide⟩,
   ⟨{ configS with agenda := [.write .word 0x008 0xFFFFFFFB] }, 0xFFFFFFFB, rfl, by decide, by decide⟩⟩

/-- Room for one word, no room, and a word on the port. -/
theorem witness_RandomWordInputs :
    (∃ s : State, s.agenda = [.write .word 0x01C 5] ∧ s.fifo.length < s.build.rfifo ∧ s.fifo.length = 63) ∧
    (∃ s : State, s.agenda = [.write .word 0x01C 5] ∧ s.build.rfifo ≤ s.fifo.length ∧ s.fifo.length = 64) ∧
    (∃ s : State, s.agenda = [.offer 5]) :=
  ⟨⟨{ configS with fifo := List.replicate 63 0, agenda := [.write .word 0x01C 5] }, rfl, by decide, by decide⟩,
   ⟨{ configS with fifo := List.replicate 64 0, agenda := [.write .word 0x01C 5] }, rfl, by decide, by decide⟩,
   ⟨{ configS with agenda := [.offer 5] }, rfl⟩⟩

end Sys2Proof.Tests
end

section
/-! Proofs about the scope of the core (spec/00_scope.md): what an operand is read as, and the invariant that every step keeps. -/

namespace Sys2Proof.Machine

/-! ### Operands -/

/-- NDEC's ciphertext operand: the slot below the tag, 0 from the tag on (R15). -/
theorem srcExt_getD (s : State) (k : PReg) {i : Nat} (h : i < s.n) :
    (s.srcExt k).getD i 0 = if i < s.plen[k].toNat then val (s.wordAt s.p[k] i) else 0 :=
  range_map_getD _ _ h

/-- A message bit counted from the lowest bit of its byte (R170). -/
theorem streamBit_eq_getLsbD (s : State) (j : Nat) : s.streamBit j = (s.byteAt (j / 8)).getLsbD (7 - j % 8) :=
  (bitAt_eq_streamBit s j).symm

/-- Settles O24: each operand is the list of its reads, and a read of a slot that holds a value gives the value. -/
theorem operandsReadStoredValues : Obligations.OperandsReadStoredValues := by
  unfold Obligations.OperandsReadStoredValues
  refine ⟨fun s k i w hi hw => ?_, fun s k i w hi ht hw => ?_, fun s k i hi ht => ?_, fun s k i w hi hw => ?_,
    fun s j b hb => ?_, fun s k => ⟨src_length s k, rfl, rfl, rfl⟩⟩
  · rw [src_getD s k hi, wordAt_of_some hw]
  · rw [srcExt_getD s k hi, if_pos ht, wordAt_of_some hw]
  · rw [srcExt_getD s k hi, if_neg (Nat.not_lt.mpr ht)]
  · rw [cipherBlock_getD s k hi, wordAt_of_some hw]
  · rw [streamBit_eq_getLsbD, byteAt_of_some hb]

/-! ### What the invariant says of the contents: each operation keeps it -/

/-- The part of the invariant that does not speak of the engine, for a core of build `b`. -/
structure ContentsOk (b : Config.Build) (s : State) : Prop where
  build  : s.build = b
  memory : Memory.wf s = true
  fifo   : s.fifo.length ≤ b.rfifo
  config : s.status.cfgok = true → s.ConfigValid

theorem Inv.contents {s : State} (h : Inv s) : ContentsOk s.build s := ⟨rfl, h.memory, h.fifo, h.config⟩

namespace ContentsOk

variable {b : Config.Build} {s : State} (h : ContentsOk b s)

include h

theorem drew : ContentsOk b s.drew := ⟨h.build, h.memory, h.fifo, h.config⟩

theorem writePoly (k : PReg) (c : Poly) : ContentsOk b (s.writePoly k c) :=
  ⟨h.build, writePoly_wf k c h.memory, h.fifo, h.config⟩

theorem movePoly (rd rs1 : PReg) : ContentsOk b (s.movePoly rd rs1) :=
  ⟨h.build, movePoly_wf rd rs1 h.memory, h.fifo, h.config⟩

theorem raiseOvf (c : Poly) : ContentsOk b (s.raiseOvf c) := ⟨h.build, h.memory, h.fifo, h.config⟩

theorem setNoinv (v : Bool) : ContentsOk b (s.setNoinv v) := ⟨h.build, h.memory, h.fifo, h.config⟩

theorem setWeights (plus minus other : Nat) : ContentsOk b (s.setWeights plus minus other) :=
  ⟨h.build, h.memory, h.fifo, h.config⟩

theorem setNblk (k : Nat) : ContentsOk b (s.setNblk k) := ⟨h.build, h.memory, h.fifo, h.config⟩

theorem trimMessage (t : Nat) : ContentsOk b (s.trimMessage t) := ⟨h.build, h.memory, h.fifo, h.config⟩

theorem writeCipher (c : List Word) : ContentsOk b (s.writeCipher c) :=
  ⟨h.build, writeCipher_wf c h.memory, h.fifo, h.config⟩

theorem setCipherLength (c nb : Nat) : ContentsOk b (s.setCipherLength c nb) := ⟨h.build, h.memory, h.fifo, h.config⟩

theorem putBits (vs : List Bool) (j : Nat) : ContentsOk b (State.putBits vs j s) := by
  have hm := putBits_wf vs j h.memory
  rw [putBits_frame] at hm ⊢
  exact ⟨h.build, hm, h.fifo, h.config⟩

/-- CFGOK may fall at any time, and rise with parameters that pass CFGCHK (R43). -/
theorem setCfgok {v : Bool} (hv : v = true → s.ConfigValid) : ContentsOk b (s.setCfgok v) :=
  ⟨h.build, h.memory, h.fifo, hv⟩

/-- A source may lose words. -/
theorem withWords {src : RandSource} {ws : List Word} (hw : ws.length ≤ (s.wordsOf src).length) :
    ContentsOk b (s.withWords src ws) := by
  cases src with
  | port => exact ⟨h.build, h.memory, h.fifo, h.config⟩
  | fifo => exact ⟨h.build, h.memory, Nat.le_trans hw h.fifo, h.config⟩

end ContentsOk

/-! ### An engine at rest -/

/-- The invariant of a core of build `b` whose engine is idle. -/
structure Resting (b : Config.Build) (s : State) : Prop where
  contents : ContentsOk b s
  engine   : s.engine = .idle
  busy     : s.status.busy = false
  rngwait  : s.status.rngwait = false

theorem Resting.inv {b : Config.Build} {s : State} (hb : b.Valid) (h : Resting b s) : Inv s ∧ s.build = b := by
  obtain ⟨⟨rfl, hm, hf, hc⟩, he, hbusy, hw⟩ := h
  exact ⟨{ build := hb, memory := hm, fifo := hf, config := hc
           busy := by simp [hbusy, he]
           running := by simp [hbusy]
           waiting := by simp [hw]
           sampler := by simp [he] }, rfl⟩

theorem Inv.resting {s : State} (h : Inv s) (hbusy : s.status.busy = false) : Resting s.build s := by
  have he : s.engine = .idle := by
    by_contra hne
    rw [h.busy.mpr hne] at hbusy
    cases hbusy
  refine ⟨h.contents, he, hbusy, Bool.eq_false_iff.mpr fun hw => ?_⟩
  obtain ⟨src, job, hs⟩ := h.waiting hw
  rw [he] at hs
  cases hs

section Completion

variable {b : Config.Build} {s : State} (h : ContentsOk b s)

include h

theorem ContentsOk.complete : Resting b s.complete := ⟨⟨h.build, h.memory, h.fifo, h.config⟩, rfl, rfl, rfl⟩

theorem ContentsOk.fail (r : Report) : Resting b (s.fail r) := ⟨⟨h.build, h.memory, h.fifo, h.config⟩, rfl, rfl, rfl⟩

theorem ContentsOk.failDecoding (r : Report) : Resting b (s.failDecoding r) :=
  ⟨⟨h.build, failDecoding_wf r h.memory, h.fifo, h.config⟩, rfl, rfl, rfl⟩

theorem ContentsOk.rawResult (rd : PReg) (c : Poly) : Resting b (s.rawResult rd c) :=
  ((h.raiseOvf c).writePoly rd c).complete

/-- A reset leaves an idle engine and specifies no contents (R260). -/
theorem ContentsOk.hardReset : Resting b s.hardReset :=
  ⟨⟨h.build, hardReset_wf s, Nat.zero_le _, fun hc => by cases hc⟩, rfl, rfl, rfl⟩

/-- A guarded command that completes when it acts completes in any case. -/
theorem ContentsOk.guarded {pre : Option Report} {act : State → State} {t : State} (he : guarded pre act s = .next t)
    (hact : Resting b (act s)) : Resting b t := by
  rcases guarded_cases he with ⟨r, _, rfl⟩ | ⟨_, rfl⟩
  · exact h.fail r
  · exact hact

end Completion

/-! ### CFGCHK -/

theorem failBit_eq_zero_iff {i : Nat} (hi : i < 32) {bad : Bool} : failBit i bad = 0#32 ↔ bad = false := by
  cases bad with
  | false => simp [failBit]
  | true =>
    simp only [failBit, if_true, reduceCtorEq, iff_false]
    intro h
    simpa [hi] using congrArg (·.getLsbD i) h

/-- CFGCHK finds no false invariant exactly when the parameters are valid (R101). -/
theorem cfgBad_eq_zero_iff (s : State) : s.cfgBad = 0 ↔ s.ConfigValid := by
  have hprime : isPrime16 s.n = true ↔ s.n.Prime := isPrime16_iff s.cfgN.isLt
  simp (disch := decide) only [State.cfgBad, Machine.cfgBad, BitVec.ofNat_eq_ofNat, BitVec.or_eq_zero_iff,
    failBit_eq_zero_iff, Bool.not_eq_false', hprime, decide_eq_false_iff_not, not_lt, not_not, ← Nat.one_le_iff_ne_zero,
    ne_eq, gt_iff_lt]
  constructor
  · rintro ⟨⟨⟨⟨⟨⟨⟨⟨h0, h1⟩, h2⟩, h3⟩, h4⟩, h5⟩, h6⟩, h7⟩, h8⟩
    exact ⟨h0, h1, h2, h3, h4, h5, h6, h7, h8⟩
  · rintro ⟨h0, h1, h2, h3, h4, h5, h6, h7, h8⟩
    exact ⟨⟨⟨⟨⟨⟨⟨⟨h0, h1⟩, h2⟩, h3⟩, h4⟩, h5⟩, h6⟩, h7⟩, h8⟩

theorem ContentsOk.execCfgchk {b : Config.Build} {s t : State} (h : ContentsOk b s) (he : execCfgchk s = .next t) :
    Resting b t := by
  unfold Machine.execCfgchk at he
  split at he <;> cases he
  · next h0 => exact (h.setCfgok fun _ => (cfgBad_eq_zero_iff s).mp h0).complete
  · exact (h.setCfgok fun hv => by cases hv).fail _

/-! ### Commands that sample nothing -/

theorem ContentsOk.decodeBlocks {b : Config.Build} {s : State} (h : ContentsOk b s) (nb : Nat) (cs : List Poly) (base : Nat) :
    Resting b (decodeBlocks nb cs base s) := by
  induction cs generalizing base s with
  | nil =>
    unfold Machine.decodeBlocks State.finishSdec
    split
    · exact h.failDecoding _
    · exact ((h.trimMessage _).setNblk nb).drew.complete
  | cons c cs ih =>
    unfold Machine.decodeBlocks
    split
    · exact h.failDecoding _
    · exact ih (h.putBits _ _) _

/-- A command that samples nothing completes in its turn, its contents in order. -/
theorem exec_resting {b : Config.Build} {i : Instr} {s t : State} (h : ContentsOk b s) (hplan : s.samplePlan i = none)
    (he : exec i s = .next t) : Resting b t := by
  cases i with
  | nop => cases he; exact h.complete
  | cfgchk => exact h.execCfgchk he
  | pclr rd => simp only [exec, execPclr] at he; exact h.guarded he (h.writePoly _ _).complete
  | pmov rd rs1 => simp only [exec, execPmov] at he; exact h.guarded he (h.movePoly _ _).complete
  | pmul rd rs1 rs2 => simp only [exec, execPmul] at he; exact h.guarded he (h.drew.drew.rawResult _ _)
  | padd rd rs1 rs2 => simp only [exec, execPadd] at he; exact h.guarded he (h.drew.drew.rawResult _ _)
  | pscl rd rs1 sel => simp only [exec, execPscl] at he; exact h.guarded he (h.drew.rawResult _ _)
  | pred rd rs1 sel rep => simp only [exec, execPred] at he; exact h.guarded he (h.drew.writePoly _ _).complete
  | pinv rd rs1 sel =>
    simp only [exec, execPinv] at he
    refine h.guarded he ?_
    split
    · exact ((h.drew.writePoly _ _).setNoinv _).complete
    · exact (h.drew.setNoinv _).complete
  | pwck rs1 => simp only [exec, execPwck] at he; exact h.guarded he (h.drew.setWeights _ _ _).complete
  | nencx rd rs1 rs2 => simp only [exec, execNencx] at he; exact h.guarded he (h.drew.drew.drew.writePoly _ _).complete
  | ndec rd rs1 rs2 => simp only [exec, execNdec] at he; exact h.guarded he (h.drew.drew.drew.writePoly _ _).complete
  | benc rd k => simp only [exec, execBenc] at he; exact h.guarded he ((h.drew.writePoly _ _).setNblk _).complete
  | bdec rs1 k =>
    simp only [exec, execBdec] at he
    refine h.guarded he ?_
    split
    · exact h.drew.fail _
    · exact ((h.drew.putBits _ _).drew.setNblk _).complete
  | bfin =>
    simp only [exec, execBfin] at he
    refine h.guarded he ?_
    split
    · exact h.drew.fail _
    · exact (h.trimMessage _).drew.complete
  | sdec rs1 rs2 => simp only [exec, execSdec] at he; exact h.guarded he (h.drew.drew.drew.decodeBlocks _ _ _)
  | psmp rd w => cases hplan
  | nenc rd rs1 rs2 => cases hplan
  | senc rs1 => cases hplan

/-- The end of a sampling command completes it. -/
theorem ContentsOk.finishOf {b : Config.Build} {i : Instr} {s u : State} (h : ContentsOk b u)
    (hplan : (s.samplePlan i).isSome = true) (rs : List Poly) : Resting b (finishOf i rs u) := by
  cases i with
  | psmp rd w => exact (h.writePoly _ _).complete
  | nenc rd rs1 rs2 => exact (h.drew.drew.writePoly _ _).complete
  | senc rs1 => exact ((h.drew.drew.writeCipher _).setCipherLength _ _).complete
  | _ => cases hplan

/-! ### What a command in flight depends on -/

/-- `t` is `s` but for CTRL, STATUS other than CFGOK, the random words, the engine and what stands outside the core: nothing
that the arguments and the sampler of a command in flight depend on. -/
def SameInputs (s t : State) : Prop :=
  t = { s with
    ctrl := t.ctrl, status := { t.status with cfgok := s.status.cfgok }, fifo := t.fifo, engine := t.engine,
    entropy := t.entropy, agenda := t.agenda, bus := t.bus, draws := t.draws, turnLimit := t.turnLimit }

namespace SameInputs

variable {s t : State} (h : SameInputs s t)

include h

theorem build : t.build = s.build := (congrArg State.build h :)

theorem cfgok : t.status.cfgok = s.status.cfgok := (congrArg (fun u => u.status.cfgok) h :)

theorem n : t.n = s.n := (congrArg State.n h :)

theorem memory : Memory.wf t = Memory.wf s := (congrArg Memory.wf h :)

theorem configValid : t.ConfigValid = s.ConfigValid := (congrArg State.ConfigValid h :)

theorem command : t.command = s.command := (congrArg State.command h :)

theorem samplePlan (i : Instr) : t.samplePlan i = s.samplePlan i := by
  rw [h]; cases i <;> rfl

theorem argError (i : Instr) (info : Word) : ArgError t i info = ArgError s i info := by
  rw [h]; cases i <;> rfl

theorem jobFits {i : Instr} {job : Sampling} (hf : JobFits s i job) : JobFits t i job :=
  { hf with
    checked := fun info => by rw [h.argError]; exact hf.checked info
    order := by rw [h.samplePlan]; exact hf.order
    size := by rw [h.n]; exact hf.size }

end SameInputs

/-- An update that leaves a command in flight, its operands and its engine alone keeps the invariant. -/
theorem Inv.of_sameInputs {s t : State} (h : Inv s) (hs : SameInputs s t) (hf : t.fifo.length ≤ s.build.rfifo)
    (he : t.engine = s.engine) (hb : t.status.busy = s.status.busy) (hw : t.status.rngwait = s.status.rngwait)
    (hr : s.status.busy = true → t.status.done = false ∧ t.status.err = .success) : Inv t where
  build := hs.build ▸ h.build
  memory := hs.memory.trans h.memory
  fifo := hs.build ▸ hf
  busy := by rw [hb, he]; exact h.busy
  running := by rw [hb]; exact hr
  waiting := by rw [hw, he]; exact h.waiting
  config := by rw [hs.cfgok, hs.configValid]; exact h.config
  sampler src job hj := by
    obtain ⟨hc, i, hi, hfit⟩ := h.sampler src job (he ▸ hj)
    exact ⟨hs.cfgok.trans hc, i, hs.command.trans hi, hs.jobFits hfit⟩

/-- A sampler that fits the running command may stay in flight. -/
theorem Inv.keepSampling {s u : State} (h : Inv s) (hb : s.status.busy = true) (hc : s.status.cfgok = true) {i : Instr}
    (hi : s.command = .ok i) {src : RandSource} {job : Sampling} (hfit : JobFits s i job) {wait : Bool}
    (hs : SameInputs s (u.keepSampling src job wait)) (hu : u.status = s.status) (hf : u.fifo.length ≤ s.build.rfifo) :
    Inv (u.keepSampling src job wait) where
  build := hs.build ▸ h.build
  memory := hs.memory.trans h.memory
  fifo := hs.build ▸ hf
  busy := by simp [hu, hb]
  running := by simpa [hu] using h.running
  waiting := fun _ => ⟨src, job, rfl⟩
  config := by rw [hs.cfgok, hs.configValid]; exact h.config
  sampler src' job' hj := by
    cases hj
    exact ⟨hs.cfgok.trans hc, i, hs.command.trans hi, hs.jobFits hfit⟩

/-! ### Sampling commands -/

theorem weightCheck_eq_none {s : State} {w : WeightSel} : s.weightCheck w = none ↔ (s.weights w).1 + (s.weights w).2 ≤ s.n := by
  simp [State.weightCheck]

theorem mlenCheck_eq_none {s : State} : s.mlenCheck = none ↔ s.mlen.toNat ≤ s.build.bmax := by
  simp [State.mlenCheck]

/-- A sampling command that passes its pre-checks has CFGOK = 1 and no argument error. -/
theorem sampleChecks_passed {s : State} {i : Instr} (hplan : (s.samplePlan i).isSome = true) (h : s.sampleChecks i = none) :
    s.status.cfgok = true ∧ ∀ info, ¬ ArgError s i info := by
  cases i with
  | psmp rd w =>
    obtain ⟨hg, hw⟩ : s.cfgGate = none ∧ s.weightCheck w = none := by
      simpa [State.sampleChecks, firstReport_eq_none_iff] using h
    refine ⟨cfgGate_eq_none.mp hg, fun info ⟨hn, _⟩ => ?_⟩
    rw [selectedWeights_eq] at hn
    exact absurd (weightCheck_eq_none.mp hw) (Nat.not_le.mpr hn)
  | nenc rd rs1 rs2 =>
    obtain ⟨hg, _⟩ : s.cfgGate = none ∧ _ := by simpa [State.sampleChecks, firstReport_eq_none_iff] using h
    exact ⟨cfgGate_eq_none.mp hg, fun info he => he⟩
  | senc rs1 =>
    obtain ⟨hg, hm, _⟩ : s.cfgGate = none ∧ s.mlenCheck = none ∧ _ := by
      simpa [State.sampleChecks, firstReport_eq_none_iff] using h
    exact ⟨cfgGate_eq_none.mp hg, fun info ⟨hl, _⟩ => absurd (mlenCheck_eq_none.mp hm) (Nat.not_le.mpr hl)⟩
  | _ => cases hplan

/-- The weights of a sampling command without an argument error fit a valid ring: by its own check (R150), or by CFGCHK's of
CFG_DR (R101). -/
theorem samplePlan_room {s : State} {i : Instr} {np nm count : Nat} (hplan : s.samplePlan i = some (np, nm, count))
    (hv : s.ConfigValid) (ha : ∀ info, ¬ ArgError s i info) : np + nm ≤ s.n := by
  have hdr : s.cfgDr.toNat + s.cfgDr.toNat ≤ s.n := by have := hv.weightR; omega
  cases i with
  | psmp rd w =>
    cases hplan
    by_contra hn
    exact ha _ ⟨Nat.not_le.mp hn, rfl⟩
  | nenc rd rs1 rs2 => cases hplan; exact hdr
  | senc rs1 => cases hplan; exact hdr
  | _ => cases hplan

theorem sameInputs_withWords_keepSampling (s : State) (src src' : RandSource) (ws : List Word) (job : Sampling) (wait : Bool) :
    SameInputs s ((s.withWords src ws).keepSampling src' job wait) := by
  cases src <;> rfl

/-- A turn of a sampler that fits the running command keeps the invariant. -/
theorem Inv.sampleTurn {s : State} (h : Inv s) (hb : s.status.busy = true) (hc : s.status.cfgok = true) {i : Instr}
    (hi : s.command = .ok i) {src : RandSource} {job : Sampling} (hfit : JobFits s i job) :
    Inv (sampleTurn src job (finishOf i) s) ∧ (sampleTurn src job (finishOf i) s).build = s.build := by
  have happ := congrArg List.length (granted_append s (s.wordsOf src))
  rw [List.length_append] at happ
  have hle := feedWords_length_le job (s.granted (s.wordsOf src)).1
  have hfits := feedWords_fits hfit (s.granted (s.wordsOf src)).1
  have hkeep : ∀ wait, Inv ((s.withWords src (s.granted (s.wordsOf src)).2).keepSampling src
      (feedWords job (s.granted (s.wordsOf src)).1).1 wait) := fun wait =>
    h.keepSampling hb hc hi hfits (sameInputs_withWords_keepSampling ..) (State.withWords_status ..)
      ((h.contents.withWords (by omega)).fifo)
  rcases sampleTurn_cases src job (finishOf i) s with ⟨_, _, e⟩ | ⟨_, _, _, e⟩ | ⟨_, _, e⟩ <;> rw [e]
  · have hplan : (s.samplePlan i).isSome = true := by rw [hfit.order]; rfl
    exact ((h.contents.withWords (by rw [List.length_append]; omega)).finishOf hplan _).inv h.build
  · exact ⟨hkeep _, State.withWords_build ..⟩
  · exact ⟨hkeep _, State.withWords_build ..⟩

/-! ### A turn of the engine -/

/-- Running the command in CMD keeps the invariant. -/
theorem Inv.exec {s t : State} (h : Inv s) (hb : s.status.busy = true) {i : Instr} (hi : s.command = .ok i)
    (he : exec i s = .next t) : Inv t ∧ t.build = s.build := by
  cases hplan : s.samplePlan i with
  | none => exact (exec_resting h.contents hplan he).inv h.build
  | some plan =>
    obtain ⟨np, nm, count⟩ := plan
    rw [exec_of_plan hplan] at he
    by_cases hfl : ∃ src job, s.engine = .sampling src job
    · obtain ⟨src, job, hj⟩ := hfl
      rw [sampled_resume hj] at he
      cases he
      obtain ⟨hc, i', hi', hfit⟩ := h.sampler src job hj
      obtain rfl : i' = i := Except.ok.inj (hi'.symm.trans hi)
      exact h.sampleTurn hb hc hi hfit
    · rw [sampled_start (by simpa using hfl)] at he
      rcases guarded_cases he with ⟨r, _, rfl⟩ | ⟨hpre, rfl⟩
      · exact (h.contents.fail r).inv h.build
      · obtain ⟨hc, ha⟩ := sampleChecks_passed (by rw [hplan]; rfl) hpre
        exact h.sampleTurn hb hc hi (startSampling_fits ha hplan (samplePlan_room hplan (h.config hc) ha))

theorem Inv.beginTurn {s : State} (h : Inv s) (limit : Option Nat) : Inv (s.beginTurn limit) :=
  h.of_sameInputs rfl h.fifo rfl rfl rfl h.running

theorem Inv.engineTurn {s t : State} (h : Inv s) {limit : Option Nat} (he : engineTurn limit s = .next t) :
    Inv t ∧ t.build = s.build := by
  rcases engineTurn_cases he with ⟨_, rfl⟩ | ⟨hb, i, hi, hx⟩ | ⟨_, _, _, rfl⟩
  · exact ⟨h, rfl⟩
  · exact (h.beginTurn limit).exec hb hi hx
  · exact (h.contents.fail _).inv h.build

/-! ### Host accesses -/

theorem Inv.withAgenda {s : State} (h : Inv s) (rest : List Event) : Inv (s.withAgenda rest) :=
  h.of_sameInputs rfl h.fifo rfl rfl rfl h.running

theorem Inv.respond {s : State} (h : Inv s) (r : BusResponse) : Inv (s.respond r) :=
  h.of_sameInputs rfl h.fifo rfl rfl rfl h.running

theorem Inv.drew {s : State} (h : Inv s) : Inv s.drew :=
  h.of_sameInputs rfl h.fifo rfl rfl rfl h.running

theorem Inv.offerWord {s : State} (h : Inv s) (w : Word) : Inv (s.offerWord w) :=
  h.of_sameInputs rfl h.fifo rfl rfl rfl h.running

/-- The issue of a word by an idle engine (R222). -/
theorem Inv.issue {s : State} (h : Inv s) (hb : s.status.busy = false) (w : Word) : Inv (s.issue w) where
  build := h.build
  memory := h.memory
  fifo := h.fifo
  busy := by simp
  running := fun _ => ⟨rfl, rfl⟩
  waiting := by simp [(h.resting hb).rngwait]
  config := h.config
  sampler := by simp

theorem Inv.writeCtrlReg {s : State} (h : Inv s) (v : Word) : Inv (s.writeCtrlReg v) ∧ (s.writeCtrlReg v).build = s.build := by
  unfold State.writeCtrlReg
  split
  · exact h.contents.hardReset.inv h.build
  · exact ⟨h.of_sameInputs rfl h.fifo rfl rfl rfl h.running, rfl⟩

theorem Inv.writeStatusReg {s : State} (h : Inv s) (v : Word) :
    Inv (s.writeStatusReg v) ∧ (s.writeStatusReg v).build = s.build := by
  unfold State.writeStatusReg
  dsimp only
  split
  · exact ⟨h.of_sameInputs rfl h.fifo rfl rfl rfl fun hb => ⟨rfl, (h.running hb).2⟩, rfl⟩
  · exact ⟨h.of_sameInputs rfl h.fifo rfl rfl rfl h.running, rfl⟩

theorem Inv.writeCmd {s : State} (h : Inv s) (v : Word) : Inv (s.writeCmd v) ∧ (s.writeCmd v).build = s.build := by
  unfold State.writeCmd
  split
  · exact ⟨h.of_sameInputs rfl h.fifo rfl rfl rfl h.running, rfl⟩
  · next hb => exact ⟨h.issue (by simpa using hb) v, rfl⟩

theorem Inv.pushWord {s : State} (h : Inv s) (w : Word) : Inv (s.pushWord w) ∧ (s.pushWord w).build = s.build := by
  unfold State.pushWord
  split
  · next hf => exact ⟨h.of_sameInputs rfl (by simpa using hf) rfl rfl rfl h.running, rfl⟩
  · exact ⟨h.of_sameInputs rfl h.fifo rfl rfl rfl h.running, rfl⟩

/-- What a host write to a location can do: a register with an effect of its own, a write dropped with BUSYWR while a command
runs (R59), or a store (R61). -/
theorem writeValue_cases (v : Word) (s : State) (l : Loc) :
    (l = .ctrl ∧ s.writeValue v l = s.writeCtrlReg v) ∨ (l = .status ∧ s.writeValue v l = s.writeStatusReg v) ∨
    (l = .cmd ∧ s.writeValue v l = s.writeCmd v) ∨ (l = .rngdata ∧ s.writeValue v l = s.pushWord v) ∨
    (s.status.busy = true ∧ busyHeld l = true ∧
      s.writeValue v l = { s with status := { s.status with busywr := true } }) ∨
    ((s.status.busy = false ∨ busyHeld l = false) ∧ s.writeValue v l = s.storeLoc v l) := by
  cases l with
  | ctrl => exact .inl ⟨rfl, rfl⟩
  | status => exact .inr (.inl ⟨rfl, rfl⟩)
  | cmd => exact .inr (.inr (.inl ⟨rfl, rfl⟩))
  | rngdata => exact .inr (.inr (.inr (.inl ⟨rfl, rfl⟩)))
  | _ =>
    refine .inr (.inr (.inr (.inr ?_)))
    cases hb : s.status.busy <;> simp [State.writeValue, hb, busyHeld]

/-- A store elsewhere than to busy-held state has no effect (R41, R55). -/
theorem storeLoc_of_not_busyHeld (v : Word) (s : State) {l : Loc} (hl : busyHeld l = false) : s.storeLoc v l = s := by
  revert hl
  cases l <;> simp [busyHeld, State.storeLoc]

theorem Resting.storeByte {b : Config.Build} {s : State} (h : Resting b s) (i : Nat) (v : Byte) : Resting b (s.storeByte i v) := by
  obtain ⟨⟨hbuild, hm, hf, hc⟩, he, hb, hw⟩ := h
  have hm' := storeByte_wf i v hm
  unfold State.storeByte at hm' ⊢
  split
  · next hi =>
    rw [if_pos hi] at hm'
    exact ⟨⟨hbuild, hm', hf, hc⟩, he, hb, hw⟩
  · exact ⟨⟨hbuild, hm, hf, hc⟩, he, hb, hw⟩

/-- A store while the engine is idle: a configuration register takes CFGOK down with it (R30). -/
theorem Resting.storeLoc {b : Config.Build} {s : State} (h : Resting b s) (v : Word) {l : Loc}
    (hl : locInRange s.build l = true) : Resting b (s.storeLoc v l) := by
  have hm := storeLoc_wf v hl h.contents.memory
  obtain ⟨⟨hbuild, _, hf, hc⟩, he, hb, hw⟩ := id h
  cases l with
  | bword j => exact (((h.storeByte _ _).storeByte _ _).storeByte _ _).storeByte _ _
  | cfgN | cfgP | cfgQ | cfgDf | cfgDg | cfgDr => exact ⟨⟨hbuild, hm, hf, fun hok => by cases hok⟩, he, hb, hw⟩
  | _ => exact ⟨⟨hbuild, hm, hf, hc⟩, he, hb, hw⟩

theorem Inv.writeValue {s : State} (h : Inv s) (v : Word) {l : Loc} (hl : locInRange s.build l = true) :
    Inv (s.writeValue v l) ∧ (s.writeValue v l).build = s.build := by
  rcases writeValue_cases v s l with ⟨_, e⟩ | ⟨_, e⟩ | ⟨_, e⟩ | ⟨_, e⟩ | ⟨_, _, e⟩ | ⟨hb | hn, e⟩ <;> rw [e]
  · exact h.writeCtrlReg v
  · exact h.writeStatusReg v
  · exact h.writeCmd v
  · exact h.pushWord v
  · exact ⟨h.of_sameInputs rfl h.fifo rfl rfl rfl h.running, rfl⟩
  · exact ((h.resting hb).storeLoc v hl).inv h.build
  · rw [storeLoc_of_not_busyHeld v s hn]
    exact ⟨h, rfl⟩

theorem Inv.busRead {s t : State} (h : Inv s) {w : Width} {off : Nat} (hr : busRead w off s = .next t) :
    Inv t ∧ t.build = s.build := by
  obtain ⟨_, ⟨_, rfl⟩ | ⟨_, rfl⟩⟩ := busRead_cases hr
  · exact ⟨h.respond _, rfl⟩
  · exact ⟨h.drew.respond _, rfl⟩

theorem Inv.busWrite {s t : State} (h : Inv s) {w : Width} {off : Nat} {v : Word} (hw : busWrite w off v s = .next t) :
    Inv t ∧ t.build = s.build := by
  obtain ⟨_, ⟨_, rfl⟩ | ⟨_, rfl⟩⟩ := busWrite_cases hw
  · exact ⟨h.respond _, rfl⟩
  · obtain ⟨hi, hb⟩ := h.writeValue v (locOf_inRange s.build off)
    exact ⟨hi.respond _, hb⟩

/-! ### Every step -/

/-- Settles O12: whatever comes next, a turn of the engine, a host access, an offered word or a reset, keeps the invariant. -/
theorem stepKeepsInvariant : Obligations.StepKeepsInvariant := by
  unfold Obligations.StepKeepsInvariant
  intro s t h hstep
  rcases step_cases hstep with ⟨_, he⟩ | ⟨limit, rest, _, he⟩ | ⟨w, off, rest, _, he⟩ | ⟨w, off, v, rest, _, he⟩ |
    ⟨w, rest, _, rfl⟩ | ⟨rest, _, rfl⟩
  · exact h.engineTurn he
  · exact (h.withAgenda rest).engineTurn he
  · exact (h.withAgenda rest).busRead he
  · exact (h.withAgenda rest).busWrite he
  · exact ⟨(h.withAgenda rest).offerWord w, rfl⟩
  · exact (h.withAgenda rest).contents.hardReset.inv h.build

end Sys2Proof.Machine
end

section
/-! Proofs about the registers (spec/10_state.md): their reset values, what the host reads and writes through the bus, and the
sticky bits of STATUS. -/

namespace Sys2Proof.Machine

/-! ### Registers and their offsets (R26) -/

theorem csrTable_offset : ∀ e ∈ csrTable, e.1 < 0x1000 ∧ 4 ∣ e.1 := by decide

theorem locOf_of_mem_csrTable (b : Config.Build) {off : Nat} {l : Loc} (h : (off, l) ∈ csrTable) : locOf b off = l := by
  have hlookup : ∀ e ∈ csrTable, (csrTable.lookup e.1).getD .reserved = e.2 := by decide
  rw [locOf_csr b (csrTable_offset _ h).1]
  exact hlookup _ h

/-- The offsets beyond the registers lead to a window, or nowhere. -/
theorem locOf_window (b : Config.Build) {off : Nat} (h : 0x1000 ≤ off) :
    (∃ k i, locOf b off = .slot k i) ∨ (∃ j, locOf b off = .bword j) ∨ (∃ i, locOf b off = .cword i) ∨
      locOf b off = .reserved := by
  unfold locOf
  rw [if_neg (Nat.not_lt.mpr h)]
  dsimp only
  split
  · split
    · exact .inl ⟨_, _, rfl⟩
    · exact .inr (.inr (.inr rfl))
  · split
    · split
      · exact .inr (.inl ⟨_, rfl⟩)
      · exact .inr (.inr (.inr rfl))
    · split
      · exact .inr (.inr (.inl ⟨_, rfl⟩))
      · exact .inr (.inr (.inr rfl))

/-- What a list made of the table's locations of one kind holds. -/
theorem mem_csrTable_filter_map {α : Type} {kind : Loc → Bool} {f : Loc → α} {off : Nat} {x : α} :
    (off, x) ∈ (csrTable.filter fun e => kind e.2).map (fun e => (e.1, f e.2)) ↔
      ∃ l, (off, l) ∈ csrTable ∧ kind l = true ∧ f l = x := by
  simp [and_assoc]

/-- A step with a host write to a register next. -/
theorem step_write_register {s : State} {off : Nat} {l : Loc} {v : Word} {rest : List Event} (hl : (off, l) ∈ csrTable)
    (ha : s.agenda = .write .word off v :: rest) :
    step s = .next (((s.withAgenda rest).writeValue v l).respond ⟨0, false⟩) := by
  obtain ⟨ho, h4⟩ : off < 0x1000 ∧ 4 ∣ off := csrTable_offset _ hl
  rw [step_write ha (by omega) h4, locOf_of_mem_csrTable s.build hl]

/-- Only an offset of the table reaches a register, whatever the build. -/
theorem mem_csrTable_of_locOf {b : Config.Build} {off : Nat} {l : Loc} (hl : l ∈ csrTable.map Prod.snd)
    (h : locOf b off = l) : (off, l) ∈ csrTable := by
  subst h
  by_cases ho : off < 0x1000
  · rw [locOf_csr b ho] at hl ⊢
    cases hk : csrTable.lookup off with
    | none => rw [hk] at hl; exact absurd hl (by decide)
    | some l =>
      obtain ⟨pre, post, e, _⟩ := List.lookup_eq_some_iff.mp hk
      rw [e]
      exact List.mem_append_cons_self
  · rcases locOf_window b (Nat.not_lt.mp ho) with ⟨k, i, e⟩ | ⟨j, e⟩ | ⟨i, e⟩ | e <;> rw [e] at hl <;>
      simp [csrTable] at hl

/-! ### The sticky bits of STATUS (R28, R42, R112) -/

/-- OVF, CMDOVR, BUSYWR and RNGOVR of `a` that are 1 are 1 in `b`. An update that does not touch the four, whatever else of
STATUS it writes, has ⟨id, id, id, id⟩ for proof. -/
structure Status.KeepsSticky (a b : Status) : Prop where
  ovf    : a.ovf = true → b.ovf = true
  cmdovr : a.cmdovr = true → b.cmdovr = true
  busywr : a.busywr = true → b.busywr = true
  rngovr : a.rngovr = true → b.rngovr = true

theorem guarded_keepsSticky {pre : Option Report} {act : State → State} {s t : State} (he : guarded pre act s = .next t)
    (hact : s.status.KeepsSticky (act s).status) : s.status.KeepsSticky t.status := by
  rcases guarded_cases he with ⟨r, _, rfl⟩ | ⟨_, rfl⟩
  · exact ⟨id, id, id, id⟩
  · exact hact

/-- PMUL, PADD and PSCL set OVF and never clear it (R112). -/
theorem rawResult_keepsSticky (s : State) (rd : PReg) (c : Poly) : s.status.KeepsSticky (s.rawResult rd c).status :=
  ⟨fun h => by simp [State.rawResult, h], id, id, id⟩

theorem decodeBlocks_keepsSticky (nb : Nat) (cs : List Poly) (base : Nat) (s : State) :
    s.status.KeepsSticky (decodeBlocks nb cs base s).status := by
  induction cs generalizing base s with
  | nil =>
    unfold decodeBlocks State.finishSdec
    split <;> exact ⟨id, id, id, id⟩
  | cons c cs ih =>
    unfold decodeBlocks
    split
    · exact ⟨id, id, id, id⟩
    · simpa using ih (base + c.length) (s.putBits (bitsOf c) base)

theorem finishOf_keepsSticky (i : Instr) (rs : List Poly) (s : State) : s.status.KeepsSticky (finishOf i rs s).status := by
  cases i <;> exact ⟨id, id, id, id⟩

theorem sampleTurn_keepsSticky (src : RandSource) (job : Sampling) (i : Instr) (s : State) :
    s.status.KeepsSticky (sampleTurn src job (finishOf i) s).status := by
  rcases sampleTurn_cases src job (finishOf i) s with ⟨_, _, e⟩ | ⟨_, _, _, e⟩ | ⟨_, _, e⟩ <;> rw [e]
  · rw [← State.withWords_status src _ s]
    exact finishOf_keepsSticky ..
  · cases src <;> exact ⟨id, id, id, id⟩
  · cases src <;> exact ⟨id, id, id, id⟩

theorem sampled_keepsSticky {i : Instr} {pre : Option Report} {start : Sampling} {s t : State}
    (he : sampled pre start (finishOf i) s = .next t) : s.status.KeepsSticky t.status := by
  unfold sampled at he
  split at he
  · cases he; exact sampleTurn_keepsSticky ..
  · exact guarded_keepsSticky he (sampleTurn_keepsSticky ..)
  · exact guarded_keepsSticky he (sampleTurn_keepsSticky ..)

/-- No command clears a sticky bit. -/
theorem exec_keepsSticky {i : Instr} {s t : State} (he : exec i s = .next t) : s.status.KeepsSticky t.status := by
  unfold exec at he
  cases i with
  | nop => cases he; exact ⟨id, id, id, id⟩
  | cfgchk =>
    simp only [execCfgchk] at he
    split at he <;> cases he <;> exact ⟨id, id, id, id⟩
  | pclr _ | pmov _ _ | pred _ _ _ _ | pwck _ | nencx _ _ _ | ndec _ _ _ | benc _ _ =>
    exact guarded_keepsSticky he ⟨id, id, id, id⟩
  | pmul _ _ _ | padd _ _ _ => exact guarded_keepsSticky he (rawResult_keepsSticky s.drew.drew ..)
  | pscl _ _ _ => exact guarded_keepsSticky he (rawResult_keepsSticky s.drew ..)
  | pinv _ _ _ => refine guarded_keepsSticky he ?_; split <;> exact ⟨id, id, id, id⟩
  | bfin => refine guarded_keepsSticky he ?_; dsimp only; split <;> exact ⟨id, id, id, id⟩
  | bdec rs1 k =>
    refine guarded_keepsSticky he ?_
    dsimp only
    split
    · exact ⟨id, id, id, id⟩
    · constructor <;> simp
  | sdec _ _ => exact guarded_keepsSticky he (decodeBlocks_keepsSticky _ _ _ s.drew.drew.drew)
  | psmp rd w => exact sampled_keepsSticky (i := .psmp rd w) he
  | nenc rd rs1 rs2 => exact sampled_keepsSticky (i := .nenc rd rs1 rs2) he
  | senc rs1 => exact sampled_keepsSticky (i := .senc rs1) he

theorem engineTurn_keepsSticky {limit : Option Nat} {s t : State} (he : engineTurn limit s = .next t) :
    s.status.KeepsSticky t.status := by
  rcases engineTurn_cases he with ⟨_, rfl⟩ | ⟨_, i, _, hx⟩ | ⟨_, _, _, rfl⟩
  · exact ⟨id, id, id, id⟩
  · exact exec_keepsSticky (s := s.beginTurn limit) hx
  · exact ⟨id, id, id, id⟩

theorem busRead_keepsSticky {w : Width} {off : Nat} {s t : State} (he : busRead w off s = .next t) :
    s.status.KeepsSticky t.status := by
  obtain ⟨_, ⟨_, rfl⟩ | ⟨_, rfl⟩⟩ := busRead_cases he <;> exact ⟨id, id, id, id⟩

theorem writeCmd_keepsSticky (v : Word) (s : State) : s.status.KeepsSticky (s.writeCmd v).status := by
  unfold State.writeCmd
  split
  · exact ⟨id, fun _ => rfl, id, id⟩
  · exact ⟨id, id, id, id⟩

theorem pushWord_keepsSticky (w : Word) (s : State) : s.status.KeepsSticky (s.pushWord w).status := by
  unfold State.pushWord
  split
  · exact ⟨id, id, id, id⟩
  · exact ⟨id, id, id, fun _ => rfl⟩

theorem storeLoc_keepsSticky (v : Word) (s : State) (l : Loc) : s.status.KeepsSticky (s.storeLoc v l).status := by
  cases l with
  | bword j => constructor <;> simp [State.storeLoc]
  | _ => exact ⟨id, id, id, id⟩

/-- A host write clears no sticky bit, but for one to STATUS, and one to CTRL that resets the core. -/
theorem writeValue_keepsSticky {v : Word} {l : Loc} (s : State) (hstatus : l ≠ .status)
    (hctrl : l = .ctrl → v.getLsbD 2 = false) : s.status.KeepsSticky (s.writeValue v l).status := by
  rcases writeValue_cases v s l with ⟨hl, e⟩ | ⟨hl, _⟩ | ⟨_, e⟩ | ⟨_, e⟩ | ⟨_, _, e⟩ | ⟨_, e⟩
  · rw [e, State.writeCtrlReg, hctrl hl]; exact ⟨id, id, id, id⟩
  · exact absurd hl hstatus
  · rw [e]; exact writeCmd_keepsSticky v s
  · rw [e]; exact pushWord_keepsSticky v s
  · rw [e]; exact ⟨id, id, fun _ => rfl, id⟩
  · rw [e]; exact storeLoc_keepsSticky v s l

/-- A host write of `v` to STATUS, bit by bit (R28). -/
theorem writeStatusReg_eq (v : Word) (s : State) :
    s.writeStatusReg v = { s with
      status := { s.status with
        done := s.status.done && !v.getLsbD 1
        ovf := s.status.ovf && !v.getLsbD 5
        cmdovr := s.status.cmdovr && !v.getLsbD 6
        busywr := s.status.busywr && !v.getLsbD 7
        rngovr := s.status.rngovr && !v.getLsbD 8 } } := by
  cases h : v.getLsbD 1 with
  | true => simp only [State.writeStatusReg, h, if_true, Bool.not_true, Bool.and_false]; rfl
  | false => simp only [State.writeStatusReg, h, Bool.false_eq_true, if_false, Bool.not_false, Bool.and_true]; rfl

/-- A step clears no sticky bit, but for a reset and a host write to STATUS. -/
theorem step_keepsSticky {s t : State} (h : step s = .next t) (hreset : ¬ s.ResetNext)
    (hstatus : ∀ v rest, s.agenda ≠ .write .word 0x00C v :: rest) : s.status.KeepsSticky t.status := by
  rcases step_cases h with ⟨_, he⟩ | ⟨limit, rest, _, he⟩ | ⟨w, off, rest, _, he⟩ | ⟨w, off, v, rest, ha, he⟩ |
    ⟨w, rest, _, rfl⟩ | ⟨rest, ha, _⟩
  · exact engineTurn_keepsSticky he
  · exact engineTurn_keepsSticky (s := s.withAgenda rest) he
  · exact busRead_keepsSticky (s := s.withAgenda rest) he
  · obtain ⟨_, ⟨_, rfl⟩ | ⟨hw, rfl⟩⟩ := busWrite_cases he
    · exact ⟨id, id, id, id⟩
    · obtain rfl : w = .word := by simp [badAccess] at hw; exact hw.1
      refine writeValue_keepsSticky (s.withAgenda rest) (fun e => ?_) fun e => ?_
      · obtain rfl : off = 0x00C := by simpa [csrTable] using mem_csrTable_of_locOf (by decide) e
        exact hstatus v rest ha
      · obtain rfl : off = 0x008 := by simpa [csrTable] using mem_csrTable_of_locOf (by decide) e
        exact Bool.eq_false_iff.mpr fun hv => hreset (.inr ⟨v, rest, ha, hv⟩)
  · exact ⟨id, id, id, id⟩
  · exact absurd (.inl ⟨rest, ha⟩) hreset

/-- Settles O16: a step that is no reset and clears a sticky bit is a host write to STATUS, and that clears the bits written 1. -/
theorem stickyBitsClearedByHostOnly : Obligations.StickyBitsClearedByHostOnly := by
  unfold Obligations.StickyBitsClearedByHostOnly
  intro s t hstep hreset
  by_cases hw : ∃ v rest, s.agenda = .write .word 0x00C v :: rest
  · obtain ⟨v, rest, ha⟩ := hw
    obtain rfl := Host.Outcome.next.inj ((step_write_register (l := .status) (by decide) ha).symm.trans hstep)
    have hclear {b : Bool} {i : Nat} (h : b = true) (ht : (b && !v.getLsbD i) = false) : s.ClearNext i :=
      ⟨v, rest, ha, by simpa [h] using ht⟩
    have hvalue : (s.withAgenda rest).writeValue v .status = (s.withAgenda rest).writeStatusReg v := rfl
    rw [hvalue, writeStatusReg_eq]
    exact ⟨hclear, hclear, hclear, hclear⟩
  · obtain ⟨hovf, hcmd, hbusy, hrng⟩ := step_keepsSticky hstep hreset fun v rest ha => hw ⟨v, rest, ha⟩
    exact ⟨fun h ht => absurd (hovf h) (by simp [ht]), fun h ht => absurd (hcmd h) (by simp [ht]),
      fun h ht => absurd (hbusy h) (by simp [ht]), fun h ht => absurd (hrng h) (by simp [ht])⟩

/-! ### The reset state (R47) -/

/-- A core after reset is idle, and meets what the invariant says of its contents. -/
theorem resetOf_resting (b : Config.Build) : Resting b (State.resetOf b) :=
  ⟨⟨rfl, resetOf_memory_wf b, Nat.zero_le _, fun hc => by cases hc⟩, rfl, rfl, rfl⟩

/-- Settles O11: a core after reset is idle, with nothing listed, nothing waiting and CFGOK = 0. -/
theorem resetMeetsInvariant : Obligations.ResetMeetsInvariant := by
  unfold Obligations.ResetMeetsInvariant
  have hreset (b : Config.Build) (hb : b.Valid) : Inv (State.resetOf b) := ((resetOf_resting b).inv hb).1
  exact ⟨hreset Config.thisHardware (by decide), hreset⟩

/-- Settles O9: the fields of the reset state are R47's values, and the CAP registers give the parameters of the build. -/
theorem resetValues : Obligations.ResetValues := by
  unfold Obligations.ResetValues
  refine ⟨by decide, fun b hb => ?_, rfl, rfl, rfl, rfl, rfl, rfl, rfl, rfl, rfl, rfl, rfl, rfl, rfl, rfl, rfl, rfl, rfl, rfl,
    rfl, rfl, rfl, by decide, fun k i => ?_, fun _ => rfl, fun _ => rfl, rfl, rfl⟩
  · obtain ⟨_, hn, _, hm, _, hc, _, hr⟩ := hb
    exact ⟨rfl, Nat.mod_eq_of_lt (show b.nmax < 2 ^ 32 by omega), Nat.mod_eq_of_lt (show b.bmax < 2 ^ 32 by omega),
      Nat.mod_eq_of_lt hc, Nat.mod_eq_of_lt hr⟩
  · simp [State.slot, State.reset]

/-! ### Register reads (R26, R60) -/

/-- One more bit below a word. -/
theorem toNat_append_ofBool {n : Nat} (x : BitVec n) (b : Bool) : (x ++ BitVec.ofBool b).toNat = 2 * x.toNat + b.toNat := by
  rw [BitVec.toNat_append, ← Nat.shiftLeft_add_eq_or_of_lt (BitVec.ofBool b).isLt, BitVec.toNat_ofBool, Nat.shiftLeft_eq]
  omega

theorem bitValue_eq (i : Nat) (b : Bool) : bitValue i b = b.toNat * 2 ^ i := by cases b <;> simp [bitValue]

theorem statusWord_toNat (t : Status) : (statusWord t).toNat = statusNumber t := by
  have herr : ((0 : BitVec 12) ++ errBits t.err ++ (0 : BitVec 6)).toNat = errNumber t.err * 64 := by
    cases t.err <;> rfl
  simp only [statusWord, statusNumber, toNat_append_ofBool, herr, bitValue_eq]
  omega

theorem statusWord_eq (t : Status) : statusWord t = BitVec.ofNat 32 (statusNumber t) := by
  rw [← statusWord_toNat, BitVec.ofNat_toNat, BitVec.setWidth_eq]

theorem ctrlWord_eq (c : Ctrl) :
    ctrlWord c = BitVec.ofNat 32 (bitValue 0 c.irqen + bitValue 1 (decide (c.rsrc = .fifo))) := by
  obtain ⟨irqen, rsrc⟩ := c
  cases irqen <;> cases rsrc <;> rfl

/-- The registers of the host side are those that the engine does not own. -/
theorem alwaysReadable_eq (s : State) :
    s.alwaysReadable = (csrTable.filter fun e => !engineOwned e.2).map fun e => (e.1, s.readLoc e.2) := by
  simp [State.alwaysReadable, csrTable, engineOwned, State.readLoc, ctrlWord_eq, statusWord_eq]

theorem idleReadable_eq (s : State) :
    s.idleReadable = (csrTable.filter fun e => engineOwned e.2).map fun e => (e.1, s.readLoc e.2) := by
  simp [State.idleReadable, csrTable, engineOwned, State.readLoc, List.finRange]

/-- A location reads as its value unless a command runs and owns it (R60). -/
theorem readValue_of_readable {s : State} {l : Loc} (h : s.status.busy = false ∨ engineOwned l = false) :
    s.readValue l = s.readLoc l := by
  rcases h with h | h <;> simp [State.readValue, h]

/-- Settles O57: a read is answered with the location's value (R26, R60), and only uses up draw numbers. -/
theorem registerReads : Obligations.RegisterReads := by
  unfold Obligations.RegisterReads
  intro s off rest ha ho h4
  refine ⟨_, step_read ha ho h4, rfl, fun v hv => ?_, fun v hv hb => ?_, rfl⟩
  · rw [alwaysReadable_eq, mem_csrTable_filter_map (kind := fun l => !engineOwned l)] at hv
    obtain ⟨l, hl, hown, rfl⟩ := hv
    rw [locOf_of_mem_csrTable s.build hl]
    exact readValue_of_readable (.inr (by simpa using hown))
  · rw [idleReadable_eq, mem_csrTable_filter_map] at hv
    obtain ⟨l, hl, hown, rfl⟩ := hv
    rw [locOf_of_mem_csrTable s.build hl]
    exact readValue_of_readable (.inl hb)

/-! ### Register writes (R27 to R41) -/

/-- The read-write registers are those whose writes a running command holds (R59). -/
theorem registerWrites_eq (s : State) (v : Word) :
    s.registerWrites v = (csrTable.filter fun e => busyHeld e.2).map fun e => (e.1, s.storeLoc v e.2) := by
  simp only [State.registerWrites, ← BitVec.setWidth_eq_extractLsb' (show 16 ≤ 32 by decide)]
  rfl

/-- While BUSY = 0 a write to busy-held state is honoured. -/
theorem writeValue_of_busyHeld (v : Word) {s : State} {l : Loc} (hb : s.status.busy = false) (hl : busyHeld l = true) :
    s.writeValue v l = s.storeLoc v l := by
  rcases writeValue_cases v s l with ⟨rfl, _⟩ | ⟨rfl, _⟩ | ⟨rfl, _⟩ | ⟨rfl, _⟩ | ⟨hb', _, _⟩ | ⟨_, e⟩
  · cases hl
  · cases hl
  · cases hl
  · cases hl
  · rw [hb] at hb'; cases hb'
  · exact e

/-- A write is ignored, at any time, where nothing can be stored and no write has an effect of its own (R41, R55). -/
theorem writeValue_of_readOnly (v : Word) (s : State) {l : Loc} (hl : busyHeld l = false)
    (he : l ∉ [Loc.ctrl, .status, .cmd, .rngdata]) : s.writeValue v l = s := by
  rcases writeValue_cases v s l with ⟨rfl, _⟩ | ⟨rfl, _⟩ | ⟨rfl, _⟩ | ⟨rfl, _⟩ | ⟨_, hl', _⟩ | ⟨_, e⟩
  · exact absurd (by decide) he
  · exact absurd (by decide) he
  · exact absurd (by decide) he
  · exact absurd (by decide) he
  · rw [hl] at hl'; cases hl'
  · rw [e, storeLoc_of_not_busyHeld v s hl]

/-- A store does not look at what comes next, nor change it. -/
theorem storeLoc_withAgenda (v : Word) (s : State) (rest : List Event) (l : Loc) :
    (s.withAgenda rest).storeLoc v l = (s.storeLoc v l).withAgenda rest := by
  have hbyte (i : Nat) (x : Byte) (u : State) : (u.withAgenda rest).storeByte i x = (u.storeByte i x).withAgenda rest := by
    by_cases hi : i < u.build.bmax <;> simp [State.storeByte, State.withAgenda, hi]
  cases l with
  | bword j => simp only [State.storeLoc, hbyte]
  | _ => rfl

/-- The offsets of the read-only registers lead to locations that ignore writes. -/
theorem readOnlyOffsets_readOnly : ∀ off ∈ readOnlyOffsets, ∃ l, (off, l) ∈ csrTable ∧ busyHeld l = false ∧
    l ∉ [Loc.ctrl, .status, .cmd, .rngdata] := by
  have htable : readOnlyOffsets =
      (csrTable.filter fun e => !busyHeld e.2 && decide (e.2 ∉ [Loc.ctrl, .status, .cmd, .rngdata])).map Prod.fst := by decide
  intro off hoff
  rw [htable] at hoff
  simpa using hoff

/-- Settles O58: a read-write register is busy-held state, which an idle core stores (R30 to R37); nothing is stored in a
read-only one (R41). -/
theorem registerWrites : Obligations.RegisterWrites := by
  unfold Obligations.RegisterWrites
  refine ⟨fun s s' off v rest ha hb hs' => ?_, fun s off v rest ha hoff => ?_⟩
  · rw [registerWrites_eq, mem_csrTable_filter_map] at hs'
    obtain ⟨l, hl, hheld, rfl⟩ := hs'
    refine ⟨_, step_write_register hl ha, rfl, ?_⟩
    rw [writeValue_of_busyHeld v (s := s.withAgenda rest) hb hheld, storeLoc_withAgenda]
    rfl
  · obtain ⟨l, hl, hheld, heffect⟩ := readOnlyOffsets_readOnly off hoff
    refine ⟨_, step_write_register hl ha, rfl, ?_⟩
    rw [writeValue_of_readOnly v _ hheld heffect]
    rfl

/-- Settles O59: STATUS and CTRL take their writes whether or not a command runs (R27, R28). -/
theorem statusAndCtrlWrites : Obligations.StatusAndCtrlWrites := by
  unfold Obligations.StatusAndCtrlWrites
  refine fun s v rest => ⟨fun ha => ?_, fun ha hv => ?_⟩
  · refine ⟨_, step_write_register (l := .status) (by decide) ha, rfl, ?_⟩
    rw [State.writeValue, writeStatusReg_eq]
    rfl
  · refine ⟨_, step_write_register (l := .ctrl) (by decide) ha, rfl, ?_⟩
    rw [State.writeValue, State.writeCtrlReg, hv]
    rfl

theorem pushWord_of_room (w : Word) {s : State} (h : s.fifo.length < s.build.rfifo) :
    s.pushWord w = { s with fifo := s.fifo ++ [w] } := by
  rw [State.pushWord, if_pos h]

theorem pushWord_of_full (w : Word) {s : State} (h : s.build.rfifo ≤ s.fifo.length) :
    s.pushWord w = { s with status := { s.status with rngovr := true } } := by
  rw [State.pushWord, if_neg (Nat.not_lt.mpr h)]

/-- Settles O60: a RNGDATA write is taken while the FIFO has room (R39), and the words on the entropy port queue up (R45). -/
theorem randomWordInputs : Obligations.RandomWordInputs := by
  unfold Obligations.RandomWordInputs
  refine fun s w rest => ⟨fun ha => ?_, fun ha => ?_⟩
  · refine ⟨_, step_write_register (l := .rngdata) (by decide) ha, rfl, fun hroom => ?_, fun hfull => ?_⟩
    · rw [State.writeValue, pushWord_of_room w (s := s.withAgenda rest) hroom]
      rfl
    · rw [State.writeValue, pushWord_of_full w (s := s.withAgenda rest) hfull]
      rfl
  · rw [step, ha]
    rfl

end Sys2Proof.Machine
end

section
/-! Proofs about the host's memory map (spec/20_memory.md): what each command may write, and the bus accesses to the windows of
P, BBUF and CBUF, to reserved offsets and to state that a running command holds. -/

namespace Sys2Proof.Machine

/-! ### What each command may write (R67) -/

/-- What R67's column "writes" tells apart. -/
inductive Part where
  | reg (k : PReg)   -- Pk and PLENk
  | weights          -- WPLUS, WMINUS, WOTHER and TERN
  | noinv
  | cfgok
  | ovf
  | mlen
  | nblk
  | cipher           -- CLEN and CBUF
  | bbuf
  | words            -- the random words of both sources

/-- R67's column "writes", with the random words that a sampling command takes, and NBLK for BDEC (log entry 19). -/
def written : Instr → List Part
  | .nop => []
  | .cfgchk => [.cfgok]
  | .pclr rd | .pmov rd _ | .pred rd _ _ _ | .nencx rd _ _ | .ndec rd _ _ => [.reg rd]
  | .pmul rd _ _ | .padd rd _ _ | .pscl rd _ _ => [.reg rd, .ovf]
  | .pinv rd _ _ => [.reg rd, .noinv]
  | .psmp rd _ | .nenc rd _ _ => [.reg rd, .words]
  | .pwck _ => [.weights]
  | .benc rd _ => [.reg rd, .nblk]
  | .bdec _ _ => [.bbuf, .nblk]
  | .bfin => [.mlen]
  | .senc _ => [.cipher, .nblk, .words]
  | .sdec _ _ => [.bbuf, .mlen, .nblk]

/-- What no command writes. -/
def State.hostSide (s : State) :=
  (s.ctrl, s.cmd, s.cfgN, s.cfgP, s.cfgQ, s.cfgDf, s.cfgDg, s.cfgDr, s.modarg, s.sampNp, s.sampNm, s.agenda, s.bus, s.build,
    s.status.cmdovr, s.status.busywr, s.status.rngovr)

/-- Of R67's parts only those in `w` differ in `s` and `t`. -/
structure ChangesOnly (w : List Part) (s t : State) : Prop where
  host    : t.hostSide = s.hostSide
  reg     : ∀ k, .reg k ∉ w → t.p[k] = s.p[k] ∧ t.plen[k] = s.plen[k]
  weights : .weights ∉ w → t.wplus = s.wplus ∧ t.wminus = s.wminus ∧ t.wother = s.wother ∧ t.status.tern = s.status.tern
  noinv   : .noinv ∉ w → t.status.noinv = s.status.noinv
  cfgok   : .cfgok ∉ w → t.status.cfgok = s.status.cfgok
  ovf     : .ovf ∉ w → t.status.ovf = s.status.ovf
  mlen    : .mlen ∉ w → t.mlen = s.mlen
  nblk    : .nblk ∉ w → t.nblk = s.nblk
  cipher  : .cipher ∉ w → t.clen = s.clen ∧ t.cbuf = s.cbuf
  bbuf    : .bbuf ∉ w → t.bbuf = s.bbuf
  words   : .words ∉ w → t.fifo = s.fifo ∧ t.entropy = s.entropy

theorem ChangesOnly.refl (w : List Part) (s : State) : ChangesOnly w s s :=
  ⟨rfl, fun _ _ => ⟨rfl, rfl⟩, fun _ => ⟨rfl, rfl, rfl, rfl⟩, fun _ => rfl, fun _ => rfl, fun _ => rfl, fun _ => rfl,
    fun _ => rfl, fun _ => ⟨rfl, rfl⟩, fun _ => rfl, fun _ => ⟨rfl, rfl⟩⟩

namespace ChangesOnly

variable {w : List Part} {s u : State} (h : ChangesOnly w s u)

include h

theorem drew : ChangesOnly w s u.drew := { h with }

theorem complete : ChangesOnly w s u.complete := { h with }

theorem fail (r : Report) : ChangesOnly w s (u.fail r) := { h with }

theorem keepSampling (src : RandSource) (job : Sampling) (wait : Bool) : ChangesOnly w s (u.keepSampling src job wait) :=
  { h with }

/-- A register that may change takes new contents and a new tag. -/
theorem setReg {rd : PReg} (hw : .reg rd ∈ w) (b : Buf Word) (l : Half) :
    ChangesOnly w s { u with p := u.p.set rd b, plen := u.plen.set rd l } :=
  { h with
    reg := fun k hk => by
      have hne : rd ≠ k := fun e => hk (e ▸ hw)
      obtain ⟨hp, htag⟩ := h.reg k hk
      exact ⟨(vector_set_other _ _ hne).trans hp, (vector_set_other _ _ hne).trans htag⟩ }

theorem writePoly (rd : PReg) (c : Poly) (hw : .reg rd ∈ w := by simp [written]) : ChangesOnly w s (u.writePoly rd c) :=
  h.setReg hw _ _

theorem movePoly (rd rs1 : PReg) (hw : .reg rd ∈ w := by simp [written]) : ChangesOnly w s (u.movePoly rd rs1) :=
  h.setReg hw _ _

theorem raiseOvf (c : Poly) (hw : .ovf ∈ w := by simp [written]) : ChangesOnly w s (u.raiseOvf c) :=
  { h with ovf := (absurd hw ·) }

theorem rawResult (rd : PReg) (c : Poly) (hw : .reg rd ∈ w := by simp [written]) (ho : .ovf ∈ w := by simp [written]) :
    ChangesOnly w s (u.rawResult rd c) :=
  ((h.raiseOvf c ho).writePoly rd c hw).complete

theorem setNoinv (v : Bool) (hw : .noinv ∈ w := by simp [written]) : ChangesOnly w s (u.setNoinv v) :=
  { h with noinv := (absurd hw ·) }

theorem setCfgok (v : Bool) (hw : .cfgok ∈ w := by simp [written]) : ChangesOnly w s (u.setCfgok v) :=
  { h with cfgok := (absurd hw ·) }

theorem setWeights (plus minus other : Nat) (hw : .weights ∈ w := by simp [written]) :
    ChangesOnly w s (u.setWeights plus minus other) :=
  { h with weights := (absurd hw ·) }

theorem setNblk (k : Nat) (hw : .nblk ∈ w := by simp [written]) : ChangesOnly w s (u.setNblk k) :=
  { h with nblk := (absurd hw ·) }

theorem setMlen (m : Half) (hw : .mlen ∈ w := by simp [written]) : ChangesOnly w s { u with mlen := m } :=
  { h with mlen := (absurd hw ·) }

theorem setBbuf (b : Buf Byte) (hw : .bbuf ∈ w := by simp [written]) : ChangesOnly w s { u with bbuf := b } :=
  { h with bbuf := (absurd hw ·) }

theorem writeCipher (c : List Word) (hw : .cipher ∈ w := by simp [written]) : ChangesOnly w s (u.writeCipher c) :=
  { h with cipher := (absurd hw ·) }

theorem setCipherLength (c nb : Nat) (hw : .cipher ∈ w := by simp [written]) (hn : .nblk ∈ w := by simp [written]) :
    ChangesOnly w s (u.setCipherLength c nb) :=
  { h with cipher := (absurd hw ·), nblk := (absurd hn ·) }

theorem putBits (vs : List Bool) (j : Nat) (hw : .bbuf ∈ w := by simp [written]) :
    ChangesOnly w s (State.putBits vs j u) := by
  rw [putBits_frame]
  exact h.setBbuf _ hw

theorem withWords (src : RandSource) (ws : List Word) (hw : .words ∈ w) : ChangesOnly w s (u.withWords src ws) := by
  cases src <;> exact { h with words := (absurd hw ·) }

end ChangesOnly

section Footprint

variable {s t u : State}

theorem ChangesOnly.decodeBlocks {rs1 rs2 : PReg} (h : ChangesOnly (written (.sdec rs1 rs2)) s u) (nb : Nat) (cs : List Poly)
    (base : Nat) : ChangesOnly (written (.sdec rs1 rs2)) s (decodeBlocks nb cs base u) := by
  rcases decodeBlocks_cases nb cs base u with ⟨r, _, e⟩ | ⟨b, m, e⟩ <;> rw [e]
  · exact (h.drew.fail r).setBbuf _
  · exact ((h.drew.complete.setBbuf b).setMlen m).setNblk nb

/-- The end of a sampling command. -/
theorem ChangesOnly.finishOf {i : Instr} (h : ChangesOnly (written i) s u) (hw : .words ∈ written i) (rs : List Poly) :
    ChangesOnly (written i) s (finishOf i rs u) := by
  cases i with
  | psmp rd _ => exact (h.writePoly _ _).complete
  | nenc rd _ _ => exact (h.drew.drew.writePoly _ _).complete
  | senc _ => exact ((h.drew.drew.writeCipher _).setCipherLength _ _).complete
  | _ => simp [written] at hw

/-- A guarded command that changes only `w` when it acts changes only `w` in any case. -/
theorem ChangesOnly.guarded {w : List Part} {pre : Option Report} {act : State → State} (he : guarded pre act s = .next t)
    (hact : ChangesOnly w s (act s)) : ChangesOnly w s t := by
  rcases guarded_cases he with ⟨r, _, rfl⟩ | ⟨_, rfl⟩
  · exact (ChangesOnly.refl w s).fail r
  · exact hact

/-- A turn of a sampling command takes random words, and writes nothing else before its end. -/
theorem ChangesOnly.sampleTurn {i : Instr} (hw : .words ∈ written i) (src : RandSource) (job : Sampling) :
    ChangesOnly (written i) s (sampleTurn src job (Machine.finishOf i) s) := by
  have hwords (ws : List Word) := (ChangesOnly.refl _ s).withWords src ws hw
  rcases sampleTurn_cases src job (Machine.finishOf i) s with ⟨_, _, e⟩ | ⟨_, _, _, e⟩ | ⟨_, _, e⟩ <;> rw [e]
  · exact (hwords _).finishOf hw _
  · exact (hwords _).keepSampling ..
  · exact (hwords _).keepSampling ..

theorem ChangesOnly.sampled {i : Instr} {pre : Option Report} {start : Sampling} (hw : .words ∈ written i)
    (he : sampled pre start (Machine.finishOf i) s = .next t) : ChangesOnly (written i) s t := by
  unfold Machine.sampled at he
  split at he
  · cases he; exact .sampleTurn hw ..
  · exact .guarded he (.sampleTurn hw ..)
  · exact .guarded he (.sampleTurn hw ..)

/-- A command writes what R67 gives it, whether it completes, fails or waits. -/
theorem exec_changesOnly {i : Instr} (he : exec i s = .next t) : ChangesOnly (written i) s t := by
  have h := ChangesOnly.refl (written i) s
  unfold exec at he
  cases i with
  | nop => cases he; exact h.complete
  | cfgchk =>
    simp only [execCfgchk] at he
    split at he <;> cases he
    · exact (h.setCfgok _).complete
    · exact (h.setCfgok _).fail _
  | pclr rd => exact .guarded he (h.writePoly _ _).complete
  | pmov rd rs1 => exact .guarded he (h.movePoly _ _).complete
  | pmul _ _ _ | padd _ _ _ => exact .guarded he (h.drew.drew.rawResult _ _)
  | pscl rd rs1 sel => exact .guarded he (h.drew.rawResult _ _)
  | pred rd rs1 sel rep => exact .guarded he (h.drew.writePoly _ _).complete
  | pinv rd rs1 sel =>
    refine .guarded he ?_
    split
    · exact ((h.drew.writePoly _ _).setNoinv _).complete
    · exact (h.drew.setNoinv _).complete
  | pwck rs1 => exact .guarded he (h.drew.setWeights _ _ _).complete
  | nencx _ _ _ | ndec _ _ _ => exact .guarded he (h.drew.drew.drew.writePoly _ _).complete
  | benc rd k => exact .guarded he ((h.drew.writePoly _ _).setNblk _).complete
  | bdec rs1 k =>
    refine .guarded he ?_
    dsimp only
    split
    · exact h.drew.fail _
    · exact ((h.drew.putBits _ _).drew.setNblk _).complete
  | bfin =>
    refine .guarded he ?_
    dsimp only
    split
    · exact h.drew.fail _
    · exact (h.setMlen _).drew.complete
  | sdec rs1 rs2 => exact .guarded he (h.drew.drew.drew.decodeBlocks _ _ _)
  | psmp rd w => exact .sampled (i := .psmp rd w) (by simp [written]) he
  | nenc rd rs1 rs2 => exact .sampled (i := .nenc rd rs1 rs2) (by simp [written]) he
  | senc rs1 => exact .sampled (i := .senc rs1) (by simp [written]) he

end Footprint

/-- `destination` names the register of R67's column. -/
theorem reg_mem_written {i : Instr} {k : PReg} : .reg k ∈ written i ↔ destination i = some k := by
  cases i <;> simp [written, destination, eq_comm]

/-- Settles O15: what R67's table does not give the command is as it was, and no command clears OVF. -/
theorem commandFootprint : Obligations.CommandFootprint := by
  unfold Obligations.CommandFootprint
  intro i s t he
  have h := exec_changesOnly he
  refine ⟨by simpa [State.hostSide] using h.host, fun k hk => h.reg k (mt reg_mem_written.mp hk), fun hi => h.weights ?_,
    fun hi => h.noinv ?_, fun hi => h.cfgok ?_, fun hi hi' => h.ovf ?_, (exec_keepsSticky he).ovf, fun hi => h.mlen ?_,
    fun hi hi' => h.nblk ?_, fun hi => h.cipher ?_, fun hi => h.bbuf ?_, fun hi => h.words ?_⟩
  -- For each part, the commands that the table gives it are those that the clause leaves out.
  all_goals cases i <;> simp_all [written, State.samplePlan]

/-! ### Accesses the port does not accept (R51) -/

theorem badAccess_eq_true {w : Width} {off : Nat} : badAccess w off = true ↔ w ≠ .word ∨ ¬ 4 ∣ off := by
  simp [badAccess, Nat.dvd_iff_mod_eq_zero]

/-- Settles O51: the port answers an access it does not accept before anything else is looked at. -/
theorem badAccessIsBusError : Obligations.BadAccessIsBusError := by
  unfold Obligations.BadAccessIsBusError
  intro s w off v rest ho hbad
  have hwindow : ¬ Config.windowBytes ≤ off := Nat.not_le.mpr ho
  refine ⟨fun ha => ?_, fun ha => ⟨(s.withAgenda rest).respond ⟨0, true⟩, ?_, rfl, rfl⟩⟩
  · simp only [step, ha, busRead, hwindow, badAccess_eq_true.mpr hbad, if_true, if_false]
    rfl
  · simp only [step, ha, busWrite, hwindow, badAccess_eq_true.mpr hbad, if_true, if_false]

/-! ### Where the offsets of the window lead (R54) -/

theorem locOf_polyRegion (b : Config.Build) {off : Nat} (hlo : 0x1000 ≤ off) (hhi : off < 0x9000) :
    locOf b off =
      if off % 0x1000 / 4 < b.nmax then .slot (Fin.ofNat 8 (off / 0x1000 - 1)) (off % 0x1000 / 4) else .reserved := by
  rw [locOf, if_neg (Nat.not_lt.mpr hlo), if_pos hhi]

theorem locOf_bbufRegion (b : Config.Build) {off : Nat} (hlo : 0x9000 ≤ off) (hhi : off < 0xA000) :
    locOf b off = if 4 * ((off - 0x9000) / 4) < b.bmax then .bword ((off - 0x9000) / 4) else .reserved := by
  rw [locOf, if_neg (by omega), if_neg (Nat.not_lt.mpr hlo), if_pos hhi]

theorem locOf_above_bbuf (b : Config.Build) {off : Nat} (hlo : 0xA000 ≤ off) :
    locOf b off =
      if 0x10000 ≤ off ∧ (off - 0x10000) / 4 < b.cmax then .cword ((off - 0x10000) / 4) else .reserved := by
  rw [locOf, if_neg (by omega), if_neg (by omega), if_neg (Nat.not_lt.mpr hlo)]

theorem csrTable_lookup_above {off : Nat} (h : 0x90 ≤ off) : csrTable.lookup off = none := by
  have hlast : ∀ e ∈ csrTable, e.1 < 0x90 := by decide
  rw [List.lookup_eq_none_iff]
  intro e he
  have := hlast e he
  simp only [bne_iff_ne, ne_eq]
  omega

theorem locOf_reserved {b : Config.Build} {off : Nat} (h : ReservedOffset b off) (h4 : 4 ∣ off) : locOf b off = .reserved := by
  rcases h with rfl | ⟨hlo, hhi⟩ | ⟨hlo, hhi, hn⟩ | ⟨hlo, hhi⟩ | ⟨hlo, hhi⟩
  · rfl
  · rw [locOf_csr b hhi, csrTable_lookup_above hlo]; rfl
  · rw [locOf_polyRegion b hlo hhi, if_neg (by omega)]
  · by_cases ho : off < 0xA000
    · rw [locOf_bbufRegion b (by omega) ho, if_neg (by omega)]
    · rw [locOf_above_bbuf b (Nat.not_lt.mp ho), if_neg (by omega)]
  · rw [locOf_above_bbuf b (by omega), if_neg (by omega)]

theorem busyHeld_locOf {b : Config.Build} {off : Nat} (h : BusyHeldOffset b off) (h4 : 4 ∣ off) :
    busyHeld (locOf b off) = true := by
  have hcsr : ∀ o < 0x80, 4 ∣ o → (0x020 ≤ o ∧ o < 0x044) ∨ (0x050 ≤ o ∧ o < 0x05C) ∨ (0x060 ≤ o ∧ o < 0x080) →
      busyHeld ((csrTable.lookup o).getD .reserved) = true := by decide
  rcases h with h | h | h | ⟨hlo, hhi, hn⟩ | ⟨hlo, hb, hhi⟩ | ⟨hlo, hc, _⟩
  · rw [locOf_csr b (by omega)]; exact hcsr off (by omega) h4 (.inl h)
  · rw [locOf_csr b (by omega)]; exact hcsr off (by omega) h4 (.inr (.inl h))
  · rw [locOf_csr b (by omega)]; exact hcsr off (by omega) h4 (.inr (.inr h))
  · rw [locOf_polyRegion b hlo hhi, if_pos (by omega)]; rfl
  · rw [locOf_bbufRegion b hlo hhi, if_pos (by omega)]; rfl
  · rw [locOf_above_bbuf b (by omega), if_pos (by omega)]; rfl

/-! ### Reserved offsets (R55) and busy-held state (R59) -/

/-- Settles O52: a reserved offset reads 0, no command owns it, and nothing is stored there. -/
theorem reservedOffsets : Obligations.ReservedOffsets := by
  unfold Obligations.ReservedOffsets
  intro s off v rest hres h4
  have ho : off < 0x40000 := by unfold ReservedOffset at hres; omega
  refine ⟨fun ha => ⟨_, step_read ha ho h4, ?_, rfl⟩, fun ha => ⟨_, step_write ha ho h4, rfl, ?_⟩⟩
  · rw [locOf_reserved hres h4, readValue_of_readable (.inr rfl)]
    rfl
  · rw [locOf_reserved hres h4, writeValue_of_readOnly v _ rfl (by decide)]
    rfl

/-- While BUSY = 1 a write to busy-held state sets BUSYWR and is dropped. -/
theorem writeValue_of_busy (v : Word) {s : State} {l : Loc} (hb : s.status.busy = true) (hl : busyHeld l = true) :
    s.writeValue v l = { s with status := { s.status with busywr := true } } := by
  rcases writeValue_cases v s l with ⟨rfl, _⟩ | ⟨rfl, _⟩ | ⟨rfl, _⟩ | ⟨rfl, _⟩ | ⟨_, _, e⟩ | ⟨hb' | hl', _⟩
  · cases hl
  · cases hl
  · cases hl
  · cases hl
  · exact e
  · rw [hb] at hb'; cases hb'
  · rw [hl] at hl'; cases hl'

/-- Settles O56: the offsets of R59 lead to busy-held state. -/
theorem busyWritesAreIgnored : Obligations.BusyWritesAreIgnored := by
  unfold Obligations.BusyWritesAreIgnored
  intro s off v rest hheld h4 hb ha
  have ho : off < 0x40000 := by unfold BusyHeldOffset at hheld; omega
  refine ⟨_, step_write ha ho h4, rfl, ?_⟩
  rw [writeValue_of_busy v (s := s.withAgenda rest) hb (busyHeld_locOf hheld h4)]
  rfl

/-! ### The windows of an idle core (R56 to R58) -/

section IdleWindow

variable {s : State} {off : Nat} {l : Loc} {rest : List Event} (hb : s.status.busy = false) (hl : locOf s.build off = l)
  (ho : off < 0x40000) (h4 : 4 ∣ off)

include hb hl ho h4

/-- A read of an idle core gives what the location holds. -/
theorem step_idle_read (ha : s.agenda = .read .word off :: rest) :
    step s = .next ((s.withAgenda rest).drew.respond ⟨(s.withAgenda rest).readLoc l, false⟩) := by
  rw [step_read ha ho h4, hl, readValue_of_readable (s := s.withAgenda rest) (.inl hb)]

/-- A write to busy-held state of an idle core is stored. -/
theorem step_idle_write {v : Word} (hheld : busyHeld l = true) (ha : s.agenda = .write .word off v :: rest) :
    step s = .next { s.storeLoc v l with agenda := rest, bus := ⟨0, false⟩ } := by
  rw [step_write ha ho h4, hl, writeValue_of_busyHeld v (s := s.withAgenda rest) hb hheld, storeLoc_withAgenda]
  rfl

end IdleWindow

/-- Slot l of register j after a store to slot i of register k. -/
theorem slot_storeLoc_slot (v : Word) (s : State) (j k : PReg) (l i : Nat) :
    (s.storeLoc v (.slot k i)).slot j l = if j = k ∧ l = i then some v else s.slot j l := by
  by_cases hj : j = k
  · subst hj
    simp [State.storeLoc, State.slot, bufGet_bufPut]
  · simp [State.storeLoc, State.slot, vector_set_other _ _ (Ne.symm hj), hj]

/-- Settles O53: an offset of the polynomial window leads to its slot, which an idle core reads and stores. -/
theorem polyWindow : Obligations.PolyWindow := by
  unfold Obligations.PolyWindow
  intro s k i v rest hi hi' hb
  have hl := locOf_slot k hi hi'
  refine ⟨fun ha => ⟨_, step_idle_read hb hl (by omega) (by omega) ha, rfl, fun w hw => ?_, rfl⟩,
    fun ha => ⟨_, step_idle_write hb hl (by omega) (by omega) rfl ha, rfl, ?_, fun j l hne => ?_, rfl⟩⟩
  · exact wordAt_of_some hw
  · exact (slot_storeLoc_slot v s k k i i).trans (by simp)
  · exact (slot_storeLoc_slot v s j k l i).trans (if_neg (by tauto))

/-- Settles O55: an offset of the ciphertext window leads to its word of CBUF. -/
theorem cbufWindow : Obligations.CbufWindow := by
  unfold Obligations.CbufWindow
  intro s i v rest hi ho hb
  have hl := locOf_cword hi
  refine ⟨fun ha => ⟨_, step_idle_read hb hl ho (by omega) ha, rfl, fun w hw => ?_, rfl⟩,
    fun ha => ⟨_, step_idle_write hb hl ho (by omega) rfl ha, rfl, ?_, fun j hj => ?_, rfl⟩⟩
  · exact wordAt_of_some hw
  · exact bufGet_bufPut_self s.cbuf i v
  · exact bufGet_bufPut_of_ne s.cbuf v hj

/-! ### The byte buffer window (R52, R57) -/

/-- Byte b of a word of BBUF, the lowest index in the lowest bits. -/
theorem bbufWord_byte (s : State) (j : Nat) {b : Nat} (hb : b < 4) :
    (s.bbufWord j).extractLsb' (8 * b) 8 = s.windowByte (4 * j + b) := by
  unfold State.bbufWord
  interval_cases b
  · exact BitVec.extractLsb'_append_eq_right
  · rw [BitVec.extractLsb'_append_eq_of_le (by decide)]
    exact BitVec.extractLsb'_append_eq_right
  · rw [BitVec.extractLsb'_append_eq_of_le (by decide), BitVec.extractLsb'_append_eq_of_le (by decide)]
    exact BitVec.extractLsb'_append_eq_right
  · rw [BitVec.extractLsb'_append_eq_of_le (by decide), BitVec.extractLsb'_append_eq_of_le (by decide)]
    exact BitVec.extractLsb'_append_eq_left

theorem storeByte_eq (i : Nat) (v : Byte) (s : State) :
    s.storeByte i v = { s with bbuf := if i < s.build.bmax then bufPut s.bbuf i v else s.bbuf } := by
  unfold State.storeByte
  split <;> rfl

theorem bufGet_storeByte (i k : Nat) (v : Byte) (s : State) :
    bufGet (s.storeByte i v).bbuf k = if k = i ∧ i < s.build.bmax then some v else bufGet s.bbuf k := by
  rw [storeByte_eq]
  by_cases hi : i < s.build.bmax <;> simp [hi, bufGet_bufPut]

/-- A store to word j of BBUF sets the bytes of the word that BBUF has. -/
theorem bufGet_storeLoc_bword_self (v : Word) (s : State) (j : Nat) {b : Nat} (hb : b < 4) (hin : 4 * j + b < s.build.bmax) :
    bufGet (s.storeLoc v (.bword j)).bbuf (4 * j + b) = some (v.extractLsb' (8 * b) 8) := by
  simp only [State.storeLoc, bufGet_storeByte, State.storeByte_build]
  interval_cases b <;> simp_all

/-- A store to word j of BBUF changes no byte outside the word, and none beyond BBUF. -/
theorem bufGet_storeLoc_bword_of_outside (v : Word) (s : State) {j i : Nat}
    (h : i < 4 * j ∨ 4 * j + 4 ≤ i ∨ s.build.bmax ≤ i) :
    bufGet (s.storeLoc v (.bword j)).bbuf i = bufGet s.bbuf i := by
  simp only [State.storeLoc, bufGet_storeByte, State.storeByte_build]
  rw [if_neg, if_neg, if_neg, if_neg] <;> omega

/-- Settles O54: the four bytes of a word of the window are those of BBUF, as far as BBUF goes. -/
theorem bbufWindow : Obligations.BbufWindow := by
  unfold Obligations.BbufWindow
  intro s j v rest hj hj' hb
  have hl := locOf_bword hj hj'
  refine ⟨fun ha => ⟨_, step_idle_read hb hl (by omega) (by omega) ha, rfl, fun b x hb4 hin hx => ?_,
      fun b hb4 hout => ?_, rfl⟩,
    fun ha => ⟨_, step_idle_write hb hl (by omega) (by omega) rfl ha, rfl, fun b hb4 hin => ?_, fun k hk => ?_, ?_⟩⟩
  · refine (bbufWord_byte _ j hb4).trans ?_
    exact (if_pos hin).trans (byteAt_of_some hx)
  · exact (bbufWord_byte _ j hb4).trans (if_neg (Nat.not_lt.mpr hout))
  · exact bufGet_storeLoc_bword_self v s j hb4 hin
  · exact bufGet_storeLoc_bword_of_outside v s hk
  · simp only [State.storeLoc, storeByte_eq]

end Sys2Proof.Machine
end

section
/-! Proofs about the encoding (spec/30_encoding.md): decode and encode against each other and against the opcode map of R84, and
what a turn of the engine makes of the word in CMD. -/

namespace Sys2Proof

/-! ### Operand codes (R82) -/

@[simp] theorem regOf_regCode (k : PReg) : regOf (regCode k) = k := rfl

@[simp] theorem regCode_regOf (b : BitVec 3) : regCode (regOf b) = b := rfl

/-- MSEL names a modulus exactly when it is that modulus' code. -/
theorem mselOf_eq_some_iff {b : BitVec 2} {sel : ModSel} : mselOf b = some sel ↔ mselCode sel = b := by
  revert b
  cases sel <;> decide

@[simp] theorem mselOf_mselCode (sel : ModSel) : mselOf (mselCode sel) = some sel :=
  mselOf_eq_some_iff.mpr rfl

/-- Every MSEL but the reserved 3 is the code of a modulus. -/
theorem exists_mselCode_eq_iff {b : BitVec 2} : (∃ sel, mselCode sel = b) ↔ b ≠ 3 := by
  simp only [← mselOf_eq_some_iff, ← Option.isSome_iff_exists]
  revert b
  decide

theorem mselCode_ne_reserved (sel : ModSel) : mselCode sel ≠ 3 :=
  exists_mselCode_eq_iff.mp ⟨sel, rfl⟩

@[simp] theorem repOf_repCode (rep : RepSel) : repOf (repCode rep) = rep := by
  cases rep <;> rfl

@[simp] theorem repCode_repOf (b : BitVec 1) : repCode (repOf b) = b := by
  revert b
  decide

@[simp] theorem weightOf_weightCode (w : WeightSel) : weightOf ((weightCode w).extractLsb' 0 2) = w := by
  cases w <;> rfl

@[simp] theorem weightCode_above_sel (w : WeightSel) : (weightCode w).extractLsb' 2 12 = 0 := by
  cases w <;> rfl

/-- An IMM with no bit set above SEL is the code of the weights that SEL selects. -/
theorem weightCode_weightOf {imm : BitVec 14} (h : imm.extractLsb' 2 12 = 0) :
    weightCode (weightOf (imm.extractLsb' 0 2)) = imm := by
  have hcode : ∀ sel : BitVec 2, weightCode (weightOf sel) = (0 : BitVec 12) ++ sel := by decide
  rw [hcode, ← h, BitVec.extractLsb'_append_extractLsb'_eq_extractLsb' (by decide)]
  simp

/-! ### Decoding and encoding fields (R83, R86) -/

theorem whenUnused_eq_ok_iff {unusedZero : Bool} {r : Except Illegal Instr} {i : Instr} :
    whenUnused unusedZero r = .ok i ↔ unusedZero = true ∧ r = .ok i := by
  cases unusedZero <;> simp [whenUnused]

theorem withMsel_eq_ok_iff {b : BitVec 2} {k : ModSel → Instr} {i : Instr} :
    withMsel b k = .ok i ↔ ∃ sel, mselCode sel = b ∧ k sel = i := by
  simp only [← mselOf_eq_some_iff]
  unfold withMsel
  cases mselOf b <;> simp

@[simp] theorem wellFormed_benc_iff {rd : PReg} {k : Nat} : WellFormed (.benc rd k) ↔ k < 16384 :=
  decide_eq_true_iff

@[simp] theorem wellFormed_bdec_iff {rs1 : PReg} {k : Nat} : WellFormed (.bdec rs1 k) ↔ k < 16384 :=
  decide_eq_true_iff

theorem decodeFields_encodeFields {i : Instr} (h : WellFormed i) : decodeFields (encodeFields i) = .ok i := by
  cases i with
  | benc _ _ | bdec _ _ => simpa [decodeFields, encodeFields, opcodeOnly, whenUnused] using h
  | _ => simp [decodeFields, encodeFields, opcodeOnly, whenUnused, withMsel]

theorem eq_ofNat_of_toNat_eq {n k : Nat} {b : BitVec n} (h : b.toNat = k) : b = BitVec.ofNat n k := by
  rw [← h, BitVec.ofNat_toNat, BitVec.setWidth_eq]

/-- Fields that decode have 0 wherever the command has no operand, so they are the fields of the command. -/
theorem encodeFields_of_decodeFields {f : Fields} {i : Instr} (h : decodeFields f = .ok i) :
    WellFormed i ∧ encodeFields i = f := by
  obtain ⟨opc, rd, rs1, rs2, msel, u, imm⟩ := f
  unfold decodeFields at h
  dsimp only at h
  split at h
  case h_20 => cases h   -- a reserved opcode
  all_goals
    rename_i hopc
    obtain rfl := eq_ofNat_of_toNat_eq hopc
    obtain ⟨hunused, h⟩ := whenUnused_eq_ok_iff.mp h
    simp only [Bool.and_eq_true, beq_iff_eq] at hunused
  case h_7 | h_8 | h_9 =>   -- PSCL, PRED, PINV
    obtain ⟨sel, rfl, rfl⟩ := withMsel_eq_ok_iff.mp h
    exact ⟨rfl, by simp [encodeFields, opcodeOnly, hunused]⟩
  case h_10 =>   -- PSMP
    cases h
    exact ⟨rfl, by simp [encodeFields, opcodeOnly, hunused, weightCode_weightOf hunused.2]⟩
  case h_15 | h_16 =>   -- BENC, BDEC
    cases h
    exact ⟨by simp [imm.isLt], by simp [encodeFields, opcodeOnly, hunused]⟩
  all_goals
    cases h
    exact ⟨rfl, by simp [encodeFields, opcodeOnly, hunused]⟩

/-! ### Decoding and encoding words -/

/-- A word decodes to the command it is the encoding of, and to nothing else. -/
theorem decode_eq_ok_iff {w : Word} {i : Instr} : decode w = .ok i ↔ WellFormed i ∧ encode i = w := by
  unfold decode encode
  constructor
  · intro h
    obtain ⟨hwf, hf⟩ := encodeFields_of_decodeFields h
    exact ⟨hwf, by rw [hf, wordOf_fieldsOf]⟩
  · rintro ⟨hwf, rfl⟩
    rw [fieldsOf_wordOf, decodeFields_encodeFields hwf]

/-- Settles O1: on fields, decoding and encoding undo each other, and a word is its fields. -/
theorem decodeEncodeAgree : Obligations.DecodeEncodeAgree := by
  unfold Obligations.DecodeEncodeAgree
  exact ⟨fun _ hwf => decode_eq_ok_iff.mpr ⟨hwf, rfl⟩, fun _ _ => decode_eq_ok_iff.mp⟩

/-- Settles O3: the decoder is run on each word. -/
theorem decodesSpecWords : Obligations.DecodesSpecWords := by
  unfold Obligations.DecodesSpecWords
  decide

/-- The words that are no command. -/
theorem exists_decode_error_iff {w : Word} : (∃ e, decode w = .error e) ↔ ¬ ∃ i, decode w = .ok i := by
  cases decode w <;> simp

/-- Only word 0 is NOP (R85). -/
theorem decode_eq_nop_iff {w : Word} : decode w = .ok .nop ↔ w = 0 := by
  have hzero : encode .nop = 0 := by decide
  rw [decode_eq_ok_iff, hzero, eq_comm]
  exact and_iff_right rfl

/-- No command has a reserved opcode (R84). -/
theorem encodeFields_opc_lt (i : Instr) : (encodeFields i).opc.toNat < 0x13 := by
  cases i <;> simp [encodeFields, opcodeOnly]

theorem decode_reserved_opcode {w : Word} (h : 0x13 ≤ w.toNat / 2 ^ 26) : ∃ e, decode w = .error e := by
  rw [exists_decode_error_iff]
  rintro ⟨i, hi⟩
  obtain ⟨_, rfl⟩ := decode_eq_ok_iff.mp hi
  have hopc := congrArg BitVec.toNat (Laws.OpcodeField.opcode_of_word i)
  have hlt := encodeFields_opc_lt i
  rw [BitVec.extractLsb'_toNat, Nat.shiftRight_eq_div_pow] at hopc
  omega

end Sys2Proof

namespace Sys2Proof.Machine

/-! ### The opcode map (R84), read field by field -/

/-- The fields of two words taken bit by bit. -/
def fieldsAnd (f g : Fields) : Fields :=
  ⟨f.opc &&& g.opc, f.rd &&& g.rd, f.rs1 &&& g.rs1, f.rs2 &&& g.rs2, f.msel &&& g.msel, f.u &&& g.u, f.imm &&& g.imm⟩

theorem fieldsOf_and (v w : Word) : fieldsOf (v &&& w) = fieldsAnd (fieldsOf v) (fieldsOf w) := by
  simp [fieldsOf, fieldsAnd, BitVec.extractLsb'_and]

/-- Fields that match a row of R84. -/
def OpcodeRow.matchesFields (row : OpcodeRow) (f : Fields) : Prop :=
  fieldsAnd f (fieldsOf row.mask) = fieldsOf row.pattern ∧ (row.msel = true → f.msel ≠ 3)

theorem OpcodeRow.matches_iff_matchesFields {row : OpcodeRow} {w : Word} :
    row.matches w ↔ row.matchesFields (fieldsOf w) := by
  unfold OpcodeRow.matches OpcodeRow.matchesFields
  rw [← fieldsOf_and]
  exact and_congr_left fun _ => ⟨congrArg fieldsOf, fun h => fieldsOf_injective h⟩

theorem and_eq_self_of_eq_allOnes {n : Nat} {b m : BitVec n} (h : m = BitVec.allOnes n) : b &&& m = b := by
  rw [h, BitVec.and_allOnes]

/-- PSMP's mask covers IMM but for SEL. -/
theorem imm_above_sel_eq_zero_iff {imm : BitVec 14} : imm &&& 0x3FFC#14 = 0#14 ↔ imm.extractLsb' 2 12 = 0 := by
  have hmask : (0x3FFC#14).extractLsb' 2 12 = BitVec.allOnes 12 := by decide
  constructor <;> intro h
  · rw [← BitVec.and_allOnes (x := imm.extractLsb' 2 12), ← hmask, ← BitVec.extractLsb'_and, h]
    rfl
  · rw [← weightCode_weightOf h]
    cases weightOf (imm.extractLsb' 0 2) <;> rfl

/-- The fields of a command match the row with its mnemonic. -/
theorem encodeFields_matches_row (i : Instr) :
    ∃ row ∈ opcodeMap, row.name = mnemonic i ∧ row.matchesFields (encodeFields i) := by
  cases i with
  | pscl _ _ sel | pred _ _ sel _ | pinv _ _ sel =>
    simpa [opcodeMap, mnemonic, OpcodeRow.matchesFields, fieldsAnd, fieldsOf, encodeFields, opcodeOnly]
      using mselCode_ne_reserved sel
  | psmp _ w =>
    simpa [opcodeMap, mnemonic, OpcodeRow.matchesFields, fieldsAnd, fieldsOf, encodeFields, opcodeOnly]
      using imm_above_sel_eq_zero_iff.mpr (weightCode_above_sel w)
  | _ => simp [opcodeMap, mnemonic, OpcodeRow.matchesFields, fieldsAnd, fieldsOf, encodeFields, opcodeOnly]

/-- Fields that match a row decode to a command with the row's mnemonic: the mask leaves the opcode of the row, 0 in every
unused field, and in PSMP's IMM nothing above SEL. -/
theorem decodeFields_of_matches_row {row : OpcodeRow} {f : Fields} (hrow : row ∈ opcodeMap) (h : row.matchesFields f) :
    ∃ i, decodeFields f = .ok i ∧ mnemonic i = row.name := by
  fin_cases hrow
  all_goals
    simp (disch := decide) [OpcodeRow.matchesFields, fieldsAnd, fieldsOf, and_eq_self_of_eq_allOnes,
      imm_above_sel_eq_zero_iff] at h
    simp [decodeFields, whenUnused, withMsel_eq_ok_iff, exists_mselCode_eq_iff, mnemonic, h]

/-- A word that decodes matches the row with its command's mnemonic. -/
theorem matches_row_of_decode {w : Word} {i : Instr} (h : decode w = .ok i) :
    ∃ row ∈ opcodeMap, row.name = mnemonic i ∧ row.matches w := by
  obtain ⟨_, hf⟩ := encodeFields_of_decodeFields h
  obtain ⟨row, hrow, hname, hm⟩ := encodeFields_matches_row i
  exact ⟨row, hrow, hname, OpcodeRow.matches_iff_matchesFields.mpr (hf ▸ hm)⟩

/-- A word that matches a row decodes to a command with the row's mnemonic. -/
theorem decode_of_matches_row {w : Word} {row : OpcodeRow} (hrow : row ∈ opcodeMap) (h : row.matches w) :
    ∃ i, decode w = .ok i ∧ mnemonic i = row.name :=
  decodeFields_of_matches_row hrow (OpcodeRow.matches_iff_matchesFields.mp h)

/-- Settles O2: a command's fields match its row, and fields that match a row decode. -/
theorem decodeFollowsOpcodeMap : Obligations.DecodeFollowsOpcodeMap := by
  unfold Obligations.DecodeFollowsOpcodeMap
  exact ⟨fun _ _ => matches_row_of_decode, fun _ _ => decode_of_matches_row⟩

/-- The words that are no command are those that match no row (R85). -/
theorem exists_decode_error_iff_no_row {w : Word} :
    (∃ e, decode w = .error e) ↔ ∀ row ∈ opcodeMap, ¬ row.matches w := by
  rw [exists_decode_error_iff]
  constructor
  · intro hnone row hrow hm
    obtain ⟨i, hi, _⟩ := decode_of_matches_row hrow hm
    exact hnone ⟨i, hi⟩
  · rintro hno ⟨i, hi⟩
    obtain ⟨row, hrow, _, hm⟩ := matches_row_of_decode hi
    exact hno row hrow hm

/-! ### A turn of the engine -/

theorem step_engine {s : State} {limit : Option Nat} {rest : List Event} (ha : s.agenda = .engine limit :: rest) :
    step s = engineTurn limit (s.withAgenda rest) := by
  simp only [step, ha]

theorem step_of_agenda_nil {s : State} (ha : s.agenda = []) : step s = engineTurn none s := by
  simp only [step, ha]

/-- A running engine runs the command in CMD (R222). -/
theorem engineTurn_command {s : State} {i : Instr} (hb : s.status.busy = true) (hd : decode s.cmd = .ok i)
    (limit : Option Nat) : engineTurn limit s = exec i (s.beginTurn limit) := by
  simp only [engineTurn, State.command, hb, hd, if_true]

/-- A running engine reports a word that is no command (R85). -/
theorem engineTurn_illegal {s : State} {e : Illegal} (hb : s.status.busy = true) (hd : decode s.cmd = .error e)
    (limit : Option Nat) : engineTurn limit s = .next (s.reported .illegal 0) := by
  simp only [engineTurn, State.command, hb, hd, if_true]
  rfl

/-- An idle engine does nothing (R245). -/
theorem engineTurn_idle {s : State} (hb : s.status.busy = false) (limit : Option Nat) : engineTurn limit s = .next s := by
  simp [engineTurn, hb]

/-- Settles O4: what is no command matches no row of R84, and the engine's turn on it is the report. -/
theorem illegalWordsReportIllegal : Obligations.IllegalWordsReportIllegal := by
  unfold Obligations.IllegalWordsReportIllegal
  refine ⟨fun _ => exists_decode_error_iff_no_row, fun _ => decode_reserved_opcode, fun _ => decode_eq_nop_iff,
    fun s e hb hd => ⟨fun limit rest ha => ?_, fun ha => ?_⟩⟩
  · rw [step_engine ha]
    exact engineTurn_illegal (s := s.withAgenda rest) hb hd limit
  · rw [step_of_agenda_nil ha, engineTurn_illegal hb hd]

/-- The step after `withFetchWord` is the engine's turn on the issued word. -/
theorem step_withFetchWord (s : State) (nbits w : Nat) :
    step (s.withFetchWord nbits w) = engineTurn none (s.issue (BitVec.ofNat 32 (w % 2 ^ nbits))) :=
  rfl

/-- Settles O5: the engine's turn runs the command in CMD while BUSY = 1, which an issue sets, and does nothing while idle. -/
theorem stepRunsDecodedCommand : Obligations.StepRunsDecodedCommand := by
  unfold Obligations.StepRunsDecodedCommand
  refine ⟨fun s i hb hd => ⟨fun limit rest ha => ?_, fun ha => ?_⟩, fun s nbits w i hd => ?_,
    fun s hb => ⟨fun limit rest ha => ?_, fun ha => ?_⟩⟩
  · rw [step_engine ha]
    exact engineTurn_command (s := s.withAgenda rest) hb hd limit
  · rw [step_of_agenda_nil ha]
    exact engineTurn_command hb hd none
  · rw [step_withFetchWord]
    exact engineTurn_command (s := s.issue _) rfl hd none
  · rw [step_engine ha]
    exact engineTurn_idle (s := s.withAgenda rest) hb limit
  · rw [step_of_agenda_nil ha, engineTurn_idle hb]

end Sys2Proof.Machine
end

section
/-! Proofs about the control commands (spec/40_control.md): the configuration gate among the pre-checks of every command, NOP and
CFGCHK. -/

namespace Sys2Proof.Machine

/-! ### The configuration gate (R102, R225) -/

/-- The pre-checks of every command, in the order in which it reports them (R225). NOP and CFGCHK have none. -/
def State.preChecks (s : State) : Instr → List (Option Report)
  | .nop | .cfgchk => []
  | .pclr _ | .pmov _ _ | .bfin => [s.cfgGate]
  | .pmul _ rs1 rs2 | .padd _ rs1 rs2 | .nenc _ rs1 rs2 => [s.cfgGate, s.lenCheck rs1, s.lenCheck rs2]
  | .pscl _ rs1 _ | .pwck rs1 | .bdec rs1 _ => [s.cfgGate, s.lenCheck rs1]
  | .pred _ rs1 sel _ => [s.cfgGate, reduceModulusCheck (s.modulus sel), s.lenCheck rs1]
  | .pinv _ rs1 sel => [s.cfgGate, primePowerCheck (s.modulus sel), s.lenCheck rs1]
  | .psmp _ w => [s.cfgGate, s.weightCheck w]
  | .nencx rd rs1 rs2 => [s.cfgGate, s.lenCheck rs1, s.lenCheck rs2, s.lenCheck rd]
  | .ndec rd rs1 rs2 => [s.cfgGate, s.lenCheck rs1, s.lenCheck rs2, s.cipherLenCheck rd]
  | .benc _ k => [s.cfgGate, s.mlenCheck, s.blockCheck k]
  | .senc rs1 => [s.cfgGate, s.mlenCheck, s.lenCheck rs1]
  | .sdec rs1 rs2 => [s.cfgGate, s.clenCheck, s.lenCheck rs1, s.lenCheck rs2, s.clenFormatCheck]

theorem firstReport_singleton (x : Option Report) : firstReport [x] = x := by cases x <;> rfl

/-- A command that starts reports the first of its pre-checks that fails, with no other effect (R225, R226). -/
theorem exec_of_failed_preCheck {i : Instr} {s : State} {r : Report} (hs : s.NotSampling)
    (h : firstReport (s.preChecks i) = some r) : exec i s = .next (s.fail r) := by
  unfold exec
  cases i with
  | nop | cfgchk => cases h
  | pclr _ | pmov _ _ | bfin => exact guarded_some ((firstReport_singleton _).symm.trans h) _ s
  | psmp _ _ | nenc _ _ _ | senc _ => exact (sampled_start hs ..).trans (guarded_some h _ s)
  | _ => exact guarded_some h _ s

/-- The gate is the first check of every command but NOP and CFGCHK. -/
theorem preChecks_eq_cfgGate_cons {i : Instr} (hnop : i ≠ .nop) (hchk : i ≠ .cfgchk) (s : State) :
    ∃ later, s.preChecks i = s.cfgGate :: later := by
  cases i with
  | nop => exact absurd rfl hnop
  | cfgchk => exact absurd rfl hchk
  | _ => exact ⟨_, rfl⟩

theorem cfgGate_of_cfgok_false {s : State} (h : s.status.cfgok = false) : s.cfgGate = some ⟨.cfg, 0⟩ := by
  simp [State.cfgGate, h]

/-- Settles O18: the gate is the first check, and it fails. -/
theorem configGate : Obligations.ConfigGate := by
  unfold Obligations.ConfigGate
  intro i s hnop hchk hs hc
  obtain ⟨later, hpre⟩ := preChecks_eq_cfgGate_cons hnop hchk s
  refine exec_of_failed_preCheck hs (r := ⟨.cfg, 0⟩) ?_
  rw [hpre, cfgGate_of_cfgok_false hc, firstReport_some]

/-! ### NOP (R100) -/

/-- Settles O22: NOP is the successful completion, whatever the state. -/
theorem nopCompletes : Obligations.NopCompletes := by
  unfold Obligations.NopCompletes
  exact fun _ => rfl

/-! ### CFGCHK (R101, R103) -/

/-- `failBit i` sets no bit but bit i. -/
theorem failBit_getLsbD {i b : Nat} (hb : b < 32) (bad : Bool) : (failBit i bad).getLsbD b = (decide (b = i) && bad) := by
  cases bad with
  | false => simp [failBit]
  | true =>
    have hpow : failBit i true = BitVec.twoPow 32 i := rfl
    simp only [hpow, BitVec.getLsbD_twoPow, Bool.and_true, ← Bool.decide_and, decide_eq_decide]
    omega

/-- Bit b of `bad` is set exactly when the invariant of bit b is false. -/
theorem cfgBad_getLsbD_iff (s : State) {b : Nat} (hb : b < 32) : s.cfgBad.getLsbD b = true ↔
    BadParam s.build.nmax s.n s.cfgP.toNat s.cfgQ.toNat s.cfgDf.toNat s.cfgDg.toNat s.cfgDr.toNat b := by
  have hprime : isPrime16 s.n = true ↔ s.n.Prime := isPrime16_iff s.cfgN.isLt
  simp only [State.cfgBad, Machine.cfgBad, BitVec.getLsbD_or, failBit_getLsbD hb]
  match b with
  | 0 => simp [BadParam, ← hprime]
  | 1 | 2 | 3 | 4 | 5 | 6 | 7 | 8 => simp [BadParam]
  | _ + 9 => simp [BadParam]

theorem exec_cfgchk_of_valid {s : State} (h : s.ConfigValid) : exec .cfgchk s = .next (s.setCfgok true).complete :=
  if_pos ((cfgBad_eq_zero_iff s).mpr h)

theorem exec_cfgchk_of_invalid {s : State} (h : ¬ s.ConfigValid) :
    exec .cfgchk s = .next ((s.setCfgok false).fail ⟨.cfg, s.cfgBad⟩) :=
  if_neg (mt (cfgBad_eq_zero_iff s).mp h)

/-- Settles O23: `bad` is 0 exactly for valid parameters, and its bits are those of the invariants that fail. -/
theorem cfgchkValidates : Obligations.CfgchkValidates := by
  unfold Obligations.CfgchkValidates
  refine ⟨fun s h => exec_cfgchk_of_valid h, fun s h => ⟨_, exec_cfgchk_of_invalid h, fun b hb => ?_, rfl⟩⟩
  exact cfgBad_getLsbD_iff s hb

end Sys2Proof.Machine
end

section
/-! Proofs about ring arithmetic (spec/41_ring_arithmetic.md): the length checks among the pre-checks of every command, what PCLR,
PMOV, PMUL, PADD, PSCL, PRED and PWCK write, and the laws of the exact ring operations. -/

namespace Sys2Proof.Machine

/-! ### The length checks (R110, R225) -/

/-- The pre-checks of a command's arguments (R225, 3), in its order. -/
def State.argChecks (s : State) : Instr → List (Option Report)
  | .pred _ _ sel _ => [reduceModulusCheck (s.modulus sel)]
  | .pinv _ _ sel => [primePowerCheck (s.modulus sel)]
  | .psmp _ w => [s.weightCheck w]
  | .benc _ k => [s.mlenCheck, s.blockCheck k]
  | .senc _ => [s.mlenCheck]
  | .sdec _ _ => [s.clenCheck]
  | .nop | .cfgchk | .pclr _ | .pmov _ _ | .pmul _ _ _ | .padd _ _ _ | .pscl _ _ _ => []
  | .pwck _ | .nenc _ _ _ | .nencx _ _ _ | .ndec _ _ _ | .bdec _ _ | .bfin => []

/-- The format checks that need no computation (R225, 5). -/
def State.formatChecks (s : State) : Instr → List (Option Report)
  | .ndec rd _ _ => [s.cipherLenCheck rd]
  | .sdec _ _ => [s.clenFormatCheck]
  | .nop | .cfgchk | .pclr _ | .pmov _ _ | .pmul _ _ _ | .padd _ _ _ | .pscl _ _ _ | .pred _ _ _ _ => []
  | .pinv _ _ _ | .psmp _ _ | .pwck _ | .nenc _ _ _ | .nencx _ _ _ | .benc _ _ | .bdec _ _ | .bfin | .senc _ => []

/-- R225's order of the pre-checks: the gate, the arguments, the source tags in the order of R110, the formats. -/
theorem preChecks_eq {i : Instr} (hnop : i ≠ .nop) (hchk : i ≠ .cfgchk) (s : State) :
    s.preChecks i = s.cfgGate :: (s.argChecks i ++ (sources i).map s.lenCheck ++ s.formatChecks i) := by
  cases i with
  | nop => exact absurd rfl hnop
  | cfgchk => exact absurd rfl hchk
  | _ => rfl

theorem reduceModulusCheck_eq_none {m : Nat} : reduceModulusCheck m = none ↔ 1 ≤ m ∧ m ≤ 2 ^ 31 - 1 := by
  simp only [reduceModulusCheck, ite_eq_right_iff, reduceCtorEq, imp_false]
  omega

theorem primePowerCheck_eq_none {m : Nat} : primePowerCheck m = none ↔ IsPrimePow m ∧ m ≤ 2 ^ 31 - 1 := by
  rw [show 2 ^ 31 - 1 = 2147483647 by rfl, ← primePowerBase_isSome_iff]
  unfold primePowerCheck
  cases primePowerBase m <;> simp

theorem clenCheck_eq_none {s : State} : s.clenCheck = none ↔ s.clen.toNat ≤ s.build.cmax := by
  simp [State.clenCheck]

/-- BENC's block index is below NB(MLEN) of R171. -/
theorem blockCheck_eq_none {s : State} {k : Nat} : s.blockCheck k = none ↔ k < (8 * s.mlen.toNat) ⌈/⌉ s.n := by
  simp [State.blockCheck, State.blocks, Nat.ceilDiv_eq_add_pred_div]

/-- Without an argument error every check of an argument passes. -/
theorem argChecks_pass {s : State} {i : Instr} (h : ∀ info, ¬ ArgError s i info) : ∀ x ∈ s.argChecks i, x = none := by
  cases i with
  | pred _ _ sel _ =>
    have hm : ¬ (s.modulus sel = 0 ∨ 2 ^ 31 - 1 < s.modulus sel) := fun hbad => h _ ⟨hbad, rfl⟩
    exact List.forall_mem_singleton.mpr (reduceModulusCheck_eq_none.mpr (by omega))
  | pinv _ _ sel => exact List.forall_mem_singleton.mpr (primePowerCheck_eq_none.mpr (by_contra fun hbad => h _ ⟨hbad, rfl⟩))
  | psmp _ w =>
    refine List.forall_mem_singleton.mpr (weightCheck_eq_none.mpr (Nat.not_lt.mp fun hbad => h _ ⟨?_, rfl⟩))
    rwa [selectedWeights_eq]
  | benc _ k =>
    have hm : s.mlen.toNat ≤ s.build.bmax := Nat.not_lt.mp fun hbad => h _ (.inl ⟨hbad, rfl⟩)
    have hk : k < (8 * s.mlen.toNat) ⌈/⌉ s.n := Nat.not_le.mp fun hbad => h _ (.inr ⟨hm, hbad, rfl⟩)
    simp [State.argChecks, mlenCheck_eq_none.mpr hm, blockCheck_eq_none.mpr hk]
  | senc _ => exact List.forall_mem_singleton.mpr (mlenCheck_eq_none.mpr (Nat.not_lt.mp fun hbad => h _ ⟨hbad, rfl⟩))
  | sdec _ _ => exact List.forall_mem_singleton.mpr (clenCheck_eq_none.mpr (Nat.not_lt.mp fun hbad => h _ ⟨hbad, rfl⟩))
  | _ => exact List.forall_mem_nil _

/-- ERRINFO = PLEN[k] << 16 | k (R110), as a number. -/
theorem append_ofNat_eq {x : Half} {k : Nat} (hk : k < 2 ^ 16) :
    x ++ BitVec.ofNat 16 k = BitVec.ofNat 32 (x.toNat * 65536 + k) := by
  apply BitVec.eq_of_toNat_eq
  have hx := x.isLt
  rw [BitVec.toNat_append, BitVec.toNat_ofNat, BitVec.toNat_ofNat, Nat.mod_eq_of_lt hk, ← Nat.shiftLeft_add_eq_or_of_lt hk,
    Nat.shiftLeft_eq, Nat.mod_eq_of_lt (by omega)]

theorem lenCheck_of_ne {s : State} {k : PReg} (h : s.plen[k] ≠ s.cfgN) :
    s.lenCheck k = some ⟨.len, BitVec.ofNat 32 (s.plen[k].toNat * 65536 + k.val)⟩ := by
  rw [State.lenCheck, if_neg h, append_ofNat_eq (by omega)]

/-- Checks that pass do not hide the report of those behind them. -/
theorem firstReport_append_of_pass {l : List (Option Report)} (h : ∀ x ∈ l, x = none) (l' : List (Option Report)) :
    firstReport (l ++ l') = firstReport l' := by
  induction l with
  | nil => rfl
  | cons x l ih =>
    obtain ⟨rfl, hl⟩ := List.forall_mem_cons.mp h
    exact ih hl

/-- Settles O20: the checks before the first wrong tag, the gate's and the arguments' among them, pass. -/
theorem lengthChecks : Obligations.LengthChecks := by
  unfold Obligations.LengthChecks
  intro i s before after k hs hc ha hsrc hbefore hk
  have hnop : i ≠ .nop := by rintro rfl; simp [sources] at hsrc
  have hchk : i ≠ .cfgchk := by rintro rfl; simp [sources] at hsrc
  have htags : ∀ x ∈ before.map s.lenCheck, x = none :=
    List.forall_mem_map.mpr fun j hj => lenCheck_eq_none.mpr (hbefore j hj)
  have hfirst : firstReport (s.preChecks i) = s.lenCheck k := by
    rw [preChecks_eq hnop hchk, cfgGate_eq_none.mpr hc, firstReport_none, List.append_assoc,
      firstReport_append_of_pass (argChecks_pass ha), hsrc, List.map_append, List.append_assoc,
      firstReport_append_of_pass htags, List.map_cons, List.cons_append, lenCheck_of_ne hk, firstReport_some]
  exact exec_of_failed_preCheck hs (hfirst.trans (lenCheck_of_ne hk))

/-! ### PCLR and PMOV (R116, R117) -/

theorem exec_pclr {s : State} (hc : s.status.cfgok = true) (rd : PReg) :
    exec (.pclr rd) s = .next (s.writePoly rd (zeroPoly s.n)).complete := by
  unfold exec
  exact guarded_none (cfgGate_eq_none.mpr hc) _ s

theorem exec_pmov {s : State} (hc : s.status.cfgok = true) (rd rs1 : PReg) :
    exec (.pmov rd rs1) s = .next (s.movePoly rd rs1).complete := by
  unfold exec
  exact guarded_none (cfgGate_eq_none.mpr hc) _ s

/-- Settles O25: the zero polynomial is written. -/
theorem pclrZeroes : Obligations.PclrZeroes := by
  unfold Obligations.PclrZeroes
  exact fun rd s hc => ⟨_, exec_pclr hc rd,
    writesPoly_of_eq rfl rfl rfl rfl (zeroPoly_length _) (fun i _ => (zeroPoly_getD _ i).symm) rfl rfl, rfl⟩

/-- Settles O26: the whole contents and the tag are copied, and the other registers keep theirs. -/
theorem pmovCopies : Obligations.PmovCopies := by
  unfold Obligations.PmovCopies
  refine fun rd rs1 s hc => ⟨_, exec_pmov hc rd rs1, fun i => ?_, ?_, fun k hk => ⟨?_, ?_⟩, rfl⟩
  · simp [State.slot]
  · simp
  · exact vector_set_other s.p _ hk.symm
  · exact vector_set_other s.plen _ hk.symm

/-! ### PMUL, PADD and PSCL (R112 to R115) -/

/-- With CFGOK = 1 and good source tags a ring command passes its pre-checks. -/
theorem ringChecks_eq_none {s : State} {ks : List PReg} (hc : s.status.cfgok = true) (ht : ∀ k ∈ ks, s.plen[k] = s.cfgN) :
    s.ringChecks ks = none := by
  refine (firstReport_eq_none_iff _).mpr (List.forall_mem_cons.mpr ⟨cfgGate_eq_none.mpr hc, ?_⟩)
  exact List.forall_mem_map.mpr fun k hk => lenCheck_eq_none.mpr (ht k hk)

/-- R112: a raw result of the exact coefficients `g` is stored, and OVF says whether each fits. `u` is `s` behind the reads of
the sources. -/
theorem rawResult_spec {s u : State} (hu : u = { s with draws := u.draws }) (rd : PReg) {c : Poly} {g : Nat → Int}
    (hc : c.length = s.n) (hg : ∀ k, k < s.n → g k = c.getD k 0) :
    WritesPoly s (u.rawResult rd c) rd g ∧
    ((u.rawResult rd c).status.ovf = true ↔ s.status.ovf = true ∨ ∃ k, k < s.n ∧ ¬ Fits32 (g k)) ∧
    u.rawResult rd c = { s.succeeded with
      p := (u.rawResult rd c).p, plen := (u.rawResult rd c).plen, draws := (u.rawResult rd c).draws
      status := { s.succeeded.status with ovf := (u.rawResult rd c).status.ovf } } := by
  rw [hu]
  refine ⟨writesPoly_of_eq rfl rfl rfl rfl hc hg rfl rfl, ?_, rfl⟩
  have hov : overflows c = true ↔ ∃ k, k < s.n ∧ ¬ Fits32 (g k) :=
    (overflows_iff hc).trans (exists_congr fun k => and_congr_right fun hk => by rw [hg k hk])
  exact (Bool.or_eq_true ..).to_iff.trans (or_congr_right hov)

theorem exec_pmul {s : State} {rs1 rs2 : PReg} (hc : s.status.cfgok = true) (h1 : s.plen[rs1] = s.cfgN)
    (h2 : s.plen[rs2] = s.cfgN) (rd : PReg) :
    exec (.pmul rd rs1 rs2) s = .next (s.drew.drew.rawResult rd (conv (s.src rs1) (s.drew.src rs2))) := by
  unfold exec
  exact guarded_none (ringChecks_eq_none hc (List.forall_mem_cons.mpr ⟨h1, List.forall_mem_singleton.mpr h2⟩)) _ s

theorem exec_padd {s : State} {rs1 rs2 : PReg} (hc : s.status.cfgok = true) (h1 : s.plen[rs1] = s.cfgN)
    (h2 : s.plen[rs2] = s.cfgN) (rd : PReg) :
    exec (.padd rd rs1 rs2) s = .next (s.drew.drew.rawResult rd (addPoly (s.src rs1) (s.drew.src rs2))) := by
  unfold exec
  exact guarded_none (ringChecks_eq_none hc (List.forall_mem_cons.mpr ⟨h1, List.forall_mem_singleton.mpr h2⟩)) _ s

theorem exec_pscl {s : State} {rs1 : PReg} (hc : s.status.cfgok = true) (h1 : s.plen[rs1] = s.cfgN) (rd : PReg) (sel : ModSel) :
    exec (.pscl rd rs1 sel) s = .next (s.drew.rawResult rd (scalePoly (s.scalar sel) (s.src rs1))) := by
  unfold exec
  exact guarded_none (ringChecks_eq_none hc (List.forall_mem_singleton.mpr h1)) _ s

/-- Settles O27: the raw result is `conv`, whose coefficients are R14's sums. -/
theorem pmulConvolves : Obligations.PmulConvolves := by
  unfold Obligations.PmulConvolves
  intro rd rs1 rs2 s hc h1 h2
  have ha : (s.src rs1).length = s.n := src_length s rs1
  have hb : (s.drew.src rs2).length = s.n := src_length s.drew rs2
  exact ⟨_, exec_pmul hc h1 h2 rd, rawResult_spec (s := s) (u := s.drew.drew) rfl rd ((conv_length _ _).trans hb)
    fun k hk => (conv_coeff ha hb hk).symm⟩

/-- Settles O28: the raw result is the sum of the sources, coefficient by coefficient. -/
theorem paddAdds : Obligations.PaddAdds := by
  unfold Obligations.PaddAdds
  intro rd rs1 rs2 s hc h1 h2
  have ha : (s.src rs1).length = s.n := src_length s rs1
  have hb : (s.drew.src rs2).length = s.n := src_length s.drew rs2
  exact ⟨_, exec_padd hc h1 h2 rd, rawResult_spec (s := s) (u := s.drew.drew) rfl rd (by simp [ha, hb])
    fun k _ => (addPoly_getD (ha.trans hb.symm) k).symm⟩

/-- The scalar of R115 for each selector. -/
theorem scalar_eq {s : State} {sel : ModSel} {x : Int} (hp : sel = .p → x = s.cfgP.toNat) (hq : sel = .q → x = s.cfgQ.toNat)
    (hm : sel = .m → x = s.modarg.toInt) : s.scalar sel = x := by
  cases sel with
  | p => exact (hp rfl).symm
  | q => exact (hq rfl).symm
  | m => exact (hm rfl).symm

/-- Settles O29: the raw result is the source times the selected scalar. -/
theorem psclScales : Obligations.PsclScales := by
  unfold Obligations.PsclScales
  intro rd rs1 sel x s hc h1 hp hq hm
  have ha : (s.src rs1).length = s.n := src_length s rs1
  rw [← scalar_eq hp hq hm]
  exact ⟨_, exec_pscl hc h1 rd sel, rawResult_spec (s := s) (u := s.drew) rfl rd ((scalePoly_length _ _).trans ha)
    fun k _ => (scalePoly_getD _ _ k).symm⟩

/-! ### PRED (R118) -/

/-- The modulus of R118 for each selector. -/
theorem modulus_eq {s : State} {sel : ModSel} {m : Nat} (hp : sel = .p → m = s.cfgP.toNat) (hq : sel = .q → m = s.cfgQ.toNat)
    (hm : sel = .m → m = s.modarg.toNat) : s.modulus sel = m := by
  cases sel with
  | p => exact (hp rfl).symm
  | q => exact (hq rfl).symm
  | m => exact (hm rfl).symm

/-- Both representatives are congruent to `x` modulo m (R13). -/
theorem dvd_represent_sub (rep : RepSel) (x : Int) (m : Nat) : (m : Int) ∣ represent rep x m - x := by
  refine Int.ModEq.dvd (Int.ModEq.symm ?_)
  cases rep with
  | centred => exact center_emod x m
  | unsigned => exact Int.mod_modEq x m

theorem exec_pred {s : State} {rs1 : PReg} {sel : ModSel} (hc : s.status.cfgok = true) (ht : s.plen[rs1] = s.cfgN)
    (h1 : 1 ≤ s.modulus sel) (h2 : s.modulus sel ≤ 2 ^ 31 - 1) (rd : PReg) (rep : RepSel) :
    exec (.pred rd rs1 sel rep) s =
      .next (s.drew.writePoly rd ((s.src rs1).map (fun x => represent rep x (s.modulus sel)))).complete := by
  unfold exec
  refine guarded_none ((firstReport_eq_none_iff _).mpr ?_) _ s
  simp [cfgGate_eq_none.mpr hc, reduceModulusCheck_eq_none.mpr ⟨h1, h2⟩, lenCheck_eq_none.mpr ht]

/-- Settles O30: each coefficient becomes its representative, which R13 puts in the range of its kind. -/
theorem predReduces : Obligations.PredReduces := by
  unfold Obligations.PredReduces
  intro rd rs1 sel rep m s hc ht hp hq hm h1 h2
  obtain rfl := modulus_eq hp hq hm
  refine ⟨_, fun k => represent rep ((s.src rs1).getD k 0) (s.modulus sel), exec_pred hc ht h1 h2 rd rep,
    writesPoly_of_eq (u := s.drew) rfl rfl rfl rfl ((List.length_map _).trans (src_length _ _))
      (fun k hk => (map_getD (represent rep · (s.modulus sel)) (s.src rs1) (by rwa [src_length])).symm) rfl rfl,
    fun k _ => ⟨dvd_represent_sub rep _ _, ?_, ?_⟩, rfl⟩
  · rintro rfl; exact center_range _ h1
  · rintro rfl; exact ⟨imod_nonneg _ h1, imod_lt _ h1⟩

/-! ### PWCK (R119) -/

/-- The coefficients outside {−1, 0, +1}, as PWCK counts them. -/
def othersCount (a : Poly) : Nat := a.countP (fun x => decide (x ≠ -1 ∧ x ≠ 0 ∧ x ≠ 1))

/-- Every coefficient is in one of PWCK's classes or 0. -/
theorem othersCount_add_counts (a : Poly) : othersCount a + a.count 1 + a.count (-1) + a.count 0 = a.length := by
  induction a with
  | nil => rfl
  | cons x a ih =>
    simp only [othersCount, List.countP_cons, List.count_cons, List.length_cons, beq_iff_eq, decide_eq_true_eq] at ih ⊢
    split_ifs <;> omega

theorem othersCount_eq_zero_iff (a : Poly) : othersCount a = 0 ↔ ∀ x ∈ a, x = -1 ∨ x = 0 ∨ x = 1 := by
  simp only [othersCount, List.countP_eq_zero, decide_eq_true_eq]
  exact forall₂_congr fun x _ => by omega

theorem exec_pwck {s : State} {rs1 : PReg} (hc : s.status.cfgok = true) (ht : s.plen[rs1] = s.cfgN) :
    exec (.pwck rs1) s =
      .next (s.drew.setWeights ((s.src rs1).count 1) ((s.src rs1).count (-1)) (othersCount (s.src rs1))).complete := by
  unfold exec
  exact guarded_none (ringChecks_eq_none hc (List.forall_mem_singleton.mpr ht)) _ s

/-- Settles O31: no count exceeds N, so each fits its 16-bit register. -/
theorem pwckCounts : Obligations.PwckCounts := by
  unfold Obligations.PwckCounts
  intro rs1 s hc ht
  have hsum := othersCount_add_counts (s.src rs1)
  rw [src_length] at hsum
  have hn : s.n < 2 ^ 16 := s.cfgN.isLt
  have hfits : ∀ {x : Nat}, x ≤ s.n → (BitVec.ofNat 16 x).toNat = x := fun hx =>
    (BitVec.toNat_ofNat ..).trans (Nat.mod_eq_of_lt (Nat.lt_of_le_of_lt hx hn))
  refine ⟨_, exec_pwck hc ht, hfits (by omega), hfits (by omega), ?_, ?_, rfl⟩
  · show (BitVec.ofNat 16 (othersCount (s.src rs1))).toNat + _ + _ + _ = s.n
    rw [hfits (by omega), hsum]
  · exact (decide_eq_true_iff ..).trans (othersCount_eq_zero_iff _)

/-! ### The laws of the exact ring operations (R120) -/

section Laws

variable {n : Nat} {a b c : Poly} (ha : a.length = n) (hb : b.length = n)

include ha hb

theorem conv_comm : conv a b = conv b a :=
  eq_of_toRing_zero ((conv_length _ _).trans hb) ((conv_length _ _).trans ha)
    (by rw [toRing_conv ha hb, toRing_conv hb ha, mul_comm])

theorem conv_assoc (hc : c.length = n) : conv (conv a b) c = conv a (conv b c) := by
  have hab : (conv a b).length = n := (conv_length _ _).trans hb
  have hbc : (conv b c).length = n := (conv_length _ _).trans hc
  exact eq_of_toRing_zero ((conv_length _ _).trans hc) ((conv_length _ _).trans hbc)
    (by rw [toRing_conv hab hc, toRing_conv ha hb, toRing_conv ha hbc, toRing_conv hb hc, mul_assoc])

theorem conv_addPoly (hc : c.length = n) : conv a (addPoly b c) = addPoly (conv a b) (conv a c) := by
  have hsum : (addPoly b c).length = n := by simp [hb, hc]
  exact eq_of_toRing_zero ((conv_length _ _).trans hsum) (by simp [hb, hc])
    (by rw [toRing_conv ha hsum, toRing_add (hb.trans hc.symm), toRing_add (by simp [hb, hc]), toRing_conv ha hb,
      toRing_conv ha hc, mul_add])

/-- Centred reduction of the factors changes the product by multiples of m only. -/
theorem centerPoly_conv (m : Nat) : centerPoly m (conv a b) = centerPoly m (conv (centerPoly m a) (centerPoly m b)) := by
  have ha' : (centerPoly m a).length = n := (centerPoly_length m a).trans ha
  have hb' : (centerPoly m b).length = n := (centerPoly_length m b).trans hb
  have hring : toRing m n (conv a b) = toRing m n (conv (centerPoly m a) (centerPoly m b)) := by
    rw [toRing_conv ha hb, toRing_conv ha' hb', toRing_center ha, toRing_center hb]
  refine List.ext_getElem (by simp) fun k h1 h2 => ?_
  have hk := toRing_injective hring (k := k) (by simpa [hb] using h1)
  rw [List.getD_eq_getElem _ _ (by simpa using h1), List.getD_eq_getElem _ _ (by simpa using h2)] at hk
  simpa [centerPoly] using center_congr hk

end Laws

theorem conv_identityPoly {n : Nat} {a : Poly} (ha : a.length = n) : conv a (identityPoly n) = a := by
  have hlen : (conv a (identityPoly n)).length = n := (conv_length _ _).trans (identityPoly_length n)
  rcases Nat.eq_zero_or_pos n with rfl | hn
  · exact (List.length_eq_zero_iff.mp hlen).trans (List.length_eq_zero_iff.mp ha).symm
  · exact eq_of_toRing_zero hlen ha (by rw [toRing_conv ha (identityPoly_length n), toRing_identity hn, mul_one])

/-- Settles O32: `conv` is the product of ℤ[x]/(xᴺ − 1), and centred reduction keeps the class in ℤ_m[x]/(xᴺ − 1). -/
theorem convolutionLaws : Obligations.ConvolutionLaws := by
  unfold Obligations.ConvolutionLaws
  exact fun n m a b c ha hb hc _ =>
    ⟨conv_comm ha hb, conv_assoc ha hb hc, conv_addPoly ha hb hc, conv_identityPoly ha, centerPoly_conv ha hb m⟩

end Sys2Proof.Machine
end

section
/-! Proofs about the inverse (spec/42_modular_inverse.md): what `inverseOf` answers, and what PINV writes for each answer. -/

namespace Sys2Proof.Machine

/-! ### The answer of `inverseOf` (R141) -/

theorem inverseOf_of_base {m l : Nat} (h : primePowerBase m = some l) (a : Poly) : inverseOf m a = invertPoly l m a := by
  rw [inverseOf, h]

theorem exists_base_of_inverseOf {m : Nat} {a b : Poly} (h : inverseOf m a = some b) :
    ∃ l, primePowerBase m = some l ∧ invertPoly l m a = some b := by
  cases hbase : primePowerBase m with
  | none => simp [inverseOf, hbase] at h
  | some l => exact ⟨l, rfl, inverseOf_of_base hbase a ▸ h⟩

theorem two_le_of_primePowerBase {m l : Nat} (h : primePowerBase m = some l) : 2 ≤ m :=
  (primePowerBase_isSome_iff.mp (Option.isSome_of_eq_some h)).1.two_le

theorem length_of_invertPoly {l m : Nat} {a b : Poly} (h : invertPoly l m a = some b) : b.length = a.length := by
  simp only [invertPoly, Option.ite_none_right_eq_some, Option.some.injEq] at h
  obtain ⟨-, rfl⟩ := h
  rw [inverseCandidate_length, modPoly_length]

/-- Soundness, for every N: without coefficients nothing but the length is asked of an inverse. -/
theorem inverseOf_sound {m n : Nat} {a b : Poly} (ha : a.length = n) (h : inverseOf m a = some b) : IsInverse n m a b := by
  obtain ⟨l, hbase, hinv⟩ := exists_base_of_inverseOf h
  rcases Nat.eq_zero_or_pos n with rfl | hn
  · obtain rfl := List.length_eq_zero_iff.mp ((length_of_invertPoly hinv).trans ha)
    exact ⟨rfl, List.forall_mem_nil _, fun k hk => absurd hk (Nat.not_lt_zero k)⟩
  · exact invertPoly_sound (two_le_of_primePowerBase hbase) hn ha hinv

/-- Completeness, for N prime: ℓ ≤ m < 2^31 and the exponent is at most 31, so the method's bounds hold. -/
theorem exists_inverseOf {m n : Nat} {a b : Poly} (hm : IsPrimePow m) (hmax : m ≤ 2 ^ 31 - 1) (hn : n.Prime) (hn16 : n < 2 ^ 16)
    (ha : a.length = n) (h : IsInverse n m a b) : ∃ c, inverseOf m a = some c := by
  obtain ⟨l, hbase⟩ := Option.isSome_iff_exists.mp (primePowerBase_isSome_iff.mpr ⟨hm, hmax⟩)
  obtain ⟨-, hl, e, he, rfl⟩ := primePowerBase_eq_some_iff.mp hbase
  have hle : l ≤ l ^ (e + 1) := Nat.le_self_pow (Nat.succ_ne_zero e) l
  rw [inverseOf_of_base hbase]
  exact Option.isSome_iff_exists.mp (invertPoly_complete hl (Nat.succ_pos e) (by omega) hn hn16 (by omega) ha h)

/-! ### PINV (R140, R141) -/

section Pinv

variable {s : State} {rs1 : PReg} {sel : ModSel} (hc : s.status.cfgok = true) (ht : s.plen[rs1] = s.cfgN)
  (hm : IsPrimePow (s.modulus sel)) (hmax : s.modulus sel ≤ 2 ^ 31 - 1)

include hc ht hm hmax

/-- The pre-checks pass, so PINV acts. -/
theorem pinvChecks_eq_none : firstReport [s.cfgGate, primePowerCheck (s.modulus sel), s.lenCheck rs1] = none := by
  rw [cfgGate_eq_none.mpr hc, primePowerCheck_eq_none.mpr ⟨hm, hmax⟩, lenCheck_eq_none.mpr ht]
  rfl

theorem exec_pinv_of_some {b : Poly} (h : inverseOf (s.modulus sel) (s.src rs1) = some b) (rd : PReg) :
    exec (.pinv rd rs1 sel) s = .next ((s.drew.writePoly rd b).setNoinv false).complete := by
  rw [exec, execPinv, guarded_none (pinvChecks_eq_none hc ht hm hmax), h]

theorem exec_pinv_of_none (h : inverseOf (s.modulus sel) (s.src rs1) = none) (rd : PReg) :
    exec (.pinv rd rs1 sel) s = .next (s.drew.setNoinv true).complete := by
  rw [exec, execPinv, guarded_none (pinvChecks_eq_none hc ht hm hmax), h]

end Pinv

/-- Settles O33: what is written is an inverse by `inverseOf_sound`; without one only NOINV is raised. -/
theorem pinvResultIsInverse : Obligations.PinvResultIsInverse := by
  unfold Obligations.PinvResultIsInverse
  intro rd rs1 sel s hc ht hm hmax
  cases hinv : inverseOf (s.modulus sel) (s.src rs1) with
  | some b =>
    have hb := inverseOf_sound (src_length s rs1) hinv
    exact ⟨_, exec_pinv_of_some hc ht hm hmax hinv rd, .inl ⟨rfl, b, hb,
      writesPoly_of_eq (u := s.drew) rfl rfl rfl rfl hb.length (fun _ _ => rfl) rfl rfl⟩, rfl⟩
  | none => exact ⟨_, exec_pinv_of_none hc ht hm hmax hinv rd, .inr ⟨rfl, rfl, rfl⟩, rfl⟩

/-- Settles O34: for N prime `inverseOf` answers with an inverse whenever there is one, and PINV then clears NOINV. -/
theorem pinvFindsEveryInverse : Obligations.PinvFindsEveryInverse := by
  unfold Obligations.PinvFindsEveryInverse
  rintro rd rs1 sel s hc hprime ht hm hmax ⟨b, hb⟩
  obtain ⟨c, hinv⟩ := exists_inverseOf hm hmax hprime s.cfgN.isLt (src_length s rs1) hb
  exact ⟨_, exec_pinv_of_some hc ht hm hmax hinv rd, rfl⟩

end Sys2Proof.Machine
end

section
/-! Proofs about the sampler (spec/43_sampler.md): the turns of PSMP, NENC and SENC that complete them or leave them in flight,
the weights of their samples, and the random words they take. -/

namespace Sys2Proof.Machine

/-! ### A turn of a sampling command in any state -/

/-- A sampling command reports a failed pre-check, or takes a turn: with the sampler in flight, or with the one it starts, and
with the same in every state of that engine and that CTRL. -/
theorem sampled_cases {pre : Option Report} {start : Sampling} {finish : List Poly → State → State} {s t : State}
    (h : sampled pre start finish s = .next t) :
    (∃ r, pre = some r ∧ t = s.fail r) ∨
    ∃ src job, (s.engine = .sampling src job ∨ (pre = none ∧ job = start)) ∧
      ∀ u : State, u.engine = s.engine → u.ctrl = s.ctrl →
        sampled pre start finish u = .next (sampleTurn src job finish u) := by
  by_cases hfl : ∃ src job, s.engine = .sampling src job
  · obtain ⟨src, job, hj⟩ := hfl
    exact .inr ⟨src, job, .inl hj, fun u he _ => sampled_resume (he.trans hj) ..⟩
  · have hns : ∀ src job, s.engine ≠ .sampling src job := by simpa using hfl
    rw [sampled_start hns] at h
    rcases guarded_cases h with hfail | ⟨hpre, _⟩
    · exact .inl hfail
    · refine .inr ⟨s.recorded, start, .inr ⟨hpre, rfl⟩, fun u he hc => ?_⟩
      have hr : u.recorded = s.recorded := by simp only [State.recorded, State.source, he, hc]
      rw [sampled_start (by rw [he]; exact hns), guarded_none hpre, hr]

/-- A turn without limit has an event for every word and for the completion. -/
theorem sampleTurn_of_no_limit {s : State} (h : s.turnLimit = none) (src : RandSource) (job : Sampling)
    (finish : List Poly → State → State) :
    sampleTurn src job finish s =
      if (feedWords job (s.wordsOf src)).1.todo = 0 then
        finish (feedWords job (s.wordsOf src)).1.done (s.withWords src (feedWords job (s.wordsOf src)).2)
      else (s.withWords src (feedWords job (s.wordsOf src)).2).keepSampling src (feedWords job (s.wordsOf src)).1 true := by
  simp [sampleTurn, State.granted, State.eventLeft, h]

/-! ### The samples a command completes with -/

/-- A sampler with nothing left to draw has as many samples as its command asks for, each of the exact weights (R156 (a)). -/
theorem JobFits.samples_of_done {s : State} {i : Instr} {job : Sampling} {np nm count : Nat} (h : JobFits s i job)
    (hplan : s.samplePlan i = some (np, nm, count)) (h0 : job.todo = 0) :
    job.done.length = count ∧ ∀ r ∈ job.done, Ternary s.n np nm r := by
  have ho := h.order
  rw [hplan, h0, Nat.zero_add] at ho
  cases ho
  exact ⟨rfl, h.size ▸ h.samples⟩

/-- The samples of a turn that completes its command are as many as it asks for, of N coefficients each. -/
theorem State.Samples.samples_length {s : State} {i : Instr} {src : RandSource}
    {draw : List Word → Option (List Poly × List Word)} {np nm count : Nat} {ws left : List Word} {rs : List Poly}
    (h : s.Samples i src draw) (hplan : s.samplePlan i = some (np, nm, count)) (hd : draw ws = some (rs, left)) :
    rs.length = count ∧ ∀ r ∈ rs, r.length = s.n := by
  cases h with
  | starts issued cfgok arguments tags plan =>
    cases hplan.symm.trans plan
    exact samplesFrom_length hd
  | resumes flight fits =>
    obtain ⟨h0, rfl, rfl⟩ := (drawsFrom_eq_some_iff fits.draws).mp hd
    obtain ⟨hc, ht⟩ := (feedWords_fits fits ws).samples_of_done hplan h0
    exact ⟨hc, fun r hr => (ht r hr).length⟩

/-- A turn with enough words and an event left for the completion is the end of the command. -/
theorem exec_completes {s : State} {i : Instr} {src : RandSource} {draw : List Word → Option (List Poly × List Word)}
    {rs : List Poly} {left : List Word} (h : s.Samples i src draw) (hc : s.Completes src draw rs left) :
    exec i s = .next (finishOf i rs (s.withWords src (left ++ (s.granted (s.wordsOf src)).2))) := by
  obtain ⟨job, hl, rfl, he, _⟩ := exec_samples h
  rw [he, sampleTurn_completes hl hc]

/-! ### What the end of a sampling command writes -/

theorem withWords_src (src : RandSource) (ws : List Word) (s : State) (k : PReg) : (s.withWords src ws).src k = s.src k := by
  cases src <;> rfl

theorem withWords_drew (src : RandSource) (ws : List Word) (s : State) :
    (s.withWords src ws).drew = s.drew.withWords src ws := by cases src <;> rfl

theorem withWords_blocks (src : RandSource) (ws : List Word) (s : State) (l : Nat) :
    (s.withWords src ws).blocks l = s.blocks l := by cases src <;> rfl

theorem withWords_messageBlock (src : RandSource) (ws : List Word) (s : State) (l k : Nat) :
    (s.withWords src ws).messageBlock l k = s.messageBlock l k := by cases src <;> rfl

theorem withWords_cipherOf (src : RandSource) (ws : List Word) (s : State) (h : Poly) (l : Nat) (rs : List Poly) :
    (s.withWords src ws).cipherOf h l rs = s.cipherOf h l rs := by
  simp only [State.cipherOf, State.withWords_cfgQ, withWords_messageBlock]

/-- PSMP writes its sample (R150). -/
theorem finishPsmp_writesPoly (src : RandSource) (ws : List Word) (s : State) (rd : PReg) {r : Poly} (hr : r.length = s.n) :
    WritesPoly s (finishPsmp rd [r] (s.withWords src ws)) rd (fun k => r.getD k 0) :=
  writesPoly_of_eq (u := s.withWords src ws) (State.withWords_build ..) (State.withWords_p ..) (State.withWords_plen ..)
    (State.withWords_cfgN ..) hr (fun _ _ => rfl) rfl rfl

/-- NENC writes the encryption with its sample (R190). -/
theorem finishNenc_writesPoly (src : RandSource) (ws : List Word) (s : State) (rd rs1 rs2 : PReg) {r : Poly}
    (hr : r.length = s.n) :
    WritesPoly s (finishNenc rd rs1 rs2 [r] (s.withWords src ws)) rd
      (encryptCoeff s.n s.cfgQ.toNat r (s.src rs1) (s.drew.src rs2)) := by
  have hend : finishNenc rd rs1 rs2 [r] (s.withWords src ws) = ((s.withWords src ws).drew.drew.writePoly rd
      (encryptBlock s.cfgQ.toNat r (s.src rs1) (s.drew.src rs2))).complete := by
    simp only [finishNenc, withWords_src, withWords_drew, State.withWords_cfgQ, List.headD_cons]
  rw [hend]
  exact writesPoly_of_eq (u := (s.withWords src ws).drew.drew) (State.withWords_build ..) (State.withWords_p ..)
    (State.withWords_plen ..) (State.withWords_cfgN ..) (by simp)
    (fun i hi => (encryptBlock_getD hr (src_length s rs1) (src_length s.drew rs2) hi).symm) rfl rfl

/-- A list of blocks of n entries, laid out one behind the other, is n entries for each block. -/
theorem length_flatMap_of_uniform {α β : Type} {f : α → List β} {n : Nat} {l : List α} (h : ∀ x ∈ l, (f x).length = n) :
    (l.flatMap f).length = l.length * n := by
  rw [List.length_flatMap, List.map_congr_left h, List.map_const', List.sum_replicate, smul_eq_mul]

/-- Entry i of block k. -/
theorem getElem?_flatMap_of_uniform {α β : Type} {f : α → List β} {n : Nat} {l : List α} (h : ∀ x ∈ l, (f x).length = n)
    (k : Nat) {i : Nat} (hi : i < n) : (l.flatMap f)[k * n + i]? = l[k]?.bind (fun x => (f x)[i]?) := by
  induction l generalizing k with
  | nil => rfl
  | cons x l ih =>
    obtain ⟨hx, hl⟩ := List.forall_mem_cons.mp h
    rw [List.flatMap_cons]
    cases k with
    | zero =>
      rw [Nat.zero_mul, Nat.zero_add, List.getElem?_append_left (by omega)]
      rfl
    | succ k =>
      have hk : (k + 1) * n + i = n + (k * n + i) := by rw [Nat.succ_mul]; omega
      rw [hk, List.getElem?_append_right (by omega), hx, Nat.add_sub_cancel_left, ih hl]
      rfl

theorem messageBlock_eq_paddedBit (s : State) (l k : Nat) :
    s.messageBlock l k = (List.range s.n).map (fun i => s.paddedBit l (k * s.n + i)) := by
  simp only [State.messageBlock, State.padBit, State.paddedBit, bitAt_eq_streamBit]

section Cipher

variable {s : State} {h : Poly} (hh : h.length = s.n) (l : Nat) (rs : List Poly)

include hh

theorem encryptBlock_messageBlock_length :
    ∀ e ∈ rs.zipIdx, (encryptBlock s.cfgQ.toNat e.1 h (s.messageBlock l e.2)).length = s.n := by simp [hh]

theorem cipherOf_length : (s.cipherOf h l rs).length = rs.length * s.n := by
  rw [State.cipherOf, length_flatMap_of_uniform (encryptBlock_messageBlock_length hh l rs), List.length_zipIdx]

/-- Coefficient i of block k of a ciphertext (R200). -/
theorem cipherOf_getElem? {rs : List Poly} (hrs : ∀ r ∈ rs, r.length = s.n) {k i : Nat} (hk : k < rs.length) (hi : i < s.n) :
    (s.cipherOf h l rs)[k * s.n + i]? = some (encryptCoeff s.n s.cfgQ.toNat (rs.getD k []) h
      ((List.range s.n).map (fun j => s.paddedBit l (k * s.n + j))) i) := by
  have hlen : (encryptBlock s.cfgQ.toNat rs[k] h (s.messageBlock l k)).length = s.n := by simp [hh]
  rw [State.cipherOf, getElem?_flatMap_of_uniform (encryptBlock_messageBlock_length hh l rs) k hi, List.getElem?_zipIdx,
    List.getElem?_eq_getElem hk, List.getD_eq_getElem _ _ hk, ← messageBlock_eq_paddedBit,
    ← encryptBlock_getD (hrs _ (List.getElem_mem hk)) hh (messageBlock_length ..) hi, Option.map_some, Option.bind_some,
    Nat.zero_add, List.getElem?_eq_getElem (hlen ▸ hi), List.getD_eq_getElem _ _ (hlen ▸ hi)]

end Cipher

/-- CBUF has room for the ciphertext of every message that fits BBUF, and its length is a number of 16 bits (R8, R25). -/
theorem cipher_length_le {s : State} (hb : s.build.Valid) (hv : s.ConfigValid) (hm : s.mlen.toNat ≤ s.build.bmax) :
    s.blocks s.mlen.toNat * s.n ≤ s.build.cmax ∧ s.blocks s.mlen.toNat * s.n < 2 ^ 16 := by
  obtain ⟨_, hn, _, hbm, hc, _⟩ := hb
  have hcap := hv.capacity
  have hle : s.blocks s.mlen.toNat * s.n ≤ 8 * s.mlen.toNat + s.n - 1 := Nat.div_mul_le_self ..
  omega

/-- What the end of SENC does, whatever words are left. -/
theorem finishSenc_withWords (src : RandSource) (ws : List Word) (s : State) (rs1 : PReg) (rs : List Poly) :
    finishSenc rs1 rs (s.withWords src ws) =
      (((s.withWords src ws).drew.drew.writeCipher ((s.drew.cipherOf (s.src rs1) s.mlen.toNat rs).map wrap32)).setCipherLength
        (s.blocks s.mlen.toNat * s.n) (s.blocks s.mlen.toNat)).complete := by
  simp only [finishSenc, withWords_src, withWords_drew, withWords_cipherOf, State.withWords_mlen, State.withWords_n,
    withWords_blocks]

/-- SENC writes the encryptions of the message's blocks, each with its own sample (R200). -/
theorem finishSenc_writesCipher (src : RandSource) (ws : List Word) {s : State} (rs1 : PReg) {rs : List Poly}
    (hb : s.build.Valid) (hv : s.ConfigValid) (hm : s.mlen.toNat ≤ s.build.bmax)
    (hlen : rs.length = (8 * s.mlen.toNat) ⌈/⌉ s.n) (hrs : ∀ r ∈ rs, r.length = s.n) :
    WritesCipher s (finishSenc rs1 rs (s.withWords src ws)) rs1 rs := by
  have hblk : s.blocks s.mlen.toNat = rs.length := by rw [hlen, State.blocks, Nat.ceilDiv_eq_add_pred_div]
  obtain ⟨hroom, h16⟩ := cipher_length_le hb hv hm
  rw [hblk] at hroom h16
  have hn : 0 < s.n := hv.prime.pos
  have hc : ((s.drew.cipherOf (s.src rs1) s.mlen.toNat rs).map wrap32).length = rs.length * s.n := by
    rw [List.length_map]
    exact cipherOf_length (s := s.drew) (src_length s rs1) ..
  have hend := finishSenc_withWords src ws s rs1 rs
  rw [hblk] at hend
  have hcbuf : (finishSenc rs1 rs (s.withWords src ws)).cbuf =
      bufOverwrite ((s.drew.cipherOf (s.src rs1) s.mlen.toNat rs).map wrap32) s.cbuf := by
    have hcut := List.take_of_length_le (hc.trans_le hroom)
    simp [hend, hcut]
  refine ⟨fun k i hk hi => ?_, fun j hj => ?_, ?_, ?_⟩
  · have hki : k * s.n + i < rs.length * s.n := by nlinarith
    have hget := cipherOf_getElem? (s := s.drew) (src_length s rs1) s.mlen.toNat hrs hk hi
    rw [hcbuf, bufGet_bufOverwrite, hc, if_pos hki, List.getElem?_map]
    exact congrArg _ hget
  · rw [hcbuf, bufGet_bufOverwrite, hc, if_neg (Nat.not_lt.mpr hj)]
  · rw [hend]
    exact (BitVec.toNat_ofNat ..).trans (Nat.mod_eq_of_lt h16)
  · rw [hend]
    exact (BitVec.toNat_ofNat ..).trans (Nat.mod_eq_of_lt ((Nat.le_mul_of_pos_right _ hn).trans_lt h16))

/-- A sampling command writes what its rule says with its samples. -/
theorem finishOf_writesSampled (src : RandSource) (ws : List Word) {s : State} {i : Instr} {np nm count : Nat}
    {rs : List Poly} (hb : s.build.Valid) (hv : s.ConfigValid) (ha : ∀ info, ¬ ArgError s i info)
    (hplan : s.samplePlan i = some (np, nm, count)) (hlen : rs.length = count) (hrs : ∀ r ∈ rs, r.length = s.n) :
    WritesSampled s (finishOf i rs (s.withWords src ws)) rs i := by
  cases i with
  | psmp rd w =>
    cases hplan
    obtain ⟨r, rfl⟩ := List.length_eq_one_iff.mp hlen
    exact finishPsmp_writesPoly src ws s rd (hrs r (List.mem_singleton_self r))
  | nenc rd rs1 rs2 =>
    cases hplan
    obtain ⟨r, rfl⟩ := List.length_eq_one_iff.mp hlen
    exact finishNenc_writesPoly src ws s rd rs1 rs2 (hrs r (List.mem_singleton_self r))
  | senc rs1 =>
    cases hplan
    exact finishSenc_writesCipher src ws rs1 hb hv (Nat.not_lt.mp fun hbad => ha _ ⟨hbad, rfl⟩) hlen hrs
  | _ => exact trivial

/-- Settles O35: the turn ends PSMP on its one sample. -/
theorem psmpDrawsSample : Obligations.PsmpDrawsSample := by
  unfold Obligations.PsmpDrawsSample
  intro rd w s src draw rs left h hc
  obtain ⟨hlen, hrs⟩ := h.samples_length rfl hc.1
  obtain ⟨r, rfl⟩ := List.length_eq_one_iff.mp hlen
  exact ⟨_, exec_completes h hc, finishPsmp_writesPoly src _ s rd (hrs r (List.mem_singleton_self r)), rfl⟩

/-! ### The exact weights (R156) -/

/-- The first failing check reports an error when each of them does. -/
theorem code_of_firstReport {l : List (Option Report)} (hl : ∀ x ∈ l, ∀ r, x = some r → r.code ≠ .success) {r : Report}
    (h : firstReport l = some r) : r.code ≠ .success := by
  obtain ⟨a, b, rfl, _⟩ := (firstReport_eq_some_iff l r).mp h
  exact hl (some r) (by simp) r rfl

theorem cfgGate_code {s : State} {r : Report} (h : s.cfgGate = some r) : r.code ≠ .success := by
  unfold State.cfgGate at h
  split at h <;> cases h
  decide

theorem lenCheck_code {s : State} {k : PReg} {r : Report} (h : s.lenCheck k = some r) : r.code ≠ .success := by
  unfold State.lenCheck at h
  split at h <;> cases h
  exact ErrCode.noConfusion

theorem weightCheck_code {s : State} {w : WeightSel} {r : Report} (h : s.weightCheck w = some r) : r.code ≠ .success := by
  unfold State.weightCheck at h
  dsimp only at h
  split at h <;> cases h
  exact ErrCode.noConfusion

theorem mlenCheck_code {s : State} {r : Report} (h : s.mlenCheck = some r) : r.code ≠ .success := by
  unfold State.mlenCheck at h
  split at h <;> cases h
  exact ErrCode.noConfusion

/-- A failed pre-check of a sampling command reports an error. -/
theorem sampleChecks_code {s : State} {i : Instr} {r : Report} (h : s.sampleChecks i = some r) : r.code ≠ .success := by
  have htags : ∀ ks : List PReg, ∀ x ∈ ks.map s.lenCheck, ∀ r, x = some r → r.code ≠ .success := fun _ =>
    List.forall_mem_map.mpr fun _ _ _ => lenCheck_code
  cases i with
  | psmp rd w =>
    exact code_of_firstReport (List.forall_mem_cons.mpr
      ⟨fun _ => cfgGate_code, List.forall_mem_singleton.mpr fun _ => weightCheck_code⟩) h
  | nenc rd rs1 rs2 =>
    exact code_of_firstReport (List.forall_mem_cons.mpr ⟨fun _ => cfgGate_code, htags [rs1, rs2]⟩) h
  | senc rs1 =>
    exact code_of_firstReport (List.forall_mem_cons.mpr
      ⟨fun _ => cfgGate_code, List.forall_mem_cons.mpr ⟨fun _ => mlenCheck_code, htags [rs1]⟩⟩) h
  | _ => cases h

/-- A turn from a state of the invariant that completes its sampling command without an error is the end of the command on
samples of the exact weights. -/
theorem Inv.exec_completed {s t : State} (h : Inv s) (hb : s.status.busy = true) {i : Instr} (hi : s.command = .ok i)
    {np nm count : Nat} (hplan : s.samplePlan i = some (np, nm, count)) (he : Machine.exec i s = .next t)
    (hdone : t.status.busy = false) (herr : t.status.err = .success) :
    (∀ info, ¬ ArgError s i info) ∧ s.ConfigValid ∧ ∃ src ws rs, t = finishOf i rs (s.withWords src ws) ∧
      rs.length = count ∧ ∀ r ∈ rs, Ternary s.n np nm r := by
  rw [exec_of_plan hplan] at he
  rcases sampled_cases he with ⟨r, hr, rfl⟩ | ⟨src, job, hjob, hrun⟩
  · exact absurd herr (sampleChecks_code hr)
  · have hfit : s.status.cfgok = true ∧ JobFits s i job := by
      rcases hjob with hj | ⟨hpre, rfl⟩
      · obtain ⟨hc, i', hi', hfit⟩ := h.sampler src job hj
        obtain rfl : i' = i := Except.ok.inj (hi'.symm.trans hi)
        exact ⟨hc, hfit⟩
      · obtain ⟨hc, ha⟩ := sampleChecks_passed (by rw [hplan]; rfl) hpre
        exact ⟨hc, startSampling_fits ha hplan (samplePlan_room hplan (h.config hc) ha)⟩
    obtain ⟨hc, hfit⟩ := hfit
    obtain rfl : t = Machine.sampleTurn src job (finishOf i) s := Host.Outcome.next.inj (he.symm.trans (hrun s rfl rfl))
    refine ⟨hfit.checked, h.config hc, src, ?_⟩
    rcases sampleTurn_cases src job (finishOf i) s with ⟨h0, _, e⟩ | ⟨_, _, _, e⟩ | ⟨_, _, e⟩
    · exact ⟨_, _, e, (feedWords_fits hfit _).samples_of_done hplan h0⟩
    · rw [e] at hdone; simp [hb] at hdone
    · rw [e] at hdone; simp [hb] at hdone

/-- Settles O36: a sampler that fits its command draws samples of the exact weights, whatever the words. -/
theorem samplesHaveExactWeights : Obligations.SamplesHaveExactWeights := by
  unfold Obligations.SamplesHaveExactWeights
  intro i s t np nm count hinv hb hi hplan he hdone herr
  obtain ⟨ha, hv, src, ws, rs, rfl, hlen, hrs⟩ := hinv.exec_completed hb hi hplan he hdone herr
  exact ⟨rs, hlen, hrs, finishOf_writesSampled src ws hinv.build hv ha hplan hlen fun r hr => (hrs r hr).length⟩

/-! ### A command that stays in flight (R153) -/

/-- Settles O37: the turn takes the words it may and keeps the sampler. -/
theorem samplingWaits : Obligations.SamplingWaits := by
  unfold Obligations.SamplingWaits
  intro i s src draw h hn
  obtain ⟨job, hl, rfl, he, _⟩ := exec_samples h
  obtain ⟨job', wait, hturn, hwait⟩ := sampleTurn_waits hl hn (finishOf i)
  refine ⟨job', wait, ?_, hwait⟩
  rw [he, hturn, State.keepSampling, State.withWords_status]

theorem guarded_engine {pre : Option Report} {act : State → State} {s t : State} (he : guarded pre act s = .next t)
    (hact : (act s).engine = .idle) : t.engine = .idle := by
  rcases guarded_cases he with ⟨r, _, rfl⟩ | ⟨_, rfl⟩
  · rfl
  · exact hact

/-- A command that samples nothing completes in its turn. -/
theorem exec_engine_of_no_plan {i : Instr} {s t : State} (hplan : s.samplePlan i = none) (he : exec i s = .next t) :
    t.engine = .idle := by
  unfold exec at he
  cases i with
  | nop => cases he; rfl
  | cfgchk => simp only [execCfgchk] at he; split at he <;> cases he <;> rfl
  | pinv rd rs1 sel => refine guarded_engine he ?_; split <;> rfl
  | bdec rs1 k => refine guarded_engine he ?_; dsimp only; split <;> rfl
  | bfin => refine guarded_engine he ?_; dsimp only; split <;> rfl
  | sdec rs1 rs2 =>
    refine guarded_engine he ?_
    dsimp only
    rcases decodeBlocks_cases (s.clen.toNat / s.n) (s.drew.drew.decryptedBlocks (s.src rs1) (s.drew.src rs2)
      (s.clen.toNat / s.n)) 0 s.drew.drew.drew with ⟨r, _, e⟩ | ⟨b, m, e⟩ <;> rw [e] <;> rfl
  | psmp _ _ | nenc _ _ _ | senc _ => cases hplan
  | _ => exact guarded_engine he rfl

/-- A turn of a sampling command that leaves it in flight has taken every word it might take. -/
theorem sampleTurn_of_in_flight {s : State} {i : Instr} (hplan : (s.samplePlan i).isSome = true) {src src' : RandSource}
    {job job' : Sampling} (h : (sampleTurn src job (finishOf i) s).engine = .sampling src' job') :
    let g := s.granted (s.wordsOf src)
    src' = src ∧ (feedWords job g.1).2 = [] ∧
      ∃ wait, sampleTurn src job (finishOf i) s = (s.withWords src g.2).keepSampling src (feedWords job g.1).1 wait := by
  rcases sampleTurn_cases src job (finishOf i) s with ⟨_, _, e⟩ | ⟨_, hleft, _, e⟩ | ⟨hleft, _, e⟩ <;> rw [e] at h ⊢
  · rw [finishOf_engine hplan] at h; cases h
  · cases h; exact ⟨rfl, hleft, _, rfl⟩
  · cases h; exact ⟨rfl, hleft, _, rfl⟩

/-- The sampler that a turn leaves in flight, given the words left and those behind them, goes on as the turn's sampler would
have on all of them. -/
theorem feedWords_of_kept {s : State} {src : RandSource} {job : Sampling}
    (hleft : (feedWords job (s.granted (s.wordsOf src)).1).2 = []) (more : List Word) :
    feedWords (feedWords job (s.granted (s.wordsOf src)).1).1 ((s.granted (s.wordsOf src)).2 ++ more) =
      feedWords job (s.wordsOf src ++ more) := by
  conv_rhs => rw [← granted_append s (s.wordsOf src), List.append_assoc, feedWords_append]
  split
  · next h0 => rw [hleft, List.nil_append, feedWords_of_done h0]
  · rfl

/-- The state at the start of a turn without limit, the words `more` having come behind those of `src`. -/
def State.withMore (src : RandSource) (more : List Word) (s : State) : State :=
  (s.withWords src (s.wordsOf src ++ more)).beginTurn none

theorem withMore_beginTurn (src : RandSource) (more : List Word) (limit : Option Nat) (s : State) :
    (s.beginTurn limit).withMore src more = s.withMore src more := by cases src <;> rfl

theorem withMore_engine (src : RandSource) (more : List Word) (s : State) : (s.withMore src more).engine = s.engine := by
  cases src <;> rfl

theorem withMore_ctrl (src : RandSource) (more : List Word) (s : State) : (s.withMore src more).ctrl = s.ctrl := by
  cases src <;> rfl

theorem withMore_sampleChecks (src : RandSource) (more : List Word) (s : State) (i : Instr) :
    (s.withMore src more).sampleChecks i = s.sampleChecks i := by cases src <;> cases i <;> rfl

theorem sameInputs_withMore (src : RandSource) (more : List Word) (s : State) : SameInputs s (s.withMore src more) := by
  cases src <;> rfl

/-- A turn without limit takes the words it needs from those there were and those that came. -/
theorem sampleTurn_withMore (src : RandSource) (more : List Word) (s : State) (job : Sampling)
    (finish : List Poly → State → State) :
    let r := feedWords job (s.wordsOf src ++ more)
    sampleTurn src job finish (s.withMore src more) =
      if r.1.todo = 0 then finish r.1.done ((s.withWords src r.2).beginTurn none)
      else ((s.withWords src r.2).beginTurn none).keepSampling src r.1 true := by
  have hw : (s.withMore src more).wordsOf src = s.wordsOf src ++ more := by cases src <;> rfl
  have hr : ∀ ws, (s.withMore src more).withWords src ws = (s.withWords src ws).beginTurn none := by
    intro ws; cases src <;> rfl
  rw [sampleTurn_of_no_limit rfl, hw, hr]

/-- A sampler that a turn left in flight goes on, on the words left and those that came, as the turn's sampler would have on
all of them. -/
theorem sampleTurn_resumes {s : State} {src : RandSource} {job : Sampling} {i : Instr}
    (hplan : (s.samplePlan i).isSome = true) (hleft : (feedWords job (s.granted (s.wordsOf src)).1).2 = []) (wait : Bool)
    (more : List Word) :
    sampleTurn src (feedWords job (s.granted (s.wordsOf src)).1).1 (finishOf i)
      (((s.withWords src (s.granted (s.wordsOf src)).2).keepSampling src (feedWords job (s.granted (s.wordsOf src)).1).1
        wait).withMore src more) = sampleTurn src job (finishOf i) (s.withMore src more) := by
  have hwords : ∀ ws job' wait, ((s.withWords src ws).keepSampling src job' wait).wordsOf src = ws := by
    intros; cases src <;> rfl
  have hstate : ∀ ws ws' job' wait, (((s.withWords src ws).keepSampling src job' wait).withWords src ws').beginTurn none =
      ((s.withWords src ws').beginTurn none).keepSampling src job' wait := by
    intros; cases src <;> rfl
  rw [sampleTurn_withMore, sampleTurn_withMore, hwords, feedWords_of_kept hleft, hstate, finishOf_keepSampling _ _ _ _ hplan]
  rfl

/-- A sampling command in flight takes a turn of its sampler. -/
theorem exec_in_flight {s : State} {i : Instr} (hplan : (s.samplePlan i).isSome = true) {src : RandSource} {job : Sampling}
    (h : s.engine = .sampling src job) : exec i s = .next (sampleTurn src job (finishOf i) s) := by
  obtain ⟨⟨np, nm, count⟩, hp⟩ := Option.isSome_iff_exists.mp hplan
  rw [exec_of_plan hp, sampled_resume h]

/-- A sampling command that stays in flight goes on as if it had found all the words at once. -/
theorem exec_resumes {i : Instr} {s t : State} {src : RandSource} {job : Sampling} (he : exec i s = .next t)
    (hf : t.engine = .sampling src job) (more : List Word) : exec i (t.withMore src more) = exec i (s.withMore src more) := by
  cases hplan : s.samplePlan i with
  | none => rw [exec_engine_of_no_plan hplan he] at hf; cases hf
  | some plan =>
    have hsome : (s.samplePlan i).isSome = true := by rw [hplan]; rfl
    have hmore := sameInputs_withMore src more s
    rw [exec_of_plan hplan] at he
    rcases sampled_cases he with ⟨r, _, rfl⟩ | ⟨src', job', _, hrun⟩
    · cases hf
    · obtain rfl : t = sampleTurn src' job' (finishOf i) s := Host.Outcome.next.inj (he.symm.trans (hrun s rfl rfl))
      obtain ⟨rfl, hleft, wait, e⟩ := sampleTurn_of_in_flight hsome hf
      have hplan' : (((sampleTurn src job' (finishOf i) s).withMore src more).samplePlan i).isSome = true := by
        rw [(sameInputs_withMore ..).samplePlan, e, (sameInputs_withWords_keepSampling ..).samplePlan]
        exact hsome
      have hjob : job = (feedWords job' (s.granted (s.wordsOf src)).1).1 := by rw [e] at hf; cases hf; rfl
      calc exec i ((sampleTurn src job' (finishOf i) s).withMore src more)
          = .next (sampleTurn src job (finishOf i) ((sampleTurn src job' (finishOf i) s).withMore src more)) :=
            exec_in_flight hplan' ((withMore_engine ..).trans hf)
        _ = .next (sampleTurn src job' (finishOf i) (s.withMore src more)) := by
            rw [e, hjob, sampleTurn_resumes hsome hleft]
        _ = exec i (s.withMore src more) := by
            rw [exec_of_plan ((hmore.samplePlan i).trans hplan), hmore.n, withMore_sampleChecks,
              hrun _ (withMore_engine ..) (withMore_ctrl ..)]

/-- Settles O38: the sampler kept is the one that the words taken lead to. -/
theorem samplingResumes : Obligations.SamplingResumes := by
  unfold Obligations.SamplingResumes
  intro i s t limit src job more he hf
  have h := exec_resumes (s := s.beginTurn limit) he hf more
  rw [withMore_beginTurn] at h
  exact h

/-! ### The words taken (R152, R155, R267) -/

theorem startSampling_drawsToMake (n np nm count : Nat) :
    (startSampling n np nm count).drawsToMake = count * (np + nm) := by
  unfold startSampling Sampling.drawsToMake
  split
  · next h0 => simp [h0]
  · rfl

/-- A sampler has no draw to make only when every sample is drawn. -/
theorem todo_eq_zero_of_drawsToMake {job : Sampling} (hl : job.Live) (h : job.drawsToMake = 0) : job.todo = 0 := by
  by_contra h0
  have ht := hl (by omega)
  have := Nat.le_mul_of_pos_left (job.np + job.nm) (Nat.pos_of_ne_zero h0)
  unfold Sampling.drawsToMake at h
  omega

theorem drawsToMake_of_idle {s : State} (h : s.engine = .idle) : s.drawsToMake = 0 := by
  simp only [State.drawsToMake, h]

theorem keepSampling_wordsOf (s : State) (src k : RandSource) (job : Sampling) (wait : Bool) :
    (s.keepSampling src job wait).wordsOf k = s.wordsOf k := by cases k <;> rfl

/-- What a turn leaves: the words not taken, and the draws not made. -/
theorem sampleTurn_leaves {s : State} {i : Instr} (hplan : (s.samplePlan i).isSome = true) (src : RandSource) (job : Sampling) :
    let g := s.granted (s.wordsOf src)
    let r := feedWords job g.1
    let t := sampleTurn src job (finishOf i) s
    (∀ k, t.wordsOf k = (s.withWords src (r.2 ++ g.2)).wordsOf k) ∧ t.drawsToMake = r.1.drawsToMake := by
  dsimp only
  rcases sampleTurn_cases src job (finishOf i) s with ⟨h0, _, e⟩ | ⟨_, hleft, _, e⟩ | ⟨hleft, _, e⟩ <;> rw [e]
  · refine ⟨fun k => finishOf_wordsOf .., ?_⟩
    rw [drawsToMake_of_idle (finishOf_engine hplan _), Sampling.drawsToMake, h0, Nat.zero_mul, Nat.zero_sub]
  · rw [hleft, List.nil_append]
    exact ⟨fun k => keepSampling_wordsOf .., rfl⟩
  · rw [hleft, List.nil_append]
    exact ⟨fun k => keepSampling_wordsOf .., rfl⟩

/-- Settles O39: the words a sampler takes are at least the draws it makes, and a sampler with no draw to make is done. -/
theorem samplesTakeWordsInOrder : Obligations.SamplesTakeWordsInOrder := by
  unfold Obligations.SamplesTakeWordsInOrder
  intro i s t src draw h he
  obtain ⟨job, hl, rfl, hturn, hjob⟩ := exec_samples h
  obtain rfl : t = sampleTurn src job (finishOf i) s := Host.Outcome.next.inj (he.symm.trans hturn)
  have hplan : (s.samplePlan i).isSome = true := by
    rcases hjob with ⟨_, _, _, _, hp, _⟩ | ⟨_, fits⟩
    · rw [hp]; rfl
    · rw [fits.order]; rfl
  obtain ⟨hwords, hleft⟩ := sampleTurn_leaves hplan src job
  obtain ⟨used, happ, hdraws, hnone⟩ := feedWords_used job (s.granted (s.wordsOf src)).1
  refine ⟨fun other ho => by rw [hwords, State.withWords_wordsOf_of_ne ho], used, ?_, ?_, ?_⟩
  · rw [hwords, State.withWords_wordsOf, ← List.append_assoc, ← happ, granted_append]
  · intro np nm count hissued hp
    rcases hjob with ⟨_, np', nm', count', hp', rfl⟩ | ⟨hflight, _⟩
    · cases hp.symm.trans hp'
      rw [hleft, ← startSampling_drawsToMake s.n np nm count]
      exact ⟨hdraws, fun h0 => hnone (todo_eq_zero_of_drawsToMake hl h0)⟩
    · cases hissued.symm.trans hflight
  · intro job' hflight'
    rcases hjob with ⟨hissued, _⟩ | ⟨hflight, _⟩
    · cases hissued.symm.trans hflight'
    · cases hflight.symm.trans hflight'
      rw [hleft]
      exact ⟨hdraws, fun h0 => hnone (todo_eq_zero_of_drawsToMake hl h0)⟩

end Sys2Proof.Machine
end

section
/-! Proofs about the block codec (spec/44_codec.md): what BENC, BDEC and BFIN write, the errors found in decoded values, and the
round trip of a message. -/

namespace Sys2Proof.Machine

/-! ### BENC (R170 to R172) -/

/-- NB(L) of R171. -/
theorem blocks_eq_ceilDiv (s : State) (l : Nat) : s.blocks l = (8 * l) ⌈/⌉ s.n := (Nat.ceilDiv_eq_add_pred_div ..).symm

theorem exec_benc {s : State} {k : Nat} (hc : s.status.cfgok = true) (hm : s.mlen.toNat ≤ s.build.bmax)
    (hk : k < (8 * s.mlen.toNat) ⌈/⌉ s.n) (rd : PReg) :
    exec (.benc rd k) s = .next ((s.drew.writePoly rd (s.messageBlock s.mlen.toNat k)).setNblk (s.blocks s.mlen.toNat)).complete := by
  unfold exec
  refine guarded_none ((firstReport_eq_none_iff _).mpr ?_) _ s
  simp [cfgGate_eq_none.mpr hc, mlenCheck_eq_none.mpr hm, blockCheck_eq_none.mpr hk]

/-- A message of any valid build has at most 2^15 bits, so at most 2^15 blocks. -/
theorem ceilDiv_message_lt {b : Config.Build} (hb : b.Valid) {l n : Nat} (hl : l ≤ b.bmax) (hn : 0 < n) :
    (8 * l) ⌈/⌉ n < 2 ^ 16 := by
  obtain ⟨_, _, _, hmax, _⟩ := hb
  have hle : (8 * l) ⌈/⌉ n ≤ 8 * l := (ceilDiv_le_iff_le_mul hn).mpr (Nat.le_mul_of_pos_left _ hn)
  omega

/-- Settles O44: the block written is the list of its padded bits. -/
theorem bencEncodes : Obligations.BencEncodes := by
  unfold Obligations.BencEncodes
  intro rd k s hb hc hm hk
  have hn : 0 < s.n := Nat.pos_of_ne_zero fun h0 => by simp [h0] at hk
  refine ⟨_, exec_benc hc hm hk rd, ?_, ?_, rfl⟩
  · refine writesPoly_of_eq (u := s.drew) rfl rfl rfl rfl (messageBlock_length ..) (fun i hi => ?_) rfl rfl
    rw [messageBlock_eq_paddedBit, range_map_getD _ _ hi]
  · rw [← blocks_eq_ceilDiv]
    exact (BitVec.toNat_ofNat ..).trans (Nat.mod_eq_of_lt (blocks_eq_ceilDiv s _ ▸ ceilDiv_message_lt hb hm hn))

/-! ### BDEC (R173) -/

theorem bitsOf_getD (c : Poly) (i : Nat) : (bitsOf c).getD i false = decide (c.getD i 0 = 1) :=
  List.getD_map c 0 (fun x => decide (x = 1))

theorem bitsOf_length (c : Poly) : (bitsOf c).length = c.length := List.length_map _

theorem bitsOf_append (c d : Poly) : bitsOf (c ++ d) = bitsOf c ++ bitsOf d := List.map_append

section Bdec

variable {s : State} {rs1 : PReg} (hc : s.status.cfgok = true) (ht : s.plen[rs1] = s.cfgN) {k : Nat}

include hc ht

theorem bdecChecks_eq_none : firstReport [s.cfgGate, s.lenCheck rs1] = none := by
  simp [cfgGate_eq_none.mpr hc, lenCheck_eq_none.mpr ht]

theorem exec_bdec_of_bits (hf : blockFormatCheck s.build.bmax (k * s.n) (s.src rs1) = none) :
    exec (.bdec rs1 k) s =
      .next (((State.putBits (bitsOf (s.src rs1)) (k * s.n) s.drew).drew).setNblk (k + 1)).complete := by
  simp only [exec, execBdec, guarded_none (bdecChecks_eq_none hc ht), hf]

theorem exec_bdec_of_report {r : Report} (hf : blockFormatCheck s.build.bmax (k * s.n) (s.src rs1) = some r) :
    exec (.bdec rs1 k) s = .next (s.drew.fail r) := by
  simp only [exec, execBdec, guarded_none (bdecChecks_eq_none hc ht), hf]

end Bdec

/-- Coefficient i of block k is the coefficient of message bit k·N + i. -/
theorem src_block_getD (s : State) (rs1 : PReg) (k : Nat) :
    ∀ i, i < (s.src rs1).length → (s.src rs1).getD (k * s.n + i - k * s.n) 0 = (s.src rs1).getD i 0 :=
  fun i _ => by rw [Nat.add_sub_cancel_left]

/-- Settles O45: the format checks pass, and the block's bits are written as one run. -/
theorem bdecDecodes : Obligations.BdecDecodes := by
  unfold Obligations.BdecDecodes
  intro rs1 k s hk hc ht hbits
  have hf := (blockFormatCheck_eq_none_iff (g := fun j => (s.src rs1).getD (j - k * s.n) 0) (src_block_getD s rs1 k)).mpr
    fun i hi => hbits i (src_length s rs1 ▸ hi)
  refine ⟨_, exec_bdec_of_bits hc ht hf, ?_, ?_, ?_⟩
  · exact writesBits_putBits (bitsOf (s.src rs1)) _ _ _ (by rw [bitsOf_length, src_length]) (fun j _ _ => bitsOf_getD ..) rfl
  · exact (BitVec.toNat_ofNat ..).trans (Nat.mod_eq_of_lt (by omega))
  · rw [putBits_frame]
    rfl

/-! ### BFIN (R174) -/

theorem exec_bfin_of_pad {s : State} (hc : s.status.cfgok = true) (hp : s.padCheck (s.nblk.toNat * s.n) = none) :
    exec .bfin s = .next (s.trimMessage (s.nblk.toNat * s.n)).drew.complete := by
  simp only [exec, execBfin, guarded_none (cfgGate_eq_none.mpr hc), hp]

theorem exec_bfin_of_report {s : State} (hc : s.status.cfgok = true) {r : Report}
    (hp : s.padCheck (s.nblk.toNat * s.n) = some r) : exec .bfin s = .next (s.drew.fail r) := by
  simp only [exec, execBfin, guarded_none (cfgGate_eq_none.mpr hc), hp]

/-- Settles O46: the trailing zero bytes are counted, and no length exceeds BMAX, so each fits MLEN. -/
theorem bfinFinishes : Obligations.BfinFinishes := by
  unfold Obligations.BfinFinishes
  intro s hb hc hpad
  obtain ⟨_, _, _, hmax, _⟩ := hb
  refine ⟨_, exec_bfin_of_pad hc ((padCheck_eq_none_iff ..).mpr hpad), ?_, rfl⟩
  have hfit : s.wholeBytes (s.nblk.toNat * s.n) ≤ s.build.bmax := Nat.min_le_right ..
  have hmlen : (s.trimMessage (s.nblk.toNat * s.n)).drew.complete.mlen.toNat =
      s.wholeBytes (s.nblk.toNat * s.n) - s.trailingZeros (s.wholeBytes (s.nblk.toNat * s.n)) :=
    (BitVec.toNat_ofNat ..).trans (Nat.mod_eq_of_lt (by omega))
  rw [hmlen]
  exact trimmedTo_trailingZeros ..

/-! ### Errors found in decoded values (R173, R174, R201) -/

theorem putBits_append (vs ws : List Bool) (j : Nat) (s : State) :
    State.putBits (vs ++ ws) j s = State.putBits ws (j + vs.length) (State.putBits vs j s) := by
  induction vs generalizing j s with
  | nil => rfl
  | cons v vs ih =>
    rw [List.cons_append, State.putBits, ih, State.putBits, List.length_cons, Nat.add_right_comm, ← Nat.add_assoc]

theorem putBits_build (vs : List Bool) (j : Nat) (s : State) : (State.putBits vs j s).build = s.build := by
  rw [putBits_frame]

theorem putBits_clen (vs : List Bool) (j : Nat) (s : State) : (State.putBits vs j s).clen = s.clen := by
  rw [putBits_frame]

/-- An SDEC that fails late leaves none of the bits it has written (R226). -/
theorem failDecoding_putBits (vs : List Bool) (j : Nat) (s : State) (r : Report) :
    (State.putBits vs j s).failDecoding r = s.failDecoding r := by
  rw [putBits_frame]
  rfl

/-- SDEC's loop over blocks of message bits writes them as one run. `g` is the coefficient by its bit index. -/
theorem decodeBlocks_append {nb base : Nat} {cs : List Poly} {s : State} {g : Nat → Int}
    (hg : ∀ i, i < cs.flatten.length → g (base + i) = cs.flatten.getD i 0)
    (h : ∀ i, i < cs.flatten.length → MessageBit s.build.bmax g (base + i)) (rest : List Poly) :
    decodeBlocks nb (cs ++ rest) base s =
      decodeBlocks nb rest (base + cs.flatten.length) (State.putBits (bitsOf cs.flatten) base s) := by
  induction cs generalizing base s with
  | nil => rfl
  | cons c cs ih =>
    simp only [List.flatten_cons, List.length_append] at hg h
    have hc : blockFormatCheck s.build.bmax base c = none :=
      (blockFormatCheck_eq_none_iff fun i hi => by rw [hg i (by omega), List.getD_append _ _ _ _ hi]).mpr
        fun i hi => h i (by omega)
    have hrest := ih (base := base + c.length) (s := State.putBits (bitsOf c) base s)
      (fun i hi => by
        rw [Nat.add_assoc, hg _ (by omega), List.getD_append_right _ _ _ _ (by omega), Nat.add_sub_cancel_left])
      (fun i hi => by rw [putBits_build, Nat.add_assoc]; exact h _ (by omega))
    rw [List.cons_append, decodeBlocks, hc, List.flatten_cons, bitsOf_append, putBits_append, bitsOf_length,
      List.length_append, ← Nat.add_assoc]
    exact hrest

theorem decodeBlocks_of_report {nb base : Nat} {c : Poly} {cs : List Poly} {s : State} {r : Report}
    (h : blockFormatCheck s.build.bmax base c = some r) : decodeBlocks nb (c :: cs) base s = s.failDecoding r := by
  rw [decodeBlocks, h]

theorem finishSdec_of_report {nb : Nat} {s : State} {r : Report} (h : s.padCheck s.clen.toNat = some r) :
    s.finishSdec nb = s.failDecoding r := by
  rw [State.finishSdec, h]

section Decrypted

/-! `f` and `fp` are the keys, and `s` is the state as the read of the ciphertext sees it. -/

variable {s : State} {f fp : Poly} (hf : f.length = s.n) (hfp : fp.length = s.n)

theorem decryptedBlocks_length (nb : Nat) : (s.decryptedBlocks f fp nb).flatten.length = nb * s.n := by
  rw [State.decryptedBlocks, ← List.flatMap_def, length_flatMap_of_uniform (n := s.n) fun k _ => by simp, List.length_range]

/-- The blocks before block k, block k, and those behind it. -/
theorem decryptedBlocks_split {k nb : Nat} (hk : k < nb) : ∃ rest, s.decryptedBlocks f fp nb =
    s.decryptedBlocks f fp k ++ decryptBlock s.cfgP.toNat s.cfgQ.toNat f fp (s.cipherBlock k) :: rest := by
  obtain ⟨m, rfl⟩ := Nat.exists_eq_add_of_lt hk
  rw [State.decryptedBlocks, Nat.add_assoc, List.range_add, List.range_succ_eq_map]
  exact ⟨_, by rw [List.map_append]; rfl⟩

variable {c : Nat → Int} (hc : ∀ j, c j = decryptCoeff s.n s.cfgP.toNat s.cfgQ.toNat f fp (s.cipherBlock (j / s.n)) (j % s.n))

include hf hfp hc

/-- Coefficient i of block k, by the formula of R192. -/
theorem decryptBlock_cipherBlock_getD (k : Nat) {i : Nat} (hi : i < s.n) :
    (decryptBlock s.cfgP.toNat s.cfgQ.toNat f fp (s.cipherBlock k)).getD i 0 = c (k * s.n + i) := by
  have hdiv : (k * s.n + i) / s.n = k := by
    rw [Nat.mul_comm, Nat.mul_add_div (by omega), Nat.div_eq_of_lt hi, Nat.add_zero]
  rw [decryptBlock_getD hf hfp (cipherBlock_length ..) hi, hc, hdiv, Nat.mul_add_mod_self_right, Nat.mod_eq_of_lt hi]

/-- Coefficient j of the decrypted ciphertext. -/
theorem decryptedBlocks_getD {nb j : Nat} (hj : j < nb * s.n) : (s.decryptedBlocks f fp nb).flatten.getD j 0 = c j := by
  have hn : 0 < s.n := Nat.pos_of_mul_pos_left (Nat.zero_lt_of_lt hj)
  have hk : j / s.n < nb := (Nat.div_lt_iff_lt_mul hn).mpr hj
  have hget := getElem?_flatMap_of_uniform (l := List.range nb) (n := s.n)
    (f := fun k => decryptBlock s.cfgP.toNat s.cfgQ.toNat f fp (s.cipherBlock k)) (fun k _ => by simp) (j / s.n)
    (Nat.mod_lt j hn)
  rw [Nat.div_add_mod', List.getElem?_range hk, Option.bind_some] at hget
  rw [State.decryptedBlocks, ← List.flatMap_def, List.getD_eq_getElem?_getD, hget, ← List.getD_eq_getElem?_getD,
    decryptBlock_cipherBlock_getD hf hfp hc _ (Nat.mod_lt j hn), Nat.div_add_mod']

/-- The blocks before block k, whose coefficients are message bits, are written to BBUF as one run. -/
theorem decodeBlocks_decrypted {nb k : Nat} (h : ∀ i, i < k * s.n → MessageBit s.build.bmax c i) (rest : List Poly) :
    decodeBlocks nb (s.decryptedBlocks f fp k ++ rest) 0 s.drew =
      decodeBlocks nb rest (k * s.n) (State.putBits (bitsOf (s.decryptedBlocks f fp k).flatten) 0 s.drew) := by
  have hl := decryptedBlocks_length (s := s) (f := f) (fp := fp) k
  have hbits := decodeBlocks_append (nb := nb) (base := 0) (s := s.drew) (g := c) (cs := s.decryptedBlocks f fp k)
    (fun i hi => by rw [Nat.zero_add, decryptedBlocks_getD hf hfp hc (hl ▸ hi)])
    (fun i hi => by rw [Nat.zero_add]; exact h i (hl ▸ hi)) rest
  rwa [hl, Nat.zero_add] at hbits

/-- SDEC stops at the first block with a coefficient that is no message bit (R201, R226). -/
theorem decodeBlocks_of_firstBadBit {nb k j : Nat} (hk : k < nb) (h : ∀ i, i < k * s.n → MessageBit s.build.bmax c i)
    (hbad : FirstBadBit s.build.bmax c (k * s.n) (k * s.n + s.n) j) :
    decodeBlocks nb (s.decryptedBlocks f fp nb) 0 s.drew = s.drew.failDecoding ⟨.fmt, BitVec.ofNat 32 j⟩ := by
  obtain ⟨rest, hsplit⟩ := decryptedBlocks_split (s := s) (f := f) (fp := fp) hk
  have hlen : (decryptBlock s.cfgP.toNat s.cfgQ.toNat f fp (s.cipherBlock k)).length = s.n :=
    (decryptBlock_length ..).trans (cipherBlock_length ..)
  have hreport : blockFormatCheck s.build.bmax (k * s.n) (decryptBlock s.cfgP.toNat s.cfgQ.toNat f fp (s.cipherBlock k)) =
      some ⟨.fmt, BitVec.ofNat 32 j⟩ :=
    blockFormatCheck_of_firstBadBit (g := c)
      (fun i hi => (decryptBlock_cipherBlock_getD hf hfp hc k (hlen ▸ hi)).symm) (by rwa [hlen])
  rw [hsplit, decodeBlocks_decrypted hf hfp hc h, decodeBlocks_of_report (by rw [putBits_build]; exact hreport),
    failDecoding_putBits]

/-- The bits SDEC has written when every block is decoded. -/
theorem streamBit_putBits_decrypted {nb i : Nat} (hi : i < nb * s.n) (hB : i < 8 * s.build.bmax) :
    (State.putBits (bitsOf (s.decryptedBlocks f fp nb).flatten) 0 s.drew).streamBit i = decide (c i = 1) := by
  rw [streamBit_putBits, bitsOf_length, decryptedBlocks_length, if_pos ⟨Nat.zero_le i, by rwa [Nat.zero_add], hB⟩,
    Nat.sub_zero, bitsOf_getD, decryptedBlocks_getD hf hfp hc hi]

/-- SDEC stops at a 1 among the bits after the last whole byte (R201, R226). -/
theorem decodeBlocks_of_firstPadBit {nb j : Nat} (hnb : nb * s.n = s.clen.toNat)
    (h : ∀ i, i < s.clen.toNat → MessageBit s.build.bmax c i)
    (hpad : FirstPadBit s.build.bmax (fun i => c i = 1) s.clen.toNat j) :
    decodeBlocks nb (s.decryptedBlocks f fp nb) 0 s.drew = s.drew.failDecoding ⟨.fmt, BitVec.ofNat 32 j⟩ := by
  have hrun := decodeBlocks_decrypted hf hfp hc (nb := nb) (hnb.symm ▸ h) []
  rw [List.append_nil, decodeBlocks] at hrun
  obtain ⟨ht, h1, h2, h3, h4⟩ := hpad
  have hbit := fun i (hi : i < s.clen.toNat) =>
    streamBit_putBits_decrypted hf hfp hc (nb := nb) (hnb.symm ▸ hi) (hi.trans ht)
  have hfirst := padCheck_of_firstPadBit (s := State.putBits (bitsOf (s.decryptedBlocks f fp nb).flatten) 0 s.drew)
    (t := s.clen.toNat) (j := j) (by
      rw [putBits_build]
      exact ⟨ht, h1, h2, (hbit j h2).trans (decide_eq_true h3), fun i hi hij => by
        simpa [hbit i (hij.trans h2)] using h4 i hi hij⟩)
  rw [hrun, finishSdec_of_report (by rw [putBits_clen]; exact hfirst), failDecoding_putBits]

end Decrypted

/-- With the pre-checks passed SDEC decodes the decrypted blocks in order (R201). -/
theorem exec_sdec {s : State} {rs1 rs2 : PReg} (hok : s.status.cfgok = true) (h1 : s.plen[rs1] = s.cfgN)
    (h2 : s.plen[rs2] = s.cfgN) (hlen : s.clen.toNat ≤ s.build.cmax) (hdvd : s.n ∣ s.clen.toNat) :
    exec (.sdec rs1 rs2) s = .next (decodeBlocks (s.clen.toNat / s.n)
      (s.drew.drew.decryptedBlocks (s.src rs1) (s.drew.src rs2) (s.clen.toNat / s.n)) 0 s.drew.drew.drew) := by
  have hfmt : s.clenFormatCheck = none := by simp [State.clenFormatCheck, Nat.mod_eq_zero_of_dvd hdvd]
  unfold exec
  refine guarded_none ((firstReport_eq_none_iff _).mpr ?_) _ s
  simp [cfgGate_eq_none.mpr hok, clenCheck_eq_none.mpr hlen, lenCheck_eq_none.mpr h1, lenCheck_eq_none.mpr h2, hfmt]

/-- An SDEC that fails late reports, and leaves nothing listed in BBUF (R226). `u` is `s` behind the reads of the sources. -/
theorem failDecoding_spec {s u : State} (hu : u = { s with draws := u.draws }) (code : ErrCode) (info : Word) :
    (∀ i, bufGet (u.failDecoding ⟨code, info⟩).bbuf i = none) ∧
    u.failDecoding ⟨code, info⟩ = { s.reported code info with
      bbuf := (u.failDecoding ⟨code, info⟩).bbuf, draws := (u.failDecoding ⟨code, info⟩).draws } := by
  rw [hu]
  exact ⟨fun _ => rfl, rfl⟩

/-- An SDEC whose blocks end with the report of bit j (R201, R221). -/
theorem exec_sdec_of_failDecoding {s : State} {rs1 rs2 : PReg} {j : Nat} (hok : s.status.cfgok = true)
    (h1 : s.plen[rs1] = s.cfgN) (h2 : s.plen[rs2] = s.cfgN) (hlen : s.clen.toNat ≤ s.build.cmax) (hdvd : s.n ∣ s.clen.toNat)
    (hfail : decodeBlocks (s.clen.toNat / s.n) (s.drew.drew.decryptedBlocks (s.src rs1) (s.drew.src rs2)
      (s.clen.toNat / s.n)) 0 s.drew.drew.drew = s.drew.drew.drew.failDecoding ⟨.fmt, BitVec.ofNat 32 j⟩) :
    ∃ t, exec (.sdec rs1 rs2) s = .next t ∧ (∀ i, bufGet t.bbuf i = none) ∧
      t = { s.reported .fmt (BitVec.ofNat 32 j) with bbuf := t.bbuf, draws := t.draws } := by
  refine ⟨_, exec_sdec hok h1 h2 hlen hdvd, ?_⟩
  rw [hfail]
  exact failDecoding_spec (s := s) (u := s.drew.drew.drew) rfl _ _

/-- Settles O47: each check reports its first offence, and an SDEC that fails leaves nothing listed in BBUF. -/
theorem decodedValueErrors : Obligations.DecodedValueErrors := by
  unfold Obligations.DecodedValueErrors
  refine ⟨fun rs1 k j s hok ht hbad => ?_, fun j s hok hpad => ?_, fun rs1 rs2 j c s hok h1 h2 hlen hdvd hc hbad => ?_⟩
  · have hreport : blockFormatCheck s.build.bmax (k * s.n) (s.src rs1) = some ⟨.fmt, BitVec.ofNat 32 j⟩ :=
      blockFormatCheck_of_firstBadBit (src_block_getD s rs1 k) (by rwa [src_length])
    exact ⟨_, exec_bdec_of_report hok ht hreport, rfl⟩
  · exact ⟨_, exec_bfin_of_report hok (padCheck_of_firstPadBit hpad), rfl⟩
  · have hf : (s.src rs1).length = s.drew.drew.n := by simp
    have hfp : (s.drew.src rs2).length = s.drew.drew.n := by simp
    refine exec_sdec_of_failDecoding hok h1 h2 hlen hdvd ?_
    rcases hbad with ⟨k, hk, hbits, hfirst⟩ | ⟨hbits, hfirst⟩
    · exact decodeBlocks_of_firstBadBit hf hfp hc hk hbits hfirst
    · exact decodeBlocks_of_firstPadBit hf hfp hc (Nat.div_mul_cancel hdvd) hbits hfirst

/-! ### The round trip (R175) -/

/-- A command that completes with success, run alone. -/
theorem runCommands_singleton {i : Instr} {s t : State} (he : exec i s = .next t) (ht : t.status = s.succeeded.status) :
    runCommands [i] s = some t := by
  simp only [runCommands, he, ht, State.succeeded, and_self, if_true]

theorem runCommands_append {is : List Instr} {s t : State} (h : runCommands is s = some t) (js : List Instr) :
    runCommands (is ++ js) s = runCommands js t := by
  induction is generalizing s with
  | nil => rw [List.nil_append, Option.some.inj h]
  | cons i is ih =>
    obtain ⟨u, hu⟩ := exec_isNext i s
    simp only [runCommands, hu, List.cons_append] at h ⊢
    split at h
    · next hok => rw [if_pos hok, ih h]
    · cases h

/-- Bit j of BBUF holds the value `v` (R170). -/
def State.StoresBit (s : State) (j : Nat) (v : Bool) : Prop := ∃ b, bufGet s.bbuf (j / 8) = some b ∧ b.getMsbD (j % 8) = v

theorem State.StoresBit.streamBit_eq {s : State} {j : Nat} {v : Bool} (h : s.StoresBit j v) : s.streamBit j = v := by
  obtain ⟨b, hb, hv⟩ := h
  rw [State.streamBit, byteAt_of_some hb, hv]

theorem storesBit_congr {s t : State} (h : t.bbuf = s.bbuf) {j : Nat} {v : Bool} : t.StoresBit j v ↔ s.StoresBit j v := by
  rw [State.StoresBit, State.StoresBit, h]

/-- A byte that holds a value stores its bits. -/
theorem storesBit_of_byte {s : State} {j : Nat} {b : Byte} (h : bufGet s.bbuf (j / 8) = some b) : s.StoresBit j (s.streamBit j) :=
  ⟨b, h, by rw [State.streamBit, byteAt_of_some h]⟩

/-- A byte whose bits are stored is stored. -/
theorem bufGet_of_storesBit {s : State} {i : Nat} {b : Byte} (h : ∀ r, r < 8 → s.StoresBit (8 * i + r) (b.getMsbD r)) :
    bufGet s.bbuf i = some b := by
  have hdiv : ∀ r, r < 8 → (8 * i + r) / 8 = i ∧ (8 * i + r) % 8 = r := fun r hr => by omega
  obtain ⟨x, hx, _⟩ := h 0 (by decide)
  rw [(hdiv 0 (by decide)).1] at hx
  rw [hx]
  refine congrArg some (BitVec.eq_of_getMsbD_eq fun r hr => ?_)
  obtain ⟨y, hy, hbit⟩ := h r hr
  rw [(hdiv r hr).1, hx] at hy
  rwa [(hdiv r hr).2, ← Option.some.inj hy] at hbit

/-- What a run of message bits leaves stored (R173): the bits of the run in BBUF, and every other bit that was. -/
theorem WritesBits.storesBit {s t : State} {lo hi : Nat} {v : Nat → Bool} (h : WritesBits s t lo hi v) {j : Nat}
    (hj : j < 8 * s.build.bmax) {w : Bool} (hw : if lo ≤ j ∧ j < hi then v j = w else s.StoresBit j w) : t.StoresBit j w := by
  have hbyte : 8 * (j / 8) + j % 8 = j := Nat.div_add_mod j 8
  by_cases hk : ∃ k, lo ≤ k ∧ k < hi ∧ k / 8 = j / 8
  · obtain ⟨b, hb, hbits⟩ := h.touched (j / 8) (by omega) hk
    refine ⟨b, hb, ?_⟩
    rw [hbits (j % 8) (Nat.mod_lt _ (by decide)), hbyte]
    split at hw
    · next hin => rw [if_pos hin, hw]
    · next hin => rw [if_neg hin, hw.streamBit_eq]
  · rw [if_neg fun hin => hk ⟨j, hin.1, hin.2, rfl⟩] at hw
    obtain ⟨b, hb, hbit⟩ := hw
    exact ⟨b, by rw [h.untouched (j / 8) fun hin => hk hin.2, hb], hbit⟩

/-- The length that is left without trailing zero bytes is one. -/
theorem TrimmedTo.unique {isZero : Nat → Prop} {l a b : Nat} (ha : TrimmedTo isZero l a) (hb : TrimmedTo isZero l b) : a = b := by
  obtain ⟨hal, haz, haend⟩ := ha
  obtain ⟨hbl, hbz, hbend⟩ := hb
  rcases Nat.lt_trichotomy a b with hlt | rfl | hgt
  · exact absurd (haz (b - 1) (by omega) (by omega)) (hbend.resolve_left (by omega))
  · rfl
  · exact absurd (hbz (a - 1) (by omega) (by omega)) (haend.resolve_left (by omega))

/-- A register that a polynomial of 32-bit coefficients was written to holds it. -/
theorem WritesPoly.holds {s t : State} {rd : PReg} {g : Nat → Int} {c : Poly} (h : WritesPoly s t rd g) (hN : t.cfgN = s.cfgN)
    (hcap : s.n ≤ s.build.nmax) (hc : c.length = s.n) (hg : ∀ i, i < s.n → g i = c.getD i 0)
    (hfit : ∀ i, i < s.n → fits32 (g i) = true) : t.Holds rd c := by
  have hn : t.n = s.n := congrArg BitVec.toNat hN
  refine ⟨hc.trans hn.symm, by rw [h.tag, hN]; simp, fun i hi => ?_⟩
  rw [hn] at hi
  refine ⟨wrap32 (g i), ?_, (val_wrap32 (hfit i hi)).trans (hg i hi)⟩
  rw [h.slots i (hi.trans_le hcap), if_pos hi]

theorem State.Holds.src_eq {s : State} {k : PReg} {c : Poly} (h : s.Holds k c) : s.src k = c := by
  refine List.ext_getElem ((src_length s k).trans h.length.symm) fun i h1 h2 => ?_
  have hi : i < s.n := h.length ▸ h2
  obtain ⟨w, hw, hval⟩ := h.slots i hi
  rw [← List.getD_eq_getElem _ 0 h1, ← List.getD_eq_getElem _ 0 h2, src_getD s k hi, wordAt_of_some hw, hval]

theorem paddedBit_cases (s : State) (l j : Nat) : s.paddedBit l j = 0 ∨ s.paddedBit l j = 1 := by
  unfold State.paddedBit
  split <;> simp

/-- A message block by the bit index of its coefficients. -/
theorem messageBlock_getD_sub (s : State) (l : Nat) {k j : Nat} (hlo : k * s.n ≤ j) (hhi : j < k * s.n + s.n) :
    (s.messageBlock l k).getD (j - k * s.n) 0 = s.paddedBit l j := by
  rw [messageBlock_eq_paddedBit, range_map_getD _ _ (by omega), Nat.add_sub_cancel' hlo]

theorem paddedBit_of_ge (s : State) {l j : Nat} (h : 8 * l ≤ j) : s.paddedBit l j = 0 := if_neg (by omega)

/-- Bit j of the padded message of `s`, as a bit. -/
def State.padded (s : State) (j : Nat) : Bool := decide (s.paddedBit s.mlen.toNat j = 1)

/-- `t` is `s` after the first `k` blocks of its message were encoded and decoded: the message and what is decoded of the pad are
stored, and the configuration and MLEN are as they were. -/
structure Decoded (s t : State) (k : Nat) : Prop where
  build : t.build = s.build
  n     : t.n = s.n
  mlen  : t.mlen = s.mlen
  cfgok : t.status.cfgok = true
  bits  : ∀ j, j < 8 * s.build.bmax → j < 8 * s.mlen.toNat ∨ j < k * s.n → t.StoresBit j (s.padded j)

section RoundTrip

variable {s : State}

theorem padded_of_lt {j : Nat} (h : j < 8 * s.mlen.toNat) : s.padded j = s.streamBit j := by
  unfold State.padded State.paddedBit
  cases s.streamBit j <;> simp [h]

theorem padded_of_ge {j : Nat} (h : 8 * s.mlen.toNat ≤ j) : s.padded j = false := by
  simp [State.padded, paddedBit_of_ge s h]

/-- A specified message is decoded as far as no block. -/
theorem decoded_zero (hc : s.status.cfgok = true) (hspec : ∀ i, i < s.mlen.toNat → ∃ b, bufGet s.bbuf i = some b) :
    Decoded s s 0 where
  build := rfl
  n := rfl
  mlen := rfl
  cfgok := hc
  bits j _ hj := by
    have hj' : j < 8 * s.mlen.toNat := by omega
    obtain ⟨b, hb⟩ := hspec (j / 8) (by omega)
    rw [padded_of_lt hj']
    exact storesBit_of_byte hb

/-- A partly decoded message has the same padded stream. -/
theorem Decoded.paddedBit_eq {t : State} {k : Nat} (h : Decoded s t k) (hm : s.mlen.toNat ≤ s.build.bmax) (j : Nat) :
    t.paddedBit t.mlen.toNat j = s.paddedBit s.mlen.toNat j := by
  rw [h.mlen]
  by_cases hj : j < 8 * s.mlen.toNat
  · have hbit := (h.bits j (by omega) (.inl hj)).streamBit_eq
    rw [padded_of_lt hj] at hbit
    rw [State.paddedBit, State.paddedBit, hbit]
  · rw [paddedBit_of_ge t (by omega), paddedBit_of_ge s (by omega)]

/-- The message's bytes are as they were. -/
theorem Decoded.message {t : State} {k : Nat} (h : Decoded s t k) (hm : s.mlen.toNat ≤ s.build.bmax) {i : Nat}
    (hi : i < s.mlen.toNat) {b : Byte} (hb : bufGet s.bbuf i = some b) : bufGet t.bbuf i = some b := by
  refine bufGet_of_storesBit fun r hr => ?_
  have hbit : s.padded (8 * i + r) = b.getMsbD r := by
    rw [padded_of_lt (by omega), State.streamBit, show (8 * i + r) / 8 = i by omega, show (8 * i + r) % 8 = r by omega,
      byteAt_of_some hb]
  exact hbit ▸ h.bits (8 * i + r) (by omega) (.inl (by omega))

/-- A byte that only pad was decoded to is 0. -/
theorem Decoded.pad {t : State} {k : Nat} (h : Decoded s t k) {i : Nat} (hlo : s.mlen.toNat ≤ i) (hi : 8 * (i + 1) ≤ k * s.n)
    (hB : i < s.build.bmax) : t.byteAt i = 0 := by
  refine byteAt_of_some (bufGet_of_storesBit fun r hr => ?_)
  have hbit := h.bits (8 * i + r) (by omega) (.inr (by omega))
  rw [padded_of_ge (by omega)] at hbit
  simpa using hbit

variable (hb : s.build.Valid) (hcfg : s.ConfigValid) (hm : s.mlen.toNat ≤ s.build.bmax)

include hb hcfg hm

/-- A block index of a message fits the IMM field (R82): N is at least 2. -/
theorem blockIndex_lt {k : Nat} (hk : k < (8 * s.mlen.toNat) ⌈/⌉ s.n) : k < 16384 := by
  obtain ⟨_, _, _, hmax, _⟩ := hb
  have hn : 2 ≤ s.n := hcfg.prime.two_le
  have hle : (8 * s.mlen.toNat) ⌈/⌉ s.n ≤ 16384 := (ceilDiv_le_iff_le_mul hcfg.prime.pos).mpr (by omega)
  omega

/-- Encoding the next block gives the block of the original message. -/
theorem Decoded.benc {t : State} {k : Nat} (h : Decoded s t k) (hk : k < (8 * s.mlen.toNat) ⌈/⌉ s.n) (rd : PReg) :
    ∃ u, runCommands [.benc rd k] t = some u ∧ Decoded s u k ∧ u.Holds rd (s.messageBlock s.mlen.toNat k) := by
  obtain ⟨u, heu, hpoly, -, hu⟩ := bencEncodes rd k t (h.build ▸ hb) h.cfgok (by rwa [h.mlen, h.build]) (by rwa [h.mlen, h.n])
  have hbbuf : u.bbuf = t.bbuf := (congrArg State.bbuf hu :)
  refine ⟨u, runCommands_singleton heu (congrArg State.status hu :), ?_, ?_⟩
  · exact ⟨(congrArg State.build hu).trans h.build, (congrArg State.n hu).trans h.n, (congrArg State.mlen hu).trans h.mlen,
      (congrArg (fun v => v.status.cfgok) hu).trans h.cfgok, fun j hj hdone => (storesBit_congr hbbuf).mpr (h.bits j hj hdone)⟩
  · refine hpoly.holds (congrArg State.cfgN hu :) (by rw [h.n, h.build]; exact hcfg.capacity)
      ((messageBlock_length ..).trans h.n.symm) (fun i hi => ?_) (fun i _ => ?_)
    · rw [messageBlock_eq_paddedBit, range_map_getD _ _ (h.n ▸ hi), h.paddedBit_eq hm, h.n]
    · rcases paddedBit_cases t t.mlen.toNat (k * t.n + i) with h0 | h0 <;> rw [h0] <;> rfl

/-- Decoding the next block. -/
theorem Decoded.bdec {t : State} {k : Nat} (h : Decoded s t k) (hk : k < (8 * s.mlen.toNat) ⌈/⌉ s.n) {rs1 : PReg}
    (hblock : t.Holds rs1 (s.messageBlock s.mlen.toNat k)) :
    ∃ u, runCommands [.bdec rs1 k] t = some u ∧ Decoded s u (k + 1) ∧ u.nblk.toNat = k + 1 := by
  have hcoeff : ∀ j, k * s.n ≤ j → j < k * s.n + s.n → (t.src rs1).getD (j - k * s.n) 0 = s.paddedBit s.mlen.toNat j := by
    intro j hlo hhi
    rw [hblock.src_eq, messageBlock_getD_sub s _ hlo hhi]
  have hmsg : ∀ i, i < t.n →
      MessageBit t.build.bmax (fun j => (t.src rs1).getD (j - k * t.n) 0) (k * t.n + i) := by
    rw [h.n, h.build]
    intro i hi
    have hi' := hcoeff (k * s.n + i) (by omega) (by omega)
    exact ⟨(paddedBit_cases s s.mlen.toNat _).imp hi'.trans hi'.trans, fun hB => hi'.trans (paddedBit_of_ge s (by omega))⟩
  obtain ⟨u, heu, hbits, hnblk, hu⟩ := bdecDecodes rs1 k t (blockIndex_lt hb hcfg hm hk) h.cfgok hblock.tag hmsg
  rw [h.n] at hbits
  refine ⟨u, runCommands_singleton heu (congrArg State.status hu :), ?_, hnblk⟩
  refine ⟨(congrArg State.build hu).trans h.build, (congrArg State.n hu).trans h.n, (congrArg State.mlen hu).trans h.mlen,
    (congrArg (fun v => v.status.cfgok) hu).trans h.cfgok, fun j hj hdone => ?_⟩
  refine hbits.storesBit (by rw [State.drew_build, h.build]; exact hj) ?_
  split
  · next hin => rw [hcoeff j hin.1 hin.2, State.padded]
  · next hout =>
    refine h.bits j hj (hdone.imp_right fun hlt => ?_)
    rw [Nat.succ_mul] at hlt
    omega

/-- Encoding and decoding the first k blocks. -/
theorem decoded_blocks (hc : s.status.cfgok = true) (hspec : ∀ i, i < s.mlen.toNat → ∃ b, bufGet s.bbuf i = some b)
    (rd : PReg) {k : Nat} (hk : k ≤ (8 * s.mlen.toNat) ⌈/⌉ s.n) :
    ∃ t, runCommands ((List.range k).flatMap (fun k => [.benc rd k, .bdec rd k])) s = some t ∧ Decoded s t k ∧
      t.nblk.toNat = if k = 0 then s.nblk.toNat else k := by
  induction k with
  | zero => exact ⟨s, rfl, decoded_zero hc hspec, rfl⟩
  | succ k ih =>
    obtain ⟨t, hrun, ht, -⟩ := ih (by omega)
    obtain ⟨v, henc, hv, hblock⟩ := ht.benc hb hcfg hm hk rd
    obtain ⟨u, hdec, hu, hnblk⟩ := hv.bdec hb hcfg hm hk hblock
    refine ⟨u, ?_, hu, hnblk⟩
    rw [List.range_succ, List.flatMap_append, runCommands_append hrun, List.flatMap_singleton]
    exact (runCommands_append henc [.bdec rd k]).trans hdec

/-- Finishing when every block is decoded and counted gives the length back. -/
theorem Decoded.bfin {t : State} (h : Decoded s t ((8 * s.mlen.toNat) ⌈/⌉ s.n))
    (hnblk : t.nblk.toNat = (8 * s.mlen.toNat) ⌈/⌉ s.n) (hspec : ∀ i, i < s.mlen.toNat → ∃ b, bufGet s.bbuf i = some b)
    (hlast : s.mlen.toNat ≠ 0 → bufGet s.bbuf (s.mlen.toNat - 1) ≠ some 0) :
    ∃ u, runCommands [.bfin] t = some u ∧ u.mlen = s.mlen ∧ u.bbuf = t.bbuf := by
  have hcover : 8 * s.mlen.toNat ≤ (8 * s.mlen.toNat) ⌈/⌉ s.n * s.n := by
    rw [Nat.mul_comm _ s.n]
    exact (ceilDiv_le_iff_le_mul hcfg.prime.pos).mp (Nat.le_refl _)
  have hpad : t.nblk.toNat * t.n < 8 * t.build.bmax → ∀ j, 8 * (t.nblk.toNat * t.n / 8) ≤ j → j < t.nblk.toNat * t.n →
      t.streamBit j = false := by
    rw [hnblk, h.n, h.build]
    intro hB j hlo hhi
    rw [(h.bits j (by omega) (.inr hhi)).streamBit_eq, padded_of_ge (by omega)]
  have hlength : TrimmedTo (fun i => t.byteAt i = 0) (min (t.nblk.toNat * t.n / 8) t.build.bmax) s.mlen.toNat := by
    rw [hnblk, h.n, h.build]
    refine ⟨by omega, fun i hlo hi => h.pad hlo (by omega) (by omega), ?_⟩
    by_cases h0 : s.mlen.toNat = 0
    · exact .inl h0
    · refine .inr fun hz => hlast h0 ?_
      obtain ⟨b, hbyte⟩ := hspec (s.mlen.toNat - 1) (by omega)
      rw [hbyte, ← hz, byteAt_of_some (h.message hm (by omega) hbyte)]
  obtain ⟨u, heu, htrim, hu⟩ := bfinFinishes t (h.build ▸ hb) h.cfgok hpad
  exact ⟨u, runCommands_singleton heu (congrArg State.status hu :), BitVec.eq_of_toNat_eq (htrim.unique hlength),
    (congrArg State.bbuf hu :)⟩

end RoundTrip

/-- Settles O48: `Decoded` holds at first, each block keeps it, and BFIN drops exactly the pad. -/
theorem codecRoundTrip : Obligations.CodecRoundTrip := by
  unfold Obligations.CodecRoundTrip
  intro s rd hb hc hcfg hm hspec hempty hlast
  obtain ⟨t, hrun, ht, hcount⟩ := decoded_blocks hb hcfg hm hc hspec rd (Nat.le_refl _)
  have hnblk : t.nblk.toNat = (8 * s.mlen.toNat) ⌈/⌉ s.n := by
    rw [hcount]
    split
    · next h0 =>
      have hL : 8 * s.mlen.toNat ≤ s.n * 0 := (ceilDiv_le_iff_le_mul hcfg.prime.pos).mp (Nat.le_of_eq h0)
      rw [h0, hempty (by omega)]
      rfl
    · rfl
  obtain ⟨u, hfin, hmlen, hbbuf⟩ := ht.bfin hb hcfg hm hnblk hspec hlast
  refine ⟨u, (runCommands_append hrun _).trans hfin, hmlen, fun i hi => ?_⟩
  obtain ⟨b, hbyte⟩ := hspec i hi
  rw [hbbuf, hbyte, ht.message hm hi hbyte]

end Sys2Proof.Machine
end

section
/-! Proofs about the block encryptor and decryptor (spec/45_cryptor.md): the format checks of NDEC and SDEC, what NENC, NENCX and
NDEC write, and when decryption recovers the message. -/

namespace Sys2Proof.Machine

/-! ### The format checks before any computation (R192, R201, R221) -/

theorem cipherLenCheck_eq_none {s : State} {k : PReg} : s.cipherLenCheck k = none ↔ s.plen[k].toNat ≤ s.n := by
  simp [State.cipherLenCheck]

theorem cipherLenCheck_of_lt {s : State} {k : PReg} (h : s.n < s.plen[k].toNat) :
    s.cipherLenCheck k = some ⟨.fmt, BitVec.ofNat 32 s.plen[k].toNat⟩ := by
  rw [State.cipherLenCheck, if_pos h, BitVec.ofNat_toNat]

theorem clenFormatCheck_of_not_dvd {s : State} (h : ¬ s.n ∣ s.clen.toNat) :
    s.clenFormatCheck = some ⟨.fmt, BitVec.ofNat 32 s.clen.toNat⟩ := by
  rw [State.clenFormatCheck, if_pos (mt Nat.dvd_of_mod_eq_zero h), BitVec.ofNat_toNat]

/-- Settles O21: the checks before the format check pass, and it fails. -/
theorem formatPrechecks : Obligations.FormatPrechecks := by
  unfold Obligations.FormatPrechecks
  refine ⟨fun rd rs1 rs2 s hc h1 h2 hlong => ?_, fun rs1 rs2 s hc h1 h2 hlen hdvd => ?_⟩
  · have hpre : firstReport [s.cfgGate, s.lenCheck rs1, s.lenCheck rs2, s.cipherLenCheck rd] =
        some ⟨.fmt, BitVec.ofNat 32 s.plen[rd].toNat⟩ := by
      simp [cfgGate_eq_none.mpr hc, lenCheck_eq_none.mpr h1, lenCheck_eq_none.mpr h2, cipherLenCheck_of_lt hlong]
    unfold exec
    exact guarded_some hpre _ s
  · have hpre : firstReport [s.cfgGate, s.clenCheck, s.lenCheck rs1, s.lenCheck rs2, s.clenFormatCheck] =
        some ⟨.fmt, BitVec.ofNat 32 s.clen.toNat⟩ := by
      simp [cfgGate_eq_none.mpr hc, clenCheck_eq_none.mpr hlen, lenCheck_eq_none.mpr h1, lenCheck_eq_none.mpr h2,
        clenFormatCheck_of_not_dvd hdvd]
    unfold exec
    exact guarded_some hpre _ s

/-! ### NENC and NENCX (R190, R191) -/

/-- Settles O40: the turn ends NENC on its one sample. -/
theorem nencEncrypts : Obligations.NencEncrypts := by
  unfold Obligations.NencEncrypts
  intro rd rs1 rs2 s src draw rs left h hc
  obtain ⟨hlen, hrs⟩ := h.samples_length rfl hc.1
  obtain ⟨r, rfl⟩ := List.length_eq_one_iff.mp hlen
  refine ⟨_, exec_completes h hc, finishNenc_writesPoly src _ s rd rs1 rs2 (hrs r (List.mem_singleton_self r)), ?_⟩
  cases src <;> rfl

theorem exec_nencx {s : State} {rd rs1 rs2 : PReg} (hc : s.status.cfgok = true) (h1 : s.plen[rs1] = s.cfgN)
    (h2 : s.plen[rs2] = s.cfgN) (hd : s.plen[rd] = s.cfgN) :
    exec (.nencx rd rs1 rs2) s = .next (s.drew.drew.drew.writePoly rd
      (encryptBlock s.cfgQ.toNat (s.src rd) (s.drew.src rs1) (s.drew.drew.src rs2))).complete := by
  unfold exec
  refine guarded_none ((firstReport_eq_none_iff _).mpr ?_) _ s
  simp [cfgGate_eq_none.mpr hc, lenCheck_eq_none.mpr h1, lenCheck_eq_none.mpr h2, lenCheck_eq_none.mpr hd]

/-- Settles O41: the block written is that of R191's formula, all three registers being read first. -/
theorem nencxEncrypts : Obligations.NencxEncrypts := by
  unfold Obligations.NencxEncrypts
  intro rd rs1 rs2 s hc h1 h2 hd
  have hr : (s.src rd).length = s.n := src_length s rd
  have hh : (s.drew.src rs1).length = s.n := src_length s.drew rs1
  have hm : (s.drew.drew.src rs2).length = s.n := src_length s.drew.drew rs2
  exact ⟨_, exec_nencx hc h1 h2 hd, writesPoly_of_eq (u := s.drew.drew.drew) rfl rfl rfl rfl (by simp [hh, hm])
    (fun i hi => (encryptBlock_getD hr hh hm hi).symm) rfl rfl, rfl⟩

/-! ### NDEC (R192) -/

theorem exec_ndec {s : State} {rd rs1 rs2 : PReg} (hc : s.status.cfgok = true) (h1 : s.plen[rs1] = s.cfgN)
    (h2 : s.plen[rs2] = s.cfgN) (hd : s.plen[rd].toNat ≤ s.n) :
    exec (.ndec rd rs1 rs2) s = .next (s.drew.drew.drew.writePoly rd
      (decryptBlock s.cfgP.toNat s.cfgQ.toNat (s.drew.src rs1) (s.drew.drew.src rs2) (s.srcExt rd))).complete := by
  unfold exec
  refine guarded_none ((firstReport_eq_none_iff _).mpr ?_) _ s
  simp [cfgGate_eq_none.mpr hc, lenCheck_eq_none.mpr h1, lenCheck_eq_none.mpr h2, cipherLenCheck_eq_none.mpr hd]

/-- Settles O42: the block written is that of R192's three lines. -/
theorem ndecDecrypts : Obligations.NdecDecrypts := by
  unfold Obligations.NdecDecrypts
  intro rd rs1 rs2 s hc h1 h2 hd
  have hf : (s.drew.src rs1).length = s.n := src_length s.drew rs1
  have hfp : (s.drew.drew.src rs2).length = s.n := src_length s.drew.drew rs2
  have he : (s.srcExt rd).length = s.n := srcExt_length s rd
  exact ⟨_, exec_ndec hc h1 h2 hd, writesPoly_of_eq (u := s.drew.drew.drew) rfl rfl rfl rfl
    ((decryptBlock_length ..).trans he) (fun i hi => (decryptBlock_getD hf hfp he hi).symm) rfl rfl, rfl⟩

/-! ### When decryption recovers the block (R193) -/

/-- An integer in (−m/2, m/2] is its own representative. -/
theorem center_of_range {x : Int} {m : Nat} (h : -(m : Int) < 2 * x ∧ 2 * x ≤ m) : center x m = x := by
  obtain ⟨hlo, hhi⟩ := center_range x (m := m) (by omega)
  have hdvd : (m : Int) ∣ x - center x m := Int.ModEq.dvd (center_emod x m)
  have h0 : x - center x m = 0 := Int.eq_zero_of_abs_lt_dvd hdvd (abs_lt.mpr ⟨by omega, by omega⟩)
  omega

theorem fits32_center (x : Int) {m : Nat} (hm : 0 < m) (h32 : m < 2 ^ 32) : fits32 (center x m) = true := by
  obtain ⟨hlo, hhi⟩ := center_range x hm
  refine fits32_iff.mpr ⟨?_, ?_⟩ <;> omega

/-- The same element of ℤ_m[x]/(xⁿ − 1) has the same centred representative. -/
theorem centerPoly_eq_of_toRing_eq {m n : Nat} {a b : Poly} (ha : a.length = n) (hb : b.length = n)
    (h : toRing m n a = toRing m n b) : centerPoly m a = centerPoly m b := by
  refine List.ext_getElem (by simp [ha, hb]) fun k h1 h2 => ?_
  have hka : k < a.length := by simpa using h1
  have hkb : k < b.length := by simpa using h2
  have hk := toRing_injective h (ha ▸ hka)
  rw [List.getD_eq_getElem _ _ hka, List.getD_eq_getElem _ _ hkb] at hk
  simpa [centerPoly] using center_congr hk

/-- A polynomial with coefficients in (−m/2, m/2] is its own centred representative. -/
theorem centerPoly_of_range {m : Nat} {a : Poly} (h : ∀ x ∈ a, -(m : Int) < 2 * x ∧ 2 * x ≤ m) : centerPoly m a = a :=
  (List.map_congr_left fun x hx => center_of_range (h x hx)).trans (List.map_id' a)

/-- p·conv(r, g) + conv(f, m), what is left of the ciphertext when the key is multiplied in (R193). -/
def keyedBlock (p : Nat) (r g f m : Poly) : Poly := addPoly (scalePoly p (conv r g)) (conv f m)

section Recovery

variable {n p q : Nat} {r h m f fp fq g : Poly} (hr : r.length = n) (hm : m.length = n) (hf : f.length = n) (hg : g.length = n)

include hg hm in
theorem keyedBlock_length : (keyedBlock p r g f m).length = n := by simp [keyedBlock, hg, hm]

include hr hm hf hg

theorem keyedBlock_getD {k : Nat} (hk : k < n) :
    (keyedBlock p r g f m).getD k 0 = p * convCoeff n r g k + convCoeff n f m k := by
  rw [keyedBlock, addPoly_getD (by simp [hg, hm]), scalePoly_getD, conv_coeff hr hg hk, conv_coeff hf hm hk]
  rfl

theorem toRing_keyedBlock (l : Nat) : toRing l n (keyedBlock p r g f m) =
    AddMonoidAlgebra.single 0 ((p : Int) : ZMod l) * (toRing l n r * toRing l n g) + toRing l n f * toRing l n m := by
  rw [keyedBlock, toRing_add (by simp [hg, hm]), toRing_scale, toRing_conv hr hg, toRing_conv hf hm]

/-- Modulo p only conv(f, m) is left. -/
theorem toRing_keyedBlock_modulus : toRing p n (keyedBlock p r g f m) = toRing p n f * toRing p n m := by
  rw [toRing_keyedBlock hr hm hf hg, Int.cast_natCast, ZMod.natCast_self, AddMonoidAlgebra.single_zero, zero_mul, zero_add]

variable (hh : h.length = n)

include hh

/-- The key turns the ciphertext into p·conv(r, g) + conv(f, m) modulo q, since f·h = p·g there. -/
theorem toRing_conv_encryptBlock (hn : 0 < n) (hfq : IsInverse n q f fq)
    (hpub : ∀ k, k < n → h.getD k 0 = center (convCoeff n (scalePoly p fq) g k) q) :
    toRing q n (conv f (encryptBlock q r h m)) = toRing q n (keyedBlock p r g f m) := by
  obtain ⟨hfqlen, -, hunit⟩ := (isInverse_iff hn hf).mp hfq
  have hscaled : (scalePoly p fq).length = n := (scalePoly_length _ _).trans hfqlen
  have hprod : (conv (scalePoly p fq) g).length = n := (conv_length _ _).trans hg
  have hkey : toRing q n h = toRing q n (centerPoly q (conv (scalePoly p fq) g)) := toRing_congr fun k hk => by
    rw [hpub k hk, centerPoly_getD (hprod.symm ▸ hk), conv_coeff hscaled hg hk]
    rfl
  rw [toRing_center hprod, toRing_conv hscaled hg, toRing_scale] at hkey
  rw [toRing_conv hf (by simp [hh, hm]), encryptBlock, toRing_center (by simp [hh, hm]), toRing_add (by simp [hh, hm]),
    toRing_conv hr hh, toRing_keyedBlock hr hm hf hg, hkey]
  linear_combination (AddMonoidAlgebra.single 0 ((p : Int) : ZMod q) * toRing q n r * toRing q n g) * hunit

/-- R193: with matching keys, the block is recovered when p·conv(r, g) + conv(f, m) is its own representative modulo q and the
message is its own modulo p. -/
theorem decryptBlock_encryptBlock (hn : 0 < n) (hfq : IsInverse n q f fq) (hfp : IsInverse n p f fp)
    (hpub : ∀ k, k < n → h.getD k 0 = center (convCoeff n (scalePoly p fq) g k) q)
    (hfit : centerPoly q (keyedBlock p r g f m) = keyedBlock p r g f m) (hmsg : centerPoly p m = m) :
    decryptBlock p q f fp (encryptBlock q r h m) = m := by
  obtain ⟨hfplen, -, hunit⟩ := (isInverse_iff hn hf).mp hfp
  have hu : (keyedBlock p r g f m).length = n := keyedBlock_length hm hg
  have ha : centerPoly q (conv f (encryptBlock q r h m)) = keyedBlock p r g f m :=
    (centerPoly_eq_of_toRing_eq (by simp [hh, hm]) hu (toRing_conv_encryptBlock hr hm hf hg hh hn hfq hpub)).trans hfit
  have hb : (centerPoly p (keyedBlock p r g f m)).length = n := (centerPoly_length _ _).trans hu
  have hring : toRing p n (conv fp (centerPoly p (keyedBlock p r g f m))) = toRing p n m := by
    rw [toRing_conv hfplen hb, toRing_center hu, toRing_keyedBlock_modulus hr hm hf hg, ← mul_assoc,
      mul_comm (toRing p n fp), hunit, one_mul]
  calc decryptBlock p q f fp (encryptBlock q r h m)
      = centerPoly p (conv fp (centerPoly p (keyedBlock p r g f m))) := by rw [decryptBlock, ha]
    _ = centerPoly p m := centerPoly_eq_of_toRing_eq ((conv_length _ _).trans hb) hm hring
    _ = m := hmsg

end Recovery

/-! ### Registers that hold a polynomial, through NENCX and NDEC -/

theorem State.Holds.drew {s : State} {k : PReg} {c : Poly} (h : s.Holds k c) : s.drew.Holds k c :=
  ⟨h.length, h.tag, h.slots⟩

/-- NDEC's ciphertext operand, when its tag is N. -/
theorem State.Holds.srcExt_eq {s : State} {k : PReg} {c : Poly} (h : s.Holds k c) : s.srcExt k = c := by
  have hsrc : s.srcExt k = s.src k := List.map_congr_left fun i hi => by
    rw [if_pos (h.tag ▸ List.mem_range.mp hi)]
  exact hsrc.trans h.src_eq

/-- A register that is not the one written keeps its polynomial. -/
theorem WritesPoly.holds_other {s t : State} {rd k : PReg} {g : Nat → Int} {c : Poly} (h : WritesPoly s t rd g)
    (hN : t.cfgN = s.cfgN) (hk : rd ≠ k) (hc : s.Holds k c) : t.Holds k c := by
  have hn : t.n = s.n := congrArg BitVec.toNat hN
  refine ⟨hc.length.trans hn.symm, ?_, ?_⟩
  · rw [h.tag, vector_set_other s.plen _ hk, hc.tag, hN]
  · simpa only [hn, State.slot, h.others k hk.symm] using hc.slots

theorem State.ConfigValid.cfgQ_pos {s : State} (h : s.ConfigValid) : 0 < s.cfgQ.toNat := by
  have hp := h.modulus
  have hq := h.ratio
  omega

section Run

variable {s : State} (hok : s.status.cfgok = true) (hcfg : s.ConfigValid)

include hok hcfg

/-- NENCX on registers that hold r, h and m. -/
theorem run_nencx {rd kh km : PReg} {r h m : Poly} (hr : s.Holds rd r) (hh : s.Holds kh h) (hm : s.Holds km m) :
    ∃ t, runCommands [.nencx rd kh km] s = some t ∧ t.Holds rd (encryptBlock s.cfgQ.toNat r h m) ∧
      (∀ k c, rd ≠ k → s.Holds k c → t.Holds k c) ∧ t = { s.succeeded with p := t.p, plen := t.plen, draws := t.draws } := by
  obtain ⟨t, he, hpoly, ht⟩ := nencxEncrypts rd kh km s hok hh.tag hm.tag hr.tag
  rw [hr.src_eq, hh.drew.src_eq, hm.drew.drew.src_eq] at hpoly
  have hN : t.cfgN = s.cfgN := (congrArg State.cfgN ht :)
  refine ⟨t, runCommands_singleton he (congrArg State.status ht :), ?_, fun k c hk => hpoly.holds_other hN hk, ht⟩
  exact hpoly.holds hN hcfg.capacity (by simp [hh.length, hm.length])
    (fun i hi => (encryptBlock_getD hr.length hh.length hm.length hi).symm)
    fun i _ => fits32_center _ hcfg.cfgQ_pos (s.cfgQ.isLt.trans (by decide))

/-- NDEC on registers that hold e, f and fp. -/
theorem run_ndec {rd kf kfp : PReg} {e f fp : Poly} (he : s.Holds rd e) (hf : s.Holds kf f) (hfp : s.Holds kfp fp) :
    ∃ t, runCommands [.ndec rd kf kfp] s = some t ∧ t.Holds rd (decryptBlock s.cfgP.toNat s.cfgQ.toNat f fp e) := by
  obtain ⟨t, hex, hpoly, ht⟩ := ndecDecrypts rd kf kfp s hok hf.tag hfp.tag (congrArg BitVec.toNat he.tag).le
  rw [hf.drew.src_eq, hfp.drew.drew.src_eq, he.srcExt_eq] at hpoly
  refine ⟨t, runCommands_singleton hex (congrArg State.status ht :), ?_⟩
  exact hpoly.holds (congrArg State.cfgN ht :) hcfg.capacity (by simp [he.length])
    (fun i hi => (decryptBlock_getD hf.length hfp.length he.length hi).symm)
    fun i _ => fits32_center _ (Nat.zero_lt_of_lt hcfg.modulus) (s.cfgP.isLt.trans (by decide))

end Run

/-- A block of bits is its own representative modulo any p from 3 on. -/
theorem centerPoly_of_bits {p : Nat} (hp : 3 ≤ p) {m : Poly} (hm : ∀ x ∈ m, x = 0 ∨ x = 1) : centerPoly p m = m :=
  centerPoly_of_range fun x hx => by rcases hm x hx with rfl | rfl <;> omega

/-- Settles O43: NENCX leaves the ciphertext in rd and the keys where they are, and NDEC then recovers the block. -/
theorem decryptionRecoversMessage : Obligations.DecryptionRecoversMessage := by
  unfold Obligations.DecryptionRecoversMessage
  intro s rd kh km kf kfp r h m f fp fq g hok hcfg hp3 hkf hkfp hr hh hm hf hfp hg hbits hfq hinv hpub hrange
  obtain ⟨u, hrun, hcipher, hkeep, hu⟩ := run_nencx hok hcfg hr hh hm
  have huok : u.status.cfgok = true := (congrArg (fun v => v.status.cfgok) hu).trans hok
  have hucfg : u.ConfigValid := (congrArg State.ConfigValid hu).mpr hcfg
  obtain ⟨t, hrun', ht⟩ := run_ndec huok hucfg hcipher (hkeep kf f hkf hf) (hkeep kfp fp hkfp hfp)
  have hfit : centerPoly s.cfgQ.toNat (keyedBlock s.cfgP.toNat r g f m) = keyedBlock s.cfgP.toNat r g f m := by
    refine centerPoly_of_range (List.forall_mem_iff_getElem.mpr fun k hk => ?_)
    have hkn : k < s.n := keyedBlock_length hm.length hg ▸ hk
    rw [← List.getD_eq_getElem _ 0 hk, keyedBlock_getD hr.length hm.length hf.length hg hkn]
    exact hrange k hkn
  have hP : u.cfgP = s.cfgP := (congrArg State.cfgP hu :)
  have hQ : u.cfgQ = s.cfgQ := (congrArg State.cfgQ hu :)
  rw [hP, hQ, decryptBlock_encryptBlock hr.length hm.length hf.length hg hh.length hcfg.prime.pos hfq hinv hpub hfit
    (centerPoly_of_bits hp3 hbits)] at ht
  exact ⟨t, (runCommands_append hrun _).trans hrun', ht⟩

end Sys2Proof.Machine
end

section
/-! Proofs about whole messages (spec/46_block_chain.md): what SENC writes to CBUF, and what SDEC writes to BBUF. -/

namespace Sys2Proof.Machine

/-! ### SENC (R200) -/

/-- A sampling command in a turn that starts it, its checks passing, or that goes on with it, has no argument error. -/
theorem State.Samples.argumentsOk {s : State} {i : Instr} {src : RandSource}
    {draw : List Word → Option (List Poly × List Word)} (h : s.Samples i src draw) : ∀ info, ¬ ArgError s i info := by
  cases h with
  | starts issued cfgok arguments tags plan => exact arguments
  | resumes flight fits => exact fits.checked

/-- Settles O49: the turn ends SENC on a sample for each block. -/
theorem sencEncryptsMessage : Obligations.SencEncryptsMessage := by
  unfold Obligations.SencEncryptsMessage
  intro rs1 s src draw rs left hb hv h hc
  obtain ⟨hlen, hrs⟩ := h.samples_length rfl hc.1
  have hwrites := finishOf_writesSampled src (left ++ (s.granted (s.wordsOf src)).2) hb hv h.argumentsOk rfl hlen hrs
  refine ⟨hlen, _, exec_completes h hc, hwrites, ?_⟩
  cases src <;> rfl

/-! ### SDEC (R201) -/

/-- What is said of the state after the writes is said of its BBUF. -/
theorem WritesBits.of_bbuf_eq {s t u : State} {lo hi : Nat} {v : Nat → Bool} (h : WritesBits s u lo hi v)
    (e : t.bbuf = u.bbuf) : WritesBits s t lo hi v := by
  obtain ⟨htouched, huntouched⟩ := h
  exact ⟨e ▸ htouched, e ▸ huntouched⟩

/-- A trimmed length depends on which of the first `l` bytes are zero. -/
theorem TrimmedTo.congr {isZero isZero' : Nat → Prop} {l m : Nat} (h : TrimmedTo isZero l m)
    (heq : ∀ i, i < l → (isZero i ↔ isZero' i)) : TrimmedTo isZero' l m := by
  obtain ⟨hle, hzero, hlast⟩ := h
  refine ⟨hle, fun i hlo hi => (heq i hi).mp (hzero i hlo hi), ?_⟩
  rcases Nat.eq_zero_or_pos m with h0 | hpos
  · exact .inl h0
  · exact hlast.imp_right (mt (heq (m - 1) (by omega)).mpr)

theorem finishSdec_of_pad {nb : Nat} {s : State} (h : s.padCheck s.clen.toNat = none) :
    s.finishSdec nb = ((s.trimMessage s.clen.toNat).setNblk nb).drew.complete := by
  rw [State.finishSdec, h]

section Decrypted

/-! `f` and `fp` are the keys, `s` is the state as the read of the ciphertext sees it, and `nb` is the number of its blocks. -/

variable {s : State} {f fp : Poly} (hf : f.length = s.n) (hfp : fp.length = s.n) {c : Nat → Int}
  (hc : ∀ j, c j = decryptCoeff s.n s.cfgP.toNat s.cfgQ.toNat f fp (s.cipherBlock (j / s.n)) (j % s.n)) {nb : Nat}
  (hnb : nb * s.n = s.clen.toNat)

/-- `s` with the bits of the decrypted message in BBUF. -/
def State.withDecrypted (s : State) (f fp : Poly) (nb : Nat) : State :=
  State.putBits (bitsOf (s.decryptedBlocks f fp nb).flatten) 0 s.drew

theorem withDecrypted_frame : s.withDecrypted f fp nb = { s.drew with bbuf := (s.withDecrypted f fp nb).bbuf } :=
  putBits_frame ..

theorem withDecrypted_clen : (s.withDecrypted f fp nb).clen = s.clen := putBits_clen ..

theorem withDecrypted_build : (s.withDecrypted f fp nb).build = s.build := putBits_build ..

include hf hfp hc hnb

theorem withDecrypted_writesBits :
    WritesBits s.drew (s.withDecrypted f fp nb) 0 s.clen.toNat (fun j => decide (c j = 1)) := by
  refine writesBits_putBits (bitsOf (s.decryptedBlocks f fp nb).flatten) 0 _ _ ?_ (fun j _ hj => ?_) rfl
  · rw [bitsOf_length, decryptedBlocks_length, hnb, Nat.zero_add]
  · rw [Nat.sub_zero, bitsOf_getD, decryptedBlocks_getD hf hfp hc (hnb.symm ▸ hj)]

/-- When all coefficients are message bits and the pad bits are 0, SDEC writes every bit, the trimmed length and the block
count. -/
theorem decodeBlocks_of_messageBits (hbits : ∀ j, j < s.clen.toNat → MessageBit s.build.bmax c j)
    (hpad : s.clen.toNat < 8 * s.build.bmax → ∀ j, 8 * (s.clen.toNat / 8) ≤ j → j < s.clen.toNat → c j = 0) :
    decodeBlocks nb (s.decryptedBlocks f fp nb) 0 s.drew =
      (((s.withDecrypted f fp nb).trimMessage s.clen.toNat).setNblk nb).drew.complete := by
  have hrun := decodeBlocks_decrypted hf hfp hc (nb := nb) (hnb.symm ▸ hbits) []
  rw [List.append_nil, decodeBlocks, ← State.withDecrypted] at hrun
  have hcheck : (s.withDecrypted f fp nb).padCheck s.clen.toNat = none := by
    rw [padCheck_eq_none_iff, withDecrypted_build]
    intro hroom j hlo hj
    refine (streamBit_putBits_decrypted hf hfp hc (hnb.symm ▸ hj) (hj.trans hroom)).trans ?_
    rw [hpad hroom j hlo hj]
    rfl
  rw [hrun, finishSdec_of_pad (by rw [withDecrypted_clen]; exact hcheck), withDecrypted_clen]

/-- The trimmed length of the decrypted message: each of its whole bytes is specified once its bits are written. -/
theorem withDecrypted_trimmed : TrimmedTo (fun i => bufGet (s.withDecrypted f fp nb).bbuf i = some 0)
    (min (s.clen.toNat / 8) s.build.bmax) ((s.withDecrypted f fp nb).trimMessage s.clen.toNat).mlen.toNat := by
  have hwhole : (s.withDecrypted f fp nb).wholeBytes s.clen.toNat = min (s.clen.toNat / 8) s.build.bmax := by
    rw [State.wholeBytes, withDecrypted_build]
  have h16 := s.clen.isLt
  rw [State.trimMessage_mlen, hwhole, BitVec.toNat_ofNat, Nat.mod_eq_of_lt (by omega)]
  refine (trimmedTo_trailingZeros ..).congr fun i hi => ?_
  obtain ⟨b, hb, _⟩ := (withDecrypted_writesBits hf hfp hc hnb).touched i (hi.trans_le (Nat.min_le_right ..))
    ⟨8 * i, Nat.zero_le _, by omega, by omega⟩
  rw [byteAt_of_some hb, hb, Option.some.injEq]

/-- SDEC's blocks, when all coefficients are message bits and the pad bits are 0 (R201). -/
theorem decodeBlocks_decrypts (hbits : ∀ j, j < s.clen.toNat → MessageBit s.build.bmax c j)
    (hpad : s.clen.toNat < 8 * s.build.bmax → ∀ j, 8 * (s.clen.toNat / 8) ≤ j → j < s.clen.toNat → c j = 0) :
    ∃ t, decodeBlocks nb (s.decryptedBlocks f fp nb) 0 s.drew = t ∧
      WritesBits s.drew t 0 s.clen.toNat (fun j => decide (c j = 1)) ∧
      TrimmedTo (fun i => bufGet t.bbuf i = some 0) (min (s.clen.toNat / 8) s.build.bmax) t.mlen.toNat ∧
      t.nblk = BitVec.ofNat 16 nb ∧
      t = { s.succeeded with bbuf := t.bbuf, mlen := t.mlen, nblk := t.nblk, draws := t.draws } := by
  have hrun := decodeBlocks_of_messageBits hf hfp hc hnb hbits hpad
  have hwrites := withDecrypted_writesBits hf hfp hc hnb
  have htrim := withDecrypted_trimmed hf hfp hc hnb
  have hframe := withDecrypted_frame (s := s) (f := f) (fp := fp) (nb := nb)
  generalize s.withDecrypted f fp nb = u at hrun hwrites htrim hframe
  refine ⟨_, hrun, hwrites.of_bbuf_eq (by simp), by simpa using htrim, rfl, ?_⟩
  -- The frame does not ask which length MLEN is.
  rw [State.trimMessage]
  generalize BitVec.ofNat 16 (u.wholeBytes _ - u.trailingZeros _) = m
  rw [hframe]
  rfl

end Decrypted

/-- Settles O50: every block passes its format checks, and so do the pad bits. -/
theorem sdecDecryptsMessage : Obligations.SdecDecryptsMessage := by
  unfold Obligations.SdecDecryptsMessage
  intro rs1 rs2 c s hok h1 h2 hlen hdvd hc hbits hpad
  have hf : (s.src rs1).length = s.drew.drew.n := by simp
  have hfp : (s.drew.src rs2).length = s.drew.drew.n := by simp
  obtain ⟨t, hrun, hwrites, htrim, hnblk, ht⟩ :=
    decodeBlocks_decrypts hf hfp hc (Nat.div_mul_cancel hdvd) hbits hpad
  refine ⟨t, (exec_sdec hok h1 h2 hlen hdvd).trans (congrArg _ hrun), hwrites, htrim, ?_, ht⟩
  rw [hnblk]
  exact (BitVec.toNat_ofNat ..).trans (Nat.mod_eq_of_lt ((Nat.div_le_self ..).trans_lt s.clen.isLt))

end Sys2Proof.Machine
end

section
/-! Proofs about exceptions (spec/60_exceptions.md): when a step stops, the issue of a word, the argument errors, what a turn
of a command ends with, and the interrupt. -/

namespace Sys2Proof.Machine

/-! ### When a step stops (R246) -/

theorem engineTurn_isNext (limit : Option Nat) (s : State) : ∃ t, engineTurn limit s = .next t := by
  unfold engineTurn
  split
  · split
    · exact exec_isNext ..
    · exact ⟨_, rfl⟩
  · exact ⟨_, rfl⟩

theorem busRead_isNext {off : Nat} (h : off < 0x40000) (w : Width) (s : State) : ∃ t, busRead w off s = .next t := by
  rw [busRead, if_neg (Nat.not_le.mpr h)]
  split <;> exact ⟨_, rfl⟩

theorem busWrite_isNext {off : Nat} (h : off < 0x40000) (w : Width) (v : Word) (s : State) :
    ∃ t, busWrite w off v s = .next t := by
  rw [busWrite, if_neg (Nat.not_le.mpr h)]
  split <;> exact ⟨_, rfl⟩

/-- The next event is a host access to offset `off`, which lies outside the window. -/
def State.LeavesWindow (s : State) (off : Nat) : Prop :=
  0x40000 ≤ off ∧ ((∃ w rest, s.agenda = .read w off :: rest) ∨ (∃ w v rest, s.agenda = .write w off v :: rest))

theorem step_of_leavesWindow {s : State} {off : Nat} (h : s.LeavesWindow off) : step s = .fault (.outsideWindow off) := by
  obtain ⟨ho, ⟨w, rest, ha⟩ | ⟨w, v, rest, ha⟩⟩ := h
  · simp only [step, ha]
    exact if_pos ho
  · simp only [step, ha]
    exact if_pos ho

/-- A step gives a next state, or the next event is an access outside the window. -/
theorem step_isNext_or_leavesWindow (s : State) : (∃ t, step s = .next t) ∨ ∃ off, s.LeavesWindow off := by
  unfold step
  cases ha : s.agenda with
  | nil => exact .inl (engineTurn_isNext ..)
  | cons e rest =>
    cases e with
    | engine limit => exact .inl (engineTurn_isNext ..)
    | read w off =>
      rcases Nat.lt_or_ge off 0x40000 with ho | ho
      · exact .inl (busRead_isNext ho ..)
      · exact .inr ⟨off, ho, .inl ⟨w, rest, ha⟩⟩
    | write w off v =>
      rcases Nat.lt_or_ge off 0x40000 with ho | ho
      · exact .inl (busWrite_isNext ho ..)
      · exact .inr ⟨off, ho, .inr ⟨w, v, rest, ha⟩⟩
    | offer w => exact .inl ⟨_, rfl⟩
    | reset => exact .inl ⟨_, rfl⟩

/-- Settles O6: every event but a host access outside the window gives a next state. -/
theorem stepStopsOnlyOutsideWindow : Obligations.StepStopsOnlyOutsideWindow := by
  unfold Obligations.StepStopsOnlyOutsideWindow
  intro s
  have hfault (f : Fault) : (∃ off, f = .outsideWindow off ∧ s.LeavesWindow off) → step s = .fault f := by
    rintro ⟨off, rfl, h⟩
    exact step_of_leavesWindow h
  rcases step_isNext_or_leavesWindow s with ⟨t, ht⟩ | ⟨off, h⟩
  · exact ⟨fun r hr => (nomatch ht.symm.trans hr), fun f => ⟨fun hf => (nomatch ht.symm.trans hf), hfault f⟩⟩
  · have ht := step_of_leavesWindow h
    refine ⟨fun r hr => (nomatch ht.symm.trans hr), fun f => ⟨fun hf => ?_, hfault f⟩⟩
    exact ⟨off, (Host.Outcome.fault.inj (ht.symm.trans hf)).symm, h⟩

/-! ### The issue of a word (R222, R223) -/

theorem writeCmd_of_idle (v : Word) {s : State} (h : s.status.busy = false) : s.writeCmd v = s.issue v :=
  if_neg (Bool.eq_false_iff.mp h)

theorem writeCmd_of_busy (v : Word) {s : State} (h : s.status.busy = true) :
    s.writeCmd v = { s with status := { s.status with cmdovr := true } } :=
  if_pos h

/-- An issue clears DONE, and with it the interrupt. -/
theorem issue_irq (w : Word) (s : State) : (s.issue w).irq = false := Bool.and_false _

/-- Settles O7: the write of an idle core's CMD is the issue, and the engine's next turn runs CMD. -/
theorem cmdWriteIssues : Obligations.CmdWriteIssues := by
  unfold Obligations.CmdWriteIssues
  intro s w rest ha hb
  have hstep := step_write_register (l := .cmd) (by decide) ha
  have hvalue : (s.withAgenda rest).writeValue w .cmd = (s.withAgenda rest).issue w := writeCmd_of_idle w hb
  rw [hvalue] at hstep
  refine ⟨_, hstep, rfl, issue_irq w _, rfl, fun i limit hd => ?_⟩
  exact engineTurn_command (s := ((s.withAgenda rest).issue w).respond _) rfl hd limit

/-- Settles O8: the write of a busy core's CMD only sets CMDOVR. -/
theorem cmdWriteWhileBusyIsDropped : Obligations.CmdWriteWhileBusyIsDropped := by
  unfold Obligations.CmdWriteWhileBusyIsDropped
  intro s w rest ha hb
  have hstep := step_write_register (l := .cmd) (by decide) ha
  have hvalue : (s.withAgenda rest).writeValue w .cmd = _ := writeCmd_of_busy w hb
  rw [hvalue] at hstep
  exact ⟨_, hstep, rfl, rfl⟩

/-! ### Argument errors (R221, R225) -/

theorem primePowerCheck_of_not {m : Nat} (h : ¬ (IsPrimePow m ∧ m ≤ 2 ^ 31 - 1)) :
    primePowerCheck m = some ⟨.arg, BitVec.ofNat 32 m⟩ := by
  have hne : primePowerCheck m ≠ none := mt primePowerCheck_eq_none.mp h
  unfold primePowerCheck at hne ⊢
  split at hne
  · exact absurd rfl hne
  · rfl

/-- Weights come from 16-bit registers (R151). -/
theorem weights_lt (s : State) (w : WeightSel) : (s.weights w).1 < 2 ^ 16 ∧ (s.weights w).2 < 2 ^ 16 := by
  cases w with
  | f => exact ⟨s.cfgDf.isLt, (Nat.sub_le ..).trans_lt s.cfgDf.isLt⟩
  | g => exact ⟨s.cfgDg.isLt, s.cfgDg.isLt⟩
  | r => exact ⟨s.cfgDr.isLt, s.cfgDr.isLt⟩
  | x => exact ⟨s.sampNp.isLt, s.sampNm.isLt⟩

theorem weightCheck_of_gt {s : State} {w : WeightSel} (h : s.n < (s.weights w).1 + (s.weights w).2) :
    s.weightCheck w = some ⟨.arg, BitVec.ofNat 32 ((s.weights w).1 * 65536 + (s.weights w).2)⟩ := by
  obtain ⟨hp, hm⟩ := weights_lt s w
  have hinfo := append_ofNat_eq (x := BitVec.ofNat 16 (s.weights w).1) hm
  rw [BitVec.toNat_ofNat, Nat.mod_eq_of_lt hp] at hinfo
  rw [← hinfo]
  exact if_pos h

theorem mlenCheck_of_gt {s : State} (h : s.build.bmax < s.mlen.toNat) :
    s.mlenCheck = some ⟨.arg, BitVec.ofNat 32 s.mlen.toNat⟩ := by
  rw [State.mlenCheck, if_pos h, BitVec.ofNat_toNat]

theorem clenCheck_of_gt {s : State} (h : s.build.cmax < s.clen.toNat) :
    s.clenCheck = some ⟨.arg, BitVec.ofNat 32 s.clen.toNat⟩ := by
  rw [State.clenCheck, if_pos h, BitVec.ofNat_toNat]

theorem blockCheck_of_ge {s : State} {k : Nat} (h : (8 * s.mlen.toNat) ⌈/⌉ s.n ≤ k) :
    s.blockCheck k = some ⟨.arg, BitVec.ofNat 32 k⟩ := by
  rw [← blocks_eq_ceilDiv] at h
  rw [State.blockCheck, if_pos h]

/-- An argument error is the first report of the argument checks. -/
theorem firstReport_argChecks {s : State} {i : Instr} {info : Word} (h : ArgError s i info) :
    firstReport (s.argChecks i) = some ⟨.arg, info⟩ := by
  cases i with
  | pred _ _ sel _ =>
    obtain ⟨hm, rfl⟩ := h
    exact (firstReport_singleton _).trans (if_pos hm)
  | pinv _ _ sel =>
    obtain ⟨hm, rfl⟩ := h
    exact (firstReport_singleton _).trans (primePowerCheck_of_not hm)
  | psmp _ w =>
    obtain ⟨hw, rfl⟩ := h
    rw [selectedWeights_eq] at hw ⊢
    exact (firstReport_singleton _).trans (weightCheck_of_gt hw)
  | benc _ k =>
    rcases h with ⟨hm, rfl⟩ | ⟨hm, hk, rfl⟩
    · rw [State.argChecks, mlenCheck_of_gt hm, firstReport_some]
    · rw [State.argChecks, mlenCheck_eq_none.mpr hm, firstReport_none, blockCheck_of_ge hk, firstReport_some]
  | senc _ =>
    obtain ⟨hm, rfl⟩ := h
    exact (firstReport_singleton _).trans (mlenCheck_of_gt hm)
  | sdec _ _ =>
    obtain ⟨hc, rfl⟩ := h
    exact (firstReport_singleton _).trans (clenCheck_of_gt hc)
  | _ => exact h.elim

/-- A report is not hidden by the checks behind it. -/
theorem firstReport_append_of_some {l : List (Option Report)} {r : Report} (h : firstReport l = some r)
    (l' : List (Option Report)) : firstReport (l ++ l') = some r := by
  obtain ⟨a, b, rfl, ha⟩ := (firstReport_eq_some_iff l r).mp h
  rw [List.append_assoc, firstReport_append_of_pass ha, List.cons_append, firstReport_some]

/-- Settles O19: behind the gate, which passes, come the argument checks. -/
theorem argumentChecks : Obligations.ArgumentChecks := by
  unfold Obligations.ArgumentChecks
  intro i s info hs hc ha
  have hnop : i ≠ .nop := by rintro rfl; exact ha
  have hchk : i ≠ .cfgchk := by rintro rfl; exact ha
  refine exec_of_failed_preCheck hs (r := ⟨.arg, info⟩) ?_
  rw [preChecks_eq hnop hchk, cfgGate_eq_none.mpr hc, firstReport_none, List.append_assoc]
  exact firstReport_append_of_some (firstReport_argChecks ha) _

/-! ### Every failing pre-check reports an error -/

theorem code_of_ite {p : Prop} [Decidable p] {r r' : Report} (hr : r.code ≠ .success)
    (h : (if p then some r else none) = some r') : r'.code ≠ .success := by
  split at h <;> cases h
  exact hr

theorem primePowerCheck_code {m : Nat} {r : Report} (h : primePowerCheck m = some r) : r.code ≠ .success := by
  unfold primePowerCheck at h
  split at h <;> cases h
  exact ErrCode.noConfusion

theorem argChecks_code {s : State} {i : Instr} : ∀ x ∈ s.argChecks i, ∀ r, x = some r → r.code ≠ .success := by
  cases i with
  | pred _ _ sel _ => exact List.forall_mem_singleton.mpr fun _ => code_of_ite nofun
  | pinv _ _ sel => exact List.forall_mem_singleton.mpr fun _ => primePowerCheck_code
  | psmp _ w => exact List.forall_mem_singleton.mpr fun _ => weightCheck_code
  | benc _ k =>
    exact List.forall_mem_cons.mpr ⟨fun _ => mlenCheck_code, List.forall_mem_singleton.mpr fun _ => code_of_ite nofun⟩
  | senc _ => exact List.forall_mem_singleton.mpr fun _ => mlenCheck_code
  | sdec _ _ => exact List.forall_mem_singleton.mpr fun _ => code_of_ite nofun
  | _ => exact List.forall_mem_nil _

theorem formatChecks_code {s : State} {i : Instr} : ∀ x ∈ s.formatChecks i, ∀ r, x = some r → r.code ≠ .success := by
  cases i with
  | ndec rd _ _ => exact List.forall_mem_singleton.mpr fun _ => code_of_ite nofun
  | sdec _ _ => exact List.forall_mem_singleton.mpr fun _ => code_of_ite nofun
  | _ => exact List.forall_mem_nil _

theorem preChecks_code {s : State} {i : Instr} {r : Report} (h : firstReport (s.preChecks i) = some r) :
    r.code ≠ .success := by
  by_cases hnop : i = .nop
  · subst hnop; cases h
  by_cases hchk : i = .cfgchk
  · subst hchk; cases h
  rw [preChecks_eq hnop hchk] at h
  have htags : ∀ x ∈ (sources i).map s.lenCheck, ∀ r, x = some r → r.code ≠ .success :=
    List.forall_mem_map.mpr fun _ _ _ => lenCheck_code
  exact code_of_firstReport (List.forall_mem_cons.mpr ⟨fun _ => cfgGate_code,
    List.forall_mem_append.mpr ⟨List.forall_mem_append.mpr ⟨argChecks_code, htags⟩, formatChecks_code⟩⟩) h

/-! ### What a turn of a command ends with (R224, R226) -/

/-- What a turn of the engine on a command can do in state `s`: a failure by what it changes besides the report, a success,
or a sampler left in flight. -/
inductive ExecOutcome (s : State) : Instr → State → Prop
  /-- A pre-check fails (R225). -/
  | failsCheck {i : Instr} {r : Report} (error : r.code ≠ .success) : ExecOutcome s i (s.fail r)
  /-- CFGCHK finds an invalid configuration (R103). -/
  | invalidConfig {r : Report} (error : r.code ≠ .success) : ExecOutcome s .cfgchk ((s.setCfgok false).fail r)
  /-- BDEC or BFIN finds a bad value in what it has read (R173, R174). -/
  | badValue {i : Instr} {r : Report} (error : r.code ≠ .success) : ExecOutcome s i (s.drew.fail r)
  /-- SDEC finds a bad value in what it has decrypted: BBUF is unspecified from then on (R201, R226). -/
  | badMessage {rs1 rs2 : PReg} {r : Report} {d : Nat} (format : r.code = .fmt) :
    ExecOutcome s (.sdec rs1 rs2) { s.fail r with bbuf := [], draws := d }
  /-- The command has written its results, in `u`, and completes (R224). -/
  | completes {i : Instr} {u : State} (errcmd : u.errcmd = s.errcmd := by simp)
    (errinfo : u.errinfo = s.errinfo := by simp) : ExecOutcome s i u.complete
  /-- A sampling command has taken words and stays in flight (R153). -/
  | waits {i : Instr} (plan : (s.samplePlan i).isSome = true) (src : RandSource) (ws : List Word) (job : Sampling)
    (wait : Bool) : ExecOutcome s i ((s.withWords src ws).keepSampling src job wait)

theorem ExecOutcome.guarded {i : Instr} {pre : Option Report} {act : State → State} {s t : State}
    (he : guarded pre act s = .next t) (hact : ExecOutcome s i (act s))
    (hpre : ∀ {r}, pre = some r → r.code ≠ .success) : ExecOutcome s i t := by
  rcases guarded_cases he with ⟨r, hr, rfl⟩ | ⟨_, rfl⟩
  · exact .failsCheck (hpre hr)
  · exact hact

/-- The end of a sampling command is a success. -/
theorem finishOf_eq_complete {i : Instr} {s u : State} (h : (s.samplePlan i).isSome = true) (rs : List Poly) :
    ∃ v : State, finishOf i rs u = v.complete ∧ v.errcmd = u.errcmd ∧ v.errinfo = u.errinfo := by
  cases i with
  | psmp _ _ | nenc _ _ _ | senc _ => exact ⟨_, rfl, by simp, by simp⟩
  | _ => cases h

theorem ExecOutcome.sampleTurn {i : Instr} {s : State} (hplan : (s.samplePlan i).isSome = true) (src : RandSource)
    (job : Sampling) : ExecOutcome s i (sampleTurn src job (finishOf i) s) := by
  rcases sampleTurn_cases src job (finishOf i) s with ⟨_, _, e⟩ | ⟨_, _, _, e⟩ | ⟨_, _, e⟩ <;> rw [e]
  · obtain ⟨v, e, hcmd, hinfo⟩ := finishOf_eq_complete hplan _
    rw [e]
    exact .completes (hcmd.trans (State.withWords_errcmd ..)) (hinfo.trans (State.withWords_errinfo ..))
  · exact .waits hplan ..
  · exact .waits hplan ..

theorem ExecOutcome.ofPlan {i : Instr} {s t : State} {np nm count : Nat} (hplan : s.samplePlan i = some (np, nm, count))
    (he : exec i s = .next t) : ExecOutcome s i t := by
  rw [exec_of_plan hplan] at he
  rcases sampled_cases he with ⟨r, hr, rfl⟩ | ⟨src, job, _, hrun⟩
  · exact .failsCheck (sampleChecks_code hr)
  · obtain rfl := Host.Outcome.next.inj (he.symm.trans (hrun s rfl rfl))
    exact .sampleTurn (by rw [hplan]; rfl) src job

/-- SDEC's loop finds a bad value or completes. `u` is `s` behind the reads of the sources. -/
theorem ExecOutcome.decodeBlocks {rs1 rs2 : PReg} {s u : State} (hu : u = { s with draws := u.draws }) (nb : Nat)
    (cs : List Poly) (base : Nat) : ExecOutcome s (.sdec rs1 rs2) (decodeBlocks nb cs base u) := by
  generalize u.draws = d at hu
  subst hu
  rcases decodeBlocks_cases nb cs base { s with draws := d } with ⟨r, hr, e⟩ | ⟨b, m, e⟩ <;> rw [e]
  · exact .badMessage (d := d + Config.drawBlock) hr
  · exact .completes (u := { s with draws := d + Config.drawBlock, bbuf := b, mlen := m, nblk := _ }) rfl rfl

/-- Every command does one of these. -/
theorem exec_outcome {i : Instr} {s t : State} (he : exec i s = .next t) : ExecOutcome s i t := by
  have hcode : ∀ {r}, firstReport (s.preChecks i) = some r → r.code ≠ .success := preChecks_code
  unfold exec at he
  cases i with
  | psmp rd w => exact .ofPlan rfl he
  | nenc rd rs1 rs2 => exact .ofPlan rfl he
  | senc rs1 => exact .ofPlan rfl he
  | nop => cases he; exact .completes
  | cfgchk =>
    simp only [execCfgchk] at he
    split at he <;> cases he
    · exact .completes
    · exact .invalidConfig nofun
  | pclr _ | pmov _ _ => exact .guarded he .completes cfgGate_code
  | pinv rd rs1 sel =>
    refine .guarded he ?_ hcode
    split <;> exact .completes
  | bdec rs1 k =>
    refine .guarded he ?_ hcode
    dsimp only
    split
    · next r h => exact .badValue (by rw [blockFormatCheck_code h]; nofun)
    · exact .completes
  | bfin =>
    refine .guarded he ?_ cfgGate_code
    dsimp only
    split
    · next r h => exact .badValue (by rw [padCheck_code h]; nofun)
    · exact .completes
  | sdec rs1 rs2 => exact .guarded he (.decodeBlocks (s := s) (u := s.drew.drew.drew) rfl ..) hcode
  | _ => exact .guarded he .completes hcode

/-- Settles O13: each outcome of a command is a completion, but for a sampling command that stays in flight. -/
theorem commandsCompleteOnce : Obligations.CommandsCompleteOnce := by
  unfold Obligations.CommandsCompleteOnce
  intro i s
  obtain ⟨t, he⟩ := exec_isNext i s
  refine ⟨t, he, ?_⟩
  cases exec_outcome he with
  | failsCheck error | invalidConfig error | badValue error =>
    exact .inl ⟨rfl, rfl, rfl, rfl, fun h => absurd h error, fun _ => rfl⟩
  | badMessage format =>
    exact .inl ⟨rfl, rfl, rfl, rfl, fun h => absurd (format.symm.trans h) nofun, fun _ => rfl⟩
  | completes errcmd errinfo => exact .inl ⟨rfl, rfl, rfl, rfl, fun _ => ⟨errcmd, errinfo⟩, fun h => absurd rfl h⟩
  | waits plan src ws job wait => exact .inr ⟨plan, ⟨src, job, rfl⟩, by simp, by simp, by simp, by simp, by simp⟩

/-- Settles O14: a failing outcome is the report, and no other outcome of a running command has ERR ≠ 0. -/
theorem errorsAreAtomic : Obligations.ErrorsAreAtomic := by
  unfold Obligations.ErrorsAreAtomic
  intro i s t hinv hb _ he herr
  cases exec_outcome he with
  | failsCheck | badValue => exact ⟨rfl, .inl rfl, .inl rfl⟩
  | invalidConfig => exact ⟨rfl, .inr ⟨rfl, rfl⟩, .inl rfl⟩
  | badMessage format => exact ⟨rfl, .inl rfl, .inr ⟨⟨_, _, rfl⟩, format, fun _ => rfl⟩⟩
  | completes => exact absurd rfl herr
  | waits => exact absurd (by simpa using (hinv.running hb).2) herr

/-! ### The interrupt (R230) -/

theorem irq_eq_true_iff (s : State) : s.irq = true ↔ s.ctrl.irqen = true ∧ s.status.done = true := by
  simp [State.irq]

/-- A turn of the engine raises irq by a completion only. -/
theorem engineTurn_irq {limit : Option Nat} {s t : State} (he : engineTurn limit s = .next t) (h : s.irq = false)
    (ht : t.irq = true) : s.status.busy = true ∧ t.status.busy = false := by
  rcases engineTurn_cases he with ⟨_, rfl⟩ | ⟨hb, i, _, hx⟩ | ⟨hb, _, _, rfl⟩
  · rw [h] at ht; cases ht
  · refine ⟨hb, ?_⟩
    cases exec_outcome hx with
    | waits _ src ws job wait =>
      have hkeep : (((s.beginTurn limit).withWords src ws).keepSampling src job wait).irq = s.irq := by simp [State.irq]
      exact absurd ((hkeep.trans h).symm.trans ht) nofun
    | _ => rfl
  · exact ⟨hb, rfl⟩

theorem storeLoc_irq (v : Word) (s : State) (l : Loc) : (s.storeLoc v l).irq = s.irq := by
  cases l with
  | bword j => simp [State.storeLoc, State.irq]
  | _ => rfl

theorem pushWord_irq (w : Word) (s : State) : (s.pushWord w).irq = s.irq := by
  unfold State.pushWord
  split <;> rfl

/-- A CMD write issues, which clears DONE, or changes neither IRQEN nor DONE. -/
theorem writeCmd_irq {v : Word} {s : State} (h : s.irq = false) : (s.writeCmd v).irq = false := by
  unfold State.writeCmd
  split
  · exact h
  · exact issue_irq v s

/-- A STATUS write can only clear DONE (R28). -/
theorem writeStatusReg_irq {v : Word} {s : State} (h : s.irq = false) : (s.writeStatusReg v).irq = false := by
  rw [writeStatusReg_eq]
  show (s.ctrl.irqen && (s.status.done && !v.getLsbD 1)) = false
  rw [← Bool.and_assoc]
  exact Bool.and_eq_false_imp.mpr fun hs => absurd (h.symm.trans hs) nofun

/-- A CTRL write that leaves irq = 1 is no reset and has IRQEN set. -/
theorem writeCtrlReg_irq {v : Word} {s : State} (h : (s.writeCtrlReg v).irq = true) :
    s.status.done = true ∧ v.getLsbD 0 = true := by
  unfold State.writeCtrlReg at h
  split at h
  · cases h
  · exact ((irq_eq_true_iff _).mp h).symm

/-- A host write raises irq only when it is one to CTRL that enables it while DONE = 1. -/
theorem writeValue_irq {v : Word} {s : State} {l : Loc} (h : s.irq = false) (ht : (s.writeValue v l).irq = true) :
    l = .ctrl ∧ s.status.done = true ∧ v.getLsbD 0 = true := by
  have hfalse (hk : (s.writeValue v l).irq = false) : False := by rw [hk] at ht; cases ht
  rcases writeValue_cases v s l with ⟨hl, e⟩ | ⟨_, e⟩ | ⟨_, e⟩ | ⟨_, e⟩ | ⟨_, _, e⟩ | ⟨_, e⟩ <;> rw [e] at ht hfalse
  · exact ⟨hl, writeCtrlReg_irq ht⟩
  · exact (hfalse (writeStatusReg_irq h)).elim
  · exact (hfalse (writeCmd_irq h)).elim
  · exact (hfalse ((pushWord_irq v s).trans h)).elim
  · exact (hfalse h).elim
  · exact (hfalse ((storeLoc_irq v s l).trans h)).elim

/-- Settles O17: of all events only a turn of the engine and a CTRL write can raise irq. -/
theorem interruptFollowsCompletion : Obligations.InterruptFollowsCompletion := by
  unfold Obligations.InterruptFollowsCompletion
  refine ⟨irq_eq_true_iff, fun s t hstep h ht => ?_⟩
  rcases step_cases hstep with ⟨_, he⟩ | ⟨limit, rest, _, he⟩ | ⟨w, off, rest, _, he⟩ | ⟨w, off, v, rest, ha, he⟩ |
    ⟨w, rest, _, rfl⟩ | ⟨rest, _, rfl⟩
  · exact .inl (engineTurn_irq he h ht)
  · exact .inl (engineTurn_irq (s := s.withAgenda rest) he h ht)
  · obtain ⟨_, ⟨_, rfl⟩ | ⟨_, rfl⟩⟩ := busRead_cases he <;> exact absurd (h.symm.trans ht) nofun
  · obtain ⟨_, ⟨_, rfl⟩ | ⟨hw, rfl⟩⟩ := busWrite_cases he
    · exact absurd (h.symm.trans ht) nofun
    · obtain rfl : w = .word := by simp [badAccess] at hw; exact hw.1
      obtain ⟨hl, hdone, hv⟩ := writeValue_irq (s := s.withAgenda rest) h ht
      obtain rfl : off = 0x008 := by simpa [csrTable] using mem_csrTable_of_locOf (by decide) hl
      exact .inr ⟨hdone, v, rest, ha, hv⟩
  · exact absurd (h.symm.trans ht) nofun
  · cases ht

end Sys2Proof.Machine
end

section
/-! Proofs about reset (spec/70_reset_and_hazards.md): the reset input and CTRL's SRST, at any time. -/

namespace Sys2Proof.Machine

/-- Settles O10: both resets are `hardReset`, whatever the state, and SRST's access is then answered. -/
theorem resetsGiveResetValues : Obligations.ResetsGiveResetValues := by
  unfold Obligations.ResetsGiveResetValues
  refine ⟨fun s rest ha => ⟨(s.withAgenda rest).hardReset, by rw [step, ha], rfl⟩, fun s v rest ha hv => ?_⟩
  have hstep := step_write_register (l := .ctrl) (by decide) ha
  have hvalue : (s.withAgenda rest).writeValue v .ctrl = (s.withAgenda rest).hardReset := if_pos hv
  rw [hvalue] at hstep
  exact ⟨_, hstep, rfl, rfl⟩

end Sys2Proof.Machine
end
